-- ==== Sys2Proof/Word.lean ====
section
/-! DEFINITION. Widths of SIAMESE-CORE: bytes, 64-bit CSR words, 32-bit command words (spec R15, R30, R150). -/

namespace Sys2Proof

/-- One byte of the data space, one GF(256) element (spec R101, R200). -/
abbrev Byte := BitVec 8

/-- A CSR or operand register (spec R30, R36, R37). -/
abbrev Word := BitVec 64

/-- A command word (spec R150). -/
abbrev CmdWord := BitVec 32

/-- A 22-bit column (spec R17, R18). -/
abbrev Column := BitVec 22

end Sys2Proof
end

