-- ==== Sys2Proof/Config.lean ====
section
/-! DEFINITION. The parameters of spec R10 and R11, and the free values: constants without a body that stand for what the
spec leaves open. -/

namespace Sys2Proof

/-- The parameters of spec R10, the arguments of the model: what a build and its platform fix (U1, U3, U4). `PARAM0..PARAM3`
report most of them (R55). They stand in the state, and no command, no store and no reset writes them. `LANES`, `SUM_COUNT`,
`PN_BITS` and `ADDR_W` are widths of the registers and of the command word and stand as constants below (log 7). -/
structure Params where
  /-- `GF_POLY`, the field polynomial (R200, C1, U1). -/
  gfPoly : BitVec 16
  /-- `GF_GEN`, the generator (R201). -/
  gfGen : Byte
  /-- The exp ROM (R60): byte i is `EXP[i]`, i in [0, 254]. R201 says what it holds for `GF_POLY` and `GF_GEN`. -/
  expRom : Nat
  /-- The log ROM (R60): byte x is `LOG[x]`, x in [1, 255]; byte 0 is not read (R201). -/
  logRom : Nat
  /-- `MAX_GF_LEN` (R222). -/
  maxGfLen : Nat
  /-- `BS_CAP`, the bits of a bitset (R300). -/
  bsCap : Nat
  /-- `NBS`, the number of bitsets (R300). -/
  nbs : Nat
  /-- `UNIT`, the allocator granule in bytes (R350). -/
  unit : Nat
  /-- `OVERALLOC` (R350). -/
  overalloc : Nat
  /-- `MAX_UNITS`, the units of a slab window (R352). -/
  maxUnits : Nat
  /-- `NW_MAX`, the number of slab window slots (R352). -/
  nwMax : Nat
  /-- `MAX_ALLOC_BYTES` (R355). -/
  maxAllocBytes : Nat
  /-- `CAUCHY_THRESHOLD` (R485). -/
  cauchyThreshold : Nat
  /-- `MAX_CAUCHY_ROWS` (R481). -/
  maxCauchyRows : Nat
  /-- `MAX_CAUCHY_COLS` (R481). -/
  maxCauchyCols : Nat
  /-- `SUM_RESET_THRESHOLD` (R493). -/
  sumResetThreshold : Nat
  /-- `ROW_PERIOD` (R50, R493). -/
  rowPeriod : Nat
  /-- `PAIR_ADD_RATE` (R493). -/
  pairAddRate : Nat
  /-- `ELEM_MAX` (R430, R495). -/
  elemMax : Nat
  /-- `FOOTER_MAX` (R486). -/
  footerMax : Nat
  /-- `CSR_BASE`, where the platform places the CSR window (R30, R107). -/
  csrBase : Nat
  deriving DecidableEq, Repr

/-- `LARGE_UNITS` = MAX_UNITS / 4 (R351). -/
def Params.largeUnits (p : Params) : Nat := p.maxUnits / 4

/-- `PREF_FREE_THRESHOLD` = MAX_UNITS / 4 (R353). -/
def Params.prefFreeThreshold (p : Params) : Nat := p.maxUnits / 4

/-- The exp ROM for GF_POLY = 0x11D and GF_GEN = 2 (R201). -/
def expRom11D : Nat :=
  0x8e47add86c361b83cfe9fa7db0582c160b8bcbebfbf3f7f5f47a3d90482412098a45ac562b9bc3eff9f279b259a251a653a7dde070381c0e078dc86432198241ae57a5dc6e3795c46231964babdbe3fff1f67bb3d7e5fc7e3f91c663bfd1e673b7d5e472399249aa55a452299a4da8542a158442219e4fa9da6db85c2e1785cc663397c5ec763b93c7edf87c3e1f81ce67bdd068341a0d884422118643afd9e271b65ba3dfe1fe7fb1d66bbbd3e7fdf0783c1e0f89ca65bc5e2f99c261be5fa1de6fb9d269ba5da05028140a058c46239fc1ee77b5d46a35944a259c4e279dc06030180c06038fc9ea75b45a2d984c261387cde8743a1d8040201008040201

/-- The log ROM for GF_POLY = 0x11D and GF_GEN = 2 (R201). -/
def logRom11D : Nat :=
  0xaf5850a8eaf4d674e8ade7e6e9d5ae4fd72c757aeb16f50b51a0a99cb05f59cb5a3eccbbb18660fbaa559d29523ba16cf66f0c7fec4917c476a47bb7d8432d1fa2416d4753393c849e5d2a14abd356f261befcdcb2978790cdcfbc955bd13f372e892023d99244117cb4b8267799a5e318fec531edde4a670d63808cf7c0700757a7f373ace5d44e2b79150a9f9b5eca3dba85fa54283a6b6e7e48c3a3b6421e404638835c13d2f1bddb968fce94d03688229110b32598e2fd30dd66628bbf06a672e44d78099ac9b9f9276a7dc2b51d458212f0da8e9335210f24e12f658a05714c08c8f869c11c81ef8d340ee064044bc7681bee33df03c61a320219010000

/-- The values and defaults of spec R10. `CSR_BASE` is the platform's, 0 here (log 6). -/
def Params.default : Params where
  gfPoly := 0x11D#16
  gfGen := 0x02#8
  expRom := expRom11D
  logRom := logRom11D
  maxGfLen := 2 ^ 30
  bsCap := 2048
  nbs := 4
  unit := 16
  overalloc := 0
  maxUnits := 2048
  nwMax := 32
  maxAllocBytes := 2 ^ 29 - 1
  cauchyThreshold := 64
  maxCauchyRows := 64
  maxCauchyCols := 192
  sumResetThreshold := 8192
  rowPeriod := 256
  pairAddRate := 16
  elemMax := 16384
  footerMax := 8
  csrBase := 0

/-- The legal parameter combinations of spec R11, with the field bounds of R55, the values that the rules themselves write
out (R222, R351 to R355, R486), and a CSR window inside the address space at a multiple of 8 (R30, R107). -/
abbrev Params.Legal (p : Params) : Prop :=
  (p.unit = 16 ∨ p.unit = 32) ∧ (1 ≤ p.nbs ∧ p.nbs ≤ 16) ∧
  (1 ≤ p.bsCap ∧ p.bsCap % 64 = 0 ∧ p.bsCap < 65536) ∧
  1 ≤ p.maxCauchyRows ∧ 1 ≤ p.maxCauchyCols ∧ p.maxCauchyRows + p.maxCauchyCols ≤ 256 ∧
  1 ≤ p.cauchyThreshold ∧ p.cauchyThreshold ≤ p.maxCauchyCols ∧
  (1 ≤ p.pairAddRate ∧ p.pairAddRate < 65536) ∧ (1 ≤ p.rowPeriod ∧ p.rowPeriod ≤ 2 ^ 32) ∧
  p.sumResetThreshold < 2 ^ 32 ∧ p.overalloc < 65536 ∧ p.nwMax < 256 ∧ p.elemMax < 65536 ∧
  p.maxGfLen = 2 ^ 30 ∧ p.maxUnits = 2048 ∧ p.maxAllocBytes = 2 ^ 29 - 1 ∧ p.footerMax = 8 ∧
  p.csrBase % 8 = 0 ∧ p.csrBase + 0x200 ≤ 2 ^ 64

/-- The three open functions of spec R10: `CX`, `ROW_VALUE`, `ROW_OPCODE` (D35). A meaning that needs them takes them as
an argument; `exec` supplies `Config.tables`. -/
structure Tables where
  /-- `CX`, the byte factor of a column (R421). -/
  cx : Column → Byte
  /-- `ROW_VALUE`, the byte of a row (R487). -/
  rowValue : BitVec 32 → Byte
  /-- `ROW_OPCODE` of a lane and a row, a 6-bit value (R487). -/
  rowOpcode : BitVec 3 → BitVec 32 → BitVec 6

namespace Config

/-! Widths of the block: parameters of spec R10 that the registers, the command word and the rules have built in (log 7),
and room for every legal build of R11 and R55. -/

/-- `LANES` (a 3-bit lane, R152; "l in [0, 7]", R64). -/
abbrev lanes : Nat := 8
/-- `SUM_COUNT` ("k in [0, 2]", R64; "the 24 buffers", R112). -/
abbrev sumCount : Nat := 3
/-- `SUBWINDOW`, used by the host only. -/
abbrev subwindow : Nat := 64
/-- The size of the data space, 2^`ADDR_W` (R101). -/
abbrev addrSpace : Nat := 2 ^ 64
/-- Columns are counted modulo 2^`PN_BITS` (R17). -/
abbrev columnSpace : Nat := 2 ^ 22
/-- The size of the CSR window in bytes (R30). -/
abbrev csrWindow : Nat := 0x200
/-- The most bitsets a build may have (R11). -/
abbrev maxBitsets : Nat := 16
/-- Room for the bits of a bitset: `BS_CAP` fits 16 bits (R55). -/
abbrev bitsetWidth : Nat := 65536
/-- The most window slots a build may have (R55). -/
abbrev maxSlots : Nat := 255
/-- Room for the units of a window: `MAX_UNITS` fits 16 bits (R55). -/
abbrev unitWidth : Nat := 65536

/-! Free values. Nothing can evaluate them; each draw takes the state's counter of draws as its argument. -/

/-- A byte the spec gives any value (R106, R494, U6, U7, U9, U14). FREE VALUE, log 3. -/
opaque freeByte : Nat → Byte
/-- A 64-bit result the spec gives any value (U8, U12). FREE VALUE, log 3. -/
opaque freeWord : Nat → Word
/-- A signed 32-bit counter whose exact value falls outside s32, where the spec states no result. FREE VALUE, log 3. -/
opaque freeS32 : Nat → BitVec 32
/-- A choice the spec leaves open (R106, R600). FREE VALUE, log 3. -/
opaque freeFlag : Nat → Bool
/-- Which of two values a host load while BUSY returns (R543, U13). FREE VALUE, log 3. -/
opaque hostFlag : Nat → Bool
/-- A byte that a race of the host leaves or returns (R126, U8). FREE VALUE, log 3. -/
opaque hostByte : Nat → Byte
/-- What a host load outside the CSR window returns (R107). FREE VALUE, log 3. -/
opaque hostWord : Nat → Word
/-- An answer of the host allocator when none has been supplied (R120). FREE VALUE, log 3. -/
opaque freeAnswer : Nat → Option Word
/-- `LOG[0]`, which does not exist (R201). FREE VALUE, log 3. -/
opaque logOfZero : Nat

/-- `CX` (D35, OPEN). FREE VALUE, log 4. -/
opaque cx : Column → Byte
/-- `ROW_VALUE` (D35, OPEN). FREE VALUE, log 4. -/
opaque rowValue : BitVec 32 → Byte
/-- `ROW_OPCODE` (D35, OPEN). FREE VALUE, log 4. -/
opaque rowOpcode : BitVec 3 → BitVec 32 → BitVec 6

/-- The open tables as one argument. -/
def tables : Tables := { cx := cx, rowValue := rowValue, rowOpcode := rowOpcode }

end Config
end Sys2Proof
end

