-- ==== Sys2Proof/Syntax.lean ====
section
/-! DEFINITION. The 29 commands, one constructor per row of `opcode_table.json` (spec R160), with the operand fields of
R151 and R152 as the widths of the command word give them. -/

namespace Sys2Proof

/-- A SIAMESE-CORE command. -/
inductive Instr where
  /-- NOP (R545). -/
  | nop
  /-- GF_ADD_MEM (R225). -/
  | gfAddMem
  /-- GF_MULADD_MEM (R226). -/
  | gfMuladdMem (c : Byte)
  /-- GF_MUL_MEM (R227). -/
  | gfMulMem (c : Byte)
  /-- GF_DIV_MEM (R228). -/
  | gfDivMem (c : Byte)
  /-- GF_MUL (R210). -/
  | gfMul (a b : Byte)
  /-- GF_DIV (R211). -/
  | gfDiv (a b : Byte)
  /-- GF_SQR (R212). -/
  | gfSqr (a : Byte)
  /-- GF_INV (R213). -/
  | gfInv (a : Byte)
  /-- GF_LOG (R214). -/
  | gfLog (a : Byte)
  /-- GF_EXP (R215). -/
  | gfExp (i : Byte)
  /-- GF_NIBTAB (R216). -/
  | gfNibtab (c : Byte) (hi : Bool) (j : BitVec 4)
  /-- BS_SET (R310). -/
  | bsSet (b : BitVec 4)
  /-- BS_CLEAR (R311). -/
  | bsClear (b : BitVec 4)
  /-- BS_CHECK (R312). -/
  | bsCheck (b : BitVec 4)
  /-- BS_SET_RANGE (R313). -/
  | bsSetRange (b : BitVec 4)
  /-- BS_CLEAR_RANGE (R314). -/
  | bsClearRange (b : BitVec 4)
  /-- BS_POPCOUNT (R315). -/
  | bsPopcount (b : BitVec 4)
  /-- BS_FFC (R316). -/
  | bsFfc (b : BitVec 4)
  /-- BS_FFS (R317). -/
  | bsFfs (b : BitVec 4)
  /-- SLAB_ALLOC (R370). -/
  | slabAlloc
  /-- SLAB_FREE (R371). -/
  | slabFree
  /-- SLAB_REALLOC (R372). -/
  | slabRealloc (copy : Bool)
  /-- SLAB_WINFO (R373). -/
  | slabWinfo
  /-- SUMS_RESET (R430). -/
  | sumsReset
  /-- SUMS_GET (R431). -/
  | sumsGet (k : BitVec 2) (lane : BitVec 3)
  /-- WIN_SHIFT (R432). -/
  | winShift
  /-- ROW_ENCODE (R495). -/
  | rowEncode
  /-- CAUCHY_ELEM (R496). -/
  | cauchyElem (r y : Byte)
  deriving DecidableEq, Repr

end Sys2Proof
end

