-- ==== Sys2Proof/Machine/State.lean ====
section
/-! DEFINITION. The state of SIAMESE-CORE (spec `10_state.md`), the data memory, the agents outside the block as plain
data (spec R100, R120), and reset (R68, R600). -/

namespace Sys2Proof.Machine

/-- Why a step stops: there is no reason. The block has no trap and no hang state (spec R561, R568): every failure is a
result code in a next state, and a race with the host leaves free values (R126). -/
inductive Fault
  deriving DecidableEq, Repr

/-- Why an instruction has no meaning. -/
inductive Refusal where
  /-- An arm of `exec` without a meaning. Raised by no arm of this model. Safe. -/
  | notModelled (mnemonic : String)
  deriving DecidableEq, Repr

/-- The data memory (spec R101): (address, byte) pairs with strictly rising addresses, none equal to what an unlisted
address reads as. -/
abbrev Memory := List Host.Cell

/-- The list a slab window is in (spec R62, R63). -/
inductive SlabList where
  /-- `PREF_LIST`. -/
  | pref
  /-- `FULL_LIST`. -/
  | full
  deriving DecidableEq, Repr

/-- One slab window slot `W[s]` (spec R62). -/
structure Slot where
  /-- `live`. -/
  live : Bool
  /-- `base`: the address of unit 0. -/
  base : Word
  /-- `used`: bit u says that unit u is allocated. -/
  used : BitVec Config.unitWidth
  /-- `free`: the free-unit count. -/
  free : Nat
  /-- `resume`: the resume scan offset. -/
  resume : Nat
  /-- `list`: the list the slot is in. -/
  list : SlabList
  deriving DecidableEq, Repr

/-- A slot that is not live; its other fields are never read (spec R62, U22). -/
def Slot.empty : Slot := { live := false, base := 0, used := 0, free := 0, resume := 0, list := .pref }

/-- The counters of one lane sum (spec R64): `NE` and `SE` signed, `SL` unsigned. -/
structure SumCtr where
  /-- `NE`: the next element to fold, s32. -/
  ne : BitVec 32
  /-- `SL`: the count of meaningful bytes, u32. -/
  sl : BitVec 32
  /-- `SE`: the largest `element_end` requested since the last sums reset, s32. -/
  se : BitVec 32
  deriving DecidableEq, Repr

/-- What an element's descriptor described at some time: its buffer's address and the bytes it held (spec R622, R624). -/
structure Original where
  elem : Int
  addr : Nat
  bytes : List Byte
  deriving DecidableEq, Repr

/-- What an element must describe after a WIN_SHIFT, and what its descriptor described when the command ended (spec R622). -/
structure Owed where
  orig : Original
  stale : Original
  deriving DecidableEq, Repr

/-- What the data-memory port does at a range of addresses that is not ordinary memory (spec R105, R106). -/
inductive PortKind where
  /-- A read is answered with an error (R106). -/
  | readError
  /-- A write is answered with an error (R106). -/
  | writeError
  /-- Every access is answered with an error (R106). -/
  | anyError
  /-- Addresses with side effects: any value is read and left (R105, U9). -/
  | device
  deriving DecidableEq, Repr

/-- A range `[base, base + size)` of the data space where the port is not ordinary memory. -/
structure PortRange where
  base : Nat
  size : Nat
  kind : PortKind
  deriving DecidableEq, Repr

/-- What the agents outside the block do next, as the step reads it (spec R100, R171, R600, R601). A CSR access gives
its address and its width in bytes. -/
inductive HostAction where
  /-- A store of the low bits of `v` to an address of the CSR window (R30, R107, R544). -/
  | csrStore (addr width : Nat) (v : Word)
  /-- A load from an address of the CSR window (R30, R107, R543, R544). -/
  | csrLoad (addr width : Nat)
  /-- The host stores bytes to the data memory (R100, R126). -/
  | memStore (addr : Word) (bytes : List Byte)
  /-- The host loads one byte of the data memory (R100, R126). -/
  | memLoad (addr : Word)
  /-- The running command reaches its end before the host's next action (R541, R630). -/
  | letRun
  /-- The platform's reset input (R600 (1)). -/
  | platformReset
  /-- The host reclaims a window or a large allocation that a reset made the block forget (R601). -/
  | reclaim (addr : Word)
  deriving DecidableEq, Repr

/-- The state. Fields after `mem` are the model's own: the agents outside the block, and what decides the free values. -/
structure State where
  /-- STATUS.BUSY (R32, R541). -/
  busy : Bool
  /-- The command word being executed (R35, R65). -/
  cmd : CmdWord
  /-- STATUS.DISABLED (R32, R567). -/
  disabled : Bool
  /-- STATUS.IRQ_PENDING (R32, R570). -/
  irqPending : Bool
  /-- STATUS.RESULT (R32, R560). -/
  result : BitVec 8
  /-- STATUS.LAST_OPCODE (R32, R561). -/
  lastOpcode : BitVec 8
  /-- CONTROL.IRQ_EN (R33). -/
  irqEn : Bool
  /-- ERROR, bits 14:0 (R34). -/
  error : BitVec 15
  /-- ARG0 (R36). -/
  arg0 : Word
  /-- ARG1 (R36). -/
  arg1 : Word
  /-- ARG2 (R36). -/
  arg2 : Word
  /-- ARG3 (R36). -/
  arg3 : Word
  /-- RES0 (R37). -/
  res0 : Word
  /-- RES1 (R37). -/
  res1 : Word
  /-- RES2 (R37). -/
  res2 : Word
  /-- RES3 (R37). -/
  res3 : Word
  /-- WIN_COLUMN_START, bits 21:0 (R40). -/
  winColumnStart : Column
  /-- WIN_FIRST_ELEM, bits 31:0 (R41). -/
  winFirstElem : BitVec 32
  /-- WIN_COUNT, bits 31:0 (R42). -/
  winCount : BitVec 32
  /-- WIN_LONGEST, bits 31:0 (R43). -/
  winLongest : BitVec 32
  /-- DESC_BASE (R44). -/
  descBase : Word
  /-- SUM_BASE (R45). -/
  sumBase : Word
  /-- SUM_STRIDE, bits 31:0 (R46). -/
  sumStride : BitVec 32
  /-- REC_BASE (R47). -/
  recBase : Word
  /-- REC_CAP, bits 31:0 (R48). -/
  recCap : BitVec 32
  /-- NEXT_ROW, bits 31:0 (R50). -/
  nextRow : BitVec 32
  /-- NEXT_CAUCHY_ROW, bits 15:0 (R51). -/
  nextCauchyRow : BitVec 16
  /-- NEXT_PARITY_COLUMN (R52). -/
  nextParityColumn : Column
  /-- NPC_VALID (R52). -/
  npcValid : Bool
  /-- SUMS_VALID (R53). -/
  sumsValid : Bool
  /-- SUM_START_ELEM, s32 (R53). -/
  sumStartElem : BitVec 32
  /-- The parameters (R10), which PARAM0..PARAM3 report (R55), and the GF ROM (R60). -/
  params : Params
  /-- The bitset bank `BS` (R61): `BS[b][i]` for b < NBS, i < BS_CAP. -/
  bitsets : Vector (BitVec Config.bitsetWidth) Config.maxBitsets
  /-- The slab window slots `W` (R62): `W[s]` for s < NW_MAX. -/
  slots : Vector Slot Config.maxSlots
  /-- `PREF_LIST`, head first (R63). -/
  prefList : List Nat
  /-- `FULL_LIST`, head first (R63). -/
  fullList : List Nat
  /-- The lane-sum counters; entry `3 * l + k` is sum (l, k) (R64). -/
  sums : Vector SumCtr 24
  /-- The data memory (R101). -/
  mem : Memory
  /-- Where the data-memory port is not ordinary memory (R105, R106): the platform's, not the block's. -/
  port : List PortRange
  /-- The host allocator's next answers, first first; `none` is FAIL (R120). The host's, not the block's. -/
  allocAnswers : List (Option Word)
  /-- The large allocations answered and not yet freed, as (address, size) (R120). The host's books, not the block's. -/
  largeLive : List (Nat × Nat)
  /-- The slab windows in the host's books, as (address, size): a reset does not take them out (R601, U20). -/
  windowsLive : List (Nat × Nat)
  /-- The `HostFree` calls made so far, last first (R121). -/
  hostFrees : List Word
  /-- The payloads of slab regions and large allocations handed out since reset and not freed (R120, U12). -/
  handed : List Word
  /-- A pointer the host did not get from the block has been freed: allocator results are open (U12). -/
  slabTainted : Bool
  /-- The originals folded into the sums since their last reset, as they were then (R624). -/
  folded : List Original
  /-- The host changed what the sums mean without a sums reset: their bytes are open (R622, R624, R625, U23, U24). -/
  sumsTainted : Bool
  /-- What the new elements must describe once the host has rewritten the table after a WIN_SHIFT (R622). -/
  pending : List Owed
  /-- The own originals of elements of the window whose descriptors the host has changed (R622). -/
  replaced : List Original
  /-- Elements of the window that the host has given the original of a higher one, with that one (R622). -/
  copied : List (Int × Int)
  /-- The host rewrote the descriptor table early or not at all around a WIN_SHIFT: the later sums and rows are open (U24). -/
  tableTainted : Bool
  /-- The bytes the host has stored to while the running command uses them (R126, U8). -/
  raced : List Nat
  /-- How many free values the block's commands have drawn. -/
  draws : Nat
  /-- How many free values the host's accesses have drawn. -/
  hostDraws : Nat
  /-- What the agents outside the block do next, first first. -/
  inbox : List HostAction
  /-- The value the host's last load returned. -/
  hostRead : Word
  deriving DecidableEq, Repr

/-- The machine right after reset with the default build (spec R68). -/
def State.reset : State where
  busy := false
  cmd := 0
  disabled := false
  irqPending := false
  result := 0
  lastOpcode := 0
  irqEn := false
  error := 0
  arg0 := 0
  arg1 := 0
  arg2 := 0
  arg3 := 0
  res0 := 0
  res1 := 0
  res2 := 0
  res3 := 0
  winColumnStart := 0
  winFirstElem := 0
  winCount := 0
  winLongest := 0
  descBase := 0
  sumBase := 0
  sumStride := 0
  recBase := 0
  recCap := 0
  nextRow := 0
  nextCauchyRow := 0
  nextParityColumn := 0
  npcValid := false
  sumsValid := false
  sumStartElem := 0
  params := Params.default
  bitsets := Vector.replicate Config.maxBitsets 0
  slots := Vector.replicate Config.maxSlots Slot.empty
  prefList := []
  fullList := []
  sums := Vector.replicate 24 { ne := 0, sl := 0, se := 0 }
  mem := []
  port := []
  allocAnswers := []
  largeLive := []
  windowsLive := []
  hostFrees := []
  handed := []
  slabTainted := false
  folded := []
  sumsTainted := false
  pending := []
  replaced := []
  copied := []
  tableTainted := false
  raced := []
  draws := 0
  hostDraws := 0
  inbox := []
  hostRead := 0

end Sys2Proof.Machine
end

