-- ==== Sys2Proof/Machine/Field.lean ====
section
/-! DEFINITION. The field GF(2^8) of spec R200 to R208: the log and exp ROM and the operations read from it. -/

namespace Sys2Proof.Machine

/-- The polynomial product of two bytes, not reduced, over the `n` low bits of `b` (spec R200). -/
def clmul (a b : Byte) : Nat → BitVec 16
  | 0 => 0
  | n + 1 => clmul a b n ^^^ (if b.getLsbD n then a.setWidth 16 <<< n else 0)

/-- Reduce modulo the polynomial, from bit `n + 7` down to bit 8 (spec R200). -/
def polyMod (poly : BitVec 16) : Nat → BitVec 16 → BitVec 16
  | 0, v => v
  | n + 1, v => polyMod poly n (if v.getLsbD (n + 8) then v ^^^ (poly <<< n) else v)

/-- `xmul(a, b)`: the polynomial product reduced modulo `GF_POLY` (spec R201). -/
def xmul (p : Params) (a b : Byte) : Byte := (polyMod p.gfPoly 7 (clmul a b 8)).setWidth 8

/-- Byte i of a ROM. -/
def romByte (rom i : Nat) : Nat := (rom >>> (8 * i)) % 256

/-- `EXP[i]` for i in [0, 254] (spec R60, R201). -/
def gfExp (p : Params) (i : Nat) : Byte := BitVec.ofNat 8 (romByte p.expRom i)

/-- `LOG[x]` (spec R60, R201); `LOG[0]` does not exist and is left open. -/
def gfLog (p : Params) (x : Byte) : Nat := if x = 0 then Config.logOfZero else romByte p.logRom x.toNat

/-- `gf_mul` (spec R202). -/
def gfMul (p : Params) (a b : Byte) : Byte := if a = 0 ∨ b = 0 then 0 else gfExp p ((gfLog p a + gfLog p b) % 255)

/-- `gf_div`, b not 0 (spec R203). -/
def gfDiv (p : Params) (a b : Byte) : Byte := if a = 0 then 0 else gfExp p ((gfLog p a + 255 - gfLog p b) % 255)

/-- `gf_inv`, a not 0 (spec R204). -/
def gfInv (p : Params) (a : Byte) : Byte := gfExp p ((255 - gfLog p a) % 255)

/-- `gf_sqr` (spec R205). -/
def gfSqr (p : Params) (a : Byte) : Byte := gfMul p a a

/-- `NIB_LO[c][j]` (spec R208). -/
def nibLo (p : Params) (c : Byte) (j : BitVec 4) : Byte := gfMul p c (0#4 ++ j)

/-- `NIB_HI[c][j]` (spec R208). -/
def nibHi (p : Params) (c : Byte) (j : BitVec 4) : Byte := gfMul p c (j ++ 0#4)

/-- The ROM holds the tables of R201 for the build's polynomial of degree 8 and its generator, whose powers run through the
255 bytes other than 0 (R60, R201, U1). -/
def FieldOk (p : Params) : Prop :=
  p.gfPoly.toNat / 256 = 1 ∧ gfExp p 0 = 0x01#8 ∧
  (∀ i, i < 254 → gfExp p (i + 1) = xmul p (gfExp p i) p.gfGen) ∧
  xmul p (gfExp p 254) p.gfGen = 0x01#8 ∧
  ∀ i, i < 255 → gfExp p i ≠ 0#8 ∧ gfLog p (gfExp p i) = i

end Sys2Proof.Machine
end

