-- ==== Sys2Proof/WellFormed.lean ====
section
/-! DEFINITION. Which commands have legal operands in the word itself. Every value of an operand field decodes (spec
R151, R163); an operand that the command's own check rejects whatever the state holds makes the command ill-formed. -/

namespace Sys2Proof

/-- A bitset number names one of the `NBS` bitsets (spec R302 (1)). -/
def bitsetNumberOk (p : Params) (b : BitVec 4) : Bool := b.toNat < p.nbs

/-- A sum index is 0, 1 or 2 (spec R431: `k == 3` is rejected). -/
def sumIndexOk (k : BitVec 2) : Bool := k.toNat < Config.sumCount

/-- A scalar that the command divides by, inverts or takes the logarithm of is not 0 (spec R211, R213, R214, R222 (1)). -/
def divisorOk (c : Byte) : Bool := c != 0#8

/-- A Cauchy row and column exist (spec R496). -/
def cauchyOk (p : Params) (r y : Byte) : Bool := r.toNat < p.maxCauchyRows && y.toNat < p.maxCauchyCols

/-- The command's operands in the word are legal in a build with parameters `p`: no check on them alone rejects the
command. -/
def Instr.wellFormed (p : Params) : Instr → Bool
  | .nop => true
  | .gfAddMem => true
  | .gfMuladdMem _ => true
  | .gfMulMem _ => true
  | .gfDivMem c => divisorOk c
  | .gfMul _ _ => true
  | .gfDiv _ b => divisorOk b
  | .gfSqr _ => true
  | .gfInv a => divisorOk a
  | .gfLog a => divisorOk a
  | .gfExp _ => true
  | .gfNibtab _ _ _ => true
  | .bsSet b => bitsetNumberOk p b
  | .bsClear b => bitsetNumberOk p b
  | .bsCheck b => bitsetNumberOk p b
  | .bsSetRange b => bitsetNumberOk p b
  | .bsClearRange b => bitsetNumberOk p b
  | .bsPopcount b => bitsetNumberOk p b
  | .bsFfc b => bitsetNumberOk p b
  | .bsFfs b => bitsetNumberOk p b
  | .slabAlloc => true
  | .slabFree => true
  | .slabRealloc _ => true
  | .slabWinfo => true
  | .sumsReset => true
  | .sumsGet k _ => sumIndexOk k
  | .winShift => true
  | .rowEncode => true
  | .cauchyElem r y => cauchyOk p r y

end Sys2Proof
end

