-- ==== Sys2Proof/Decode.lean ====
section
/-! DEFINITION. Decoding a command word and encoding a command (spec R150 to R163). -/

namespace Sys2Proof

/-- Why a word is no command: the two errors of decoding (spec R161, R162). -/
inductive DecodeError where
  /-- OPCODE is not in the opcode map (R162). -/
  | illegalOpcode
  /-- A must-be-zero bit is 1 (R161). -/
  | reservedField
  deriving DecidableEq, Repr

/-- The field use classes of spec R151. -/
inductive FieldClass where
  | c0 | ci | cis | cb | cn | cl | cf
  deriving DecidableEq, Repr

/-- The bits a decoder compares (spec R151, third column). -/
def FieldClass.mask : FieldClass → CmdWord
  | .c0 => 0xFFFFFFFF#32
  | .ci => 0xFF00FFFF#32
  | .cis => 0xFF0000FF#32
  | .cb => 0xFFFFF0FF#32
  | .cn => 0xFF00E0FF#32
  | .cl => 0xFFFFC8FF#32
  | .cf => 0xFFFFFEFF#32

/-- OPCODE, bits 31:24 (spec R150). -/
def opcodeOf (w : CmdWord) : BitVec 8 := w.extractLsb' 24 8
/-- IMM8, bits 23:16 (spec R150). -/
def immOf (w : CmdWord) : Byte := w.extractLsb' 16 8
/-- SEL, bits 15:8 (spec R150). -/
def selOf (w : CmdWord) : Byte := w.extractLsb' 8 8
/-- `b` of class CB, bits 11:8 (spec R152). -/
def bitsetOf (w : CmdWord) : BitVec 4 := w.extractLsb' 8 4
/-- `j` of class CN, bits 11:8 (spec R152). -/
def nibbleOf (w : CmdWord) : BitVec 4 := w.extractLsb' 8 4
/-- `hi` of class CN, bit 12 (spec R152). -/
def hiOf (w : CmdWord) : Bool := w.getLsbD 12
/-- `lane` of class CL, bits 10:8 (spec R152). -/
def laneOf (w : CmdWord) : BitVec 3 := w.extractLsb' 8 3
/-- `k` of class CL, bits 13:12 (spec R152). -/
def sumIndexOf (w : CmdWord) : BitVec 2 := w.extractLsb' 12 2
/-- `copy` of class CF, bit 8 (spec R152). -/
def copyOf (w : CmdWord) : Bool := w.getLsbD 8

/-- One row of the opcode map: OPCODE, class, and the command made from the word's fields (spec R160). -/
structure OpcodeRow where
  opcode : BitVec 8
  cls : FieldClass
  build : CmdWord → Instr

/-- The system row (spec R160, family 0x0). -/
def systemRows : List OpcodeRow := [⟨0x00#8, .c0, fun _ => .nop⟩]

/-- The GF(256) unit's vector rows (spec R160, family 0x1). -/
def gfVectorRows : List OpcodeRow :=
  [⟨0x10#8, .c0, fun _ => .gfAddMem⟩,
   ⟨0x11#8, .ci, fun w => .gfMuladdMem (immOf w)⟩,
   ⟨0x12#8, .ci, fun w => .gfMulMem (immOf w)⟩,
   ⟨0x13#8, .ci, fun w => .gfDivMem (immOf w)⟩]

/-- The GF(256) unit's scalar rows (spec R160, family 0x1). -/
def gfScalarRows : List OpcodeRow :=
  [⟨0x14#8, .cis, fun w => .gfMul (immOf w) (selOf w)⟩,
   ⟨0x15#8, .cis, fun w => .gfDiv (immOf w) (selOf w)⟩,
   ⟨0x16#8, .ci, fun w => .gfSqr (immOf w)⟩,
   ⟨0x17#8, .ci, fun w => .gfInv (immOf w)⟩,
   ⟨0x18#8, .ci, fun w => .gfLog (immOf w)⟩,
   ⟨0x19#8, .ci, fun w => .gfExp (immOf w)⟩,
   ⟨0x1A#8, .cn, fun w => .gfNibtab (immOf w) (hiOf w) (nibbleOf w)⟩]

/-- The bitset engine's rows (spec R160, family 0x2). -/
def bitsetRows : List OpcodeRow :=
  [⟨0x20#8, .cb, fun w => .bsSet (bitsetOf w)⟩,
   ⟨0x21#8, .cb, fun w => .bsClear (bitsetOf w)⟩,
   ⟨0x22#8, .cb, fun w => .bsCheck (bitsetOf w)⟩,
   ⟨0x23#8, .cb, fun w => .bsSetRange (bitsetOf w)⟩,
   ⟨0x24#8, .cb, fun w => .bsClearRange (bitsetOf w)⟩,
   ⟨0x25#8, .cb, fun w => .bsPopcount (bitsetOf w)⟩,
   ⟨0x26#8, .cb, fun w => .bsFfc (bitsetOf w)⟩,
   ⟨0x27#8, .cb, fun w => .bsFfs (bitsetOf w)⟩]

/-- The slab allocator's rows (spec R160, family 0x3). -/
def slabRows : List OpcodeRow :=
  [⟨0x30#8, .c0, fun _ => .slabAlloc⟩,
   ⟨0x31#8, .c0, fun _ => .slabFree⟩,
   ⟨0x32#8, .cf, fun w => .slabRealloc (copyOf w)⟩,
   ⟨0x33#8, .c0, fun _ => .slabWinfo⟩]

/-- The rows of the lane sums and the row constructor (spec R160, family 0x4). -/
def rowRows : List OpcodeRow :=
  [⟨0x40#8, .c0, fun _ => .sumsReset⟩,
   ⟨0x41#8, .cl, fun w => .sumsGet (sumIndexOf w) (laneOf w)⟩,
   ⟨0x42#8, .c0, fun _ => .winShift⟩,
   ⟨0x48#8, .c0, fun _ => .rowEncode⟩,
   ⟨0x49#8, .cis, fun w => .cauchyElem (immOf w) (selOf w)⟩]

/-- The opcode map (spec R160). -/
def opcodeMap : List OpcodeRow :=
  systemRows ++ gfVectorRows ++ gfScalarRows ++ bitsetRows ++ slabRows ++ rowRows

/-- The word with OPCODE, IMM8, SEL and a zero RSV byte (spec R150). -/
def commandWord (op : BitVec 8) (imm sel : Byte) : CmdWord := op ++ imm ++ sel ++ 0#8

/-- Decoding, in the order of spec R163 (2), (3): OPCODE legal, then the must-be-zero bits. -/
def decode (w : CmdWord) : Except DecodeError Instr :=
  match opcodeMap.find? (fun row => row.opcode == opcodeOf w) with
  | none => .error .illegalOpcode
  | some row =>
    if w &&& row.cls.mask = commandWord row.opcode 0#8 0#8 then .ok (row.build w) else .error .reservedField

/-- SEL of class CB (spec R151). -/
def selBitset (b : BitVec 4) : Byte := 0#4 ++ b

/-- The command's word (spec R150 to R152, R160). -/
def encode : Instr → CmdWord
  | .nop => commandWord 0x00#8 0#8 0#8
  | .gfAddMem => commandWord 0x10#8 0#8 0#8
  | .gfMuladdMem c => commandWord 0x11#8 c 0#8
  | .gfMulMem c => commandWord 0x12#8 c 0#8
  | .gfDivMem c => commandWord 0x13#8 c 0#8
  | .gfMul a b => commandWord 0x14#8 a b
  | .gfDiv a b => commandWord 0x15#8 a b
  | .gfSqr a => commandWord 0x16#8 a 0#8
  | .gfInv a => commandWord 0x17#8 a 0#8
  | .gfLog a => commandWord 0x18#8 a 0#8
  | .gfExp i => commandWord 0x19#8 i 0#8
  | .gfNibtab c hi j => commandWord 0x1A#8 c (0#3 ++ BitVec.ofBool hi ++ j)
  | .bsSet b => commandWord 0x20#8 0#8 (selBitset b)
  | .bsClear b => commandWord 0x21#8 0#8 (selBitset b)
  | .bsCheck b => commandWord 0x22#8 0#8 (selBitset b)
  | .bsSetRange b => commandWord 0x23#8 0#8 (selBitset b)
  | .bsClearRange b => commandWord 0x24#8 0#8 (selBitset b)
  | .bsPopcount b => commandWord 0x25#8 0#8 (selBitset b)
  | .bsFfc b => commandWord 0x26#8 0#8 (selBitset b)
  | .bsFfs b => commandWord 0x27#8 0#8 (selBitset b)
  | .slabAlloc => commandWord 0x30#8 0#8 0#8
  | .slabFree => commandWord 0x31#8 0#8 0#8
  | .slabRealloc copy => commandWord 0x32#8 0#8 (0#7 ++ BitVec.ofBool copy)
  | .slabWinfo => commandWord 0x33#8 0#8 0#8
  | .sumsReset => commandWord 0x40#8 0#8 0#8
  | .sumsGet k lane => commandWord 0x41#8 0#8 (0#2 ++ k ++ 0#1 ++ lane)
  | .winShift => commandWord 0x42#8 0#8 0#8
  | .rowEncode => commandWord 0x48#8 0#8 0#8
  | .cauchyElem r y => commandWord 0x49#8 r y

/-- The decoder on the low `nbits` bits of `w`, the rest of the command word 0: a command is one 32-bit word (R150). -/
def decodeTableWord (nbits w : Nat) : Option Instr := (decode (BitVec.ofNat 32 (w % 2 ^ nbits))).toOption

end Sys2Proof
end

