-- ==== Sys2Proof/Machine/Flags.lean ====
section
/-! DEFINITION. Result codes, ERROR bits, STATUS and the interrupt line (spec R32 to R34, R560 to R571). -/

namespace Sys2Proof.Machine

/-- The result codes of spec R560. -/
inductive ResultCode where
  | success
  | invalidInput
  | needMoreData
  | maxPacketsReached
  | duplicateData
  | disabled
  deriving DecidableEq, Repr

/-- The value of a result code (spec R560). -/
def ResultCode.value : ResultCode → Int
  | .success => 0
  | .invalidInput => -1
  | .needMoreData => -2
  | .maxPacketsReached => -3
  | .duplicateData => -4
  | .disabled => -5

/-- The 8-bit two's complement encoding in STATUS.RESULT (spec R560). -/
def ResultCode.code (c : ResultCode) : BitVec 8 := BitVec.ofInt 8 c.value

/-- The ERROR bits (spec R34, R569). -/
inductive ErrorBit where
  | illegalOpcode
  | reservedField
  | argRange
  | overlap
  | zeroDivisor
  | badFree
  | doubleFree
  | badState
  | hostAllocFail
  | slotExhausted
  | sumOverflow
  | busError
  | writeWhileBusy
  | scratchSmall
  | disabledCmd
  deriving DecidableEq, Repr

/-- The bit's number in ERROR (spec R34). -/
def ErrorBit.index : ErrorBit → Nat
  | .illegalOpcode => 0
  | .reservedField => 1
  | .argRange => 2
  | .overlap => 3
  | .zeroDivisor => 4
  | .badFree => 5
  | .doubleFree => 6
  | .badState => 7
  | .hostAllocFail => 8
  | .slotExhausted => 9
  | .sumOverflow => 10
  | .busError => 11
  | .writeWhileBusy => 12
  | .scratchSmall => 13
  | .disabledCmd => 14

/-- ERROR with one bit set. -/
def ErrorBit.mask (e : ErrorBit) : BitVec 15 := BitVec.ofNat 15 (2 ^ e.index)

/-- `ERROR[errbit] <- 1`; the bits set earlier stay (spec R564). -/
def State.raise (s : State) (e : ErrorBit) : State := { s with error := s.error ||| e.mask }

/-- STATUS as the host reads it (spec R32): reserved bits read 0. -/
def statusWord (s : State) : Word :=
  (0#40 ++ s.lastOpcode ++ s.result ++ 0#5 ++ BitVec.ofBool s.irqPending ++ BitVec.ofBool s.disabled ++
    BitVec.ofBool s.busy)

/-- CONTROL as the host reads it: SOFT_RESET reads 0 (spec R33). -/
def controlWord (s : State) : Word := 0#63 ++ BitVec.ofBool s.irqEn

/-- ERROR as the host reads it (spec R34). -/
def errorWord (s : State) : Word := 0#49 ++ s.error

/-- The level of the interrupt line (spec R571). -/
def irqLine (s : State) : Bool := s.irqPending && s.irqEn

end Sys2Proof.Machine
end

