-- ==== Sys2Proof/Machine/Ops.lean ====
section
/-! DEFINITION. The named operations every command is written over: the data memory, the data-memory port, how a command
ends (`finish`, `reject`, `fatal`: spec R561 to R565), free values, and reset (R600). -/

namespace Sys2Proof.Machine

/-! ## The data memory (spec R101) -/

/-- What an address that the list does not hold reads as. DESIGN CHOICE, unsafe, log 2: the spec gives RAM no contents. -/
def unlistedByte : Byte := 0

/-- The byte at an address. -/
def Memory.read : Memory → Nat → Byte
  | [], _ => unlistedByte
  | (b, v) :: m, a => if a = b then v else Memory.read m a

/-- Store a byte, keeping the canonical form: rising addresses, no entry equal to `unlistedByte`. -/
def Memory.write : Memory → Nat → Byte → Memory
  | [], a, v => if v = unlistedByte then [] else [(a, v)]
  | (b, w) :: m, a, v =>
    if a < b then (if v = unlistedByte then (b, w) :: m else (a, v) :: (b, w) :: m)
    else if a = b then (if v = unlistedByte then m else (a, v) :: m)
    else (b, w) :: Memory.write m a v

/-- Every address of the list lies above `lo` (if any), strictly rising, inside the data space, with no entry equal to
`unlistedByte`. -/
def Memory.wfFrom : Nat → Memory → Bool
  | _, [] => true
  | lo, (a, v) :: m => lo ≤ a && a < Config.addrSpace && v != unlistedByte && Memory.wfFrom (a + 1) m

/-- The canonical form. -/
def Memory.wf (m : Memory) : Bool := Memory.wfFrom 0 m

/-- Store consecutive bytes. -/
def Memory.writeList (m : Memory) : Nat → List Byte → Memory
  | _, [] => m
  | a, v :: vs => Memory.writeList (m.write (a % Config.addrSpace) v) (a + 1) vs

/-- The `n` low bytes of a number, least significant first (spec R102). -/
def leBytes : Nat → Nat → List Byte
  | 0, _ => []
  | n + 1, v => BitVec.ofNat 8 v :: leBytes n (v / 256)

/-- Little-endian assembly of bytes (spec R102). -/
def leValue : List Byte → Nat
  | [] => 0
  | b :: bs => b.toNat + 256 * leValue bs

/-! ## Commands -/

/-- How a command ends other than by `finish(Success)`. -/
inductive Stop where
  /-- `reject(InvalidInput, e)` (spec R563). -/
  | reject (e : ErrorBit)
  /-- `finish(NeedMoreData)` (spec R495, R562). -/
  | needMoreData
  /-- `fatal(e)` (spec R565). -/
  | fatal (e : ErrorBit)
  /-- The data-memory port answered an access with an error: `fatal(BUS_ERROR)` (spec R106). -/
  | portError
  deriving DecidableEq, Repr

/-- A command on its way: the state so far, the bytes it has read and written (its footprint, spec R104, R126), and which
bytes hold an open value for it. -/
structure Run where
  st : State
  reads : List Nat
  writes : List Nat
  /-- The bytes that the command has computed from open ones (R126, U8, U14). -/
  opens : List Nat
  /-- The bytes that are open during the whole command (R622 to R626, U14, U23, U24). -/
  area : Nat → Bool
  /-- A fatal cause does not end the run: it goes on to what the command would have written (R106, R565, U7). -/
  skip : Bool

/-- A command at its start. -/
def Run.start (s : State) : Run := { st := s, reads := [], writes := [], opens := [], area := fun _ => false, skip := false }

/-- A step of a command's pseudocode: it goes on with a value, or stops, and in both cases leaves the state so far. -/
abbrev Cmd := EStateM Stop Run

/-- The state so far. -/
def getState : Cmd State := fun r => .ok r.st r

/-- Change registers or internal state. -/
def modifyState (f : State → State) : Cmd Unit := fun r => .ok () { r with st := f r.st }

/-- End the command. -/
def stop {α : Type} (x : Stop) : Cmd α := fun r => .error x r

/-- `if c: reject(InvalidInput, e)`. -/
def rejectIf (c : Bool) (e : ErrorBit) : Cmd Unit := if c then stop (.reject e) else pure ()

/-- `if c: fatal(e)`. -/
def fatalIf (c : Bool) (e : ErrorBit) : Cmd Unit := fun r => if c && !r.skip then .error (.fatal e) r else .ok () r

/-- `for x in i .. i + n - 1: f x`. -/
def forRange (f : Nat → Cmd Unit) : (n i : Nat) → Cmd Unit
  | 0, _ => pure ()
  | n + 1, i => do
    f i
    forRange f n (i + 1)

/-! ## Free values -/

/-- A free byte. -/
def drawByte : Cmd Byte := fun r =>
  .ok (Config.freeByte r.st.draws) { r with st := { r.st with draws := r.st.draws + 1 } }

/-- A free 64-bit value. -/
def drawWord : Cmd Word := fun r =>
  .ok (Config.freeWord r.st.draws) { r with st := { r.st with draws := r.st.draws + 1 } }

/-- A signed 32-bit register's new value: the exact value where s32 holds it, else a free value (log 5: the spec states
no result there). -/
def s32Value (x : Int) : Cmd (BitVec 32) := fun r =>
  if -2 ^ 31 ≤ x ∧ x < 2 ^ 31 then .ok (BitVec.ofInt 32 x) r
  else .ok (Config.freeS32 r.st.draws) { r with st := { r.st with draws := r.st.draws + 1 } }

/-- Give one byte of memory any value. -/
def openByte (s : State) (a : Nat) : State :=
  { s with mem := s.mem.write (a % Config.addrSpace) (Config.freeByte s.draws), draws := s.draws + 1 }

/-- Give `n` bytes from `a` any value. -/
def openRange : (n a : Nat) → State → State
  | 0, _, s => s
  | n + 1, a, s => openRange n (a + 1) (openByte s a)

/-- Give every listed byte any value. -/
def openList : List Nat → State → State
  | [], s => s
  | a :: as, s => openList as (openByte s a)

/-! ## The data-memory port (spec R101, R105, R106) -/

/-- Some range of the port holds `a` and is of a kind in `kinds`. -/
def portHits (port : List PortRange) (a : Nat) (kinds : List PortKind) : Bool :=
  port.any fun p => kinds.contains p.kind && decide (p.base ≤ a ∧ a < p.base + p.size)

/-! ## Open bytes

A byte is open for the running command when the host has stored to it during the command (R126, U8), when it lies in the
command's open area (R622 to R626), at an address with side effects (R105, U9), or when the command has computed it from an
open byte. A read of an open byte returns any value, and what is computed from it is open too. -/

/-- The byte stays open whatever the command writes there. -/
def Run.heldOpen (r : Run) (a : Nat) : Bool := r.st.raced.contains a || r.area a || portHits r.st.port a [.device]

/-- The byte is open. -/
def Run.isOpen (r : Run) (a : Nat) : Bool := r.heldOpen a || r.opens.contains a

/-- Fix the command's open area. -/
def setArea (area : Nat → Bool) : Cmd Unit := fun r => .ok () { r with area := area }

/-- One of the `n` bytes from `addr` is open. -/
def anyOpen (addr n : Nat) : Cmd Bool := fun r =>
  .ok ((List.range n).any fun i => r.isOpen ((addr + i) % Config.addrSpace)) r

/-- `MemRead8(a)` (spec R16). -/
def memRead8 (addr : Nat) : Cmd Byte := fun r =>
  let a := addr % Config.addrSpace
  if portHits r.st.port a [.readError, .anyError] then .error .portError r
  else if r.isOpen a then drawByte { r with reads := a :: r.reads }
  else .ok (r.st.mem.read a) { r with reads := a :: r.reads }

/-- Store a byte at an address inside the data space and note it in the footprint. -/
def storeByte (a : Nat) (v : Byte) : Cmd Unit := fun r =>
  .ok () { r with st := { r.st with mem := r.st.mem.write a v }, writes := a :: r.writes }

/-- `MemWrite8(a, v)` (spec R16) of a value that is not open. -/
def memWrite8 (addr : Nat) (v : Byte) : Cmd Unit := fun r =>
  let a := addr % Config.addrSpace
  if portHits r.st.port a [.writeError, .anyError] then .error .portError r
  else if r.heldOpen a then (do let v ← drawByte; storeByte a v : Cmd Unit) r
  else storeByte a v { r with opens := r.opens.filter (· != a) }

/-- Note that the byte is computed from an open one. -/
def markOpen (addr : Nat) : Cmd Unit := fun r => .ok () { r with opens := addr % Config.addrSpace :: r.opens }

/-- `MemWrite8(a, v)` of a value that is open if `isOpen`: then any value is stored. -/
def memPut (isOpen : Bool) (addr : Nat) (v : Byte) : Cmd Unit :=
  if isOpen then do
    let v ← drawByte
    memWrite8 addr v
    markOpen addr
  else memWrite8 addr v

/-- `MemRead(a, n)` (spec R16). -/
def memRead : (a n : Nat) → Cmd (List Byte)
  | _, 0 => pure []
  | a, n + 1 => do
    let b ← memRead8 a
    let bs ← memRead (a + 1) n
    pure (b :: bs)

/-- `MemWrite(a, n, v)` (spec R16). -/
def memWrite : Nat → List Byte → Cmd Unit
  | _, [] => pure ()
  | a, v :: vs => do
    memWrite8 a v
    memWrite (a + 1) vs

/-- `MemWrite(a, n, zeros)`. -/
def memZero (a n : Nat) : Cmd Unit := forRange (fun i => memWrite8 (a + i) 0) n 0

/-- `MemWrite` of any value to `n` bytes that depend on open ones. -/
def memLoosen (a n : Nat) : Cmd Unit := forRange (fun i => memPut true (a + i) 0) n 0

/-- Leave `n` bytes of the command's own buffers with any value (spec R112, U5): no access that the port could answer with an
error. -/
def leaveOpen (a n : Nat) : Cmd Unit :=
  forRange (fun i => do
    let v ← drawByte
    storeByte ((a + i) % Config.addrSpace) v) n 0

/-- `for i < n: MemWrite8(dst+i, MemRead8(dst+i) XOR f(MemRead8(src+i)))`: the accumulate step of spec R225, R226, R422,
R492 and R493. -/
def accumulate (dst src : Nat) (f : Byte → Byte) (n : Nat) : Cmd Unit :=
  forRange (fun i => do
    let d ← memRead8 (dst + i)
    let x ← memRead8 (src + i)
    let dOpen ← anyOpen (dst + i) 1
    let xOpen ← anyOpen (src + i) 1
    memPut (dOpen || xOpen) (dst + i) (d ^^^ f x)) n 0

/-- `for i < n: MemWrite8(dst+i, f(MemRead8(src+i)))`: the loops of spec R227 and R228. -/
def mapBytes (dst src : Nat) (f : Byte → Byte) (n : Nat) : Cmd Unit :=
  forRange (fun i => do
    let x ← memRead8 (src + i)
    let xOpen ← anyOpen (src + i) 1
    memPut xOpen (dst + i) (f x)) n 0

/-! ## Ending a command (spec R561 to R566): the block's whole exception mechanism (R568) -/

/-- `finish(code)` (spec R561). The bytes that the host has raced for are those of a running command, so there are none
left. -/
def State.finish (s : State) (c : ResultCode) : State :=
  { s with result := c.code, lastOpcode := opcodeOf s.cmd, irqPending := true, busy := false, raced := [] }

/-- `reject(code, errbit)` (spec R563), from the state before the command. -/
def State.reject (s : State) (c : ResultCode) (e : ErrorBit) : State := (s.raise e).finish c

/-- `fatal(errbit)` (spec R565). -/
def State.fatal (s : State) (e : ErrorBit) : State := (({ s with disabled := true } : State).raise e).finish .disabled

/-- The run a command would have made had the port answered no access with an error and no fatal cause ended it (spec R106,
U7: "the command would have written"). -/
def wouldRun (body : Cmd Unit) (s : State) : Run :=
  match body { Run.start { s with port := s.port.filter (fun p => p.kind == .device) } with skip := true } with
  | .ok _ r => r
  | .error _ r => r

/-- What a bus error leaves of the bytes the command would have written (spec R106, U7): which of them it had finished
writing is open, because the order of its accesses is (R126); those hold what it writes there, the others any value. -/
def portLoss (final : Memory) : List Nat → State → State
  | [], s => s
  | a :: as, s =>
    portLoss final as { s with
      mem := s.mem.write a (if Config.freeFlag s.draws then final.read a else Config.freeByte (s.draws + 1))
      draws := s.draws + 2 }

/-- What a fatal cause in the middle of the command leaves (spec R565, U7): the run `r` to the fatal point stays, and every
byte that the run `w` it would have made had still to write holds any value. -/
def cutOff (w r : Run) : State :=
  openList (w.writes.take (w.writes.length - r.writes.length)) { r.st with draws := max r.st.draws w.st.draws }

/-- Run a command's pseudocode to its one end (spec R561). A reject leaves the state before the command (R563); a fatal
keeps what the command did before it (R565). DESIGN CHOICE, log 3: a reject does not advance `draws`, so what the
rejected command read from open bytes and what the next command draws are the same free values. -/
def conclude (body : Cmd Unit) (s : State) : State :=
  match body (Run.start s) with
  | .ok _ r => r.st.finish .success
  | .error (.reject e) _ => s.reject .invalidInput e
  | .error .needMoreData _ => s.finish .needMoreData
  | .error (.fatal e) r => (cutOff (wouldRun body s) r).fatal e
  | .error .portError r =>
    let w := wouldRun body s
    (portLoss w.st.mem w.writes { r.st with draws := max r.st.draws w.st.draws }).fatal .busError

/-! ## Updates of the state by name -/

/-- `RES[0] <- v`. -/
def State.setRes0 (s : State) (v : Word) : State := { s with res0 := v }

/-- `RES[0..3] <- a, b, c, d`. -/
def State.setRes (s : State) (a b c d : Word) : State := { s with res0 := a, res1 := b, res2 := c, res3 := d }

/-- Replace bitset `b`. -/
def State.setBitset (s : State) (b : Nat) (v : BitVec Config.bitsetWidth) : State :=
  { s with bitsets := s.bitsets.setIfInBounds b v }

/-- Bitset `b`. -/
def State.bitset (s : State) (b : Nat) : BitVec Config.bitsetWidth := s.bitsets[b]?.getD 0

/-- Replace window slot `i`. -/
def State.setSlot (s : State) (i : Nat) (w : Slot) : State := { s with slots := s.slots.setIfInBounds i w }

/-- Window slot `i`. -/
def State.slot (s : State) (i : Nat) : Slot := s.slots[i]?.getD Slot.empty

/-- Replace the two lists of windows. -/
def State.setLists (s : State) (p f : List Nat) : State := { s with prefList := p, fullList := f }

/-- The index of sum (l, k) (spec R112: `3*l + k`). -/
def sumIndex (l k : Nat) : Nat := Config.sumCount * l + k

/-- The counters of sum (l, k). -/
def State.sum (s : State) (l k : Nat) : SumCtr := s.sums[sumIndex l k]?.getD { ne := 0, sl := 0, se := 0 }

/-- Replace the counters of sum (l, k). -/
def State.setSum (s : State) (l k : Nat) (c : SumCtr) : State :=
  { s with sums := s.sums.setIfInBounds (sumIndex l k) c }

/-! ## Reset (spec R68, R600, R601) -/

/-- The effect of reset: every CSR and every internal state element at its reset value (R68). The data memory, the
parameters and everything outside the block stay (R601). -/
def State.resetBlock (s : State) : State :=
  { State.reset with
    params := s.params
    mem := s.mem
    port := s.port
    allocAnswers := s.allocAnswers
    largeLive := s.largeLive
    windowsLive := s.windowsLive
    hostFrees := s.hostFrees
    draws := s.draws
    hostDraws := s.hostDraws
    inbox := s.inbox
    hostRead := s.hostRead }

/-- The large allocations in the host's books after a reset has cut off a command that had taken its answer if `asked`, and
freed its region if `freed` (spec R600, R601): `after` are those of the run the command would have made. -/
def booksAfter (asked freed : Bool) (before after : List (Nat × Nat)) : List (Nat × Nat) :=
  (if asked then after.filter fun x => !before.contains x else []) ++ (if freed then before.filter after.contains else before)

/-- Reset while a command runs, `w` being the run the command would have made (spec R600, D70): the command is abandoned
at an unspecified point, so every byte it would have written holds any value, and whether it had asked the host allocator
or freed a region before that point is open. An answer it took is discarded: the region stays in the host's books (R601). -/
def State.abandon (s : State) (w : Run) : State :=
  let s' := openList w.writes { s with draws := max s.draws w.st.draws }
  let asked := Config.freeFlag s'.draws
  let freed := Config.freeFlag (s'.draws + 1)
  ({ s' with
      allocAnswers := if asked then w.st.allocAnswers else s'.allocAnswers
      hostFrees := if freed then w.st.hostFrees else s'.hostFrees
      largeLive := booksAfter asked freed s'.largeLive w.st.largeLive
      windowsLive := if asked then w.st.windowsLive else s'.windowsLive
      draws := s'.draws + 2 } : State).resetBlock

end Sys2Proof.Machine
end

