-- ==== Sys2Proof/Machine/Operands.lean ====
section
/-! DEFINITION. Operand forms: buffers and their range check (spec R108), columns and elements (R17, R18), descriptors
(R110), the addresses of sums and scratch (R112, R113), units (R350), and which bytes lie in overlapping structures
(R626, U14). -/

namespace Sys2Proof.Machine

/-! ## Numbers -/

/-- `ceil(a / b)` (spec R15). -/
def ceilDiv (a b : Nat) : Nat := (a + b - 1) / b

/-- `align16(x)` (spec R15). -/
def align16 (x : Nat) : Nat := 16 * ceilDiv x 16

/-- `sdelta(x)`, in (−2^21, 2^21] (spec R17). -/
def sdelta (x : Int) : Int :=
  let v := x % (Config.columnSpace : Int)
  if v ≤ 2 ^ 21 then v else v - 2 ^ 22

/-- A buffer `[a, a + n)` wraps the address space (spec R108). -/
def wraps (a n : Nat) : Bool := decide (a + n > Config.addrSpace)

/-! ## Vector buffers (spec R221) -/

/-- `dst ≠ src and dst < src + n and src < dst + n` (spec R221). -/
def partialOverlap (dst src n : Nat) : Bool := decide (dst ≠ src ∧ dst < src + n ∧ src < dst + n)

/-! ## Bit ranges (spec R301 to R306) -/

/-- The bits `[a, e)`. -/
def rangeMask (w a e : Nat) : BitVec w := BitVec.ofNat w ((2 ^ (e - a) - 1) <<< a)

/-- `for i in a .. e-1: B[i] <- 1`. -/
def setBits {w : Nat} (b : BitVec w) (a e : Nat) : BitVec w := b ||| rangeMask w a e

/-- `for i in a .. e-1: B[i] <- 0`. -/
def clearBits {w : Nat} (b : BitVec w) (a e : Nat) : BitVec w := b &&& ~~~(rangeMask w a e)

/-- The number of set bits among the `n` bits from `a`. -/
def countSet {w : Nat} (b : BitVec w) : (n a : Nat) → Nat
  | 0, _ => 0
  | n + 1, a => (if b.getLsbD a then 1 else 0) + countSet b n (a + 1)

/-- `range_popcount(a, e)` (spec R315). -/
def popcountRange {w : Nat} (b : BitVec w) (a e : Nat) : Nat := countSet b (e - a) a

/-- The least of the `n` indices from `a` whose bit is `v`, else `a + n`. -/
def findBit {w : Nat} (b : BitVec w) (v : Bool) : (n a : Nat) → Nat
  | 0, a => a
  | n + 1, a => if b.getLsbD a = v then a else findBit b v n (a + 1)

/-- `ffc_bits(B, start, cap)` (spec R305). -/
def ffcBits {w : Nat} (b : BitVec w) (start cap : Nat) : Nat := findBit b false (cap - start) start

/-- `ffs_bits(B, start, end)` (spec R306). -/
def ffsBits {w : Nat} (b : BitVec w) (start stop : Nat) : Nat := findBit b true (stop - start) start

/-! ## Columns and elements (spec R17, R18) -/

/-- `column(e)` (spec R18). -/
def column (s : State) (e : Int) : Column := BitVec.ofInt 22 (s.winColumnStart.toNat + e)

/-! ## Structures in the data space -/

/-- The address of the descriptor of element `e` (spec R110), an `ADDR_W`-bit number (R101). -/
def descAddr (s : State) (e : Int) : Nat := ((s.descBase.toNat + 16 * e) % (Config.addrSpace : Int)).toNat

/-- What the block takes from a descriptor: the address and the length, and whether they are open. -/
structure Desc where
  addr : Nat
  len : Nat
  isOpen : Bool
  deriving DecidableEq, Repr

/-- `desc(e)` (spec R110). The reserved bytes are not read. Once the host has left a WIN_SHIFT's table unrewritten, what a
descriptor says is open (R622, U24). -/
def readDesc (e : Int) : Cmd Desc := do
  let s ← getState
  let a ← memRead (descAddr s e) 8
  let n ← memRead (descAddr s e + 8) 4
  let loose ← anyOpen (descAddr s e) 12
  if s.tableTainted then do
    let a ← drawWord
    let n ← drawWord
    pure { addr := a.toNat, len := n.toNat % 2 ^ 32, isOpen := true }
  else pure { addr := leValue a, len := leValue n, isOpen := loose }

/-- `sumaddr(l, k)` (spec R112). -/
def sumAddr (s : State) (l k : Nat) : Nat := s.sumBase.toNat + sumIndex l k * s.sumStride.toNat

/-- The 24 sum buffers wrap the address space (spec R431, R432, R495). -/
def sumsWrap (s : State) : Bool :=
  wraps s.sumBase.toNat (Config.lanes * Config.sumCount * s.sumStride.toNat)

/-- `units(b)` (spec R350). -/
def unitsFor (p : Params) (b : Nat) : Nat := ceilDiv (b + p.overalloc) p.unit + 1

/-- A window's bytes (spec R115). -/
def windowBytes (p : Params) : Nat := p.maxUnits * p.unit

/-! ## Overlapping structures (spec R626, U14)

The block does not check that its structures are disjoint; what a command writes into a byte of two of them is open. -/

/-- A range of the data space: first address and size. -/
abbrev Region := Nat × Nat

/-- The address `a` lies in the range, which may run over the top of the data space (spec R101). -/
def inRegion (r : Region) (a : Nat) : Bool := decide ((a + Config.addrSpace - r.1) % Config.addrSpace < r.2)

/-- `a` lies in one of the ranges. -/
def inRegions (rs : List Region) (a : Nat) : Bool := rs.any fun r => inRegion r a

/-- The number that `n` bytes of a memory hold (spec R102). -/
def leAt (m : Memory) : (a n : Nat) → Nat
  | _, 0 => 0
  | a, n + 1 => (m.read (a % Config.addrSpace)).toNat + 256 * leAt m (a + 1) n

/-- The `n` bytes of a memory from `a`. -/
def bytesAt (m : Memory) : (a n : Nat) → List Byte
  | _, 0 => []
  | a, n + 1 => m.read (a % Config.addrSpace) :: bytesAt m (a + 1) n

/-- The buffer address and length that element `e`'s descriptor holds in memory now (spec R110). -/
def descAt (s : State) (e : Int) : Nat × Nat := (leAt s.mem (descAddr s e) 8, leAt s.mem (descAddr s e + 8) 4)

/-- The descriptor table of the window (spec R110). -/
def descRegion (s : State) : Region := (s.descBase.toNat, 16 * s.winCount.toNat)

/-- The originals of the `n` elements from `e` (spec R110). -/
def originalRegions (s : State) : (n e : Nat) → List Region
  | 0, _ => []
  | n + 1, e => descAt s e :: originalRegions s n (e + 1)

/-- The 24 lane-sum buffers (spec R112). -/
def sumRegion (s : State) : Region :=
  (s.sumBase.toNat, Config.lanes * Config.sumCount * s.sumStride.toNat)

/-- The recovery scratch (spec R113). -/
def scratchRegion (s : State) : Region := (s.recBase.toNat, s.recCap.toNat)

/-- The live slab windows (spec R115). -/
def windowRegions (s : State) : List Region :=
  ((s.slots.toList.take s.params.nwMax).filter (fun w => w.live)).map fun w => (w.base.toNat, windowBytes s.params)

/-- What a lane-sum buffer must not overlap. -/
def aroundSums (s : State) : List Region :=
  descRegion s :: scratchRegion s :: windowRegions s ++ originalRegions s s.winCount.toNat 0

/-- What the recovery scratch must not overlap. -/
def aroundScratch (s : State) : List Region :=
  descRegion s :: sumRegion s :: windowRegions s ++ originalRegions s s.winCount.toNat 0

/-- What a slab window must not overlap; the originals are those of `[WIN_FIRST_ELEM, WIN_COUNT)` (spec R41). -/
def aroundWindows (s : State) : List Region :=
  descRegion s :: sumRegion s :: scratchRegion s ::
    originalRegions s (s.winCount.toNat - s.winFirstElem.toNat) s.winFirstElem.toNat

end Sys2Proof.Machine
end

