-- ==== Sys2Proof/Machine/System.lean ====
section
/-! DEFINITION. The system command (spec R545). -/

namespace Sys2Proof.Machine

/-- What every meaning answers: the state in which the command has ended (spec R561). -/
abbrev Result := Host.Outcome State Fault Refusal

/-- NOP's pseudocode (spec R545). -/
def nopBody : Cmd Unit := pure ()

/-- NOP (spec R545). -/
def execNop (s : State) : Result := .next (conclude nopBody s)

end Sys2Proof.Machine
end

