-- ==== Sys2Proof/Machine/Table.lean ====
section
/-! DEFINITION. What the model records of the host's descriptor table, to tell a table rewritten after its WIN_SHIFT from one
rewritten early or not at all (spec R432, R622, U24; log 12). -/

namespace Sys2Proof.Machine

/-- What the descriptor of element `e` describes now. -/
def originalAt (s : State) (e : Int) : Original :=
  { elem := e, addr := (descAt s e).1, bytes := bytesAt s.mem (descAt s e).1 (descAt s e).2 }

/-- The descriptor of an element describes the same original as it did: the same buffer, or the same bytes elsewhere. -/
def stillDescribed (s : State) (x : Original) : Bool :=
  let d := descAt s x.elem
  d.2 == x.bytes.length && (d.1 == x.addr || bytesAt s.mem d.1 d.2 == x.bytes)

/-- The element describes the original that a WIN_SHIFT asks for: none, or the same descriptor, or the same original described
otherwise, if the host has done anything for it since the WIN_SHIFT (spec R432, R622). -/
def fulfilled (s : State) (x : Owed) : Bool :=
  let d := descAt s x.orig.elem
  (d.2 == 0 && x.orig.bytes.isEmpty) || d == (x.orig.addr, x.orig.bytes.length) ||
    (stillDescribed s x.orig && originalAt s x.orig.elem != x.stale)

/-- Before a command reads descriptors: if an element of the window does not describe the original that WIN_SHIFT has moved to
it, the host has rewritten the table early or not at all, and the later sums and rows are open (spec R622, U24). -/
def recheckTable (s : State) : State :=
  { s with
    tableTainted := s.tableTainted ||
      s.pending.any fun x => decide (x.orig.elem < s.winCount.toNat) && !fulfilled s x
    pending := [] }

/-- What new element `e` must describe after a WIN_SHIFT by `delta`: the original that was element `e + delta` (spec R622). -/
def movedOriginal (s : State) (delta e : Nat) : Owed :=
  { orig := { originalAt s (e + delta : Nat) with elem := e }, stale := originalAt s e }

/-- What the host owes the table after a WIN_SHIFT by `delta` (spec R622). -/
def pendingAfter (s : State) (delta : Nat) : List Owed :=
  if delta = 0 then [] else (List.range (s.winCount.toNat - delta)).map (movedOriginal s delta)

/-! ## The host's changes of the table -/

/-- The elements of the window whose descriptors differ between two states. -/
def changedElements (before s : State) : List Nat :=
  (List.range before.winCount.toNat).filter fun (e : Nat) => descAt s e != descAt before e

/-- A WIN_SHIFT still asks for a rewrite of the element's descriptor. -/
def isOwed (s : State) (e : Nat) : Bool := s.pending.any fun x => x.orig.elem == (e : Int)

/-- The element's own original: the one it had before the host changed its descriptor, or the one that a WIN_SHIFT asks for, or
the one it describes. -/
def ownOriginal (s : State) (e : Nat) : Original :=
  ((s.replaced ++ s.pending.map Owed.orig).find? fun x => x.elem == (e : Int)).getD (originalAt s e)

/-- The own originals of the elements that lose theirs, for the first time, in going from `before` to `s`. -/
def replacedIn (before s : State) : List Original :=
  ((changedElements before s).filter fun (e : Nat) => !before.replaced.any fun x => x.elem == (e : Int)).map (ownOriginal before)

/-- The change from `before` to `s` gives the element of `x` the original that a WIN_SHIFT asks for, or empties its descriptor, so
that it has no original any more (spec R110, R622). -/
def rewritten (before s : State) (x : Owed) : Bool :=
  (changedElements before s).any fun e =>
    x.orig.elem == (e : Int) && (fulfilled s x || ((descAt before e).2 != 0 && (descAt s e).2 == 0))

/-- What element `e` describes, and its own original if the host has changed its descriptor. -/
def describedBy (s : State) (e : Nat) : List Original :=
  originalAt s e :: s.replaced.filter fun x => x.elem == (e : Int)

/-- Element `e` has got, in place of its own, the original that the higher element `f` had (spec R432). -/
def givenFrom (before s : State) (e f : Nat) : Bool :=
  let own := ownOriginal before e
  decide (e < f) && (descAt s e).2 != 0 && descAt s e != (own.addr, own.bytes.length) &&
    (describedBy before f).any fun y => originalAt s e == { y with elem := e }

/-- The elements that get the original of a higher one in going from `before` to `s`, but for rewrites that a WIN_SHIFT asks for. -/
def copiedIn (before s : State) : List (Int × Int) :=
  ((changedElements before s).filter fun e => !isOwed before e).flatMap fun (e : Nat) =>
    ((List.range before.winCount.toNat).filter (givenFrom before s e)).map fun (f : Nat) => (e, f)

/-- What `copied` says of an element stays until the host changes its descriptor again, but for the rewrite of a WIN_SHIFT. -/
def stillCopied (before s : State) (x : Int × Int) : Bool :=
  !(changedElements before s).any fun e => x.1 == (e : Int) && !isOwed before e

/-- Note the descriptors that the host changes, and which of the originals that a WIN_SHIFT asks for it has given. -/
def noteTable (before s : State) : State :=
  { s with
    replaced := replacedIn before s ++ s.replaced
    copied := copiedIn before s ++ s.copied.filter (stillCopied before s)
    pending := s.pending.filter fun x => !rewritten before s x }

/-- The elements that a new WIN_COUNT leaves out of the window are gone, and with them what the model knows of them (spec R42). -/
def noteCount (s : State) : State :=
  { s with
    replaced := s.replaced.filter fun x => decide (x.elem < s.winCount.toNat)
    copied := s.copied.filter fun x => decide (x.1 < s.winCount.toNat ∧ x.2 < s.winCount.toNat)
    pending := s.pending.filter fun x => decide (x.orig.elem < s.winCount.toNat) }

/-! ## Early rewrites -/

/-- The element of `own` has lost that original, and has the descriptor of the element `delta` above it. -/
def sharesDescriptor (s : State) (delta : Nat) (own : Original) : Bool :=
  let d := descAt s own.elem
  d.2 != 0 && d != (own.addr, own.bytes.length) && d == descAt s (own.elem + delta)

/-- The host has rewritten the table before the WIN_SHIFT by `delta` that asks for it: an element that stays in the window has been
given the original of the element `delta` above it (spec R432, R622). -/
def rewrittenEarly (s : State) (delta : Nat) : Bool :=
  delta != 0 &&
    ((s.copied.any fun x => x.2 == x.1 + delta && decide (x.2 < s.winCount.toNat)) ||
      s.replaced.any fun x => decide (x.elem + delta < s.winCount.toNat) && sharesDescriptor s delta x)

/-- What is known of copies under the new element indices after a WIN_SHIFT by `delta` (spec R432). -/
def shiftCopied (delta : Nat) (l : List (Int × Int)) : List (Int × Int) :=
  (l.map fun (x : Int × Int) => (x.1 - delta, x.2 - delta)).filter fun x => decide (0 ≤ x.1)

/-- A WIN_SHIFT over a table rewritten early leaves the later sums and rows open (spec R622, U24). -/
def noteEarly (early : Bool) (s : State) : State := { s with tableTainted := s.tableTainted || early }

end Sys2Proof.Machine
end

