-- ==== Sys2Proof/Machine/Gf.lean ====
section
/-! DEFINITION. The GF(256) unit's commands (spec R210 to R228). -/

namespace Sys2Proof.Machine

/-! ## Scalar commands -/

/-- `RES[0] <- zext_64(v)`. -/
def resultByte (v : Byte) : Cmd Unit := modifyState fun s => s.setRes0 (v.setWidth 64)

/-- `RES[0] <- zext_64(n)` of a number. -/
def resultNat (n : Nat) : Cmd Unit := modifyState fun s => s.setRes0 (BitVec.ofNat 64 n)

/-- `RES[0] <- zext_64(f)` of a byte that the field's tables give. -/
def resultField (f : Params → Byte) : Cmd Unit := do
  let s ← getState
  resultByte (f s.params)

/-- GF_MUL's pseudocode (spec R210). -/
def gfMulBody (a b : Byte) : Cmd Unit := resultField fun p => gfMul p a b

/-- GF_DIV's pseudocode (spec R211). -/
def gfDivBody (a b : Byte) : Cmd Unit := do
  rejectIf (b == 0) .zeroDivisor
  resultField fun p => gfDiv p a b

/-- GF_SQR's pseudocode (spec R212). -/
def gfSqrBody (a : Byte) : Cmd Unit := resultField fun p => gfSqr p a

/-- GF_INV's pseudocode (spec R213). -/
def gfInvBody (a : Byte) : Cmd Unit := do
  rejectIf (a == 0) .zeroDivisor
  resultField fun p => gfInv p a

/-- GF_LOG's pseudocode (spec R214). -/
def gfLogBody (a : Byte) : Cmd Unit := do
  rejectIf (a == 0) .zeroDivisor
  let s ← getState
  resultNat (gfLog s.params a)

/-- GF_EXP's pseudocode (spec R215). -/
def gfExpBody (i : Byte) : Cmd Unit := resultField fun p => gfExp p (i.toNat % 255)

/-- GF_NIBTAB's pseudocode (spec R216). -/
def gfNibtabBody (c : Byte) (hi : Bool) (j : BitVec 4) : Cmd Unit :=
  resultField fun p => if hi then nibHi p c j else nibLo p c j

/-- GF_MUL (spec R210). -/
def execGfMul (a b : Byte) (s : State) : Result := .next (conclude (gfMulBody a b) s)
/-- GF_DIV (spec R211). -/
def execGfDiv (a b : Byte) (s : State) : Result := .next (conclude (gfDivBody a b) s)
/-- GF_SQR (spec R212). -/
def execGfSqr (a : Byte) (s : State) : Result := .next (conclude (gfSqrBody a) s)
/-- GF_INV (spec R213). -/
def execGfInv (a : Byte) (s : State) : Result := .next (conclude (gfInvBody a) s)
/-- GF_LOG (spec R214). -/
def execGfLog (a : Byte) (s : State) : Result := .next (conclude (gfLogBody a) s)
/-- GF_EXP (spec R215). -/
def execGfExp (i : Byte) (s : State) : Result := .next (conclude (gfExpBody i) s)
/-- GF_NIBTAB (spec R216). -/
def execGfNibtab (c : Byte) (hi : Bool) (j : BitVec 4) (s : State) : Result :=
  .next (conclude (gfNibtabBody c hi j) s)

/-! ## Vector commands -/

/-- The checks of spec R222 (2) to (5), then `loop dst src n` when n is not 0. A vector command's own buffers are held
to the overlap rule of R221 alone, so it has no open area. The host may have it write the descriptor table (R622). -/
def gfVector (loop : Params → (dst src n : Nat) → Cmd Unit) : Cmd Unit := do
  let s ← getState
  let dst := s.arg0.toNat
  let src := s.arg1.toNat
  let n := s.arg2.toNat
  rejectIf (decide (n > s.params.maxGfLen)) .argRange
  if n = 0 then pure ()
  else do
    rejectIf (wraps dst n || wraps src n) .argRange
    rejectIf (partialOverlap dst src n) .overlap
    loop s.params dst src n
    modifyState (noteTable s)

/-- GF_ADD_MEM's loop (spec R225). -/
def gfAddLoop (_ : Params) (dst src n : Nat) : Cmd Unit := accumulate dst src (fun x => x) n

/-- GF_MULADD_MEM's loop; c = 0 accesses no memory (spec R223, R226). -/
def gfMuladdLoop (c : Byte) (p : Params) (dst src n : Nat) : Cmd Unit :=
  if c = 0 then pure () else accumulate dst src (gfMul p c) n

/-- GF_MUL_MEM's loop; c = 0 stores zeros and does not read src (spec R227, C3). -/
def gfMulLoop (c : Byte) (p : Params) (dst src n : Nat) : Cmd Unit :=
  if c = 0 then memZero dst n else mapBytes dst src (gfMul p c) n

/-- GF_DIV_MEM's loop (spec R228). -/
def gfDivLoop (c : Byte) (p : Params) (dst src n : Nat) : Cmd Unit := mapBytes dst src (fun x => gfDiv p x c) n

/-- GF_ADD_MEM's pseudocode (spec R225). -/
def gfAddMemBody : Cmd Unit := gfVector gfAddLoop

/-- GF_MULADD_MEM's pseudocode (spec R226). -/
def gfMuladdMemBody (c : Byte) : Cmd Unit := gfVector (gfMuladdLoop c)

/-- GF_MUL_MEM's pseudocode (spec R227). -/
def gfMulMemBody (c : Byte) : Cmd Unit := gfVector (gfMulLoop c)

/-- GF_DIV_MEM's pseudocode, with check (1) of spec R222 first (R228). -/
def gfDivMemBody (c : Byte) : Cmd Unit := do
  rejectIf (c == 0) .zeroDivisor
  gfVector (gfDivLoop c)

/-- GF_ADD_MEM (spec R225). -/
def execGfAddMem (s : State) : Result := .next (conclude gfAddMemBody s)
/-- GF_MULADD_MEM (spec R226). -/
def execGfMuladdMem (c : Byte) (s : State) : Result := .next (conclude (gfMuladdMemBody c) s)
/-- GF_MUL_MEM (spec R227). -/
def execGfMulMem (c : Byte) (s : State) : Result := .next (conclude (gfMulMemBody c) s)
/-- GF_DIV_MEM (spec R228). -/
def execGfDivMem (c : Byte) (s : State) : Result := .next (conclude (gfDivMemBody c) s)

end Sys2Proof.Machine
end

