-- ==== Sys2Proof/Machine/Bitset.lean ====
section
/-! DEFINITION. The bitset engine's commands (spec R300 to R317). -/

namespace Sys2Proof.Machine

/-- Check (1) of spec R302. -/
def bitsetCheck (b : BitVec 4) : Cmd Unit := do
  let s ← getState
  rejectIf (decide (b.toNat ≥ s.params.nbs)) .argRange

/-- The index `i` = ARG0 of a command on bitset `b`; `i ≥ BS_CAP` is rejected (spec R310, R311, R312). -/
def bitsetIndex (b : BitVec 4) : Cmd Nat := do
  bitsetCheck b
  let s ← getState
  rejectIf (decide (s.arg0.toNat ≥ s.params.bsCap)) .argRange
  pure s.arg0.toNat

/-- The range `[a, e)` = [ARG0, ARG1) of a command on bitset `b`; `not (a ≤ e ≤ BS_CAP)` is rejected (spec R313, R314, R315,
R317). -/
def bitsetRange (b : BitVec 4) : Cmd (Nat × Nat) := do
  bitsetCheck b
  let s ← getState
  rejectIf (!decide (s.arg0.toNat ≤ s.arg1.toNat ∧ s.arg1.toNat ≤ s.params.bsCap)) .argRange
  pure (s.arg0.toNat, s.arg1.toNat)

/-- A command that updates bitset `b` at an index. -/
def bitsetAt (b : BitVec 4) (f : BitVec Config.bitsetWidth → Nat → BitVec Config.bitsetWidth) : Cmd Unit := do
  let i ← bitsetIndex b
  modifyState fun s => s.setBitset b.toNat (f (s.bitset b.toNat) i)

/-- A command that updates bitset `b` over a range. -/
def bitsetOver (b : BitVec 4) (f : BitVec Config.bitsetWidth → Nat → Nat → BitVec Config.bitsetWidth) : Cmd Unit := do
  let (a, e) ← bitsetRange b
  modifyState fun s => s.setBitset b.toNat (f (s.bitset b.toNat) a e)

/-- A command that answers a number about bitset `b` over a range. -/
def bitsetAsk (b : BitVec 4) (f : BitVec Config.bitsetWidth → Nat → Nat → Nat) : Cmd Unit := do
  let (a, e) ← bitsetRange b
  let s ← getState
  resultNat (f (s.bitset b.toNat) a e)

/-- BS_SET's pseudocode (spec R310). -/
def bsSetBody (b : BitVec 4) : Cmd Unit := bitsetAt b fun v i => setBits v i (i + 1)

/-- BS_CLEAR's pseudocode (spec R311). -/
def bsClearBody (b : BitVec 4) : Cmd Unit := bitsetAt b fun v i => clearBits v i (i + 1)

/-- BS_CHECK's pseudocode (spec R312). -/
def bsCheckBody (b : BitVec 4) : Cmd Unit := do
  let i ← bitsetIndex b
  let s ← getState
  resultNat (if (s.bitset b.toNat).getLsbD i then 1 else 0)

/-- BS_SET_RANGE's pseudocode (spec R313). -/
def bsSetRangeBody (b : BitVec 4) : Cmd Unit := bitsetOver b fun v a e => setBits v a e

/-- BS_CLEAR_RANGE's pseudocode (spec R314). -/
def bsClearRangeBody (b : BitVec 4) : Cmd Unit := bitsetOver b fun v a e => clearBits v a e

/-- BS_POPCOUNT's pseudocode (spec R315). -/
def bsPopcountBody (b : BitVec 4) : Cmd Unit := bitsetAsk b fun v a e => popcountRange v a e

/-- BS_FFC's pseudocode (spec R316). -/
def bsFfcBody (b : BitVec 4) : Cmd Unit := do
  bitsetCheck b
  let s ← getState
  let start := s.arg0.toNat
  rejectIf (decide (start > s.params.bsCap)) .argRange
  resultNat (ffcBits (s.bitset b.toNat) start s.params.bsCap)

/-- BS_FFS's pseudocode (spec R317). -/
def bsFfsBody (b : BitVec 4) : Cmd Unit := bitsetAsk b fun v a e => ffsBits v a e

/-- BS_SET (spec R310). -/
def execBsSet (b : BitVec 4) (s : State) : Result := .next (conclude (bsSetBody b) s)
/-- BS_CLEAR (spec R311). -/
def execBsClear (b : BitVec 4) (s : State) : Result := .next (conclude (bsClearBody b) s)
/-- BS_CHECK (spec R312). -/
def execBsCheck (b : BitVec 4) (s : State) : Result := .next (conclude (bsCheckBody b) s)
/-- BS_SET_RANGE (spec R313). -/
def execBsSetRange (b : BitVec 4) (s : State) : Result := .next (conclude (bsSetRangeBody b) s)
/-- BS_CLEAR_RANGE (spec R314). -/
def execBsClearRange (b : BitVec 4) (s : State) : Result := .next (conclude (bsClearRangeBody b) s)
/-- BS_POPCOUNT (spec R315). -/
def execBsPopcount (b : BitVec 4) (s : State) : Result := .next (conclude (bsPopcountBody b) s)
/-- BS_FFC (spec R316). -/
def execBsFfc (b : BitVec 4) (s : State) : Result := .next (conclude (bsFfcBody b) s)
/-- BS_FFS (spec R317). -/
def execBsFfs (b : BitVec 4) (s : State) : Result := .next (conclude (bsFfsBody b) s)

end Sys2Proof.Machine
end

