-- ==== Sys2Proof/Machine/Slab.lean ====
section
/-! DEFINITION. The packet slab allocator (spec R350 to R373) and its host allocator port (R120, R121). -/

namespace Sys2Proof.Machine

/-! ## The host allocator port (spec R120, R121) -/

/-- Two ranges share no byte. -/
def disjointRegions (x y : Region) : Bool := decide (x.1 + x.2 ≤ y.1 ∨ y.1 + y.2 ≤ x.1)

/-- The regions that the host allocator counts as taken: the live slab windows, and the windows and large allocations in
its books (spec R120, R601, U20). -/
def takenRegions (s : State) : List Region := windowRegions s ++ s.windowsLive ++ s.largeLive

/-- The constraints of spec R120 on an answer: not 0, a multiple of UNIT, not wrapping, and disjoint from what is taken. -/
def answerOk (s : State) (size : Nat) (r : Word) : Bool :=
  decide (r ≠ 0 ∧ r.toNat % s.params.unit = 0) && !wraps r.toNat size &&
    (takenRegions s).all (disjointRegions (r.toNat, size))

/-- `HostAlloc(size)` (spec R120): the next answer supplied, or any answer where none is; `none` is FAIL. An answer that
breaks R120's constraints is none the allocator can give, and counts as FAIL. -/
def hostAlloc (size : Nat) : Cmd (Option Word) := do
  let s ← getState
  match s.allocAnswers with
  | answer :: rest =>
    modifyState fun s => { s with allocAnswers := rest }
    pure (answer.filter (answerOk s size))
  | [] =>
    modifyState fun s => { s with draws := s.draws + 1 }
    pure ((Config.freeAnswer s.draws).filter (answerOk s size))

/-- `HostAlloc`, its FAIL ending the command (spec R358). -/
def hostAllocOrFail (size : Nat) : Cmd Word := do
  match ← hostAlloc size with
  | some r => pure r
  | none => stop (.fatal .hostAllocFail)

/-- `HostFree(r)` (spec R121): recorded, and the host's books drop the region. -/
def hostFree (h : Nat) : Cmd Unit := modifyState fun s =>
  { s with
    hostFrees := BitVec.ofNat 64 h :: s.hostFrees
    largeLive := s.largeLive.filter fun x => x.1 != h }

/-! ## Results once a pointer the block never gave has been freed (spec U12) -/

/-- A result of the allocator: any value once the host has freed a pointer that is not the block's (U12). -/
def allocatorResult (v : Word) : Cmd Word := do
  let s ← getState
  if s.slabTainted then drawWord else pure v

/-- A count of the allocator, at most `MAX_UNITS` (R354) even once results are open (U12). -/
def allocatorCount (n : Nat) : Cmd Word := do
  let s ← getState
  if s.slabTainted then do
    let v ← drawWord
    pure (BitVec.ofNat 64 (v.toNat % (s.params.maxUnits + 1)))
  else pure (BitVec.ofNat 64 n)

/-! ## Allocation -/

/-- The checks of spec R355 on a request of `b` bytes. -/
def requestCheck (b : Nat) : Cmd Unit := do
  let s ← getState
  rejectIf (decide (b = 0)) .argRange
  rejectIf (decide (b > s.params.maxAllocBytes)) .argRange

/-- The loop of `find_gap` over `units` units (spec R356) with an iteration bound; every iteration moves `start` up. -/
def gapScan (units : Nat) (used : BitVec Config.unitWidth) (u : Nat) : (fuel start : Nat) → Option Nat
  | 0, _ => none
  | fuel + 1, start =>
    let st := ffcBits used start units
    if st + u > units then none
    else
      let e := ffsBits used st (st + u)
      if e = st + u then some st else gapScan units used u fuel e

/-- `find_gap(s, u)` in a window of `units` units (spec R356). -/
def findGap (units : Nat) (w : Slot) (u : Nat) : Option Nat := gapScan units w.used u (units + 1) w.resume

/-- The 16 header bytes (spec R114). -/
def headerBytes (window u freed : Nat) : List Byte := leBytes 8 window ++ leBytes 4 u ++ leBytes 4 freed

/-- The bytes that the allocator leaves open when it writes the `n` bytes from `addr`: those of a live window that lie in
another structure too (R626, U14). -/
def slabArea (s : State) (addr n a : Nat) : Bool :=
  inRegion (addr, n) a && inRegions (windowRegions s) a && inRegions (aroundWindows s) a

/-- `MemWrite` of a part of the allocator's own. -/
def slabWrite (addr : Nat) (bytes : List Byte) : Cmd Unit := do
  let s ← getState
  setArea (slabArea s addr bytes.length)
  memWrite addr bytes

/-- Note that the block hands out a payload. -/
def handOut (p : Word) : Cmd Unit := modifyState fun s => { s with handed := p :: s.handed }

/-- Note that the host has given a payload back. -/
def takeBack (p : Word) : Cmd Unit := modifyState fun s => { s with handed := s.handed.erase p }

/-- `carve(s, st, u)` (spec R357). -/
def carve (slot st u : Nat) : Cmd Word := do
  let s ← getState
  let w := s.slot slot
  modifyState fun s => s.setSlot slot { w with used := setBits w.used st (st + u), free := w.free - u, resume := st + u }
  let h := w.base.toNat + st * s.params.unit
  slabWrite h (headerBytes (slot + 1) u 0)
  let p := BitVec.ofNat 64 (h + s.params.unit)
  handOut p
  pure p

/-- One window of `post`: to the tail of FULL when it is in PREF with too few free units (spec R360). -/
def migrate (s : State) (x : Nat) : State :=
  let w := s.slot x
  if w.list = .pref ∧ w.free < s.params.prefFreeThreshold then
    (s.setSlot x { w with list := .full }).setLists (s.prefList.erase x) (s.fullList ++ [x])
  else s

/-- The window has `u` free units and a gap that holds them: the first unit of the gap (spec R360, R361). -/
def takes (s : State) (w u : Nat) : Option Nat :=
  if (s.slot w).free ≥ u then findGap s.params.maxUnits (s.slot w) u else none

/-- `post(w, u, scanned)` (spec R360). -/
def post (s : State) (w u : Nat) (scanned : List Nat) : State :=
  if (takes s w u).isSome then s else (scanned ++ [w]).foldl migrate s

/-- The lowest of the `n` slots from `i` that is not live. -/
def lowestDead (s : State) : (n i : Nat) → Option Nat
  | 0, _ => none
  | n + 1, i => if (s.slot i).live then lowestDead s n (i + 1) else some i

/-- `new_window()` (spec R359). -/
def newWindow : Cmd Nat := do
  let s ← getState
  match lowestDead s s.params.nwMax 0 with
  | none => stop (.fatal .slotExhausted)
  | some i =>
    let r ← hostAllocOrFail (windowBytes s.params)
    modifyState fun s =>
      ({ s with windowsLive := (r.toNat, windowBytes s.params) :: s.windowsLive } : State).setSlot i
        { live := true, base := r, used := 0, free := s.params.maxUnits, resume := 0, list := .pref } |>.setLists
        (i :: s.prefList) s.fullList
    pure i

/-- The walk over PREF as it stood at its start, head to tail, for a request of `u` units: the window that takes it with
its gap, and the windows passed over before it (spec R361). -/
def walkPref (s : State) (u : Nat) : (left scanned : List Nat) → Option (Nat × Nat) × List Nat
  | [], scanned => (none, scanned)
  | w :: left, scanned =>
    match takes s w u with
    | some st => (some (w, st), scanned)
    | none => walkPref s u left (scanned ++ [w])

/-- The large branch of `alloc` (spec R351, R361). -/
def allocLarge (u : Nat) : Cmd Word := do
  let s ← getState
  let r ← hostAllocOrFail (u * s.params.unit)
  modifyState fun s' => { s' with largeLive := (r.toNat, u * s.params.unit) :: s'.largeLive }
  slabWrite r.toNat (headerBytes 0 u 0)
  let p := BitVec.ofNat 64 (r.toNat + s.params.unit)
  handOut p
  pure p

/-- The small branch of `alloc` (spec R361). -/
def allocSmall (u : Nat) : Cmd Word := do
  let s ← getState
  match walkPref s u s.prefList [] with
  | (some (w, st), scanned) =>
    let p ← carve w st u
    modifyState fun s => post s w u scanned
    pure p
  | (none, scanned) =>
    let w ← newWindow
    let p ← carve w 0 u
    modifyState fun s => post s w u scanned
    pure p

/-- `alloc(b)` after its checks (spec R361). -/
def alloc (b : Nat) : Cmd Word := do
  let s ← getState
  let u := unitsFor s.params b
  if u ≥ s.params.largeUnits then allocLarge u else allocSmall u

/-! ## Free -/

/-- What `check(ptr)` answers when it passes (spec R362): the header's address and unit count, and the run's slot and
first unit for a slab region. -/
inductive Allocation where
  | large (h u : Nat)
  | slab (slot st h u : Nat)
  deriving DecidableEq, Repr

/-- The region's unit count. -/
def Allocation.units : Allocation → Nat
  | .large _ u => u
  | .slab _ _ _ u => u

/-- The checks of `check(ptr)` on what the header holds (spec R362), in order. -/
def classify (s : State) (h win u freed : Nat) : Except ErrorBit Allocation :=
  if freed = 1 then .error .doubleFree
  else if freed ≠ 0 then .error .badFree
  else if win = 0 then (if u < s.params.largeUnits then .error .badFree else .ok (.large h u))
  else
    let slot := win - 1
    let w := s.slot slot
    if slot ≥ s.params.nwMax ∨ w.live = false then .error .badFree
    else if h < w.base.toNat ∨ (h - w.base.toNat) % s.params.unit ≠ 0 then .error .badFree
    else
      let st := (h - w.base.toNat) / s.params.unit
      if u < 2 ∨ st + u > s.params.maxUnits then .error .badFree
      else if popcountRange w.used st (st + u) < u then .error .badFree
      else .ok (.slab slot st h u)

/-- `check(ptr)`, its failure rejecting the command (spec R362). -/
def checkPointer (ptr : Nat) : Cmd Allocation := do
  let s ← getState
  rejectIf (decide (ptr % s.params.unit ≠ 0 ∨ ptr < s.params.unit)) .badFree
  let h := ptr - s.params.unit
  setArea (slabArea s h 13)
  let win ← memRead h 8
  let u ← memRead (h + 8) 4
  let f ← memRead8 (h + 12)
  match classify s h (leValue win) (leValue u) f.toNat with
  | .ok r => pure r
  | .error e => stop (.reject e)

/-- `promote(s)` (spec R364). -/
def promote (s : State) (slot : Nat) : State :=
  let w := s.slot slot
  if w.list = .full ∧ w.free ≥ s.params.prefFreeThreshold then
    (s.setSlot slot { w with list := .pref }).setLists (s.prefList ++ [slot]) (s.fullList.erase slot)
  else s

/-- The run leaves the window (spec R363). -/
def releaseRun (s : State) (slot st u : Nat) : State :=
  let w := s.slot slot
  promote (s.setSlot slot
    { w with used := clearBits w.used st (st + u), free := w.free + u,
             resume := if st < w.resume then st else w.resume }) slot

/-- The region is one the block has handed out and not taken back (U12). DESIGN CHOICE, log 11, where the host has overwritten the
header of a payload that it did get: one that now names no window counts as not the block's, and one that names another run as the
block's. DESIGN CHOICE, log 11, for a pointer that the host got before a reset: a large allocation still counts as the block's, a
slab payload does not. DESIGN CHOICE, log 11: a large region whose answer a command took and whose pointer it never returned, cut
off by a bus error or a reset, counts as the block's too. -/
def blocksOwn (s : State) : Allocation → Bool
  | .large h _ => s.largeLive.any fun x => x.1 == h
  | .slab _ _ h _ => s.handed.contains (BitVec.ofNat 64 (h + s.params.unit))

/-- `do_free(OK(...))` (spec R363). Freeing a region that is not the block's own opens the allocator's later results
(U12). -/
def doFree (r : Allocation) : Cmd Unit := do
  let s ← getState
  modifyState fun s' => { s' with slabTainted := s'.slabTainted || !blocksOwn s r }
  match r with
  | .large h _ =>
    slabWrite (h + 12) [1]
    takeBack (BitVec.ofNat 64 (h + s.params.unit))
    hostFree h
  | .slab slot st h u =>
    slabWrite (h + 12) [1]
    takeBack (BitVec.ofNat 64 (h + s.params.unit))
    modifyState fun s' => releaseRun s' slot st u

/-! ## Reallocation -/

/-- The run `[st + u, st + u2)` of the region's window is free, and the request stays small (spec R366). -/
def canGrow (s : State) (u2 : Nat) : Allocation → Bool
  | .large _ _ => false
  | .slab slot st _ u =>
    decide (u2 < s.params.largeUnits ∧ st + u2 ≤ s.params.maxUnits) &&
      popcountRange (s.slot slot).used (st + u) (st + u2) == 0

/-- `grow(s, st, h, u, u2)` (spec R366). -/
def grow (slot st h u u2 : Nat) : Cmd Word := do
  let s ← getState
  let w := s.slot slot
  modifyState fun s => s.setSlot slot
    { w with used := setBits w.used (st + u) (st + u2), free := w.free - (u2 - u),
             resume := if st + u ≤ w.resume ∧ w.resume < st + u2 then st + u2 else w.resume }
  slabWrite (h + 8) (leBytes 4 u2)
  modifyState fun s => post s slot u2 []
  pure (BitVec.ofNat 64 (h + s.params.unit))

/-- The copy of `move` (spec R367): the `n` payload bytes at `ptr`, whose header is at `h`, to `p`. With an open header the
length is open, and so is what is copied. -/
def copyPayload (h ptr p n : Nat) : Cmd Unit := do
  let s ← getState
  setArea (slabArea s h 13)
  let loose ← anyOpen h 13
  setArea (slabArea s p n)
  let bytes ← memRead ptr n
  memWrite p bytes
  if loose then memLoosen p n else pure ()

/-- `move(old, b, copy)` (spec R367). -/
def moveRegion (old : Allocation) (ptr b : Nat) (copy : Bool) : Cmd Word := do
  let s ← getState
  let p ← alloc b
  if copy then copyPayload (ptr - s.params.unit) ptr p.toNat ((old.units - 1) * s.params.unit) else pure ()
  doFree old
  pure p

/-- The new address of a region whose request has grown to `u2` units (spec R372). -/
def enlarge (r : Allocation) (ptr b u2 : Nat) (copy : Bool) : Cmd Word := do
  let s ← getState
  match r, canGrow s u2 r with
  | .slab slot st h u, true => grow slot st h u u2
  | _, _ => moveRegion r ptr b copy

/-! ## Commands -/

/-- `RES[0] <- p` for a pointer of the allocator. When the SLAB_REALLOC that answers it is itself the one whose move frees a
pointer that is not the block's, its RES0 counts as a later result of U12 and is any value (the model's choice, log 11). -/
def resultPointer (p : Word) : Cmd Unit := do
  let v ← allocatorResult p
  modifyState fun s => s.setRes0 v

/-- The checks of spec R355 and `alloc` of a request of `b` bytes (R370, R372). -/
def allocChecked (b : Nat) : Cmd Unit := do
  requestCheck b
  let p ← alloc b
  resultPointer p

/-- SLAB_ALLOC's pseudocode (spec R370). -/
def slabAllocBody : Cmd Unit := do
  let s ← getState
  allocChecked s.arg0.toNat

/-- SLAB_FREE's pseudocode (spec R371). -/
def slabFreeBody : Cmd Unit := do
  let s ← getState
  let ptr := s.arg0.toNat
  if ptr = 0 then pure ()
  else do
    let r ← checkPointer ptr
    doFree r

/-- SLAB_REALLOC's pseudocode (spec R372). -/
def slabReallocBody (copy : Bool) : Cmd Unit := do
  let s ← getState
  let ptr := s.arg0.toNat
  let b := s.arg1.toNat
  if ptr = 0 then allocChecked b
  else do
    requestCheck b
    let r ← checkPointer ptr
    let u2 := unitsFor s.params b
    if u2 ≤ r.units then resultPointer s.arg0
    else do
      let p ← enlarge r ptr b u2 copy
      resultPointer p

/-- The position of a window in its list, head 0 (spec R373). -/
def listPosition (s : State) (slot : Nat) : Nat :=
  match (s.slot slot).list with
  | .pref => s.prefList.idxOf slot
  | .full => s.fullList.idxOf slot

/-- RES3 of SLAB_WINFO for a live window (spec R373). -/
def windowStatus (s : State) (slot : Nat) : Word :=
  BitVec.ofNat 64 (1 + (if (s.slot slot).list = .full then 2 else 0) + 2 ^ 32 * listPosition s slot)

/-- SLAB_WINFO's pseudocode (spec R373). DESIGN CHOICE, log 11: a slot that is not live answers zeros also once the allocator's
results are open (U12). -/
def slabWinfoBody : Cmd Unit := do
  let s ← getState
  let slot := s.arg0.toNat
  rejectIf (decide (slot ≥ s.params.nwMax)) .argRange
  let w := s.slot slot
  if w.live then do
    let base ← allocatorResult w.base
    let free ← allocatorCount w.free
    let resume ← allocatorCount w.resume
    let status ← allocatorResult (windowStatus s slot)
    modifyState fun s => s.setRes base free resume status
  else modifyState fun s => s.setRes 0 0 0 0

/-- SLAB_ALLOC (spec R370). -/
def execSlabAlloc (s : State) : Result := .next (conclude slabAllocBody s)
/-- SLAB_FREE (spec R371). -/
def execSlabFree (s : State) : Result := .next (conclude slabFreeBody s)
/-- SLAB_REALLOC (spec R372). -/
def execSlabRealloc (copy : Bool) (s : State) : Result := .next (conclude (slabReallocBody copy) s)
/-- SLAB_WINFO (spec R373). -/
def execSlabWinfo (s : State) : Result := .next (conclude slabWinfoBody s)

end Sys2Proof.Machine
end

