-- ==== Sys2Proof/Machine/Sums.lean ====
section
/-! DEFINITION. The lane-sum accumulator (spec R420 to R432). -/

namespace Sys2Proof.Machine

/-- `weight(e, k)` (spec R421). -/
def weight (t : Tables) (s : State) (e : Int) : Nat → Byte
  | 0 => 1
  | 1 => t.cx (column s e)
  | _ => gfSqr s.params (t.cx (column s e))

/-- The sums mean nothing any more: the host has changed what they cover without a sums reset (R624, R625, U23), or has left
the table of a WIN_SHIFT unrewritten (R622, U24). -/
def sumsLoose (s : State) : Bool := s.sumsTainted || s.tableTainted

/-- The bytes of the sum buffers that are open: those in another structure too (R626, U14), and all of them once the sums mean
nothing any more. -/
def sumsArea (s : State) (a : Nat) : Bool :=
  inRegion (sumRegion s) a && (sumsLoose s || inRegions (aroundSums s) a)

/-- Set `NE[l][k]`. -/
def setNe (l k : Nat) (x : Int) : Cmd Unit := do
  let v ← s32Value x
  modifyState fun s => s.setSum l k { s.sum l k with ne := v }

/-- Set `SE[l][k]`. -/
def setSe (l k : Nat) (x : Int) : Cmd Unit := do
  let v ← s32Value x
  modifyState fun s => s.setSum l k { s.sum l k with se := v }

/-- Grow sum (l, k) to `n` bytes: zero the new bytes, then `SL[l][k] <- n` (spec R422). -/
def growSum (l k n : Nat) : Cmd Unit := do
  let s ← getState
  let sl := (s.sum l k).sl.toNat
  if n > sl then do
    memZero (sumAddr s l k + sl) (n - sl)
    modifyState fun s => s.setSum l k { s.sum l k with sl := BitVec.ofNat 32 n }
  else pure ()

/-- What a command that has folded leaves in the buffer of sum (l, k): the bytes at or past SL hold any value (spec R112, U5).
Once the sums mean nothing any more, every byte does, and so does SL, up to the buffer's size (U23, U24). -/
def leaveSum (l k : Nat) : Cmd Unit := do
  let s ← getState
  let sl := (s.sum l k).sl.toNat
  if sumsLoose s then do
    let v ← drawWord
    let n := BitVec.ofNat 32 (v.toNat % (s.sumStride.toNat + 1))
    modifyState fun s => s.setSum l k { s.sum l k with sl := n }
    leaveOpen (sumAddr s l k) s.sumStride.toNat
  else leaveOpen (sumAddr s l k + sl) (s.sumStride.toNat - sl)

/-- Note what element `e` held when it was first folded (spec R624). -/
def noteFolded (e : Int) (a n : Nat) (s : State) : State :=
  if s.folded.any (fun x => x.elem == e) then s
  else { s with folded := { elem := e, addr := a, bytes := bytesAt s.mem a n } :: s.folded }

/-- The original of a folded element, or its descriptor, is not what it was (spec R624). -/
def foldedChanged (s : State) (x : Original) : Bool :=
  let d := descAt s x.elem
  d.2 != x.bytes.length || (d.2 != 0 && (d.1 != x.addr || bytesAt s.mem d.1 d.2 != x.bytes))

/-- Before a command uses the sums: if the host has changed a folded original or its descriptor, the sums are open until
their next reset (spec R624, U23). -/
def recheckFolded (s : State) : State :=
  { s with sumsTainted := s.sumsTainted || s.folded.any (foldedChanged s) }

/-- The fold of an element's original into sum (l, k) (spec R422). With an open descriptor every byte of the sum in its buffer
is open. DESIGN CHOICE, log 26: with a weight of 0 the loop of R422 still reads and writes its bytes, though R422 calls it
GF_MULADD_MEM's operation, which then accesses no memory (R223, R226). -/
def foldOriginal (t : Tables) (l k : Nat) (e : Int) (d : Desc) : Cmd Unit := do
  let s ← getState
  growSum l k d.len
  accumulate (sumAddr s l k) d.addr (gfMul s.params (weight t s e k)) d.len
  let s ← getState
  if d.isOpen then memLoosen (sumAddr s l k) (min (s.sum l k).sl.toNat s.sumStride.toNat) else pure ()

/-- The fold of element `e`, whose descriptor is `d`, not longer than a sum buffer (spec R422, R424). In a run that goes on past
fatal causes, an original that wraps leaves any value in the bytes of the sum that it would have changed (R565, U7). -/
def foldFitting (t : Tables) (l k : Nat) (e : Int) (d : Desc) : Cmd Unit := do
  if d.len > 0 then do
    fatalIf (wraps d.addr d.len) .busError
    if wraps d.addr d.len then do
      let s ← getState
      leaveOpen (sumAddr s l k) d.len
    else foldOriginal t l k e d
  else pure ()
  modifyState (noteFolded e d.addr d.len)
  setNe l k (e + 8)

/-- The body of `fold`'s loop for element `e` (spec R422 to R424), and whether the loop goes on. An original longer than the sum's
buffer is fatal and writes nothing (R423): in a run that goes on past fatal causes the sum stays as it is, and its loop ends. -/
def foldElement (t : Tables) (l k : Nat) (e : Int) : Cmd Bool := do
  let d ← readDesc e
  let s ← getState
  let tooLong := decide (d.len > s.sumStride.toNat)
  fatalIf tooLong .sumOverflow
  if tooLong then pure false
  else do
    foldFitting t l k e d
    pure true

/-- `while NE[l][k] < end`, `rounds` times from element `e` (spec R422). -/
def foldLoop (t : Tables) (l k : Nat) : (rounds : Nat) → (e : Int) → Cmd Unit
  | 0, _ => pure ()
  | rounds + 1, e => do
    if ← foldElement t l k e then foldLoop t l k rounds (e + 8) else pure ()

/-- How often `while NE < end: NE <- NE + 8` runs. -/
def foldRounds (ne stop : Int) : Nat := ((stop - ne + 7) / 8).toNat

/-- `fold(l, k, end)` (spec R422). -/
def fold (t : Tables) (l k : Nat) (stop : Int) : Cmd Unit := do
  let s ← getState
  let ne := (s.sum l k).ne.toInt
  foldLoop t l k (foldRounds ne stop) ne
  let s ← getState
  setSe l k (max (s.sum l k).se.toInt stop)

/-- The checks of the descriptor table and the folded originals, and the open area of a command that folds. -/
def beginSums : Cmd Unit := do
  modifyState fun s => recheckFolded (recheckTable s)
  let s ← getState
  setArea (sumsArea s)

/-- The counters of a sum of lane `l` after `sums_reset(es)` (spec R425). -/
def resetCtr (es l : Nat) : SumCtr :=
  { ne := BitVec.ofNat 32 (es + (((l : Int) - es) % 8).toNat), sl := 0, se := BitVec.ofNat 32 es }

/-- `sums_reset(es)` (spec R425). -/
def sumsResetTo (s : State) (es : Nat) : State :=
  { s with
    sumsValid := true
    sumStartElem := BitVec.ofNat 32 es
    sums := Vector.ofFn fun i : Fin 24 => resetCtr es (i.val / Config.sumCount)
    folded := []
    sumsTainted := false }

/-- `for l in 0..7, k in 0..2: f(l, k)`: entry `3 * l + k` in rising order. -/
def forSums (f : (l k : Nat) → Cmd Unit) : Cmd Unit :=
  forRange (fun i => f (i / Config.sumCount) (i % Config.sumCount)) (Config.lanes * Config.sumCount) 0

/-- SUMS_RESET's pseudocode (spec R430). -/
def sumsResetBody : Cmd Unit := do
  let s ← getState
  let es := s.arg0.toNat
  rejectIf (decide (es > s.winCount.toNat ∨ es > s.params.elemMax)) .argRange
  modifyState fun s => sumsResetTo s es

/-- SUMS_GET's pseudocode (spec R431). -/
def sumsGetBody (t : Tables) (k : BitVec 2) (lane : BitVec 3) : Cmd Unit := do
  let s ← getState
  let stop := s.arg0.toNat
  let l := lane.toNat
  let k := k.toNat
  rejectIf (decide (k = 3)) .argRange
  rejectIf (!s.sumsValid) .badState
  rejectIf (decide (stop > s.winCount.toNat)) .argRange
  rejectIf (decide ((stop : Int) < (s.sum l k).se.toInt)) .argRange
  rejectIf (sumsWrap s) .argRange
  beginSums
  fold t l k stop
  leaveSum l k
  modifyState fun s =>
    let c := s.sum l k
    s.setRes (BitVec.ofNat 64 (sumAddr s l k)) (c.sl.setWidth 64) (c.ne.signExtend 64) (c.se.signExtend 64)

/-- `NE[l][k] <- NE[l][k] - delta; SE[l][k] <- SE[l][k] - delta` (spec R432). -/
def shiftSum (delta : Nat) (l k : Nat) : Cmd Unit := do
  let s ← getState
  let c := s.sum l k
  setNe l k (c.ne.toInt - delta)
  setSe l k (c.se.toInt - delta)

/-- The folded elements under their new indices; an evicted element has none (spec R432, R622). -/
def shiftFolded (delta : Nat) (l : List Original) : List Original :=
  (l.map fun x => { x with elem := x.elem - delta }).filter fun x => decide (0 ≤ x.elem)

/-- The sum side of WIN_SHIFT, `early` saying whether the host has rewritten the table too early (spec R432, R622). -/
def shiftSums (t : Tables) (delta : Nat) (early : Bool) : Cmd Unit := do
  let s ← getState
  rejectIf (sumsWrap s) .argRange
  beginSums
  forSums fun l k => fold t l k s.winCount.toNat
  modifyState (noteEarly early)
  forSums leaveSum
  forSums (shiftSum delta)
  let v ← s32Value (s.sumStartElem.toInt - delta)
  modifyState fun s => { s with sumStartElem := v, folded := shiftFolded delta s.folded }

/-- The window side of WIN_SHIFT (spec R432). -/
def shiftWindow (s : State) (delta : Nat) : State :=
  { s with
    winColumnStart := BitVec.ofNat 22 (s.winColumnStart.toNat + delta)
    winFirstElem := BitVec.ofNat 32 (s.winFirstElem.toNat - delta)
    winCount := BitVec.ofNat 32 (s.winCount.toNat - delta)
    pending := pendingAfter s delta
    replaced := if delta = 0 then s.replaced else []
    copied := shiftCopied delta s.copied }

/-- WIN_SHIFT's pseudocode (spec R432). -/
def winShiftBody (t : Tables) : Cmd Unit := do
  let s ← getState
  let delta := s.arg0.toNat
  rejectIf (decide (s.winFirstElem.toNat > s.winCount.toNat)) .badState
  rejectIf (decide (delta % 8 ≠ 0 ∨ delta > s.winFirstElem.toNat)) .argRange
  let early := rewrittenEarly s delta
  if s.sumsValid then shiftSums t delta early else modifyState recheckTable
  modifyState fun s => shiftWindow (noteEarly early s) delta

/-- SUMS_RESET (spec R430). -/
def execSumsReset (s : State) : Result := .next (conclude sumsResetBody s)
/-- SUMS_GET (spec R431). -/
def execSumsGet (k : BitVec 2) (lane : BitVec 3) (s : State) : Result :=
  .next (conclude (sumsGetBody Config.tables k lane) s)
/-- WIN_SHIFT (spec R432). -/
def execWinShift (s : State) : Result := .next (conclude (winShiftBody Config.tables) s)

end Sys2Proof.Machine
end

