-- ==== Sys2Proof/Machine/Rows.lean ====
section
/-! DEFINITION. The Cauchy matrix generator and the Siamese row constructor (spec R480 to R496). -/

namespace Sys2Proof.Machine

/-! ## Cauchy elements and columns -/

/-- `CauchyElement(r, y)` (spec R481). -/
def cauchyElement (p : Params) (r y : Nat) : Byte := gfInv p (BitVec.ofNat 8 ((p.maxCauchyCols + r) ^^^ y))

/-- `y(i)` for the element `e = WIN_FIRST_ELEM + i` (spec R482). -/
def cauchyColumn (s : State) (e : Nat) : Nat := (column s e).toNat % s.params.maxCauchyCols

/-- A parity row is due (spec R484). -/
def parityDue (s : State) (cs : Column) : Bool :=
  !s.npcValid || decide (0 ≤ sdelta ((cs.toNat : Int) - s.nextParityColumn.toNat))

/-! ## The PCG generator (spec R488) -/

/-- The generator's state and increment. -/
structure Pcg where
  state : BitVec 64
  inc : BitVec 64
  deriving DecidableEq, Repr

/-- The state after `pcg_next()`. -/
def Pcg.advance (g : Pcg) : Pcg := { g with state := g.state * 6364136223846793005#64 + g.inc }

/-- The u32 that `pcg_next()` returns. -/
def Pcg.output (g : Pcg) : BitVec 32 :=
  let xs : BitVec 32 := (((g.state >>> 18) ^^^ g.state) >>> 27).setWidth 32
  let rot := (g.state >>> 59).toNat
  (xs >>> rot) ||| (xs <<< ((32 - rot) % 32))

/-- `pcg_seed(y, x)`. -/
def pcgSeed (y x : Nat) : Pcg :=
  let inc : BitVec 64 := (BitVec.ofNat 64 y <<< 1) ||| 1
  let g := Pcg.advance { state := 0, inc := inc }
  Pcg.advance { g with state := g.state + BitVec.ofNat 64 x }

/-! ## Row pieces -/

/-- The descriptor of a row's element; a buffer that wraps is fatal (spec R424). -/
def rowDesc (e : Nat) : Cmd Desc := do
  let d ← readDesc e
  fatalIf (wraps d.addr d.len) .busError
  pure d

/-- `dst[0 .. min(n, LP)-1] ^= f(original bytes of element e)` (spec R492, R493). With an open descriptor all LP bytes are
open. -/
def addOriginal (dst lp e : Nat) (f : Byte → Byte) : Cmd Unit := do
  let d ← rowDesc e
  accumulate dst d.addr f (min d.len lp)
  if d.isOpen then memLoosen dst lp else pure ()

/-- The metadata and data of a row (spec R489). -/
def rowResult (addr count kind row columnStart sumCount ldpcCount : Nat) (s : State) : State :=
  s.setRes (BitVec.ofNat 64 addr) (BitVec.ofNat 64 (count + 2 ^ 32 * kind))
    (BitVec.ofNat 64 (row + 2 ^ 32 * columnStart)) (BitVec.ofNat 64 (sumCount + 2 ^ 32 * ldpcCount))

/-- A fatal in the middle of building a row leaves any value in the row's scratch bytes `[base, base + n)` (spec R565, U7:
they are not completely written, and the order of the accesses is open by R126). -/
def withScratch (base n : Nat) (body : Cmd Unit) : Cmd Unit := fun r =>
  match body r with
  | .error (.fatal e) r => .error (.fatal e) { r with st := openRange n base r.st }
  | .error x r => .error x r
  | .ok () r => .ok () r

/-- The bytes of the row's scratch `[REC_BASE, REC_BASE + n)` that are open: those in another structure too (R626, U14), and all
of them if `loose`. -/
def rowArea (s : State) (loose : Bool) (n a : Nat) : Bool :=
  inRegion (s.recBase.toNat, n) a && (loose || inRegions (aroundScratch s) a)

/-! ## Branches -/

/-- `single()` (spec R491). -/
def singleRow : Cmd Unit := do
  modifyState recheckTable
  let s ← getState
  let d ← rowDesc s.winFirstElem.toNat
  modifyState (rowResult d.addr d.len 0 0 (column s s.winFirstElem.toNat).toNat 1 1)

/-- The sum over the window of a parity row (spec R492). -/
def parityData (dst lp first count : Nat) : Cmd Unit :=
  forRange (fun i => addOriginal dst lp (first + i) (fun x => x)) count 0

/-- The sum over the window of Cauchy row `r` (spec R483, R492). -/
def cauchyData (s : State) (dst lp first count r : Nat) : Cmd Unit :=
  forRange (fun i =>
    addOriginal dst lp (first + i)
      (gfMul s.params (cauchyElement s.params r (cauchyColumn s (first + i))))) count 0

/-- `cauchy_branch()` (spec R492). -/
def cauchyBranch : Cmd Unit := do
  modifyState recheckTable
  let s ← getState
  let first := s.winFirstElem.toNat
  let u := s.winCount.toNat - first
  let lp := s.winLongest.toNat
  let cs := column s first
  let base := s.recBase.toNat
  setArea (rowArea s s.tableTainted lp)
  withScratch base lp do
    memZero base lp
    if parityDue s cs then do
      parityData base lp first u
      modifyState fun s =>
        { s with nextParityColumn := BitVec.ofNat 22 (cs.toNat + u), npcValid := true }
      modifyState (rowResult base lp 1 0 cs.toNat u u)
    else do
      let r := s.nextCauchyRow.toNat
      cauchyData s base lp first u r
      modifyState fun s => { s with nextCauchyRow := BitVec.ofNat 16 ((r + 1) % s.params.maxCauchyRows) }
      modifyState (rowResult base lp 2 (r + 1) cs.toNat u u)

/-- The sums must be reset before a Siamese row (spec R493, D64). -/
def sumsStale (s : State) : Bool :=
  let c : Int := s.winCount.toNat
  let sc := c - s.sumStartElem.toInt
  !s.sumsValid || decide (sc ≤ 0) || decide (sc > s.params.sumResetThreshold) ||
    s.sums.toList.any fun x => decide (x.se.toInt > c)

/-- The dense step for sum (l, k) (spec R493): fold it to `count` and add it where the opcode's bits say. -/
def denseSum (t : Tables) (op : BitVec 6) (r p lp count l k : Nat) : Cmd Unit :=
  if op.getLsbD k || op.getLsbD (k + 3) then do
    fold t l k count
    let s ← getState
    let m := min (s.sum l k).sl.toNat lp
    if op.getLsbD k then accumulate r (sumAddr s l k) (fun x => x) m else pure ()
    if op.getLsbD (k + 3) then accumulate p (sumAddr s l k) (fun x => x) m else pure ()
  else pure ()

/-- The light step: `pairs` pairs of elements of the window (spec R493). -/
def lightPairs (r p lp first u : Nat) : (pairs : Nat) → Pcg → Cmd Unit
  | 0, _ => pure ()
  | pairs + 1, g => do
    let ea := first + g.output.toNat % u
    let eb := first + g.advance.output.toNat % u
    addOriginal r lp ea (fun x => x)
    addOriginal p lp eb (fun x => x)
    lightPairs r p lp first u pairs g.advance.advance

/-- The dense, light and combine steps of a Siamese row (spec R493). -/
def siameseData (t : Tables) (row : BitVec 32) (r p lp first count : Nat) : Cmd Unit := do
  let s ← getState
  let u := count - first
  forSums fun l k => denseSum t (t.rowOpcode (BitVec.ofNat 3 l) row) r p lp count l k
  lightPairs r p lp first u (ceilDiv u s.params.pairAddRate) (pcgSeed row.toNat u)
  accumulate r p (gfMul s.params (t.rowValue row)) lp

/-- `siamese_branch()` up to its data (spec R493). -/
def siameseRow (t : Tables) : Cmd Unit := do
  let s ← getState
  let first := s.winFirstElem.toNat
  let count := s.winCount.toNat
  let lp := s.winLongest.toNat
  let a := align16 lp
  let base := s.recBase.toNat
  modifyState recheckTable
  modifyState fun s => if sumsStale s then sumsResetTo s first else recheckFolded s
  modifyState fun s => { s with nextRow := BitVec.ofNat 32 ((s.nextRow.toNat + 1) % s.params.rowPeriod) }
  let s' ← getState
  setArea fun x => sumsArea s' x || rowArea s' (sumsLoose s') (2 * a) x
  withScratch base (2 * a) do
    memZero base (2 * a)
    siameseData t s.nextRow base (base + a) lp first count

/-- `siamese_branch()` (spec R493). Afterwards the bytes of R from LP on and all of P hold any value (R494, U6), and the sum
bytes at or past SL do (R112, U5). -/
def siameseBranch (t : Tables) : Cmd Unit := do
  let s ← getState
  let first := s.winFirstElem.toNat
  let count := s.winCount.toNat
  let lp := s.winLongest.toNat
  siameseRow t
  forSums leaveSum
  leaveOpen (s.recBase.toNat + lp) (2 * align16 lp - lp)
  modifyState fun s' =>
    let start := s'.sumStartElem.toInt
    rowResult s.recBase.toNat lp 3 s.nextRow.toNat (column s' start).toNat ((count : Int) - start).toNat (count - first) s'

/-! ## Commands -/

/-- ROW_ENCODE's pseudocode (spec R495). -/
def rowEncodeBody (t : Tables) : Cmd Unit := do
  let s ← getState
  let first := s.winFirstElem.toNat
  let count := s.winCount.toNat
  rejectIf (decide (first > count ∨ count > s.params.elemMax)) .badState
  let u := count - first
  let lp := s.winLongest.toNat
  if u = 0 then stop .needMoreData
  else if u = 1 then singleRow
  else do
    rejectIf (decide (lp > s.params.maxGfLen)) .argRange
    if u ≤ s.params.cauchyThreshold then do
      rejectIf (decide (s.recCap.toNat < lp + s.params.footerMax)) .scratchSmall
      rejectIf (wraps s.recBase.toNat (lp + s.params.footerMax)) .argRange
      cauchyBranch
    else do
      rejectIf (decide (s.recCap.toNat < 2 * align16 lp + s.params.footerMax)) .scratchSmall
      rejectIf (wraps s.recBase.toNat (2 * align16 lp + s.params.footerMax)) .argRange
      rejectIf (sumsWrap s) .argRange
      siameseBranch t

/-- CAUCHY_ELEM's pseudocode (spec R496). -/
def cauchyElemBody (r y : Byte) : Cmd Unit := do
  let s ← getState
  rejectIf (decide (r.toNat ≥ s.params.maxCauchyRows ∨ y.toNat ≥ s.params.maxCauchyCols)) .argRange
  resultByte (cauchyElement s.params r.toNat y.toNat)

/-- ROW_ENCODE (spec R495). -/
def execRowEncode (s : State) : Result := .next (conclude (rowEncodeBody Config.tables) s)
/-- CAUCHY_ELEM (spec R496). -/
def execCauchyElem (r y : Byte) (s : State) : Result := .next (conclude (cauchyElemBody r y) s)

end Sys2Proof.Machine
end

