-- ==== Sys2Proof/Machine/Commands.lean ====
section
/-! DEFINITION. The pseudocode of every command under one name: what is running when a command runs (spec R540). The
host side needs it for the footprint of a running command (R104, R126, R600). -/

namespace Sys2Proof.Machine

/-- The command's pseudocode. -/
def commandBody : Instr → Cmd Unit
  | .nop => nopBody
  | .gfAddMem => gfAddMemBody
  | .gfMuladdMem c => gfMuladdMemBody c
  | .gfMulMem c => gfMulMemBody c
  | .gfDivMem c => gfDivMemBody c
  | .gfMul a b => gfMulBody a b
  | .gfDiv a b => gfDivBody a b
  | .gfSqr a => gfSqrBody a
  | .gfInv a => gfInvBody a
  | .gfLog a => gfLogBody a
  | .gfExp i => gfExpBody i
  | .gfNibtab c hi j => gfNibtabBody c hi j
  | .bsSet b => bsSetBody b
  | .bsClear b => bsClearBody b
  | .bsCheck b => bsCheckBody b
  | .bsSetRange b => bsSetRangeBody b
  | .bsClearRange b => bsClearRangeBody b
  | .bsPopcount b => bsPopcountBody b
  | .bsFfc b => bsFfcBody b
  | .bsFfs b => bsFfsBody b
  | .slabAlloc => slabAllocBody
  | .slabFree => slabFreeBody
  | .slabRealloc copy => slabReallocBody copy
  | .slabWinfo => slabWinfoBody
  | .sumsReset => sumsResetBody
  | .sumsGet k lane => sumsGetBody Config.tables k lane
  | .winShift => winShiftBody Config.tables
  | .rowEncode => rowEncodeBody Config.tables
  | .cauchyElem r y => cauchyElemBody r y

/-- The run that the running command would make from here, with no bus error and no fatal cause: none while DISABLED or for a word that is
no command (spec R163, R566). -/
def runningCommand (s : State) : Run :=
  if s.disabled then Run.start s
  else
    match decode s.cmd with
    | .error _ => Run.start s
    | .ok i => wouldRun (commandBody i) s

end Sys2Proof.Machine
end

