-- ==== Sys2Proof/Machine/Dispatch.lean ====
section
/-! DEFINITION. One arm per command (spec R160), each one direct call of its meaning. -/

namespace Sys2Proof.Machine

def exec (i : Instr) (s : State) : Host.Outcome State Fault Refusal :=
  match i with
  | .nop => Sys2Proof.Machine.execNop s
  | .gfAddMem => Sys2Proof.Machine.execGfAddMem s
  | .gfMuladdMem c => Sys2Proof.Machine.execGfMuladdMem c s
  | .gfMulMem c => Sys2Proof.Machine.execGfMulMem c s
  | .gfDivMem c => Sys2Proof.Machine.execGfDivMem c s
  | .gfMul a b => Sys2Proof.Machine.execGfMul a b s
  | .gfDiv a b => Sys2Proof.Machine.execGfDiv a b s
  | .gfSqr a => Sys2Proof.Machine.execGfSqr a s
  | .gfInv a => Sys2Proof.Machine.execGfInv a s
  | .gfLog a => Sys2Proof.Machine.execGfLog a s
  | .gfExp n => Sys2Proof.Machine.execGfExp n s
  | .gfNibtab c hi j => Sys2Proof.Machine.execGfNibtab c hi j s
  | .bsSet b => Sys2Proof.Machine.execBsSet b s
  | .bsClear b => Sys2Proof.Machine.execBsClear b s
  | .bsCheck b => Sys2Proof.Machine.execBsCheck b s
  | .bsSetRange b => Sys2Proof.Machine.execBsSetRange b s
  | .bsClearRange b => Sys2Proof.Machine.execBsClearRange b s
  | .bsPopcount b => Sys2Proof.Machine.execBsPopcount b s
  | .bsFfc b => Sys2Proof.Machine.execBsFfc b s
  | .bsFfs b => Sys2Proof.Machine.execBsFfs b s
  | .slabAlloc => Sys2Proof.Machine.execSlabAlloc s
  | .slabFree => Sys2Proof.Machine.execSlabFree s
  | .slabRealloc copy => Sys2Proof.Machine.execSlabRealloc copy s
  | .slabWinfo => Sys2Proof.Machine.execSlabWinfo s
  | .sumsReset => Sys2Proof.Machine.execSumsReset s
  | .sumsGet k lane => Sys2Proof.Machine.execSumsGet k lane s
  | .winShift => Sys2Proof.Machine.execWinShift s
  | .rowEncode => Sys2Proof.Machine.execRowEncode s
  | .cauchyElem r y => Sys2Proof.Machine.execCauchyElem r y s

end Sys2Proof.Machine
end

