-- ==== Sys2Proof/Machine/Issue.lean ====
section
/-! DEFINITION. How the running command is carried out (spec R163, R540, R566). -/

namespace Sys2Proof.Machine

/-- `execute(word)` (spec R540) in the order of R163: DISABLED, then OPCODE, then the must-be-zero bits, then the
command's own rule. -/
def runCommand (s : State) : Result :=
  if s.disabled then .next (s.reject .disabled .disabledCmd)
  else
    match decode s.cmd with
    | .error .illegalOpcode => .next (s.reject .invalidInput .illegalOpcode)
    | .error .reservedField => .next (s.reject .invalidInput .reservedField)
    | .ok i => exec i s

/-- The command word as the CMD register takes it and starts the command (spec R35, R540). -/
def startCommand (s : State) (w : CmdWord) : State := { s with busy := true, cmd := w }

end Sys2Proof.Machine
end

