-- ==== Sys2Proof/Machine/HostAccess.lean ====
section
/-! DEFINITION. The host's side of the block: the CSR window (spec R30 to R55, R542 to R544), the data memory between and
during commands (R100, R125, R126), and reset (R600, R601). -/

namespace Sys2Proof.Machine

/-! ## Reading a CSR -/

/-- PARAM0 (spec R55). -/
def param0Word (s : State) : Word :=
  BitVec.ofNat 16 s.params.maxUnits ++ BitVec.ofNat 16 s.params.bsCap ++ BitVec.ofNat 8 s.params.nbs ++
    BitVec.ofNat 8 s.params.unit ++ BitVec.ofNat 8 Config.sumCount ++ BitVec.ofNat 8 Config.lanes

/-- PARAM1 (spec R55). -/
def param1Word (s : State) : Word :=
  BitVec.ofNat 16 s.params.pairAddRate ++ BitVec.ofNat 16 s.params.maxCauchyCols ++
    BitVec.ofNat 16 s.params.maxCauchyRows ++ BitVec.ofNat 16 s.params.cauchyThreshold

/-- PARAM2; a ROW_PERIOD of 2^32 reads as 0 (spec R55). -/
def param2Word (s : State) : Word :=
  BitVec.ofNat 32 s.params.rowPeriod ++ BitVec.ofNat 32 s.params.sumResetThreshold

/-- PARAM3 (spec R55). -/
def param3Word (s : State) : Word :=
  BitVec.ofNat 16 s.params.overalloc ++ BitVec.ofNat 16 s.params.elemMax ++ BitVec.ofNat 8 s.params.nwMax ++
    s.params.gfGen ++ s.params.gfPoly

/-- ID (spec R31). -/
def idWord : Word := 0x0000000153434F52#64

/-- NEXT_PARITY (spec R52). -/
def nextParityWord (s : State) : Word := 0#31 ++ BitVec.ofBool s.npcValid ++ 0#10 ++ s.nextParityColumn

/-- SUM_STATE (spec R53). -/
def sumStateWord (s : State) : Word := s.sumStartElem ++ 0#31 ++ BitVec.ofBool s.sumsValid

/-- The value of the CSR at an offset; an offset not in the map reads 0 (spec R30). -/
def csrValue (s : State) (offset : Nat) : Word :=
  if offset = 0x000 then idWord
  else if offset = 0x008 then statusWord s
  else if offset = 0x010 then controlWord s
  else if offset = 0x018 then errorWord s
  else if offset = 0x020 then 0
  else if offset = 0x028 then s.arg0
  else if offset = 0x030 then s.arg1
  else if offset = 0x038 then s.arg2
  else if offset = 0x040 then s.arg3
  else if offset = 0x048 then s.res0
  else if offset = 0x050 then s.res1
  else if offset = 0x058 then s.res2
  else if offset = 0x060 then s.res3
  else if offset = 0x080 then s.winColumnStart.setWidth 64
  else if offset = 0x088 then s.winFirstElem.setWidth 64
  else if offset = 0x090 then s.winCount.setWidth 64
  else if offset = 0x098 then s.winLongest.setWidth 64
  else if offset = 0x0A0 then s.descBase
  else if offset = 0x0A8 then s.sumBase
  else if offset = 0x0B0 then s.sumStride.setWidth 64
  else if offset = 0x0B8 then s.recBase
  else if offset = 0x0C0 then s.recCap.setWidth 64
  else if offset = 0x0C8 then s.nextRow.setWidth 64
  else if offset = 0x0D0 then s.nextCauchyRow.setWidth 64
  else if offset = 0x0D8 then nextParityWord s
  else if offset = 0x0E0 then sumStateWord s
  else if offset = 0x100 then param0Word s
  else if offset = 0x108 then param1Word s
  else if offset = 0x110 then param2Word s
  else if offset = 0x118 then param3Word s
  else 0

/-- The offset from `CSR_BASE` of an address in the CSR window (spec R30, R107). -/
def csrOffset (s : State) (addr : Nat) : Option Nat :=
  if s.params.csrBase ≤ addr ∧ addr < s.params.csrBase + Config.csrWindow then some (addr - s.params.csrBase) else none

/-- The CSR window is reached only with naturally aligned 64-bit accesses (spec R30, R544). -/
def csrAccessOk (offset width : Nat) : Bool := decide (width = 8 ∧ offset % 8 = 0)

/-- The registers of which a read while BUSY returns the value before or after the running command (spec R543). -/
def readsEither (offset : Nat) : Bool :=
  [0x048, 0x050, 0x058, 0x060, 0x0E0, 0x0C8, 0x0D0, 0x0D8, 0x080, 0x088, 0x090].contains offset

/-- The state the running command will end in. -/
def afterCommand (s : State) : State :=
  match runCommand s with
  | .next t => t
  | .fault _ => s
  | .refused _ => s

/-- What a host load of the CSR at an offset returns (spec R30, R543, R544). -/
def csrLoadValue (s : State) (offset width : Nat) : Word :=
  if csrAccessOk offset width then
    if s.busy && readsEither offset then
      if Config.hostFlag s.hostDraws then csrValue s offset else csrValue (afterCommand s) offset
    else csrValue s offset
  else 0

/-- What a host load at an address returns: outside the CSR window it does not reach the block, and the value is not the
block's to say (log 16). Reads have no side effects on the block, and draw no value that the running command draws (R543). -/
def csrLoad (s : State) (addr width : Nat) : State :=
  { s with
    hostRead := match csrOffset s addr with
      | some offset => csrLoadValue s offset width
      | none => Config.hostWord s.hostDraws
    hostDraws := s.hostDraws + 1 }

/-! ## Writing a CSR -/

/-- A CSR whose change breaks the meaning of the sums until the next sums reset (spec R625). -/
def breaksSums (s s' : State) : Bool :=
  s.sumsValid &&
    (s'.winColumnStart != s.winColumnStart || s'.descBase != s.descBase || s'.sumBase != s.sumBase ||
      s'.sumStride != s.sumStride ||
      (decide (s'.winCount.toNat < s.winCount.toNat) &&
        s.sums.toList.any fun x => decide (x.se.toInt > s'.winCount.toNat)))

/-- Note a change that breaks the meaning of the sums (spec R625, U23). -/
def noteSums (s s' : State) : State := { s' with sumsTainted := s'.sumsTainted || breaksSums s s' }

/-- A 16-aligned base: bits 3:0 are dropped (spec R44, R45, R47). -/
def alignedBase (v : Word) : Word := v &&& 0xFFFFFFFFFFFFFFF0#64

/-- A store to the operand, window or row-counter register at an offset, WARL fields taking the legal value their rule
names (spec R36, R40 to R52); none for another offset. -/
def configStore (s : State) (offset : Nat) (v : Word) : Option State :=
  if offset = 0x028 then some { s with arg0 := v }
  else if offset = 0x030 then some { s with arg1 := v }
  else if offset = 0x038 then some { s with arg2 := v }
  else if offset = 0x040 then some { s with arg3 := v }
  else if offset = 0x080 then some { s with winColumnStart := v.setWidth 22 &&& 0x3FFFF8#22 }
  else if offset = 0x088 then some { s with winFirstElem := v.setWidth 32 }
  else if offset = 0x090 then some { s with winCount := v.setWidth 32 }
  else if offset = 0x098 then some { s with winLongest := v.setWidth 32 }
  else if offset = 0x0A0 then some { s with descBase := alignedBase v }
  else if offset = 0x0A8 then some { s with sumBase := alignedBase v }
  else if offset = 0x0B0 then some { s with sumStride := v.setWidth 32 &&& 0xFFFFFFF0#32 }
  else if offset = 0x0B8 then some { s with recBase := alignedBase v }
  else if offset = 0x0C0 then some { s with recCap := v.setWidth 32 }
  else if offset = 0x0C8 then some { s with nextRow := BitVec.ofNat 32 (v.toNat % 2 ^ 32 % s.params.rowPeriod) }
  else if offset = 0x0D0 then
    some { s with nextCauchyRow := BitVec.ofNat 16 (v.toNat % 2 ^ 16 % s.params.maxCauchyRows) }
  else if offset = 0x0D8 then some { s with nextParityColumn := v.setWidth 22, npcValid := v.getLsbD 32 }
  else none

/-- Reset, by the platform or by SOFT_RESET: a running command is abandoned (spec R600). -/
def resetNow (s : State) : State := if s.busy then s.abandon (runningCommand s) else s.resetBlock

/-- A store to CONTROL (spec R33): SOFT_RESET resets the block, which also clears IRQ_EN. -/
def controlStore (s : State) (v : Word) : State :=
  if v.getLsbD 1 then resetNow s else { s with irqEn := v.getLsbD 0 }

/-- A 64-bit store to the CSR at an offset. While BUSY, a store to CMD, an ARG or a configuration register is ignored and
sets WRITE_WHILE_BUSY; STATUS, CONTROL and ERROR take it (spec R542). RO registers and offsets that are not in the map
ignore it (R30, R544). -/
def csrStoreEffect (s : State) (offset : Nat) (v : Word) : State :=
  if offset = 0x008 then { s with irqPending := s.irqPending && !v.getLsbD 2 }
  else if offset = 0x010 then controlStore s v
  else if offset = 0x018 then { s with error := s.error &&& ~~~(v.setWidth 15) }
  else if offset = 0x020 then (if s.busy then s.raise .writeWhileBusy else startCommand s (v.setWidth 32))
  else
    match configStore s offset v with
    | none => s
    | some s' => if s.busy then s.raise .writeWhileBusy else noteCount (noteTable s (noteSums s s'))

/-! ## The data memory and the host -/

/-- The running command reads or writes the byte at `a` (spec R104, R126). -/
def usesByte (s : State) (a : Nat) : Bool :=
  s.busy && ((runningCommand s).reads.contains a || (runningCommand s).writes.contains a)

/-- The host stores a byte, at an address with side effects as at any other (DESIGN CHOICE, log 17). While a command runs, a store to a byte it uses is a race: the byte holds any value, and the
command reads any value there (spec R104, R126, U8). -/
def hostStoreByte (s : State) (a : Nat) (v : Byte) : State :=
  if usesByte s a then
    { s with mem := s.mem.write a (Config.hostByte s.hostDraws), hostDraws := s.hostDraws + 1, raced := a :: s.raced }
  else { s with mem := s.mem.write a v }

/-- The host stores bytes. DESIGN CHOICE, log 13: a store that runs past the top of the data space goes on at address 0; R101
says nothing of it. -/
def hostMemStore (s : State) : Nat → List Byte → State
  | _, [] => s
  | a, v :: vs => hostMemStore (hostStoreByte s (a % Config.addrSpace) v) (a + 1) vs

/-- The host loads a byte: while a command runs, a byte of its footprint returns any value (spec R126, U8). DESIGN CHOICE, log 17: a
load at an address with side effects returns what memory holds there; the spec speaks of the block's accesses to it only. -/
def hostMemLoad (s : State) (a : Nat) : State :=
  { s with
    hostRead := if usesByte s a then (Config.hostByte s.hostDraws).setWidth 64 else (s.mem.read a).setWidth 64
    hostDraws := s.hostDraws + 1 }

/-- A store to an address of the CSR window (spec R30, R544). -/
def csrStore (s : State) (addr width : Nat) (v : Word) : State :=
  match csrOffset s addr with
  | some offset => if csrAccessOk offset width then csrStoreEffect s offset v else s
  | none => s

/-- The host takes a region out of its books that a reset has made the block forget (spec R601), never one of a live window.
A large allocation that the block has returned since reset and not freed is not forgotten either: R120 keeps answers off it. While a
command runs its answer may rest on the books, so the host does it between commands (log 14). -/
def reclaimRegion (s : State) (addr : Nat) : State :=
  if s.busy then s
  else { s with
    largeLive := s.largeLive.filter fun x =>
      x.1 != addr || s.handed.contains (BitVec.ofNat 64 (x.1 + s.params.unit))
    windowsLive := s.windowsLive.filter fun x => x.1 != addr || (windowRegions s).contains x }

/-- One action from outside the block. -/
def hostAct (s : State) : HostAction → Result
  | .csrStore addr width v => .next (csrStore s addr width v)
  | .csrLoad addr width => .next (csrLoad s addr width)
  | .memStore addr bytes => .next (noteTable s (hostMemStore s addr.toNat bytes))
  | .memLoad addr => .next (hostMemLoad s addr.toNat)
  | .letRun => if s.busy then runCommand s else .next s
  | .platformReset => .next (resetNow s)
  | .reclaim addr => .next (reclaimRegion s addr.toNat)

/-- One step of the whole: the next action from outside, if there is one; else the running command comes to its end; else
nothing happens (spec R541, R630: how long a command takes is open, so the host may act before its end). -/
def advance (s : State) : Result :=
  match s.inbox with
  | action :: rest => hostAct { s with inbox := rest } action
  | [] => if s.busy then runCommand s else .next s

/-- The command word of a table row started by the host, with nothing happening before the command's end. -/
def startWord (s : State) (nbits w : Nat) : State :=
  { startCommand s (BitVec.ofNat 32 (w % 2 ^ nbits)) with inbox := .letRun :: s.inbox }

end Sys2Proof.Machine
end

