-- ==== Sys2Proof/Machine/Step.lean ====
section
/-! DEFINITION. The step and where the host's table words go. -/

namespace Sys2Proof.Machine

/-- One step: an action of the host or of the platform, or the running command carried out to its end. -/
def step (s : State) : Host.Outcome State Fault Refusal := advance s

/-- The state in which the very next step runs the command word `w`: the host has stored it to CMD (spec R540). -/
def State.withFetchWord (s : State) (nbits w : Nat) : State := startWord s nbits w

end Sys2Proof.Machine
end

