-- ==== Sys2Proof/Safety.lean ====
section
/-! DEFINITION. What a safe run is, and the invariants claims are stated with. -/

namespace Sys2Proof.Machine

/-- The step does not stop (spec R561, R568: the block has no trap and no hang state). -/
def SafeStep (s : State) : Prop := ∃ t, step s = .next t

/-- The registers hold only values their rules allow (spec R40, R44 to R47, R50, R51). -/
def RegistersLegal (s : State) : Prop :=
  s.winColumnStart.toNat % 8 = 0 ∧ s.descBase.toNat % 16 = 0 ∧ s.sumBase.toNat % 16 = 0 ∧
  s.sumStride.toNat % 16 = 0 ∧ s.recBase.toNat % 16 = 0 ∧
  s.nextRow.toNat < s.params.rowPeriod ∧ s.nextCauchyRow.toNat < s.params.maxCauchyRows

/-- A live window's used bits and free count agree, and its resume offset is in range (spec R354). -/
def WindowCountsAgree (p : Params) (w : Slot) : Prop :=
  w.live = true → popcountRange w.used 0 p.maxUnits + w.free = p.maxUnits ∧ w.resume ≤ p.maxUnits

/-- Every live slot is in exactly one list, the one its `list` field names (spec R63, R353). -/
def ListsAgree (s : State) : Prop :=
  s.prefList.Nodup ∧ s.fullList.Nodup ∧
  (∀ i, i ∈ s.prefList ↔ i < s.params.nwMax ∧ (s.slot i).live = true ∧ (s.slot i).list = .pref) ∧
  (∀ i, i ∈ s.fullList ↔ i < s.params.nwMax ∧ (s.slot i).live = true ∧ (s.slot i).list = .full)

/-- Every live window is in the host's books (spec R120, R601). -/
def WindowsInBooks (s : State) : Prop := ∀ x ∈ windowRegions s, x ∈ s.windowsLive

/-- The allocator's invariant (spec R63, R353, R354), with the host's books. -/
def SlabInvariant (s : State) : Prop :=
  (∀ i, i < s.params.nwMax → WindowCountsAgree s.params (s.slot i)) ∧ ListsAgree s ∧ WindowsInBooks s

/-- The data-memory port treats the `n` bytes from `a` as ordinary memory (spec R105, R106). -/
def Ordinary (s : State) (a n : Nat) : Prop :=
  ∀ i, i < n → ∀ p ∈ s.port, ¬ (p.base ≤ (a + i) % Config.addrSpace ∧ (a + i) % Config.addrSpace < p.base + p.size)

/-! ## Commands by kind -/

/-- A command of the bitset engine (spec R310 to R317). -/
def isBitsetCommand : Instr → Bool
  | .bsSet _ | .bsClear _ | .bsCheck _ | .bsSetRange _ | .bsClearRange _ | .bsPopcount _ | .bsFfc _ | .bsFfs _ => true
  | .nop | .gfAddMem | .gfMuladdMem _ | .gfMulMem _ | .gfDivMem _ | .gfMul _ _ | .gfDiv _ _ | .gfSqr _ | .gfInv _
  | .gfLog _ | .gfExp _ | .gfNibtab _ _ _ | .slabAlloc | .slabFree | .slabRealloc _ | .slabWinfo | .sumsReset
  | .sumsGet _ _ | .winShift | .rowEncode | .cauchyElem _ _ => false

/-- The command asks the allocator for a region of `b` bytes: SLAB_ALLOC, or SLAB_REALLOC of the null pointer (spec R370,
R372). -/
def Requests (i : Instr) (s : State) (b : Nat) : Prop :=
  (i = .slabAlloc ∧ s.arg0.toNat = b) ∨ (∃ copy, i = .slabRealloc copy ∧ s.arg0 = 0 ∧ s.arg1.toNat = b)

/-- Bit `j` of bitset `b` (spec R300). -/
def State.bit (s : State) (b j : Nat) : Bool := (s.bitset b).getLsbD j

/-! ## The field -/

/-- The powers of `GF_GEN` by polynomial multiplication alone (spec R201). -/
def generatorPower (p : Params) : Nat → Byte
  | 0 => 1
  | n + 1 => xmul p (generatorPower p n) p.gfGen

/-! ## Buffers -/

/-- The operands of a vector command pass the checks of spec R222 (2), (4), (5), over a canonical memory. -/
def GfBuffersOk (s : State) : Prop :=
  s.mem.wf = true ∧ s.arg2.toNat ≤ s.params.maxGfLen ∧ s.arg0.toNat + s.arg2.toNat ≤ 2 ^ 64 ∧
  s.arg1.toNat + s.arg2.toNat ≤ 2 ^ 64 ∧
  ¬ (s.arg0.toNat ≠ s.arg1.toNat ∧ s.arg0.toNat < s.arg1.toNat + s.arg2.toNat ∧
      s.arg1.toNat < s.arg0.toNat + s.arg2.toNat)

/-- `m'` holds `value i` at `dst + i` for i < n, and what `m` holds everywhere else. -/
def WritesOnly (m m' : Memory) (dst n : Nat) (value : Nat → Byte) : Prop :=
  m'.wf = true ∧ ∀ a, m'.read a = if dst ≤ a ∧ a < dst + n then value (a - dst) else m.read a

/-- `m'` is `m` but for an allocation header at `h` that names `window`, `units` and `freed` = 0 (spec R114). -/
def WritesHeader (m m' : Memory) (h window units : Nat) : Prop :=
  m'.wf = true ∧ leAt m' h 8 = window ∧ leAt m' (h + 8) 4 = units ∧ leAt m' (h + 12) 4 = 0 ∧
  ∀ a, ¬ (h ≤ a ∧ a < h + 16) → m'.read a = m.read a

/-- None of the `n` bytes from `a` lies in a structure that a slab window must not overlap (spec R626, U14). -/
def ClearOfStructures (s : State) (a n : Nat) : Prop := ∀ i, i < n → inRegions (aroundWindows s) (a + i) = false

/-- The allocator's results are the pseudocode's: the host has freed no pointer that is not the block's (U12), and has not
raced with the command (R126). -/
def SlabTrusted (s : State) : Prop := s.params.Legal ∧ s.mem.wf = true ∧ s.slabTainted = false ∧ s.raced = []

/-- The window cannot take a request for `u` units: too few free units, or no gap (spec R361). -/
def PassedOver (s : State) (u w : Nat) : Prop :=
  (s.slot w).free < u ∨ findGap s.params.maxUnits (s.slot w) u = none

/-- The request for `u` units goes to a new window: no window of PREF takes it (spec R361). -/
def NoWindowTakes (s : State) (u : Nat) : Prop := ∀ w ∈ s.prefList, PassedOver s u w

/-- The request for `u` units goes to window `w`, at its unit `st`: head to tail, `w` is the first window of PREF_LIST that
can take it, `scanned` being those passed over before it (spec R361). -/
def FirstThatTakes (s : State) (u : Nat) (scanned : List Nat) (w st : Nat) : Prop :=
  (∃ rest, s.prefList = scanned ++ w :: rest) ∧ (∀ x ∈ scanned, PassedOver s u x) ∧
  u ≤ (s.slot w).free ∧ findGap s.params.maxUnits (s.slot w) u = some st

/-- The lowest slot that is not live (spec R359). -/
def LowestDead (s : State) (i : Nat) : Prop :=
  i < s.params.nwMax ∧ (s.slot i).live = false ∧ ∀ j, j < i → (s.slot j).live = true

/-- The next answer of the host allocator, one that it may give (spec R120). -/
def NextAnswer (s : State) (size : Nat) (r : Word) (rest : List (Option Word)) : Prop :=
  s.allocAnswers = some r :: rest ∧ answerOk s size r = true

/-- The next answer of the host allocator is FAIL, or one that it may not give, which counts as FAIL. -/
def NextAnswerFails (s : State) (size : Nat) (rest : List (Option Word)) : Prop :=
  s.allocAnswers = none :: rest ∨ ∃ r, s.allocAnswers = some r :: rest ∧ answerOk s size r = false

/-- ARG0 is a pointer whose header is at `h` in ordinary memory, in no other structure (spec R362, R626). -/
def HeaderReadable (s : State) (h : Nat) : Prop :=
  s.arg0 ≠ 0 ∧ s.arg0.toNat % s.params.unit = 0 ∧ s.arg0.toNat = h + s.params.unit ∧ Ordinary s h 13 ∧
  ClearOfStructures s h 13

/-- The slab region of `u` units at unit `st` of window `slot` takes `u2` units where it is: they are fewer than 512, end
inside the window, and those past the region are free (spec R366). -/
def RoomAfter (s : State) (slot st u u2 : Nat) : Prop :=
  u2 < 512 ∧ st + u2 ≤ 2048 ∧ ∀ j, st + u ≤ j → j < st + u2 → (s.slot slot).used.getLsbD j = false

/-- `m'` is `m` but for what moving a region makes of it: a new header at `r` that names `window` and `units`, the `n` bytes from
`src` copied behind its leading unit at `p`, and the freed flag of the old header at `h` (spec R114, R363, R367). -/
def MovesRegion (m m' : Memory) (r window units p src n h : Nat) : Prop :=
  m'.wf = true ∧ leAt m' r 8 = window ∧ leAt m' (r + 8) 4 = units ∧ leAt m' (r + 12) 4 = 0 ∧
  (∀ i, i < n → m'.read (p + i) = m.read (src + i)) ∧ m'.read (h + 12) = 1 ∧
  ∀ a, ¬ (r ≤ a ∧ a < r + 16) → ¬ (p ≤ a ∧ a < p + n) → a ≠ h + 12 → m'.read a = m.read a

/-- What the header at `h` says by the checks of spec R362. -/
def headerSays (s : State) (h : Nat) : Except ErrorBit Allocation :=
  classify s h (leAt s.mem h 8) (leAt s.mem (h + 8) 4) (s.mem.read (h + 12)).toNat

/-! ## The lane sums -/

/-- The counter invariants of spec R427 (1) to (4). -/
def SumCountersOk (s : State) : Prop :=
  s.sumsValid = true → ∀ l, l < 8 → ∀ k, k < 3 →
    (s.sum l k).ne.toInt % 8 = l ∧ s.sumStartElem.toInt ≤ (s.sum l k).ne.toInt ∧
    (s.sum l k).ne.toInt < max (s.sum l k).se.toInt s.sumStartElem.toInt + 8 ∧
    s.sumStartElem.toInt ≤ (s.sum l k).se.toInt ∧ 0 ≤ (s.sum l k).ne.toInt ∧ 0 ≤ (s.sum l k).se.toInt

/-- Byte `b` of what the originals of the `n` elements `e`, `e + 8`, … add to a sum of index `k` (spec R420, R421). -/
def foldedByte (t : Tables) (s : State) (k b : Nat) : (n : Nat) → (e : Int) → Byte
  | 0, _ => 0
  | n + 1, e =>
    (if b < (descAt s e).2 then gfMul s.params (weight t s e k) (s.mem.read ((descAt s e).1 + b)) else 0) ^^^
      foldedByte t s k b n (e + 8)

/-- The longest of the originals of the `n` elements `e`, `e + 8`, … (spec R420). -/
def foldedLength (s : State) : (n : Nat) → (e : Int) → Nat
  | 0, _ => 0
  | n + 1, e => max (descAt s e).2 (foldedLength s n (e + 8))

/-- The window's descriptors are readable, and the originals of its elements end inside the data space and fit a sum
buffer (spec R423, R424). -/
def OriginalsFit (s : State) : Prop :=
  s.descBase.toNat + 16 * s.winCount.toNat ≤ 2 ^ 64 ∧
  ∀ e, e < s.winCount.toNat → (descAt s e).2 ≤ s.sumStride.toNat ∧ (descAt s e).1 + (descAt s e).2 ≤ 2 ^ 64

/-- The 24 sum buffers lie in the data space and share no byte with another structure (spec R112, R626). -/
def SumsApart (s : State) : Prop :=
  s.sumBase.toNat + 24 * s.sumStride.toNat ≤ 2 ^ 64 ∧
  ∀ b, b < 24 * s.sumStride.toNat → inRegions (aroundSums s) (s.sumBase.toNat + b) = false

/-- The descriptor table is the one the host owes after its WIN_SHIFTs, and no host access races (spec R622, R126). -/
def TableTrusted (s : State) : Prop :=
  s.raced = [] ∧ s.tableTainted = false ∧ ∀ x ∈ s.pending, x.orig.elem < s.winCount.toNat → fulfilled s x = true

/-- Plain memory everywhere, in its canonical form, and sums and a table whose meaning the host has kept (spec R105, R622,
R624, R625). -/
def SumsTrusted (s : State) : Prop :=
  s.mem.wf = true ∧ s.port = [] ∧ TableTrusted s ∧ s.sumsTainted = false ∧ (∀ x ∈ s.folded, foldedChanged s x = false)

/-- What `fold` to `stop` makes of a sum of index `k` whose counters are `c` and whose buffer is at `base`, from memory `s.mem`
to `m`: the counters `c'`, and every byte below its length (spec R420, R422). -/
def FoldedTo (t : Tables) (s : State) (m : Memory) (base k : Nat) (stop : Int) (c c' : SumCtr) : Prop :=
  let n := foldRounds c.ne.toInt stop
  c'.ne.toInt = c.ne.toInt + 8 * n ∧ c'.se.toInt = max c.se.toInt stop ∧
  c'.sl.toNat = max c.sl.toNat (foldedLength s n c.ne.toInt) ∧
  ∀ b, b < c'.sl.toNat → m.read (base + b) =
    (if b < c.sl.toNat then s.mem.read (base + b) else 0) ^^^ foldedByte t s k b n c.ne.toInt

/-- No sum has been folded from before element 0 or grown past its buffer (spec R427, R423). -/
def SumsInBuffers (s : State) : Prop :=
  ∀ l, l < 8 → ∀ k, k < 3 → 0 ≤ (s.sum l k).ne.toInt ∧ (s.sum l k).sl.toNat ≤ s.sumStride.toNat

/-! ## Rows -/

/-- Byte `b` of the sum of `f e` of the originals of the `n` elements from `e` (spec R483, R492). -/
def windowByte (s : State) (f : Nat → Byte → Byte) (b : Nat) : (n e : Nat) → Byte
  | 0, _ => 0
  | n + 1, e =>
    (if b < (descAt s e).2 then f e (s.mem.read ((descAt s e).1 + b)) else 0) ^^^ windowByte s f b n (e + 1)

/-- The first `n` bytes of the scratch lie in the data space with the footer's room after them, fit `REC_CAP`, and share
no byte with another structure (spec R113, R486, R626). -/
def ScratchApart (s : State) (n : Nat) : Prop :=
  n + 8 ≤ s.recCap.toNat ∧ s.recBase.toNat + n + 8 ≤ 2 ^ 64 ∧
  ∀ b, b < n → inRegions (aroundScratch s) (s.recBase.toNat + b) = false

/-- The window holds `u` elements and no more than `ELEM_MAX` (spec R495). -/
def WindowHolds (s : State) (u : Nat) : Prop :=
  s.winFirstElem.toNat + u = s.winCount.toNat ∧ s.winCount.toNat ≤ s.params.elemMax

/-- Every original of the window ends inside the data space, and so does the descriptor table, which the host has kept (spec
R424, R622). -/
def WindowReadable (s : State) : Prop :=
  s.mem.wf = true ∧ s.port = [] ∧ TableTrusted s ∧ s.descBase.toNat + 16 * s.winCount.toNat ≤ 2 ^ 64 ∧
  ∀ e, e < s.winCount.toNat → s.winFirstElem.toNat ≤ e → (descAt s e).1 + (descAt s e).2 ≤ 2 ^ 64

/-- Byte `b` of the sums that the opcode bits `shift .. shift + 2` of the lanes select, as memory holds them (spec R494). -/
def denseByte (t : State) (op : Nat → BitVec 6) (shift lp b : Nat) : (n : Nat) → Byte
  | 0 => 0
  | n + 1 =>
    (if (op (n / 3)).getLsbD (n % 3 + shift) && decide (b < min (t.sum (n / 3) (n % 3)).sl.toNat lp) then
      t.mem.read (sumAddr t (n / 3) (n % 3) + b) else 0) ^^^ denseByte t op shift lp b n

/-- The element of one side of a pair: the first number drawn for the a side, the second for the b side (spec R493). -/
def pairElement (g : Pcg) (bSide : Bool) (first u : Nat) : Nat :=
  first + (if bSide then g.advance.output else g.output).toNat % u

/-- Byte `b` of the originals that the pairs pick on one side (spec R493, R494). -/
def lightByte (s : State) (bSide : Bool) (first u b : Nat) : (pairs : Nat) → Pcg → Byte
  | 0, _ => 0
  | n + 1, g =>
    (if b < (descAt s (pairElement g bSide first u)).2 then
      s.mem.read ((descAt s (pairElement g bSide first u)).1 + b) else 0) ^^^
      lightByte s bSide first u b n g.advance.advance

end Sys2Proof.Machine
end

