-- ==== Sys2Proof/Certificates/Slice0/Obligations.lean ====
section
/-! DEFINITION. The statements for the provers. Each docstring names the rule of spec/ it rests on. -/

open Sys2Proof Sys2Proof.Machine

/-! ## Words -/

/-- R150 to R152, R160: every command's word decodes to the command, with every operand. -/
def Obligations.DecodeEncode : Prop := ∀ i : Instr, decode (encode i) = .ok i

/-- R161, R163: a word that decodes is the word of what it decodes to; no bit of it is ignored. -/
def Obligations.EncodeDecode : Prop := ∀ (w : CmdWord) (i : Instr), decode w = .ok i → encode i = w

/-- R170: words written out from the syntax table decode to the commands they stand for, one or more per family. -/
def Obligations.WrittenWordsDecode : Prop :=
  decode 0x00000000#32 = .ok .nop ∧ decode 0x11A50000#32 = .ok (.gfMuladdMem 0xA5#8) ∧
  decode 0x1453CA00#32 = .ok (.gfMul 0x53#8 0xCA#8) ∧ decode 0x1A531500#32 = .ok (.gfNibtab 0x53#8 true 5#4) ∧
  decode 0x27000300#32 = .ok (.bsFfs 3#4) ∧ decode 0x32000100#32 = .ok (.slabRealloc true) ∧
  decode 0x41002100#32 = .ok (.sumsGet 2#2 1#3) ∧ decode 0x48000000#32 = .ok .rowEncode ∧
  decode 0x49056400#32 = .ok (.cauchyElem 5#8 100#8)

/-- R162: the OPCODE values of its list, and no others, are illegal, and a command with one is rejected with
ILLEGAL_OPCODE and nothing else. -/
def Obligations.IllegalOpcodeRejected : Prop :=
  ∀ s : State,
    let op := (opcodeOf s.cmd).toNat
    let listed := (0x01 ≤ op ∧ op ≤ 0x0F) ∨ (0x1B ≤ op ∧ op ≤ 0x1F) ∨ (0x28 ≤ op ∧ op ≤ 0x2F) ∨
      (0x34 ≤ op ∧ op ≤ 0x3F) ∨ (0x43 ≤ op ∧ op ≤ 0x47) ∨ (0x4A ≤ op ∧ op ≤ 0xFF)
    (decode s.cmd = .error .illegalOpcode ↔ listed) ∧
    (s.inbox = [] → s.busy = true → s.disabled = false → listed →
      step s = .next (s.reject .invalidInput .illegalOpcode))

/-- R161 with the masks of R151: a word of a legal OPCODE with a must-be-zero bit set is rejected with RESERVED_FIELD and
nothing else, and one with none set decodes. A non-zero RSV byte is such a bit for every OPCODE. -/
def Obligations.ReservedFieldRejected : Prop :=
  ∀ (s : State) (op : BitVec 8) (mask : CmdWord),
    (op, mask) ∈ [(0x00#8, 0xFFFFFFFF#32), (0x10#8, 0xFFFFFFFF#32), (0x11#8, 0xFF00FFFF#32), (0x12#8, 0xFF00FFFF#32),
      (0x13#8, 0xFF00FFFF#32), (0x14#8, 0xFF0000FF#32), (0x15#8, 0xFF0000FF#32), (0x16#8, 0xFF00FFFF#32),
      (0x17#8, 0xFF00FFFF#32), (0x18#8, 0xFF00FFFF#32), (0x19#8, 0xFF00FFFF#32), (0x1A#8, 0xFF00E0FF#32),
      (0x20#8, 0xFFFFF0FF#32), (0x21#8, 0xFFFFF0FF#32), (0x22#8, 0xFFFFF0FF#32), (0x23#8, 0xFFFFF0FF#32),
      (0x24#8, 0xFFFFF0FF#32), (0x25#8, 0xFFFFF0FF#32), (0x26#8, 0xFFFFF0FF#32), (0x27#8, 0xFFFFF0FF#32),
      (0x30#8, 0xFFFFFFFF#32), (0x31#8, 0xFFFFFFFF#32), (0x32#8, 0xFFFFFEFF#32), (0x33#8, 0xFFFFFFFF#32),
      (0x40#8, 0xFFFFFFFF#32), (0x41#8, 0xFFFFC8FF#32), (0x42#8, 0xFFFFFFFF#32), (0x48#8, 0xFFFFFFFF#32),
      (0x49#8, 0xFF0000FF#32)] →
    opcodeOf s.cmd = op →
    (s.cmd &&& mask = op ++ 0#24 → ∃ i, decode s.cmd = .ok i) ∧
    (s.cmd &&& mask ≠ op ++ 0#24 → s.inbox = [] → s.busy = true → s.disabled = false →
      step s = .next (s.reject .invalidInput .reservedField)) ∧
    (s.cmd.extractLsb' 0 8 ≠ 0#8 → s.cmd &&& mask ≠ op ++ 0#24)

/-! ## Issue, the end of a command, the latch -/

/-- R540, R163: a store to CMD while BUSY = 0 starts the command of its low 32 bits, and a step that comes to a running
command, not DISABLED, whose word decodes to a command is that command's `exec`. `withFetchWord` stands for such a start: that
it also puts the end of the command first is the model's choice (log 1). -/
def Obligations.StepRunsCommand : Prop :=
  (∀ (s : State) (v : Word) (rest : List HostAction), s.busy = false →
    s.inbox = .csrStore (s.params.csrBase + 0x020) 8 v :: rest →
    step s = .next { s with inbox := rest, busy := true, cmd := v.setWidth 32 }) ∧
  (∀ (s : State) (i : Instr), s.busy = true → s.disabled = false → decode s.cmd = .ok i →
    (s.inbox = [] → step s = exec i s) ∧
    (∀ rest, s.inbox = .letRun :: rest → step s = exec i { s with inbox := rest })) ∧
  (∀ (s : State) (nbits w : Nat) (i : Instr), s.disabled = false → decodeTableWord nbits w = some i →
    step (s.withFetchWord nbits w) = exec i { s with busy := true, cmd := BitVec.ofNat 32 (w % 2 ^ nbits) })

/-- R561: every command ends, in a next state, in exactly one finish: BUSY 0, IRQ_PENDING 1, LAST_OPCODE the word's OPCODE,
RESULT one of the four codes that R560 says the block produces. R545: NOP does that, with Success, and nothing else (`raced` is
the model's record of races with a running command, log 15). No step stops (R568). -/
def Obligations.EveryCommandEnds : Prop :=
  (∀ s : State, exec .nop s =
    .next { s with result := 0x00#8, lastOpcode := opcodeOf s.cmd, irqPending := true, busy := false, raced := [] }) ∧
  (∀ (i : Instr) (s : State), ∃ t, exec i s = .next t ∧ t.busy = false ∧ t.irqPending = true ∧
    t.lastOpcode = opcodeOf s.cmd ∧
    (t.result = 0x00#8 ∨ t.result = 0xFF#8 ∨ t.result = 0xFE#8 ∨ t.result = 0xFB#8)) ∧
  ∀ s : State, SafeStep s

/-- R563: a command that ends with InvalidInput has set one ERROR bit and the fields of `finish`, and made no other
change (`raced` is the model's record of races with a running command, log 15). -/
def Obligations.RejectIsPrecise : Prop :=
  ∀ (i : Instr) (s t : State), exec i s = .next t → t.result = 0xFF#8 →
    ∃ e : ErrorBit, t = { s with
      error := s.error ||| e.mask
      result := 0xFF#8
      lastOpcode := opcodeOf s.cmd
      irqPending := true
      busy := false
      raced := [] }

/-- R564, R37, R565: a command sets at most one ERROR bit and clears none; one that does not end with Success writes no RES
register; one that ends with Disabled has latched DISABLED and set one of the four fatal bits, and no other changes
DISABLED. -/
def Obligations.OutcomesSetErrors : Prop :=
  ∀ (i : Instr) (s t : State), exec i s = .next t →
    ((t.result = 0x00#8 ∨ t.result = 0xFE#8) → t.error = s.error) ∧
    (t.result = 0xFF#8 → ∃ e : ErrorBit, t.error = s.error ||| e.mask) ∧
    (t.result = 0xFB#8 → t.disabled = true ∧
      ∃ e ∈ [ErrorBit.hostAllocFail, .slotExhausted, .sumOverflow, .busError], t.error = s.error ||| e.mask) ∧
    (t.result ≠ 0xFB#8 → t.disabled = s.disabled) ∧
    (t.result ≠ 0x00#8 → t.res0 = s.res0 ∧ t.res1 = s.res1 ∧ t.res2 = s.res2 ∧ t.res3 = s.res3)

/-- R36, R55, R40 to R48: no command writes an ARG register, a parameter, CONTROL, or a configuration register that its
rule does not name; WIN_SHIFT alone moves the window, and ROW_ENCODE alone the row counters. -/
def Obligations.CommandFrame : Prop :=
  ∀ (i : Instr) (s t : State), exec i s = .next t →
    (t.arg0 = s.arg0 ∧ t.arg1 = s.arg1 ∧ t.arg2 = s.arg2 ∧ t.arg3 = s.arg3) ∧
    (t.params = s.params ∧ t.irqEn = s.irqEn ∧ t.cmd = s.cmd ∧ t.port = s.port ∧ t.inbox = s.inbox ∧
      t.hostDraws = s.hostDraws) ∧
    (t.winLongest = s.winLongest ∧ t.descBase = s.descBase ∧ t.sumBase = s.sumBase ∧ t.sumStride = s.sumStride ∧
      t.recBase = s.recBase ∧ t.recCap = s.recCap) ∧
    (i ≠ .winShift → t.winColumnStart = s.winColumnStart ∧ t.winFirstElem = s.winFirstElem ∧ t.winCount = s.winCount) ∧
    (i ≠ .rowEncode → t.nextRow = s.nextRow ∧ t.nextCauchyRow = s.nextCauchyRow ∧
      t.nextParityColumn = s.nextParityColumn ∧ t.npcValid = s.npcValid)

/-- R566, R567: while DISABLED every command ends with Disabled and DISABLED_CMD before its word is decoded, and no step
but a reset clears DISABLED: not a store to STATUS either. -/
def Obligations.DisabledIsTerminal : Prop :=
  (∀ s : State, s.disabled = true → s.busy = true → s.inbox = [] → step s = .next (s.reject .disabled .disabledCmd)) ∧
  (∀ s t : State, s.disabled = true → step s = .next t →
    (∀ rest, s.inbox ≠ .platformReset :: rest) →
    (∀ v rest, v.getLsbD 1 = true → s.inbox ≠ .csrStore (s.params.csrBase + 0x010) 8 v :: rest) → t.disabled = true)

/-- R570, R571: every running command, whatever its word, ends with IRQ_PENDING 1, and the interrupt line is then IRQ_EN; a
store to STATUS clears IRQ_PENDING exactly when its bit 2 is 1, and the line is then low. -/
def Obligations.InterruptLine : Prop :=
  (∀ s : State, ∃ t, runCommand s = .next t ∧ t.irqPending = true ∧ irqLine t = s.irqEn) ∧
  (∀ (s : State) (v : Word) (rest : List HostAction), s.inbox = .csrStore (s.params.csrBase + 0x008) 8 v :: rest →
    ∃ t, step s = .next t ∧ (v.getLsbD 2 = true → irqLine t = false) ∧
      t = { s with inbox := rest, irqPending := if v.getLsbD 2 then false else s.irqPending })

/-! ## The host's side -/

/-- R36, R40 to R52: while BUSY = 0, a store to a register reads back as the value its rule allows, and every other
register keeps its value; R33, R34: a store to CONTROL that leaves SOFT_RESET alone sets IRQ_EN, and one to ERROR clears the
bits it names. -/
def Obligations.CsrStoreReadBack : Prop :=
  ∀ (s : State) (offset : Nat) (v : Word) (rest : List HostAction), s.busy = false →
    s.inbox = .csrStore (s.params.csrBase + offset) 8 v :: rest →
    (offset ∈ [0x028, 0x030, 0x038, 0x040, 0x080, 0x088, 0x090, 0x098, 0x0A0, 0x0A8, 0x0B0, 0x0B8, 0x0C0, 0x0C8, 0x0D0,
        0x0D8] →
      ∃ t, step s = .next t ∧ (∀ o, o ≠ offset → csrValue t o = csrValue s o) ∧ t.mem = s.mem ∧
        csrValue t offset =
          if offset = 0x080 then v &&& 0x3FFFF8#64
          else if offset ∈ [0x088, 0x090, 0x098, 0x0C0] then v &&& 0xFFFFFFFF#64
          else if offset ∈ [0x0A0, 0x0A8, 0x0B8] then v &&& 0xFFFFFFFFFFFFFFF0#64
          else if offset = 0x0B0 then v &&& 0xFFFFFFF0#64
          else if offset = 0x0C8 then BitVec.ofNat 64 (v.toNat % 2 ^ 32 % s.params.rowPeriod)
          else if offset = 0x0D0 then BitVec.ofNat 64 (v.toNat % 2 ^ 16 % s.params.maxCauchyRows)
          else if offset = 0x0D8 then v &&& 0x1003FFFFF#64
          else v) ∧
    (offset = 0x010 → v.getLsbD 1 = false → step s = .next { s with inbox := rest, irqEn := v.getLsbD 0 }) ∧
    (offset = 0x018 → step s = .next { s with inbox := rest, error := s.error &&& ~~~(v.setWidth 15) })

/-- R542: while BUSY = 1, a store to CMD, an ARG, a configuration register or a row counter is ignored but for
WRITE_WHILE_BUSY; stores to STATUS, CONTROL and ERROR take effect, and one that sets SOFT_RESET ends BUSY. -/
def Obligations.WriteWhileBusy : Prop :=
  ∀ (s : State) (offset : Nat) (v : Word) (rest : List HostAction), s.busy = true →
    s.inbox = .csrStore (s.params.csrBase + offset) 8 v :: rest →
    (offset ∈ [0x020, 0x028, 0x030, 0x038, 0x040, 0x080, 0x088, 0x090, 0x098, 0x0A0, 0x0A8, 0x0B0, 0x0B8, 0x0C0, 0x0C8,
        0x0D0, 0x0D8] →
      step s = .next { s with inbox := rest, error := s.error ||| ErrorBit.writeWhileBusy.mask }) ∧
    (offset = 0x008 → step s = .next { s with inbox := rest, irqPending := s.irqPending && !v.getLsbD 2 }) ∧
    (offset = 0x018 → step s = .next { s with inbox := rest, error := s.error &&& ~~~(v.setWidth 15) }) ∧
    (offset = 0x010 → v.getLsbD 1 = false → step s = .next { s with inbox := rest, irqEn := v.getLsbD 0 }) ∧
    (offset = 0x010 → v.getLsbD 1 = true → ∃ t, step s = .next t ∧ t.busy = false ∧ t.result = 0x00#8 ∧
      t.irqPending = false)

/-- R30, R544: a store to the CSR window that is not 64 bits wide or not aligned, to an offset that is not in the map, or to an RO
register is ignored. That a store to an address outside the window (below CSR_BASE, or from CSR_BASE + 0x200 on) is ignored too is
the model's choice (log 16). -/
def Obligations.CsrStoresIgnored : Prop :=
  ∀ (s : State) (addr width : Nat) (v : Word) (rest : List HostAction), s.inbox = .csrStore addr width v :: rest →
    (addr < s.params.csrBase ∨ s.params.csrBase + 0x120 ≤ addr ∨ width ≠ 8 ∨ (addr - s.params.csrBase) % 8 ≠ 0 ∨
      addr - s.params.csrBase ∈ [0x000, 0x048, 0x050, 0x058, 0x060, 0x068, 0x070, 0x078, 0x0E0, 0x0E8, 0x0F0, 0x0F8, 0x100,
        0x108, 0x110, 0x118]) → step s = .next { s with inbox := rest }

/-- R30, R543, R544: a load from the CSR window returns 0 for an access of another width or alignment or an offset not in the
map; while BUSY it returns the register's value or, for the registers of R543's list, that or the value after the running
command. No load changes anything in the block. -/
def Obligations.CsrLoads : Prop :=
  ∀ (s : State) (offset width : Nat) (rest : List HostAction),
    s.inbox = .csrLoad (s.params.csrBase + offset) width :: rest →
    ∃ t, step s = .next t ∧ t = { s with inbox := rest, hostRead := t.hostRead, hostDraws := s.hostDraws + 1 } ∧
      (offset < 0x200 →
        (width ≠ 8 ∨ offset % 8 ≠ 0 ∨ 0x120 ≤ offset ∨ offset ∈ [0x020, 0x068, 0x070, 0x078, 0x0E8, 0x0F0, 0x0F8] →
          t.hostRead = 0) ∧
        (width = 8 → offset % 8 = 0 → s.busy = false → t.hostRead = csrValue s offset) ∧
        (width = 8 → offset % 8 = 0 → s.busy = true → t.hostRead = csrValue s offset ∨
          (offset ∈ [0x048, 0x050, 0x058, 0x060, 0x0E0, 0x0C8, 0x0D0, 0x0D8, 0x080, 0x088, 0x090] ∧
            ∃ u, runCommand { s with inbox := rest } = .next u ∧ t.hostRead = csrValue u offset)))

/-- R100, R125, R126: the host's store to the data memory writes its bytes and nothing else, and its load returns the byte,
while no command runs or when the running command does not use the byte; a store to bytes the running command uses leaves
any value there, and changes no byte outside the store (`raced`, `replaced`, `copied` and `pending` are the model's records,
logs 15 and 12). At an address whose accesses have side effects this plain read-back is the model's choice (log 17: DESIGN
CHOICE, unsafe). -/
def Obligations.HostMemory : Prop :=
  ∀ (s : State) (addr : Word) (rest : List HostAction), s.mem.wf = true →
    (∀ bytes : List Byte, s.inbox = .memStore addr bytes :: rest → addr.toNat + bytes.length ≤ 2 ^ 64 →
      (s.busy = false ∨ (bytes.length = 1 ∧ usesByte { s with inbox := rest } addr.toNat = false) →
        ∃ m rep cop owed, step s = .next { s with inbox := rest, mem := m, replaced := rep, copied := cop, pending := owed } ∧
          WritesOnly s.mem m addr.toNat bytes.length (fun i => bytes.getD i 0)) ∧
      ∃ m r rep cop owed d,
        step s = .next
          { s with inbox := rest, mem := m, raced := r, replaced := rep, copied := cop, pending := owed, hostDraws := d } ∧
        m.wf = true ∧
        ∀ a, ¬ (addr.toNat ≤ a ∧ a < addr.toNat + bytes.length) → m.read a = s.mem.read a) ∧
    (s.inbox = .memLoad addr :: rest → ∃ v : Byte,
      step s = .next { s with inbox := rest, hostRead := v.setWidth 64, hostDraws := s.hostDraws + 1 } ∧
      (s.busy = false ∨ usesByte { s with inbox := rest } addr.toNat = false → v = s.mem.read addr.toNat))

/-- R600, R601: reset by either source while no command runs puts every register and internal element at its reset value
and leaves the data memory, the parameters and the host allocator's books. -/
def Obligations.ResetWhileIdle : Prop :=
  ∀ (s : State) (rest : List HostAction), s.busy = false →
    (s.inbox = .platformReset :: rest ∨ ∃ v : Word, v.getLsbD 1 = true ∧
      s.inbox = .csrStore (s.params.csrBase + 0x010) 8 v :: rest) →
    step s = .next { State.reset with
      params := s.params
      mem := s.mem
      port := s.port
      allocAnswers := s.allocAnswers
      largeLive := s.largeLive
      windowsLive := s.windowsLive
      hostFrees := s.hostFrees
      draws := s.draws
      hostDraws := s.hostDraws
      inbox := rest
      hostRead := s.hostRead }

/-- R600, R601: a reset while a command runs leaves the block as reset leaves it, sets no RESULT and no IRQ_PENDING, changes
no byte outside what the command would have written, and takes no window out of the host's books. -/
def Obligations.AbandonedCommand : Prop :=
  ∀ (s : State) (rest : List HostAction), s.busy = true → s.mem.wf = true →
    (s.inbox = .platformReset :: rest ∨ ∃ v : Word, v.getLsbD 1 = true ∧
      s.inbox = .csrStore (s.params.csrBase + 0x010) 8 v :: rest) →
    ∃ t, step s = .next t ∧ t.result = 0x00#8 ∧ t.irqPending = false ∧
      (∃ m a f l w d, t = { ({ s with inbox := rest } : State).resetBlock with
        mem := m, allocAnswers := a, hostFrees := f, largeLive := l, windowsLive := w, draws := d }) ∧
      (∀ x ∈ s.windowsLive, x ∈ t.windowsLive) ∧
      ∀ x, x ∉ (runningCommand { s with inbox := rest }).writes → t.mem.read x = s.mem.read x

/-- R68 with R31 and R55: the registers right after reset read as the rule says, every bit of every bitset is 0, no slot
is live, both lists are empty, the counters are 0; the invariants of the other statements hold of it. The values of
PARAM1 to PARAM3 and of UNIT are the default build's (log 6). -/
def Obligations.ResetState : Prop :=
  (∀ offset, csrValue State.reset offset =
    if offset = 0x000 then 0x0000000153434F52#64
    else if offset = 0x100 then 0x0800080004100308#64
    else if offset = 0x108 then 0x001000C000400040#64
    else if offset = 0x110 then 0x0000010000002000#64
    else if offset = 0x118 then 0x000040002002011D#64
    else 0#64) ∧
  (∀ b j, State.reset.bit b j = false) ∧ (∀ i, (State.reset.slot i).live = false) ∧
  State.reset.prefList = [] ∧ State.reset.fullList = [] ∧
  (∀ l k, State.reset.sum l k = { ne := 0, sl := 0, se := 0 }) ∧
  State.reset.mem.wf = true ∧ State.reset.params.Legal ∧ FieldOk State.reset.params ∧ RegistersLegal State.reset ∧
  SlabInvariant State.reset ∧ SumCountersOk State.reset

/-! ## What every step keeps -/

/-- R101: every step keeps the data memory in its canonical form, inside the data space. -/
def Obligations.StepKeepsMemoryCanonical : Prop :=
  ∀ s t : State, s.mem.wf = true → step s = .next t → t.mem.wf = true

/-- R40, R44 to R47, R50, R51: with legal parameters, every step keeps the WARL registers and the row counters legal. -/
def Obligations.StepKeepsRegistersLegal : Prop :=
  ∀ s t : State, s.params.Legal → RegistersLegal s → step s = .next t → t.params = s.params ∧ RegistersLegal t

/-- R354, R63, R601: with legal parameters, every step keeps the allocator's invariant, and every live window in the host's
books. -/
def Obligations.StepKeepsSlabInvariant : Prop :=
  ∀ s t : State, s.params.Legal → SlabInvariant s → step s = .next t → SlabInvariant t

/-- R427: every command that does not latch DISABLED keeps the counter invariants, for windows whose counts are far from
the ends of s32 (log 5). -/
def Obligations.CommandsKeepSumCounters : Prop :=
  ∀ (i : Instr) (s t : State), SumCountersOk s → s.winCount.toNat ≤ 2 ^ 30 → -2 ^ 30 ≤ s.sumStartElem.toInt →
    exec i s = .next t → t.disabled = false → SumCountersOk t

/-- R61: a command that is none of the bitset engine's neither reads nor writes a bitset: it leaves them, and with other
bitsets it does the same to all else. After reset every bit is 0. -/
def Obligations.BitsetIsolation : Prop :=
  (∀ (i : Instr) (s t : State) (v : Vector (BitVec Config.bitsetWidth) Config.maxBitsets), isBitsetCommand i = false →
    exec i s = .next t → t.bitsets = s.bitsets ∧ exec i { s with bitsets := v } = .next { t with bitsets := v }) ∧
  (∀ b j, State.reset.bit b j = false)

/-! ## The GF(256) unit -/

/-- R201: what the EXP and LOG tables hold in every build whose ROM follows the rule, and that the default build's does, with
the values the rule lists. -/
def Obligations.GfTables : Prop :=
  (∀ p : Params, FieldOk p → (∀ i, i ≤ 254 → gfExp p i = generatorPower p i) ∧
    ∀ x : Byte, x ≠ 0 → gfLog p x ≤ 254 ∧ gfExp p (gfLog p x) = x ∧ ∀ i, i ≤ 254 → gfExp p i = x → i = gfLog p x) ∧
  FieldOk Params.default ∧
  (List.range 16).map (gfExp Params.default) = [0x01#8, 0x02#8, 0x04#8, 0x08#8, 0x10#8, 0x20#8, 0x40#8, 0x80#8, 0x1D#8,
    0x3A#8, 0x74#8, 0xE8#8, 0xCD#8, 0x87#8, 0x13#8, 0x26#8] ∧ gfExp Params.default 254 = 0x8E#8

/-- R207 with R202, for every polynomial and generator of a build (U1): the field laws, and `gf_mul` is the polynomial product
modulo GF_POLY; R208: the nibble tables, and the product of a scalar and a byte through them. -/
def Obligations.GfFieldLaws : Prop :=
  ∀ p : Params, FieldOk p →
    (∀ (c x : Byte) (j : BitVec 4), nibLo p c j = gfMul p c (0#4 ++ j) ∧ nibHi p c j = gfMul p c (j ++ 0#4) ∧
      gfMul p c x = nibLo p c (x.extractLsb' 0 4) ^^^ nibHi p c (x.extractLsb' 4 4)) ∧
    ∀ a b c : Byte, gfMul p a b = xmul p a b ∧ gfMul p a b = gfMul p b a ∧
      gfMul p (gfMul p a b) c = gfMul p a (gfMul p b c) ∧ gfMul p a (b ^^^ c) = gfMul p a b ^^^ gfMul p a c ∧
      gfMul p a 1 = a ∧ gfMul p a 0 = 0 ∧ (a ≠ 0 → gfMul p a (gfInv p a) = 1) ∧
      (b ≠ 0 → gfDiv p (gfMul p a b) b = a) ∧ gfSqr p (a ^^^ b) = gfSqr p a ^^^ gfSqr p b

/-- R210 to R216: the scalar commands write the product modulo GF_POLY, the quotient, the inverse, the logarithm or the power
of the generator to RES0 and nothing else; a zero divisor and the logarithm of zero are rejected. -/
def Obligations.GfScalarResults : Prop :=
  (∀ (a b : Byte) (hi : Bool) (j : BitVec 4) (s : State), FieldOk s.params →
    let answers := fun (i : Instr) (v : Word) => exec i s = .next (({ s with res0 := v } : State).finish .success)
    answers (.gfMul a b) ((xmul s.params a b).setWidth 64) ∧ answers (.gfSqr a) ((xmul s.params a a).setWidth 64) ∧
    answers (.gfNibtab a hi j) ((xmul s.params a (if hi then j ++ 0#4 else 0#4 ++ j)).setWidth 64) ∧
    (b ≠ 0 → ∃ q : Byte, xmul s.params q b = a ∧ answers (.gfDiv a b) (q.setWidth 64)) ∧
    (b ≠ 0 → ∃ q : Byte, xmul s.params q b = 1 ∧ answers (.gfInv b) (q.setWidth 64)) ∧
    (a ≠ 0 → ∃ k, k ≤ 254 ∧ generatorPower s.params k = a ∧ answers (.gfLog a) (BitVec.ofNat 64 k)) ∧
    answers (.gfExp a) ((generatorPower s.params (a.toNat % 255)).setWidth 64)) ∧
  ∀ (a : Byte) (s : State), ∀ i ∈ [Instr.gfDiv a 0, .gfInv 0, .gfLog 0],
    exec i s = .next (s.reject .invalidInput .zeroDivisor)

/-- R222: the checks of the vector commands, in their order, before any memory access. -/
def Obligations.GfVectorChecks : Prop :=
  ∀ (i : Instr) (s : State), s.params.Legal →
    exec (.gfDivMem 0) s = .next (s.reject .invalidInput .zeroDivisor) ∧
    (i = .gfAddMem ∨ (∃ c, i = .gfMuladdMem c) ∨ (∃ c, i = .gfMulMem c) ∨ (∃ c : Byte, c ≠ 0 ∧ i = .gfDivMem c) →
      let dst := s.arg0.toNat
      let src := s.arg1.toNat
      let n := s.arg2.toNat
      (n > 2 ^ 30 → exec i s = .next (s.reject .invalidInput .argRange)) ∧
      (n = 0 → exec i s = .next (s.finish .success)) ∧
      (0 < n → n ≤ 2 ^ 30 → (dst + n > 2 ^ 64 ∨ src + n > 2 ^ 64) →
        exec i s = .next (s.reject .invalidInput .argRange)) ∧
      (0 < n → n ≤ 2 ^ 30 → dst + n ≤ 2 ^ 64 → src + n ≤ 2 ^ 64 → dst ≠ src ∧ dst < src + n ∧ src < dst + n →
        exec i s = .next (s.reject .invalidInput .overlap)))

/-- R225, R226, R223: GF_ADD_MEM adds src, and GF_MULADD_MEM c times src, into dst byte by byte and changes nothing else;
with c = 0 GF_MULADD_MEM accesses no memory, with c = 1 it is GF_ADD_MEM (`replaced`, `copied` and `pending` are the model's
records of the descriptor table, log 12). -/
def Obligations.GfAddMuladdMemResult : Prop :=
  (∀ s : State, GfBuffersOk s → s.raced = [] → Ordinary s s.arg0.toNat s.arg2.toNat →
    Ordinary s s.arg1.toNat s.arg2.toNat →
    ∃ m rep cop owed,
      exec .gfAddMem s = .next (({ s with mem := m, replaced := rep, copied := cop, pending := owed } : State).finish .success) ∧
      WritesOnly s.mem m s.arg0.toNat s.arg2.toNat
        (fun i => s.mem.read (s.arg0.toNat + i) ^^^ s.mem.read (s.arg1.toNat + i))) ∧
  (∀ (c : Byte) (s : State), FieldOk s.params → GfBuffersOk s → s.raced = [] → Ordinary s s.arg0.toNat s.arg2.toNat →
    Ordinary s s.arg1.toNat s.arg2.toNat →
    ∃ m rep cop owed,
      exec (.gfMuladdMem c) s = .next (({ s with mem := m, replaced := rep, copied := cop, pending := owed } : State).finish .success) ∧
      WritesOnly s.mem m s.arg0.toNat s.arg2.toNat
        (fun i => s.mem.read (s.arg0.toNat + i) ^^^ xmul s.params c (s.mem.read (s.arg1.toNat + i)))) ∧
  (∀ s : State, GfBuffersOk s → exec (.gfMuladdMem 0) s = .next (s.finish .success)) ∧
  (∀ s : State, FieldOk s.params → exec (.gfMuladdMem 1) s = exec .gfAddMem s)

/-- R227, R223: GF_MUL_MEM stores c times src to dst byte by byte and changes nothing else; with c = 0 it stores zeros and
does not read src. R228: GF_DIV_MEM stores the quotients of src's bytes by c. (`replaced`, `copied` and `pending` are the model's
records of the descriptor table, log 12.) -/
def Obligations.GfMulDivMemResult : Prop :=
  ∀ (c : Byte) (s : State), FieldOk s.params → GfBuffersOk s → s.raced = [] → Ordinary s s.arg0.toNat s.arg2.toNat →
    (c ≠ 0 → Ordinary s s.arg1.toNat s.arg2.toNat) →
    (∃ m rep cop owed,
      exec (.gfMulMem c) s = .next (({ s with mem := m, replaced := rep, copied := cop, pending := owed } : State).finish .success) ∧
      WritesOnly s.mem m s.arg0.toNat s.arg2.toNat (fun i => xmul s.params c (s.mem.read (s.arg1.toNat + i)))) ∧
    (c ≠ 0 → ∃ (m : Memory) (rep : List Original) (cop : List (Int × Int)) (owed : List Owed) (quot : Byte → Byte),
      (∀ x, xmul s.params (quot x) c = x) ∧
      exec (.gfDivMem c) s = .next (({ s with mem := m, replaced := rep, copied := cop, pending := owed } : State).finish .success) ∧
      WritesOnly s.mem m s.arg0.toNat s.arg2.toNat (fun i => quot (s.mem.read (s.arg1.toNat + i))))

/-- R224, R106: a vector command whose loop meets an access that the port answers with an error ends with Disabled and
BUS_ERROR, and changes no byte outside dst and no other register: a read of dst for GF_ADD_MEM and GF_MULADD_MEM, a read of src
for all but GF_MUL_MEM with c = 0, a write of dst for all. -/
def Obligations.GfBusError : Prop :=
  ∀ (i : Instr) (s : State), GfBuffersOk s →
    let adds := i = .gfAddMem ∨ ∃ c : Byte, c ≠ 0 ∧ i = .gfMuladdMem c
    let scales := (∃ c : Byte, c ≠ 0 ∧ i = .gfMulMem c) ∨ ∃ c : Byte, c ≠ 0 ∧ i = .gfDivMem c
    (∃ j, j < s.arg2.toNat ∧
      ((adds ∧ portHits s.port (s.arg0.toNat + j) [.readError, .anyError] = true) ∨
        ((adds ∨ scales) ∧ portHits s.port (s.arg1.toNat + j) [.readError, .anyError] = true) ∨
        ((adds ∨ scales ∨ i = .gfMulMem 0) ∧ portHits s.port (s.arg0.toNat + j) [.writeError, .anyError] = true))) →
    ∃ m d, exec i s = .next (({ s with mem := m, draws := d } : State).fatal .busError) ∧ m.wf = true ∧
      ∀ a, ¬ (s.arg0.toNat ≤ a ∧ a < s.arg0.toNat + s.arg2.toNat) → m.read a = s.mem.read a

/-! ## The bitset engine -/

/-- R310, R311, R313, R314: BS_SET and BS_CLEAR write one bit, BS_SET_RANGE and BS_CLEAR_RANGE the bits of a half-open
range, and nothing else. -/
def Obligations.BitsetUpdates : Prop :=
  ∀ (b : BitVec 4) (val : Bool) (s : State), s.params.Legal → b.toNat < s.params.nbs →
    (s.arg0.toNat < s.params.bsCap → ∃ v,
      exec (if val then .bsSet b else .bsClear b) s = .next (({ s with bitsets := v } : State).finish .success) ∧
      ∀ b' j, ({ s with bitsets := v } : State).bit b' j =
        if b' = b.toNat ∧ j = s.arg0.toNat then val else s.bit b' j) ∧
    (s.arg0.toNat ≤ s.arg1.toNat → s.arg1.toNat ≤ s.params.bsCap → ∃ v,
      exec (if val then .bsSetRange b else .bsClearRange b) s =
        .next (({ s with bitsets := v } : State).finish .success) ∧
      ∀ b' j, ({ s with bitsets := v } : State).bit b' j =
        if b' = b.toNat ∧ s.arg0.toNat ≤ j ∧ j < s.arg1.toNat then val else s.bit b' j)

/-- R312, R315, R316 with R305, R317 with R306: BS_CHECK answers the bit, BS_POPCOUNT the number of set bits of the range,
BS_FFC the least clear bit from start on, or BS_CAP, BS_FFS the least set bit of the range, or its end; they change RES0
alone. -/
def Obligations.BitsetAnswers : Prop :=
  ∀ (b : BitVec 4) (s : State), b.toNat < s.params.nbs →
    let cap := s.params.bsCap
    let answers := fun (i : Instr) (n : Nat) =>
      exec i s = .next (({ s with res0 := BitVec.ofNat 64 n } : State).finish .success)
    (s.arg0.toNat < cap → answers (.bsCheck b) (if s.bit b.toNat s.arg0.toNat then 1 else 0)) ∧
    (s.arg0.toNat ≤ cap → ∃ r, s.arg0.toNat ≤ r ∧ r ≤ cap ∧
      (∀ j, s.arg0.toNat ≤ j → j < r → s.bit b.toNat j = true) ∧ (r < cap → s.bit b.toNat r = false) ∧
      answers (.bsFfc b) r) ∧
    (s.arg0.toNat ≤ s.arg1.toNat → s.arg1.toNat ≤ cap →
      answers (.bsPopcount b) ((Finset.range cap).filter fun j =>
        s.arg0.toNat ≤ j ∧ j < s.arg1.toNat ∧ s.bit b.toNat j = true).card ∧
      ∃ r, s.arg0.toNat ≤ r ∧ r ≤ s.arg1.toNat ∧ (∀ j, s.arg0.toNat ≤ j → j < r → s.bit b.toNat j = false) ∧
        (r < s.arg1.toNat → s.bit b.toNat r = true) ∧ answers (.bsFfs b) r)

/-- R302, R310 to R317: a bitset number that names no bitset, an index or a start past the end, and an illegal range are
rejected with ARG_RANGE. -/
def Obligations.BitsetRejects : Prop :=
  ∀ (i : Instr) (b : BitVec 4) (s : State),
    ((b.toNat ≥ s.params.nbs ∧ (i = .bsSet b ∨ i = .bsClear b ∨ i = .bsCheck b ∨ i = .bsSetRange b ∨
        i = .bsClearRange b ∨ i = .bsPopcount b ∨ i = .bsFfc b ∨ i = .bsFfs b)) ∨
      (s.arg0.toNat ≥ s.params.bsCap ∧ (i = .bsSet b ∨ i = .bsClear b ∨ i = .bsCheck b)) ∨
      (s.arg0.toNat > s.params.bsCap ∧ i = .bsFfc b) ∨
      (¬ (s.arg0.toNat ≤ s.arg1.toNat ∧ s.arg1.toNat ≤ s.params.bsCap) ∧
        (i = .bsSetRange b ∨ i = .bsClearRange b ∨ i = .bsPopcount b ∨ i = .bsFfs b))) →
    exec i s = .next (s.reject .invalidInput .argRange)

/-! ## The slab allocator -/

/-- R356: `find_gap` answers the lowest run of u clear units at or after the resume offset, and none when there is none. -/
def Obligations.FindGapIsLowest : Prop :=
  ∀ (units : Nat) (w : Slot) (u : Nat), 0 < u →
    let clear := fun st => ∀ j, st ≤ j → j < st + u → w.used.getLsbD j = false
    (∀ st, findGap units w u = some st → w.resume ≤ st ∧ st + u ≤ units ∧ clear st ∧
      ∀ x, w.resume ≤ x → x < st → ¬ clear x) ∧
    (findGap units w u = none → ∀ x, w.resume ≤ x → x + u ≤ units → ¬ clear x)

/-- R357, R361, R370: a request for fewer than 512 units is carved from the first window of PREF, head to tail, that can take
it: its units, count and resume offset, its header in memory, the payload address in RES0, then the migration of R360 over the
windows passed over. -/
def Obligations.SlabAllocFromWindow : Prop :=
  ∀ (i : Instr) (s : State) (b w st : Nat) (scanned : List Nat), SlabTrusted s → Requests i s b →
    1 ≤ b → b ≤ 2 ^ 29 - 1 → unitsFor s.params b < 512 → FirstThatTakes s (unitsFor s.params b) scanned w st →
    let u := unitsFor s.params b
    let h := (s.slot w).base.toNat + st * s.params.unit
    h + 16 ≤ 2 ^ 64 → Ordinary s h 16 → ClearOfStructures s h 16 →
    ∃ m, WritesHeader s.mem m h (w + 1) u ∧
      exec i s = .next (((post ({ s with
        slots := s.slots.setIfInBounds w { s.slot w with
          used := setBits (s.slot w).used st (st + u), free := (s.slot w).free - u, resume := st + u }
        mem := m
        handed := BitVec.ofNat 64 (h + s.params.unit) :: s.handed } : State) w u scanned).setRes0
          (BitVec.ofNat 64 (h + s.params.unit))).finish .success)

/-- R359, R361, R370: a request that no window of PREF can take creates a window in the lowest slot that is not live, at
the head of PREF, and is carved from its first unit. -/
def Obligations.SlabAllocNewWindow : Prop :=
  ∀ (i : Instr) (s : State) (b slot : Nat) (r : Word) (rest : List (Option Word)), SlabTrusted s → Requests i s b →
    1 ≤ b → b ≤ 2 ^ 29 - 1 → unitsFor s.params b < 512 → NoWindowTakes s (unitsFor s.params b) →
    LowestDead s slot → NextAnswer s (2048 * s.params.unit) r rest → Ordinary s r.toNat 16 →
    ClearOfStructures s r.toNat 16 →
    let u := unitsFor s.params b
    ∃ m, WritesHeader s.mem m r.toNat (slot + 1) u ∧
      exec i s = .next (({ s with
        slots := s.slots.setIfInBounds slot
          { live := true, base := r, used := setBits 0 0 u, free := 2048 - u, resume := u, list := .pref }
        prefList := slot :: s.prefList
        allocAnswers := rest
        windowsLive := (r.toNat, 2048 * s.params.unit) :: s.windowsLive
        mem := m
        handed := (r + BitVec.ofNat 64 s.params.unit) :: s.handed
        res0 := r + BitVec.ofNat 64 s.params.unit } : State).finish .success)

/-- R351, R361, R370: a request for 512 units or more goes to the host allocator, with a header that names no window. -/
def Obligations.SlabAllocLarge : Prop :=
  ∀ (i : Instr) (s : State) (b : Nat) (r : Word) (rest : List (Option Word)), SlabTrusted s → Requests i s b →
    1 ≤ b → b ≤ 2 ^ 29 - 1 → 512 ≤ unitsFor s.params b →
    NextAnswer s (unitsFor s.params b * s.params.unit) r rest → Ordinary s r.toNat 16 →
    ClearOfStructures s r.toNat 16 →
    ∃ m, WritesHeader s.mem m r.toNat 0 (unitsFor s.params b) ∧
      exec i s = .next (({ s with
        allocAnswers := rest
        largeLive := (r.toNat, unitsFor s.params b * s.params.unit) :: s.largeLive
        mem := m
        handed := (r + BitVec.ofNat 64 s.params.unit) :: s.handed
        res0 := r + BitVec.ofNat 64 s.params.unit } : State).finish .success)

/-- R355, R358, R359: an empty or too long request is rejected; when the host allocator answers FAIL, or no slot is left, the
command is fatal and the allocator's state is as before. That an answer which breaks R120's constraints counts as FAIL is the
model's choice (log 14). -/
def Obligations.SlabAllocFails : Prop :=
  ∀ (i : Instr) (s : State) (b : Nat), s.params.Legal →
    (Requests i s b ∨ (∃ copy, i = .slabRealloc copy ∧ s.arg1.toNat = b) → (b = 0 ∨ b > 2 ^ 29 - 1) →
      exec i s = .next (s.reject .invalidInput .argRange)) ∧
    (Requests i s b → 1 ≤ b → b ≤ 2 ^ 29 - 1 →
      (∀ rest, 512 ≤ unitsFor s.params b → NextAnswerFails s (unitsFor s.params b * s.params.unit) rest →
        exec i s = .next (({ s with allocAnswers := rest } : State).fatal .hostAllocFail)) ∧
      (unitsFor s.params b < 512 → NoWindowTakes s (unitsFor s.params b) →
        (∀ rest slot, LowestDead s slot → NextAnswerFails s (2048 * s.params.unit) rest →
          exec i s = .next (({ s with allocAnswers := rest } : State).fatal .hostAllocFail)) ∧
        ((∀ j, j < s.params.nwMax → (s.slot j).live = true) → exec i s = .next (s.fatal .slotExhausted))))

/-- R360: `post` moves nothing while the window can serve another such request; else it moves the passed-over windows and
the window itself, those of PREF with fewer than 512 free units, to the tail of FULL in that order. -/
def Obligations.PostMigrates : Prop :=
  ∀ (s : State) (w u : Nat) (scanned : List Nat), s.params.Legal → SlabInvariant s → (scanned ++ [w]).Nodup →
    (∀ x ∈ scanned ++ [w], x < s.params.nwMax) →
    (¬ PassedOver s u w → post s w u scanned = s) ∧
    (PassedOver s u w →
      let moved := (scanned ++ [w]).filter fun x => decide ((s.slot x).list = .pref ∧ (s.slot x).free < 512)
      (post s w u scanned).prefList = s.prefList.filter (fun x => !moved.contains x) ∧
      (post s w u scanned).fullList = s.fullList ++ moved ∧
      (∀ x, (post s w u scanned).slot x = if x ∈ moved then { s.slot x with list := .full } else s.slot x) ∧
      ∃ v p f, post s w u scanned = { s with slots := v, prefList := p, fullList := f })

/-- R362: the checks of a pointer that is not null, for SLAB_FREE and for SLAB_REALLOC of a legal size, in their order: where it
points, the freed flag, then for a large region its size, and for a slab region its window, its place in the window, its run
and that the run is allocated. The first that fails rejects the command with its bit; a header that passes all of them is the
region the other statements speak of. -/
def Obligations.CheckPointer : Prop :=
  ∀ (i : Instr) (s : State), s.params.Legal → s.mem.wf = true → s.raced = [] → s.arg0 ≠ 0 →
    (i = .slabFree ∨ ∃ copy, i = .slabRealloc copy ∧ 1 ≤ s.arg1.toNat ∧ s.arg1.toNat ≤ 2 ^ 29 - 1) →
    let ptr := s.arg0.toNat
    let unit := s.params.unit
    let rejects := fun e => exec i s = .next (s.reject .invalidInput e)
    ((ptr % unit ≠ 0 ∨ ptr < unit) → rejects .badFree) ∧
    ∀ h, HeaderReadable s h →
      let win := leAt s.mem h 8
      let u := leAt s.mem (h + 8) 4
      let freed := (s.mem.read (h + 12)).toNat
      let w := s.slot (win - 1)
      let st := (h - w.base.toNat) / unit
      (freed = 1 → rejects .doubleFree) ∧ (freed > 1 → rejects .badFree) ∧
      (freed = 0 →
        (win = 0 → (u < 512 → rejects .badFree) ∧ (512 ≤ u → headerSays s h = .ok (.large h u))) ∧
        (win ≠ 0 →
          ((s.params.nwMax ≤ win - 1 ∨ w.live = false) → rejects .badFree) ∧
          (win - 1 < s.params.nwMax → w.live = true →
            ((h < w.base.toNat ∨ (h - w.base.toNat) % unit ≠ 0) → rejects .badFree) ∧
            (w.base.toNat ≤ h → (h - w.base.toNat) % unit = 0 →
              ((u < 2 ∨ st + u > 2048) → rejects .badFree) ∧
              (2 ≤ u → st + u ≤ 2048 →
                ((∃ j, st ≤ j ∧ j < st + u ∧ w.used.getLsbD j = false) → rejects .badFree) ∧
                ((∀ j, st ≤ j → j < st + u → w.used.getLsbD j = true) →
                  headerSays s h = .ok (.slab (win - 1) st h u)))))))

/-- R363, R371: SLAB_FREE of the null pointer does nothing; of a pointer whose header passes the checks of R362, it sets the
freed flag and gives the run back to its window, or the region to the host allocator. The `slabTainted` clause says when U12 opens
the later results: that `blocksOwn` judges overwritten headers and pointers from before a reset as it does is the model's choice
(log 11: DEDUCED with DESIGN CHOICES, unsafe). -/
def Obligations.SlabFreeResult : Prop :=
  ∀ (s : State), s.params.Legal → s.mem.wf = true → s.raced = [] →
    (s.arg0 = 0 → exec .slabFree s = .next (s.finish .success)) ∧
    (∀ h, HeaderReadable s h →
      (∀ slot st u, headerSays s h = .ok (.slab slot st h u) →
        exec .slabFree s = .next ((releaseRun { s with
          mem := s.mem.write (h + 12) 1
          handed := s.handed.erase s.arg0
          slabTainted := s.slabTainted || !blocksOwn s (.slab slot st h u) } slot st u).finish .success)) ∧
      (∀ u, headerSays s h = .ok (.large h u) →
        exec .slabFree s = .next (({ s with
          mem := s.mem.write (h + 12) 1
          hostFrees := BitVec.ofNat 64 h :: s.hostFrees
          largeLive := s.largeLive.filter (fun x => x.1 != h)
          handed := s.handed.erase s.arg0
          slabTainted := s.slabTainted || !blocksOwn s (.large h u) } : State).finish .success)))

/-- R363, R364: giving back a run clears its units and no other, adds them to the free count, lowers the resume offset to it,
and moves a window of FULL that now has 512 free units or more to the tail of PREF. -/
def Obligations.ReleaseRunEffect : Prop :=
  ∀ (s : State) (slot st u : Nat), s.params.Legal → slot < s.params.nwMax → st + u ≤ 2048 →
    let t := releaseRun s slot st u
    let promoted := (s.slot slot).list = .full ∧ 512 ≤ (s.slot slot).free + u
    (∀ j, (t.slot slot).used.getLsbD j = ((s.slot slot).used.getLsbD j && !decide (st ≤ j ∧ j < st + u))) ∧
    (t.slot slot).free = (s.slot slot).free + u ∧ (t.slot slot).resume = min st (s.slot slot).resume ∧
    (t.slot slot).live = (s.slot slot).live ∧ (t.slot slot).base = (s.slot slot).base ∧
    (promoted → (t.slot slot).list = .pref ∧ t.prefList = s.prefList ++ [slot] ∧ t.fullList = s.fullList.erase slot) ∧
    (¬ promoted → (t.slot slot).list = (s.slot slot).list ∧ t.prefList = s.prefList ∧ t.fullList = s.fullList) ∧
    (∀ x, x ≠ slot → t.slot x = s.slot x) ∧ ∃ v p f, t = { s with slots := v, prefList := p, fullList := f }

/-- R366, R372: SLAB_REALLOC of a region that is large enough answers its pointer and changes nothing; of a slab region that
stays small and has room behind it, it grows in place: the units behind it, the count, the resume offset, the header's unit
count. -/
def Obligations.SlabReallocInPlace : Prop :=
  ∀ (s : State) (copy : Bool) (h : Nat), SlabTrusted s → HeaderReadable s h → 1 ≤ s.arg1.toNat →
    s.arg1.toNat ≤ 2 ^ 29 - 1 →
    let u2 := unitsFor s.params s.arg1.toNat
    (∀ r, headerSays s h = .ok r → u2 ≤ r.units →
      exec (.slabRealloc copy) s = .next (({ s with res0 := s.arg0 } : State).finish .success)) ∧
    (∀ slot st u, headerSays s h = .ok (.slab slot st h u) → u < u2 → RoomAfter s slot st u u2 →
      ∃ m, m.wf = true ∧ leAt m (h + 8) 4 = u2 ∧
        (∀ a, ¬ (h + 8 ≤ a ∧ a < h + 12) → m.read a = s.mem.read a) ∧
        exec (.slabRealloc copy) s = .next (((post ({ s with
          slots := s.slots.setIfInBounds slot { s.slot slot with
            used := setBits (s.slot slot).used (st + u) (st + u2)
            free := (s.slot slot).free - (u2 - u)
            resume := if st + u ≤ (s.slot slot).resume ∧ (s.slot slot).resume < st + u2 then st + u2
              else (s.slot slot).resume }
          mem := m } : State) slot u2 []).setRes0 s.arg0).finish .success))

/-- R367, R372: SLAB_REALLOC that grows a region to 512 units or more, a slab region or a large one, moves it to a new large
allocation: a new header, the old payload units copied when asked for, then the old region freed. When the host allocator
fails the old region stays allocated (an answer that breaks R120 counts as FAIL: log 14). -/
def Obligations.SlabReallocToLarge : Prop :=
  ∀ (s : State) (copy : Bool) (h : Nat) (old : Allocation) (r : Word) (rest : List (Option Word)), SlabTrusted s →
    HeaderReadable s h → 1 ≤ s.arg1.toNat → s.arg1.toNat ≤ 2 ^ 29 - 1 → headerSays s h = .ok old →
    512 ≤ unitsFor s.params s.arg1.toNat → old.units < unitsFor s.params s.arg1.toNat →
    let u2 := unitsFor s.params s.arg1.toNat
    let p := r.toNat + s.params.unit
    let n := if copy then (old.units - 1) * s.params.unit else 0
    (NextAnswerFails s (u2 * s.params.unit) rest →
      exec (.slabRealloc copy) s = .next (({ s with allocAnswers := rest } : State).fatal .hostAllocFail)) ∧
    (NextAnswer s (u2 * s.params.unit) r rest → s.port = [] → blocksOwn s old = true →
      ClearOfStructures s r.toNat (u2 * s.params.unit) →
      (∀ slot st u, old = .slab slot st h u → (s.slot slot).base.toNat + 2048 * s.params.unit ≤ 2 ^ 64 →
        ∃ m, MovesRegion s.mem m r.toNat 0 u2 p s.arg0.toNat n h ∧
          exec (.slabRealloc copy) s = .next (((releaseRun { s with
            allocAnswers := rest
            largeLive := (r.toNat, u2 * s.params.unit) :: s.largeLive
            mem := m
            handed := (BitVec.ofNat 64 p :: s.handed).erase s.arg0 } slot st u).setRes0 (BitVec.ofNat 64 p)).finish
              .success)) ∧
      (∀ u, old = .large h u → (h, u * s.params.unit) ∈ s.largeLive → h + u * s.params.unit ≤ 2 ^ 64 →
        ∃ m, MovesRegion s.mem m r.toNat 0 u2 p s.arg0.toNat n h ∧
          exec (.slabRealloc copy) s = .next (({ s with
            allocAnswers := rest
            largeLive := ((r.toNat, u2 * s.params.unit) :: s.largeLive).filter (fun x => x.1 != h)
            hostFrees := BitVec.ofNat 64 h :: s.hostFrees
            mem := m
            handed := (BitVec.ofNat 64 p :: s.handed).erase s.arg0
            res0 := BitVec.ofNat 64 p } : State).finish .success)))

/-- R366, R367, R372: SLAB_REALLOC that grows a slab region which stays small but has no room behind it moves it: the first window
of PREF that can take the new region, or else a new window, gets it; a new header, the old payload units copied when asked
for, then the old run released. Without a window, a slot or an answer it is fatal and the old region stays allocated. That an answer
which breaks R120's constraints counts as FAIL is the model's choice (log 14). -/
def Obligations.SlabReallocMovesSmall : Prop :=
  ∀ (s : State) (copy : Bool) (h slot st u : Nat), SlabTrusted s → HeaderReadable s h → 1 ≤ s.arg1.toNat →
    headerSays s h = .ok (.slab slot st h u) → u < unitsFor s.params s.arg1.toNat → unitsFor s.params s.arg1.toNat < 512 →
    ¬ RoomAfter s slot st u (unitsFor s.params s.arg1.toNat) →
    let unit := s.params.unit
    let u2 := unitsFor s.params s.arg1.toNat
    let n := if copy then (u - 1) * unit else 0
    (s.port = [] → s.handed.contains s.arg0 = true → (s.slot slot).base.toNat + 2048 * unit ≤ 2 ^ 64 →
      (∀ scanned w x, FirstThatTakes s u2 scanned w x →
        let r := (s.slot w).base.toNat + x * unit
        r + u2 * unit ≤ 2 ^ 64 → (w = slot ∨ r + u2 * unit ≤ h ∨ h + u * unit ≤ r) →
        ClearOfStructures s r (u2 * unit) →
        ∃ m, MovesRegion s.mem m r (w + 1) u2 (r + unit) s.arg0.toNat n h ∧
          exec (.slabRealloc copy) s = .next (((releaseRun (post ({ s with
            slots := s.slots.setIfInBounds w { s.slot w with
              used := setBits (s.slot w).used x (x + u2), free := (s.slot w).free - u2, resume := x + u2 }
            mem := m
            handed := (BitVec.ofNat 64 (r + unit) :: s.handed).erase s.arg0 } : State) w u2 scanned)
              slot st u).setRes0 (BitVec.ofNat 64 (r + unit))).finish .success)) ∧
      (∀ (w : Nat) (r : Word) (rest : List (Option Word)), NoWindowTakes s u2 → LowestDead s w →
        NextAnswer s (2048 * unit) r rest → ClearOfStructures s r.toNat (u2 * unit) →
        ∃ m, MovesRegion s.mem m r.toNat (w + 1) u2 (r.toNat + unit) s.arg0.toNat n h ∧
          exec (.slabRealloc copy) s = .next (((releaseRun { s with
            slots := s.slots.setIfInBounds w
              { live := true, base := r, used := setBits 0 0 u2, free := 2048 - u2, resume := u2, list := .pref }
            prefList := w :: s.prefList
            allocAnswers := rest
            windowsLive := (r.toNat, 2048 * unit) :: s.windowsLive
            mem := m
            handed := (BitVec.ofNat 64 (r.toNat + unit) :: s.handed).erase s.arg0 }
              slot st u).setRes0 (BitVec.ofNat 64 (r.toNat + unit))).finish .success))) ∧
    (NoWindowTakes s u2 →
      (∀ rest w, LowestDead s w → NextAnswerFails s (2048 * unit) rest →
        exec (.slabRealloc copy) s = .next (({ s with allocAnswers := rest } : State).fatal .hostAllocFail)) ∧
      ((∀ j, j < s.params.nwMax → (s.slot j).live = true) →
        exec (.slabRealloc copy) s = .next (s.fatal .slotExhausted)))

/-- R373: SLAB_WINFO reports a live window, answers zeros for a slot that is not live, and rejects a number that is no
slot's; it changes no allocator state. -/
def Obligations.SlabWinfoResult : Prop :=
  ∀ s : State,
    (s.arg0.toNat ≥ s.params.nwMax → exec .slabWinfo s = .next (s.reject .invalidInput .argRange)) ∧
    (s.arg0.toNat < s.params.nwMax → (s.slot s.arg0.toNat).live = false →
      exec .slabWinfo s = .next (({ s with res0 := 0, res1 := 0, res2 := 0, res3 := 0 } : State).finish .success)) ∧
    (s.arg0.toNat < s.params.nwMax → (s.slot s.arg0.toNat).live = true → s.slabTainted = false →
      let w := s.slot s.arg0.toNat
      let full : Nat := if w.list = .full then 1 else 0
      let position := (if w.list = .full then s.fullList else s.prefList).idxOf s.arg0.toNat
      exec .slabWinfo s = .next (({ s with
        res0 := w.base
        res1 := BitVec.ofNat 64 w.free
        res2 := BitVec.ofNat 64 w.resume
        res3 := BitVec.ofNat 64 (1 + full * 2 + position * 2 ^ 32) } : State).finish .success))

/-! ## The lane sums -/

/-- R425: SUMS_RESET makes every sum empty and starts every lane at its first element at or after es, and writes no memory;
R430's bound on es is checked first. -/
def Obligations.SumsResetResult : Prop :=
  ∀ s : State, s.params.Legal →
    ((s.arg0.toNat > s.winCount.toNat ∨ s.arg0.toNat > s.params.elemMax) →
      exec .sumsReset s = .next (s.reject .invalidInput .argRange)) ∧
    (s.arg0.toNat ≤ s.winCount.toNat → s.arg0.toNat ≤ s.params.elemMax →
      ∃ v, exec .sumsReset s = .next (({ s with
          sumsValid := true
          sumStartElem := s.arg0.setWidth 32
          sums := v
          folded := []
          sumsTainted := false } : State).finish .success) ∧
        ∀ l, l < 8 → ∀ k, k < 3 →
          let c := ({ s with sums := v } : State).sum l k
          c.sl = 0 ∧ c.ne.toInt = s.arg0.toNat + ((l : Int) - s.arg0.toNat) % 8 ∧ c.se.toInt = s.arg0.toNat)

/-- R420 to R422, R431: over plain memory, SUMS_GET folds lane l's elements from NE up to the end into the sum: each byte below
SL becomes the old sum's byte plus the weighted bytes of the originals, the sum grows to the longest, the counters advance, the
results report them; the buffer's bytes from SL on hold any value (R112, U5), and nothing else changes but the model's own
records (log 12). -/
def Obligations.SumsGetFolds : Prop :=
  ∀ (s : State) (k : BitVec 2) (lane : BitVec 3), SumsTrusted s → OriginalsFit s → SumsApart s →
    k.toNat < 3 → s.sumsValid = true → s.arg0.toNat ≤ s.winCount.toNat → s.winCount.toNat ≤ 2 ^ 30 →
    let c := s.sum lane.toNat k.toNat
    c.se.toInt ≤ s.arg0.toNat → 0 ≤ c.ne.toInt → c.sl.toNat ≤ s.sumStride.toNat →
    let n := foldRounds c.ne.toInt s.arg0.toNat
    let len := max c.sl.toNat (foldedLength s n c.ne.toInt)
    let base := sumAddr s lane.toNat k.toNat
    ∃ m f d, exec (.sumsGet k lane) s = .next (({ s with
        mem := m
        draws := d
        folded := f
        pending := []
        sums := s.sums.setIfInBounds (sumIndex lane.toNat k.toNat)
          { ne := BitVec.ofInt 32 (c.ne.toInt + 8 * n), sl := BitVec.ofNat 32 len, se := s.arg0.setWidth 32 }
        res0 := BitVec.ofNat 64 base
        res1 := BitVec.ofNat 64 len
        res2 := BitVec.ofInt 64 (c.ne.toInt + 8 * n)
        res3 := s.arg0 } : State).finish .success) ∧ m.wf = true ∧
      (∀ b, b < len → m.read (base + b) = (if b < c.sl.toNat then s.mem.read (base + b) else 0) ^^^
        foldedByte Config.tables s k.toNat b n c.ne.toInt) ∧
      ∀ a, ¬ (base ≤ a ∧ a < base + s.sumStride.toNat) → m.read a = s.mem.read a

/-- R431, R423, R424: the checks of SUMS_GET in their order, and the two ways its fold is fatal, at the first element it
meets: no counter moves; after a sum overflow the sum's bytes below SL stay too (those from SL on have no value: R112, U5); after
an original that wraps, only bytes of the sum's own buffer may change (R565, U7). -/
def Obligations.SumsGetStops : Prop :=
  ∀ (s : State) (k : BitVec 2) (lane : BitVec 3),
    let c := s.sum lane.toNat k.toNat
    let stop := s.arg0.toNat
    let base := sumAddr s lane.toNat k.toNat
    let wraps := s.sumBase.toNat + 24 * s.sumStride.toNat > 2 ^ 64
    let fatally := fun e kept => ∃ m d, exec (.sumsGet k lane) s = .next (({ s with
        pending := [], mem := m, draws := d } : State).fatal e) ∧
      ∀ a, ¬ (base + kept ≤ a ∧ a < base + s.sumStride.toNat) → m.read a = s.mem.read a
    (k = 3 → exec (.sumsGet k lane) s = .next (s.reject .invalidInput .argRange)) ∧
    (k ≠ 3 → s.sumsValid = false → exec (.sumsGet k lane) s = .next (s.reject .invalidInput .badState)) ∧
    (k ≠ 3 → s.sumsValid = true → (stop > s.winCount.toNat ∨ stop < c.se.toInt ∨ wraps) →
      exec (.sumsGet k lane) s = .next (s.reject .invalidInput .argRange)) ∧
    (k ≠ 3 → s.sumsValid = true → stop ≤ s.winCount.toNat → c.se.toInt ≤ stop → ¬ wraps → 0 ≤ c.ne.toInt →
      c.ne.toInt < stop → s.winCount.toNat ≤ 2 ^ 30 → SumsTrusted s → SumsApart s →
      let d := descAt s c.ne.toInt
      (d.2 > s.sumStride.toNat → fatally .sumOverflow c.sl.toNat) ∧
      (0 < d.2 → d.2 ≤ s.sumStride.toNat → d.1 + d.2 > 2 ^ 64 → fatally .busError 0))

/-- R432: WIN_SHIFT's checks; with no valid sums it moves the window down by delta and changes nothing else but the model's records
of what the host owes the table, what it has changed there, and whether it has done it in time (log 12); with valid sums that have all been folded to
WIN_COUNT it also moves the counters and the start of the sums, and keeps every SL and every byte below it unless the host has
broken the sums' meaning (U23, U24). -/
def Obligations.WinShiftResult : Prop :=
  ∀ s : State,
    let delta := s.arg0.toNat
    let shifted := fun (t : State) => { t with
      winColumnStart := s.winColumnStart + s.arg0.setWidth 22
      winFirstElem := s.winFirstElem - s.arg0.setWidth 32
      winCount := s.winCount - s.arg0.setWidth 32 }
    (s.winFirstElem.toNat > s.winCount.toNat → exec .winShift s = .next (s.reject .invalidInput .badState)) ∧
    (s.winFirstElem.toNat ≤ s.winCount.toNat → (delta % 8 ≠ 0 ∨ delta > s.winFirstElem.toNat) →
      exec .winShift s = .next (s.reject .invalidInput .argRange)) ∧
    (s.winFirstElem.toNat ≤ s.winCount.toNat → delta % 8 = 0 → delta ≤ s.winFirstElem.toNat →
      (s.sumsValid = false →
        exec .winShift s = .next ((shifted { s with
          tableTainted := (recheckTable s).tableTainted || rewrittenEarly s delta
          pending := pendingAfter s delta
          replaced := if delta = 0 then s.replaced else []
          copied := shiftCopied delta s.copied }).finish .success)) ∧
      (s.sumsValid = true → s.sumBase.toNat + 24 * s.sumStride.toNat > 2 ^ 64 →
        exec .winShift s = .next (s.reject .invalidInput .argRange)) ∧
      (s.sumsValid = true → s.sumBase.toNat + 24 * s.sumStride.toNat ≤ 2 ^ 64 → s.winCount.toNat ≤ 2 ^ 30 →
        -2 ^ 30 ≤ s.sumStartElem.toInt → s.mem.wf = true →
        (∀ l, l < 8 → ∀ k, k < 3 → s.winCount.toNat ≤ (s.sum l k).ne.toInt) →
        ∃ v f b b' p m d, exec .winShift s = .next ((shifted { s with
            sums := v
            sumStartElem := s.sumStartElem - s.arg0.setWidth 32
            folded := f
            sumsTainted := b
            tableTainted := b'
            pending := p
            replaced := if delta = 0 then s.replaced else []
            copied := shiftCopied delta s.copied
            mem := m
            draws := d }).finish .success) ∧
          (∀ a, ¬ (s.sumBase.toNat ≤ a ∧ a < s.sumBase.toNat + 24 * s.sumStride.toNat) → m.read a = s.mem.read a) ∧
          (SumsTrusted s → b = false ∧ b' = rewrittenEarly s delta) ∧
          ∀ l, l < 8 → ∀ k, k < 3 →
            let c := s.sum l k
            let c' := ({ s with sums := v } : State).sum l k
            c'.ne.toInt = c.ne.toInt - delta ∧ c'.se.toInt = max c.se.toInt s.winCount.toNat - delta ∧
            (b = false → b' = false → c'.sl = c.sl ∧ ∀ i, i < c.sl.toNat → i < s.sumStride.toNat →
              m.read (sumAddr s l k + i) = s.mem.read (sumAddr s l k + i))))

/-- R422, R432: over plain memory and a table that the host has not rewritten early, WIN_SHIFT folds every sum to WIN_COUNT before
it moves the window: every byte below the new SL, NE and SE less delta, the window and the start of the sums; only sum buffers
change in memory, and nothing else but the model's own records (log 12). -/
def Obligations.WinShiftFolds : Prop :=
  ∀ s : State, SumsTrusted s → rewrittenEarly s s.arg0.toNat = false → OriginalsFit s → SumsApart s → SumsInBuffers s →
    s.sumsValid = true → s.winFirstElem.toNat ≤ s.winCount.toNat → s.arg0.toNat % 8 = 0 →
    s.arg0.toNat ≤ s.winFirstElem.toNat → s.winCount.toNat ≤ 2 ^ 30 → -2 ^ 30 ≤ s.sumStartElem.toInt →
    ∃ v f p m d, exec .winShift s = .next (({ s with
        winColumnStart := s.winColumnStart + s.arg0.setWidth 22
        winFirstElem := s.winFirstElem - s.arg0.setWidth 32
        winCount := s.winCount - s.arg0.setWidth 32
        sums := v
        sumStartElem := s.sumStartElem - s.arg0.setWidth 32
        folded := f
        pending := p
        replaced := if s.arg0.toNat = 0 then s.replaced else []
        copied := shiftCopied s.arg0.toNat s.copied
        mem := m
        draws := d } : State).finish .success) ∧ m.wf = true ∧
      (∀ a, ¬ (s.sumBase.toNat ≤ a ∧ a < s.sumBase.toNat + 24 * s.sumStride.toNat) → m.read a = s.mem.read a) ∧
      ∀ l, l < 8 → ∀ k, k < 3 →
        let c' := ({ s with sums := v } : State).sum l k
        ∃ c : SumCtr, FoldedTo Config.tables s m (sumAddr s l k) k s.winCount.toNat (s.sum l k) c ∧
          c'.sl = c.sl ∧ c'.ne.toInt = c.ne.toInt - s.arg0.toNat ∧ c'.se.toInt = c.se.toInt - s.arg0.toNat

/-- R432, R422: whatever WIN_SHIFT folds, when it succeeds it has moved the window down by delta, written no RES register,
bitset, slot, list or row counter, and no byte outside the sum buffers. -/
def Obligations.WinShiftFrame : Prop :=
  ∀ s t : State, s.mem.wf = true → exec .winShift s = .next t → t.result = 0x00#8 →
    t.winColumnStart = s.winColumnStart + s.arg0.setWidth 22 ∧
    t.winFirstElem = s.winFirstElem - s.arg0.setWidth 32 ∧ t.winCount = s.winCount - s.arg0.setWidth 32 ∧
    t.error = s.error ∧ t.disabled = s.disabled ∧
    t.res0 = s.res0 ∧ t.res1 = s.res1 ∧ t.res2 = s.res2 ∧ t.res3 = s.res3 ∧ t.bitsets = s.bitsets ∧
    t.slots = s.slots ∧ t.prefList = s.prefList ∧ t.fullList = s.fullList ∧ t.sumsValid = s.sumsValid ∧
    t.nextRow = s.nextRow ∧ t.nextCauchyRow = s.nextCauchyRow ∧ t.nextParityColumn = s.nextParityColumn ∧
    t.npcValid = s.npcValid ∧
    ∀ a, ¬ (s.sumsValid = true ∧ s.sumBase.toNat ≤ a ∧ a < s.sumBase.toNat + 24 * s.sumStride.toNat) →
      t.mem.read a = s.mem.read a

/-! ## Rows -/

/-- R481, R496: CAUCHY_ELEM answers, in RES0, the inverse of (MAX_CAUCHY_COLS + r) XOR y, which is not 0; a row or a column
out of range is rejected. -/
def Obligations.CauchyElemResult : Prop :=
  ∀ (r y : Byte) (s : State), s.params.Legal → FieldOk s.params →
    (r.toNat < s.params.maxCauchyRows → y.toNat < s.params.maxCauchyCols →
      ∃ c : Byte, xmul s.params c (BitVec.ofNat 8 ((s.params.maxCauchyCols + r.toNat) ^^^ y.toNat)) = 1 ∧
        exec (.cauchyElem r y) s = .next (({ s with res0 := c.setWidth 64 } : State).finish .success)) ∧
    ((r.toNat ≥ s.params.maxCauchyRows ∨ y.toNat ≥ s.params.maxCauchyCols) →
      exec (.cauchyElem r y) s = .next (s.reject .invalidInput .argRange))

/-- R495: ROW_ENCODE's checks in their order, and NeedMoreData for an empty window. -/
def Obligations.RowEncodeChecks : Prop :=
  ∀ s : State, s.params.Legal →
    let u := s.winCount.toNat - s.winFirstElem.toNat
    let lp := s.winLongest.toNat
    let need := if u ≤ s.params.cauchyThreshold then lp + 8 else 2 * align16 lp + 8
    ((s.winFirstElem.toNat > s.winCount.toNat ∨ s.winCount.toNat > s.params.elemMax) →
      exec .rowEncode s = .next (s.reject .invalidInput .badState)) ∧
    (s.winFirstElem.toNat ≤ s.winCount.toNat → s.winCount.toNat ≤ s.params.elemMax →
      (u = 0 → exec .rowEncode s = .next (s.finish .needMoreData)) ∧
      (2 ≤ u → lp > 2 ^ 30 → exec .rowEncode s = .next (s.reject .invalidInput .argRange)) ∧
      (2 ≤ u → lp ≤ 2 ^ 30 → s.recCap.toNat < need →
        exec .rowEncode s = .next (s.reject .invalidInput .scratchSmall)) ∧
      (2 ≤ u → lp ≤ 2 ^ 30 → need ≤ s.recCap.toNat →
        (s.recBase.toNat + need > 2 ^ 64 ∨
          (u > s.params.cauchyThreshold ∧ s.sumBase.toNat + 24 * s.sumStride.toNat > 2 ^ 64)) →
        exec .rowEncode s = .next (s.reject .invalidInput .argRange)))

/-- R491: the row of a window of one element is that element's own original: its address and length and the metadata in the
result registers, no memory written and no original byte read; an original that wraps the data space is fatal (R424). -/
def Obligations.RowSingle : Prop :=
  ∀ s : State, WindowHolds s 1 → TableTrusted s → Ordinary s (descAddr s s.winFirstElem.toNat) 12 →
    let d := descAt s s.winFirstElem.toNat
    let column := (s.winColumnStart.toNat + s.winFirstElem.toNat) % 2 ^ 22
    (d.1 + d.2 ≤ 2 ^ 64 → exec .rowEncode s = .next (({ s with
      pending := []
      res0 := BitVec.ofNat 64 d.1
      res1 := BitVec.ofNat 64 d.2
      res2 := BitVec.ofNat 64 (column * 2 ^ 32)
      res3 := 0x0000000100000001#64 } : State).finish .success)) ∧
    (d.1 + d.2 > 2 ^ 64 → exec .rowEncode s = .next (({ s with pending := [] } : State).fatal .busError))

/-- R483, R484, R489, R492: over plain memory, the row of a window of 2 to CAUCHY_THRESHOLD elements is the parity row when
one is due (no parity column is scheduled, or the window's first column has reached it: R17) and else the next Cauchy row, of
the elements of R481 and R482: the bytes of R, the schedule, the results, and nothing else but the model's record of the table
(log 12). -/
def Obligations.RowCauchyRegime : Prop :=
  ∀ (s : State) (u : Nat), WindowHolds s u → WindowReadable s → s.params.Legal → 2 ≤ u →
    u ≤ s.params.cauchyThreshold → s.winLongest.toNat ≤ 2 ^ 30 → ScratchApart s s.winLongest.toNat →
    let first := s.winFirstElem.toNat
    let lp := s.winLongest.toNat
    let column := fun e => (s.winColumnStart.toNat + e) % 2 ^ 22
    let r := s.nextCauchyRow.toNat
    let due := s.npcValid = false ∨ (column first + 2 ^ 22 - s.nextParityColumn.toNat) % 2 ^ 22 ≤ 2 ^ 21
    let element := fun e =>
      gfInv s.params (BitVec.ofNat 8 ((s.params.maxCauchyCols + r) ^^^ (column e % s.params.maxCauchyCols)))
    (due → ∃ m,
      WritesOnly s.mem m s.recBase.toNat lp (fun b => windowByte s (fun _ x => x) b u first) ∧
      exec .rowEncode s = .next (({ s with
        mem := m
        pending := []
        nextParityColumn := BitVec.ofNat 22 (column first + u)
        npcValid := true
        res0 := s.recBase
        res1 := BitVec.ofNat 64 (lp + 1 * 2 ^ 32)
        res2 := BitVec.ofNat 64 (column first * 2 ^ 32)
        res3 := BitVec.ofNat 64 (u + u * 2 ^ 32) } : State).finish .success)) ∧
    (¬ due → ∃ m,
      WritesOnly s.mem m s.recBase.toNat lp
        (fun b => windowByte s (fun e x => gfMul s.params (element e) x) b u first) ∧
      exec .rowEncode s = .next (({ s with
        mem := m
        pending := []
        nextCauchyRow := BitVec.ofNat 16 ((r + 1) % s.params.maxCauchyRows)
        res0 := s.recBase
        res1 := BitVec.ofNat 64 (lp + 2 * 2 ^ 32)
        res2 := BitVec.ofNat 64 (r + 1 + column first * 2 ^ 32)
        res3 := BitVec.ofNat 64 (u + u * 2 ^ 32) } : State).finish .success))

/-- R489, R493, R494: over plain memory, the row of a window of more than CAUCHY_THRESHOLD elements. The sums start again at the
window when R493 says so, whatever the host has done to the old ones (`c0` are then reset counters), and else go on from those of
the state, which the host must then have kept (R624, R625). Each sum that the row's opcodes select
is folded to WIN_COUNT, and no other sum is. Every byte of R below LP is the dense sums and the light originals of the R side plus
ROW_VALUE times those of the P side. The counters and the results are as R493 says; the rest of the scratch and the sum bytes
from SL on hold any value (U5, U6); nothing else changes but the model's own records (log 12). -/
def Obligations.RowSiamese : Prop :=
  ∀ (s : State) (u : Nat) (c0 : Nat → Nat → SumCtr) (start : BitVec 32), WindowHolds s u →
    s.mem.wf = true → s.port = [] → TableTrusted s →
    OriginalsFit s → SumsApart s → s.params.Legal → s.params.cauchyThreshold < u → s.winLongest.toNat ≤ 2 ^ 30 →
    ScratchApart s (2 * align16 s.winLongest.toNat) →
    let first := s.winFirstElem.toNat
    let count := s.winCount.toNat
    let stale := s.sumsValid = false ∨ (count : Int) - s.sumStartElem.toInt ≤ 0 ∨
      (count : Int) - s.sumStartElem.toInt > s.params.sumResetThreshold ∨
      ∃ l k, l < 8 ∧ k < 3 ∧ (count : Int) < (s.sum l k).se.toInt
    ((stale ∧ start = s.winFirstElem ∧ ∀ l k, l < 8 → k < 3 → (c0 l k).sl = 0 ∧ (c0 l k).se = s.winFirstElem ∧
        (c0 l k).ne.toInt = first + ((l : Int) - first) % 8) ∨
      (¬ stale ∧ start = s.sumStartElem ∧ (∀ l k, l < 8 → k < 3 → c0 l k = s.sum l k) ∧ SumsTrusted s ∧
        SumsInBuffers s)) →
    let lp := s.winLongest.toNat
    let row := s.nextRow
    let pairs := ceilDiv u s.params.pairAddRate
    let op := fun l => Config.rowOpcode (BitVec.ofNat 3 l) row
    ∃ m v f d,
      let t := { s with mem := m, sums := v }
      exec .rowEncode s = .next (({ t with
        folded := f
        sumsTainted := false
        pending := []
        draws := d
        sumsValid := true
        sumStartElem := start
        nextRow := BitVec.ofNat 32 ((row.toNat + 1) % s.params.rowPeriod)
        res0 := s.recBase
        res1 := BitVec.ofNat 64 (lp + 3 * 2 ^ 32)
        res2 := BitVec.ofNat 64 (row.toNat + ((s.winColumnStart.toNat + start.toInt) % 2 ^ 22).toNat * 2 ^ 32)
        res3 := BitVec.ofNat 64 ((count - start.toInt).toNat + u * 2 ^ 32) } : State).finish .success) ∧ m.wf = true ∧
      (∀ l, l < 8 → ∀ k, k < 3 →
        ((op l).getLsbD k = true ∨ (op l).getLsbD (k + 3) = true →
          FoldedTo Config.tables s m (sumAddr s l k) k count (c0 l k) (t.sum l k)) ∧
        ((op l).getLsbD k = false → (op l).getLsbD (k + 3) = false → t.sum l k = c0 l k ∧
          ∀ b, b < (c0 l k).sl.toNat → m.read (sumAddr s l k + b) = s.mem.read (sumAddr s l k + b))) ∧
      (∀ b, b < lp → m.read (s.recBase.toNat + b) =
        denseByte t op 0 lp b 24 ^^^ lightByte s false first u b pairs (pcgSeed row.toNat u) ^^^
          gfMul s.params (Config.rowValue row)
            (denseByte t op 3 lp b 24 ^^^ lightByte s true first u b pairs (pcgSeed row.toNat u))) ∧
      ∀ a, ¬ (s.recBase.toNat ≤ a ∧ a < s.recBase.toNat + 2 * align16 lp) →
        ¬ (s.sumBase.toNat ≤ a ∧ a < s.sumBase.toNat + 24 * s.sumStride.toNat) → m.read a = s.mem.read a

/-! ## Bus errors of the slab, sum and row commands -/

/-- R106, R565: five bus errors of slab, sum and row commands: each is fatal, keeps what the command did before it, and changes no
byte but those the command would have written. That registers, counters, lists and the row schedule stand as the pseudocode had
left them at the error is the model's reading (log 8); `recheckTable` and `recheckFolded` keep the model's records of the table and
the folded originals (log 12). The five are: (a) writing the header of a large allocation; (b) reading the header of a region to
free; (c) reading the first descriptor that SUMS_GET needs; (d) reading the descriptor of a single row, which writes nothing;
(e) clearing the scratch of a Cauchy or parity row or reading a descriptor for it. -/
def Obligations.BusErrors : Prop :=
  ∀ s : State, s.params.Legal → s.mem.wf = true →
    let badRead := fun a => portHits s.port (a % 2 ^ 64) [.readError, .anyError] = true
    let badWrite := fun a => portHits s.port (a % 2 ^ 64) [.writeError, .anyError] = true
    let first := s.winFirstElem.toNat
    let badDesc := fun (e : Int) => ∃ j, j < 12 ∧ badRead (descAddr s e + j)
    let fatally := fun (i : Instr) (t : State) (lo n : Nat) => ∃ m d,
      exec i s = .next (({ t with mem := m, draws := d } : State).fatal .busError) ∧ m.wf = true ∧
        ∀ a, ¬ (lo ≤ a ∧ a < lo + n) → m.read a = s.mem.read a
    (∀ (i : Instr) (b : Nat) (r : Word) (rest : List (Option Word)), Requests i s b → 1 ≤ b → b ≤ 2 ^ 29 - 1 →
      512 ≤ unitsFor s.params b → NextAnswer s (unitsFor s.params b * s.params.unit) r rest →
      (∃ j, j < 16 ∧ badWrite (r.toNat + j)) →
      fatally i { s with
        allocAnswers := rest
        largeLive := (r.toNat, unitsFor s.params b * s.params.unit) :: s.largeLive } r.toNat 16) ∧
    (∀ h, s.arg0 ≠ 0 → s.arg0.toNat % s.params.unit = 0 → s.arg0.toNat = h + s.params.unit →
      (∃ j, j < 13 ∧ badRead (h + j)) → fatally .slabFree s (h + 12) 1) ∧
    (∀ (k : BitVec 2) (lane : BitVec 3), k ≠ 3 → s.sumsValid = true → s.arg0.toNat ≤ s.winCount.toNat →
      (s.sum lane.toNat k.toNat).se.toInt ≤ s.arg0.toNat → (s.sum lane.toNat k.toNat).ne.toInt < s.arg0.toNat →
      s.sumBase.toNat + 24 * s.sumStride.toNat ≤ 2 ^ 64 → badDesc (s.sum lane.toNat k.toNat).ne.toInt →
      fatally (.sumsGet k lane) (recheckFolded (recheckTable s)) (sumAddr s lane.toNat k.toNat) s.sumStride.toNat) ∧
    (WindowHolds s 1 → badDesc first → fatally .rowEncode (recheckTable s) 0 0) ∧
    (∀ u, WindowHolds s u → 2 ≤ u → u ≤ s.params.cauchyThreshold → s.winLongest.toNat ≤ 2 ^ 30 →
      s.winLongest.toNat + 8 ≤ s.recCap.toNat → s.recBase.toNat + s.winLongest.toNat + 8 ≤ 2 ^ 64 →
      ((∃ j, j < s.winLongest.toNat ∧ badWrite (s.recBase.toNat + j)) ∨
        ∃ e, first ≤ e ∧ e < s.winCount.toNat ∧ badDesc e) →
      fatally .rowEncode (recheckTable s) s.recBase.toNat s.winLongest.toNat)
end

