-- ==== Sys2Proof/Laws/Bits.lean ====
section
/-! SUPPORT. What the bit-range operations of the bitset engine and the slab allocator do, bit by bit. -/

namespace Sys2Proof.Machine

variable {w : Nat}

theorem getLsbD_rangeMask (a e i : Nat) : (rangeMask w a e).getLsbD i = (decide (i < w) && decide (a ≤ i) && decide (i < e)) := by
  simp only [rangeMask, BitVec.getLsbD_ofNat, Nat.testBit_shiftLeft, Nat.testBit_two_pow_sub_one]
  by_cases h1 : i < w <;> by_cases h2 : a ≤ i <;> by_cases h3 : i < e <;> simp [h1, h2, h3] <;> omega

/-- `setBits` sets the bits of `[a, e)` and no other. -/
theorem getLsbD_setBits (b : BitVec w) (a e i : Nat) :
    (setBits b a e).getLsbD i = (b.getLsbD i || (decide (i < w) && decide (a ≤ i) && decide (i < e))) := by
  simp only [setBits, BitVec.getLsbD_or, getLsbD_rangeMask]

/-- `clearBits` clears the bits of `[a, e)` and no other. -/
theorem getLsbD_clearBits (b : BitVec w) (a e i : Nat) :
    (clearBits b a e).getLsbD i = (b.getLsbD i && !(decide (a ≤ i) && decide (i < e))) := by
  simp only [clearBits, BitVec.getLsbD_and, BitVec.getLsbD_not, getLsbD_rangeMask]
  by_cases h : i < w
  · simp [h]
  · simp [BitVec.getLsbD_of_ge b i (by omega)]

theorem countSet_zero (b : BitVec w) (a : Nat) : countSet b 0 a = 0 := rfl

theorem countSet_succ (b : BitVec w) (n a : Nat) :
    countSet b (n + 1) a = (if b.getLsbD a then 1 else 0) + countSet b n (a + 1) := rfl

theorem countSet_le (b : BitVec w) (n a : Nat) : countSet b n a ≤ n := by
  induction n generalizing a with
  | zero => exact Nat.le_refl 0
  | succ n ih =>
    have := ih (a + 1)
    rw [countSet_succ]
    split <;> omega

/-- Counting in two stretches. -/
theorem countSet_add (b : BitVec w) (n m a : Nat) : countSet b (n + m) a = countSet b n a + countSet b m (a + n) := by
  induction n generalizing a with
  | zero => simp [countSet_zero]
  | succ n ih =>
    rw [show n + 1 + m = (n + m) + 1 by omega, countSet_succ, countSet_succ, ih, show a + 1 + n = a + (n + 1) by omega]
    omega

/-- The count depends on the counted bits alone. -/
theorem countSet_congr {b c : BitVec w} {n a : Nat} (h : ∀ i, a ≤ i → i < a + n → b.getLsbD i = c.getLsbD i) :
    countSet b n a = countSet c n a := by
  induction n generalizing a with
  | zero => rfl
  | succ n ih =>
    rw [countSet_succ, countSet_succ, h a (by omega) (by omega), ih fun i h1 h2 => h i (by omega) (by omega)]

theorem countSet_eq_zero {b : BitVec w} {n a : Nat} :
    countSet b n a = 0 ↔ ∀ i, a ≤ i → i < a + n → b.getLsbD i = false := by
  induction n generalizing a with
  | zero => exact ⟨fun _ i h1 h2 => absurd h2 (by omega), fun _ => rfl⟩
  | succ n ih =>
    rw [countSet_succ, Nat.add_eq_zero_iff, ih]
    constructor
    · rintro ⟨h1, h2⟩ i hi1 hi2
      by_cases h : i = a
      · subst h
        by_contra hb
        simp [hb] at h1
      · exact h2 i (by omega) (by omega)
    · intro h
      refine ⟨by simp [h a (by omega) (by omega)], fun i h1 h2 => h i (by omega) (by omega)⟩

theorem countSet_eq_all {b : BitVec w} {n a : Nat} :
    countSet b n a = n ↔ ∀ i, a ≤ i → i < a + n → b.getLsbD i = true := by
  induction n generalizing a with
  | zero => exact ⟨fun _ i h1 h2 => absurd h2 (by omega), fun _ => rfl⟩
  | succ n ih =>
    rw [countSet_succ]
    have hle := countSet_le b n (a + 1)
    constructor
    · intro h i h1 h2
      by_cases hb : b.getLsbD a = true
      · rw [if_pos hb] at h
        by_cases hi : i = a
        · rw [hi, hb]
        · exact (ih (a := a + 1)).1 (by omega) i (by omega) (by omega)
      · rw [if_neg hb] at h
        omega
    · intro h
      rw [if_pos (h a (by omega) (by omega)), ih.2 fun i h1 h2 => h i (by omega) (by omega)]
      omega

/-- Where `findBit` stops: at the first index with the value, or at the end. -/
theorem findBit_bounds (b : BitVec w) (v : Bool) (n a : Nat) :
    a ≤ findBit b v n a ∧ findBit b v n a ≤ a + n := by
  induction n generalizing a with
  | zero => exact ⟨Nat.le_refl a, Nat.le_refl a⟩
  | succ n ih =>
    simp only [findBit]
    split
    · omega
    · have := ih (a + 1)
      omega

theorem findBit_before (b : BitVec w) (v : Bool) (n a i : Nat) (h1 : a ≤ i) (h2 : i < findBit b v n a) :
    b.getLsbD i ≠ v := by
  induction n generalizing a with
  | zero => exact absurd h2 (by simp only [findBit]; omega)
  | succ n ih =>
    simp only [findBit] at h2
    split at h2
    · omega
    · by_cases hi : i = a
      · rw [hi]
        assumption
      · exact ih (a + 1) (by omega) h2

theorem findBit_at (b : BitVec w) (v : Bool) (n a : Nat) (h : findBit b v n a < a + n) :
    b.getLsbD (findBit b v n a) = v := by
  induction n generalizing a with
  | zero => exact absurd h (by simp only [findBit]; omega)
  | succ n ih =>
    simp only [findBit] at h ⊢
    split
    · assumption
    · rename_i hne
      rw [if_neg hne] at h
      exact ih (a + 1) (by omega)

end Sys2Proof.Machine
end

