-- ==== Sys2Proof/Laws/Memory.lean ====
section
/-! SUPPORT. The data memory: read after write, and every operation keeps the canonical form. -/

namespace Sys2Proof.Machine

@[simp] theorem Memory.read_nil (a : Nat) : Memory.read [] a = unlistedByte := rfl

theorem Memory.read_cons (b a : Nat) (v : Byte) (m : Memory) :
    Memory.read ((b, v) :: m) a = if a = b then v else Memory.read m a := rfl

theorem Memory.wfFrom_cons {lo a : Nat} {v : Byte} {m : Memory} :
    Memory.wfFrom lo ((a, v) :: m) = true ↔
      lo ≤ a ∧ a < Config.addrSpace ∧ v ≠ unlistedByte ∧ Memory.wfFrom (a + 1) m = true := by
  simp [Memory.wfFrom, and_assoc]

/-- A canonical list stays canonical for a lower bound. -/
theorem Memory.wfFrom_mono {lo lo' : Nat} {m : Memory} (h : lo' ≤ lo) (hm : Memory.wfFrom lo m = true) :
    Memory.wfFrom lo' m = true := by
  cases m with
  | nil => rfl
  | cons c m =>
    obtain ⟨a, v⟩ := c
    rw [Memory.wfFrom_cons] at hm ⊢
    exact ⟨by omega, hm.2⟩

/-- Below its first address a canonical list holds nothing. -/
theorem Memory.read_below {m : Memory} {lo a : Nat} (hm : Memory.wfFrom lo m = true) (h : a < lo) :
    Memory.read m a = unlistedByte := by
  induction m generalizing lo with
  | nil => rfl
  | cons c m ih =>
    obtain ⟨b, v⟩ := c
    rw [Memory.wfFrom_cons] at hm
    rw [Memory.read_cons, if_neg (by omega)]
    exact ih hm.2.2.2 (by omega)

/-- Writing keeps the canonical form. -/
theorem Memory.wfFrom_write {m : Memory} {lo a : Nat} {v : Byte} (hm : Memory.wfFrom lo m = true) (hlo : lo ≤ a)
    (ha : a < Config.addrSpace) : Memory.wfFrom lo (Memory.write m a v) = true := by
  induction m generalizing lo with
  | nil =>
    simp only [Memory.write]
    split
    · rfl
    · exact Memory.wfFrom_cons.2 ⟨hlo, ha, ‹_›, rfl⟩
  | cons c m ih =>
    obtain ⟨b, w⟩ := c
    have hb := Memory.wfFrom_cons.1 hm
    simp only [Memory.write]
    split
    · split
      · exact hm
      · exact Memory.wfFrom_cons.2 ⟨hlo, ha, ‹_›, Memory.wfFrom_cons.2 ⟨by omega, hb.2⟩⟩
    · split
      · split
        · exact Memory.wfFrom_mono (by omega) hb.2.2.2
        · exact Memory.wfFrom_cons.2 ⟨hlo, ha, ‹_›, Memory.wfFrom_mono (by omega) hb.2.2.2⟩
      · exact Memory.wfFrom_cons.2 ⟨hb.1, hb.2.1, hb.2.2.1, ih hb.2.2.2 (by omega)⟩

/-- A store keeps the canonical form of the memory. -/
theorem Memory.wf_write {m : Memory} {a : Nat} {v : Byte} (hm : m.wf = true) (ha : a < Config.addrSpace) :
    (m.write a v).wf = true := Memory.wfFrom_write hm (Nat.zero_le _) ha

/-- What a store leaves at every address. -/
theorem Memory.read_write_from {m : Memory} {lo a : Nat} {v : Byte} (hm : Memory.wfFrom lo m = true) (x : Nat) :
    Memory.read (Memory.write m a v) x = if x = a then v else Memory.read m x := by
  induction m generalizing lo with
  | nil =>
    simp only [Memory.write]
    split <;> rename_i h
    · by_cases hx : x = a <;> simp [hx, h]
    · simp [Memory.read_cons]
  | cons c m ih =>
    obtain ⟨b, w⟩ := c
    have hb := Memory.wfFrom_cons.1 hm
    simp only [Memory.write]
    split <;> rename_i hab
    · split <;> rename_i hv
      · by_cases hx : x = a
        · rw [if_pos hx, Memory.read_cons, if_neg (by omega), hv,
            Memory.read_below hb.2.2.2 (by omega)]
        · rw [if_neg hx]
      · rw [Memory.read_cons]
    · split <;> rename_i hab2
      · subst hab2
        split <;> rename_i hv
        · by_cases hx : x = a
          · rw [if_pos hx, hx, hv, Memory.read_below hb.2.2.2 (by omega)]
          · rw [if_neg hx, Memory.read_cons, if_neg hx]
        · rw [Memory.read_cons, Memory.read_cons]
          by_cases hx : x = a <;> simp [hx]
      · rw [Memory.read_cons, ih hb.2.2.2, Memory.read_cons]
        by_cases hx : x = b
        · rw [if_pos hx, if_neg (by omega), if_pos hx]
        · simp [hx]

/-- What a store leaves at every address of a canonical memory. -/
theorem Memory.read_write {m : Memory} (hm : m.wf = true) (a x : Nat) (v : Byte) :
    (m.write a v).read x = if x = a then v else m.read x := Memory.read_write_from hm x

theorem addrSpace_pos : 0 < Config.addrSpace := by decide

theorem mod_addrSpace_lt (a : Nat) : a % Config.addrSpace < Config.addrSpace := Nat.mod_lt _ addrSpace_pos

/-- A host's store of bytes keeps the canonical form. -/
theorem Memory.wf_writeList {m : Memory} {a : Nat} {vs : List Byte} (hm : m.wf = true) :
    (m.writeList a vs).wf = true := by
  induction vs generalizing m a with
  | nil => exact hm
  | cons v vs ih => exact ih (Memory.wf_write hm (mod_addrSpace_lt a))

/-- Opening a byte keeps the canonical form. -/
theorem openByte_wf {s : State} (a : Nat) (h : s.mem.wf = true) : (openByte s a).mem.wf = true :=
  Memory.wf_write h (mod_addrSpace_lt a)

/-- Opening a range keeps the canonical form. -/
theorem openRange_wf {s : State} (n a : Nat) (h : s.mem.wf = true) : (openRange n a s).mem.wf = true := by
  induction n generalizing a s with
  | zero => exact h
  | succ n ih => exact ih (a + 1) (openByte_wf a h)

/-- Opening listed bytes keeps the canonical form. -/
theorem openList_wf {s : State} (as : List Nat) (h : s.mem.wf = true) : (openList as s).mem.wf = true := by
  induction as generalizing s with
  | nil => exact h
  | cons a as ih => exact ih (openByte_wf a h)

/-- What a bus error leaves of the footprint keeps the canonical form. -/
theorem portLoss_wf {s : State} (final : Memory) {as : List Nat} (has : ∀ a ∈ as, a < Config.addrSpace)
    (h : s.mem.wf = true) : (portLoss final as s).mem.wf = true := by
  induction as generalizing s with
  | nil => exact h
  | cons a as ih =>
    exact ih (fun x hx => has x (List.mem_cons_of_mem _ hx)) (Memory.wf_write h (has a (List.mem_cons_self ..)))

/-- What a fatal cause leaves of the footprint keeps the canonical form. -/
theorem cutOff_wf {w r : Run} (h : r.st.mem.wf = true) : (cutOff w r).mem.wf = true := openList_wf _ h

/-- Opening a byte leaves every other byte. -/
theorem openByte_read {s : State} {a x : Nat} (h : s.mem.wf = true) (hx : x ≠ a % Config.addrSpace) :
    (openByte s a).mem.read x = s.mem.read x := by
  simp only [openByte]
  rw [Memory.read_write h, if_neg hx]

/-- Opening listed bytes leaves every other byte. -/
theorem openList_read {s : State} {as : List Nat} {x : Nat} (h : s.mem.wf = true)
    (hx : ∀ a ∈ as, x ≠ a % Config.addrSpace) : (openList as s).mem.read x = s.mem.read x := by
  induction as generalizing s with
  | nil => rfl
  | cons a as ih =>
    simp only [openList]
    rw [ih (openByte_wf a h) (fun y hy => hx y (List.mem_cons_of_mem _ hy)),
      openByte_read h (hx a (List.mem_cons_self ..))]

/-- Opening a range leaves every byte outside it. -/
theorem openRange_read {s : State} {n a x : Nat} (h : s.mem.wf = true)
    (hx : ∀ i, i < n → x ≠ (a + i) % Config.addrSpace) : (openRange n a s).mem.read x = s.mem.read x := by
  induction n generalizing s a with
  | zero => rfl
  | succ n ih =>
    simp only [openRange]
    rw [ih (openByte_wf a h) (fun i hi => by have := hx (i + 1) (by omega); rwa [show a + 1 + i = a + (i + 1) by omega]),
      openByte_read h (by simpa using hx 0 (by omega))]

/-- A fatal cause leaves every byte outside the footprint of the run the command would have made. -/
theorem cutOff_read {w r : Run} {x : Nat} (h : r.st.mem.wf = true) (hx : ∀ a ∈ w.writes, x ≠ a % Config.addrSpace) :
    (cutOff w r).mem.read x = r.st.mem.read x :=
  openList_read h fun a ha => hx a (List.mem_of_mem_take ha)

/-- A bus error leaves every byte outside the footprint. -/
theorem portLoss_read {s : State} {final : Memory} {as : List Nat} {x : Nat} (h : s.mem.wf = true)
    (has : ∀ a ∈ as, a < Config.addrSpace) (hx : x ∉ as) : (portLoss final as s).mem.read x = s.mem.read x := by
  induction as generalizing s with
  | nil => rfl
  | cons a as ih =>
    simp only [portLoss]
    rw [ih (Memory.wf_write h (has a (List.mem_cons_self ..))) (fun y hy => has y (List.mem_cons_of_mem _ hy))
      (fun hm => hx (List.mem_cons_of_mem _ hm))]
    simp only
    rw [Memory.read_write h, if_neg (fun he => hx (by rw [he]; exact List.mem_cons_self ..))]

end Sys2Proof.Machine
end

