-- ==== Sys2Proof/Laws/Cmd.lean ====
section
/-! SUPPORT. Running a command's pseudocode: what each primitive does to a run, what `conclude` does with the end of a
run, and the properties that every primitive keeps. -/

namespace Sys2Proof.Machine

/-! ## One primitive at a time -/

@[simp] theorem pure_run {α : Type} (a : α) (r : Run) : (pure a : Cmd α) r = .ok a r := rfl

theorem bind_run {α β : Type} (x : Cmd α) (f : α → Cmd β) (r : Run) :
    (x >>= f) r = match x r with
      | .ok a r' => f a r'
      | .error e r' => .error e r' := by
  simp only [bind, EStateM.bind]
  rcases x r with ⟨a, r'⟩ | ⟨e, r'⟩ <;> rfl

theorem bind_run_ok {α β : Type} {x : Cmd α} {f : α → Cmd β} {r r' : Run} {a : α} (h : x r = .ok a r') :
    (x >>= f) r = f a r' := by rw [bind_run, h]

theorem bind_run_error {α β : Type} {x : Cmd α} {f : α → Cmd β} {r r' : Run} {e : Stop} (h : x r = .error e r') :
    (x >>= f) r = .error e r' := by rw [bind_run, h]

@[simp] theorem getState_run (r : Run) : getState r = .ok r.st r := rfl

@[simp] theorem modifyState_run (f : State → State) (r : Run) : modifyState f r = .ok () { r with st := f r.st } := rfl

@[simp] theorem stop_run {α : Type} (x : Stop) (r : Run) : (stop x : Cmd α) r = .error x r := rfl

@[simp] theorem rejectIf_true (e : ErrorBit) (r : Run) : rejectIf true e r = .error (.reject e) r := rfl

@[simp] theorem rejectIf_false (e : ErrorBit) (r : Run) : rejectIf false e r = .ok () r := rfl

theorem fatalIf_true (e : ErrorBit) {r : Run} (h : r.skip = false) : fatalIf true e r = .error (.fatal e) r := by
  simp [fatalIf, h]

@[simp] theorem fatalIf_false (e : ErrorBit) (r : Run) : fatalIf false e r = .ok () r := rfl

/-- A run that goes on past fatal causes (spec R565, U7). -/
theorem fatalIf_skip (c : Bool) (e : ErrorBit) {r : Run} (h : r.skip = true) : fatalIf c e r = .ok () r := by
  simp [fatalIf, h]

@[simp] theorem setArea_run (area : Nat → Bool) (r : Run) : setArea area r = .ok () { r with area := area } := rfl

@[simp] theorem anyOpen_run (a n : Nat) (r : Run) :
    anyOpen a n r = .ok ((List.range n).any fun i => r.isOpen ((a + i) % Config.addrSpace)) r := rfl

@[simp] theorem markOpen_run (a : Nat) (r : Run) :
    markOpen a r = .ok () { r with opens := a % Config.addrSpace :: r.opens } := rfl

@[simp] theorem forRange_zero (f : Nat → Cmd Unit) (i : Nat) : forRange f 0 i = pure () := rfl

theorem forRange_succ (f : Nat → Cmd Unit) (n i : Nat) : forRange f (n + 1) i = (do f i; forRange f n (i + 1)) := rfl

@[simp] theorem start_st (s : State) : (Run.start s).st = s := rfl
@[simp] theorem start_reads (s : State) : (Run.start s).reads = [] := rfl
@[simp] theorem start_writes (s : State) : (Run.start s).writes = [] := rfl
@[simp] theorem start_opens (s : State) : (Run.start s).opens = [] := rfl
@[simp] theorem start_area (s : State) (a : Nat) : (Run.start s).area a = false := rfl
@[simp] theorem start_skip (s : State) : (Run.start s).skip = false := rfl

/-- `s32Value` answers the exact value where s32 holds it. -/
theorem s32Value_run {x : Int} (h : -2 ^ 31 ≤ x ∧ x < 2 ^ 31) (r : Run) : s32Value x r = .ok (BitVec.ofInt 32 x) r := by
  simp only [s32Value, if_pos h]

/-! ## The data-memory port -/

/-- An address that no range of the port holds is ordinary memory. -/
theorem portHits_false {port : List PortRange} {a : Nat} (kinds : List PortKind)
    (h : ∀ p ∈ port, ¬ (p.base ≤ a ∧ a < p.base + p.size)) : portHits port a kinds = false := by
  simp only [portHits, List.any_eq_false, Bool.and_eq_true, decide_eq_true_eq, not_and]
  intro p hp _
  simpa using h p hp

/-- A byte of ordinary memory that the host has not raced for, outside the command's open area, stays closed. -/
theorem heldOpen_false {r : Run} {a : Nat} (hp : ∀ p ∈ r.st.port, ¬ (p.base ≤ a ∧ a < p.base + p.size))
    (hr : r.st.raced = []) (ha : r.area a = false) : r.heldOpen a = false := by
  simp [Run.heldOpen, hr, ha, portHits_false _ hp]

/-- Such a byte is closed while the command has computed nothing from open bytes. -/
theorem isOpen_false {r : Run} {a : Nat} (hp : ∀ p ∈ r.st.port, ¬ (p.base ≤ a ∧ a < p.base + p.size))
    (hr : r.st.raced = []) (ha : r.area a = false) (ho : r.opens = []) : r.isOpen a = false := by
  simp [Run.isOpen, heldOpen_false hp hr ha, ho]

/-- A read of a closed byte of ordinary memory. -/
theorem memRead8_run {a : Nat} {r : Run}
    (h : ∀ p ∈ r.st.port, ¬ (p.base ≤ a % Config.addrSpace ∧ a % Config.addrSpace < p.base + p.size))
    (ho : r.isOpen (a % Config.addrSpace) = false) :
    memRead8 a r =
      .ok (r.st.mem.read (a % Config.addrSpace)) { r with reads := a % Config.addrSpace :: r.reads } := by
  simp [memRead8, portHits_false _ h, ho]

/-- A write of a value that is not open to a byte of ordinary memory that does not stay open. -/
theorem memWrite8_run {a : Nat} {v : Byte} {r : Run}
    (h : ∀ p ∈ r.st.port, ¬ (p.base ≤ a % Config.addrSpace ∧ a % Config.addrSpace < p.base + p.size))
    (ho : r.heldOpen (a % Config.addrSpace) = false) :
    memWrite8 a v r = storeByte (a % Config.addrSpace) v
      { r with opens := r.opens.filter (· != a % Config.addrSpace) } := by
  simp [memWrite8, portHits_false _ h, ho]

/-- A value that is not open is written as it is. -/
@[simp] theorem memPut_closed (a : Nat) (v : Byte) : memPut false a v = memWrite8 a v := rfl

/-! ## The end of a command -/

theorem conclude_ok {body : Cmd Unit} {s : State} {r : Run} (h : body (Run.start s) = .ok () r) :
    conclude body s = r.st.finish .success := by
  simp only [conclude, h]

theorem conclude_reject {body : Cmd Unit} {s : State} {e : ErrorBit} {r : Run}
    (h : body (Run.start s) = .error (.reject e) r) : conclude body s = s.reject .invalidInput e := by
  simp only [conclude, h]

theorem conclude_needMoreData {body : Cmd Unit} {s : State} {r : Run}
    (h : body (Run.start s) = .error .needMoreData r) : conclude body s = s.finish .needMoreData := by
  simp only [conclude, h]

theorem conclude_fatal {body : Cmd Unit} {s : State} {e : ErrorBit} {r : Run}
    (h : body (Run.start s) = .error (.fatal e) r) :
    conclude body s = (cutOff (wouldRun body s) r).fatal e := by
  simp only [conclude, h]

theorem conclude_portError {body : Cmd Unit} {s : State} {r : Run} (h : body (Run.start s) = .error .portError r) :
    conclude body s =
      (portLoss (wouldRun body s).st.mem (wouldRun body s).writes
        { r.st with draws := max r.st.draws (wouldRun body s).st.draws }).fatal .busError := by
  simp only [conclude, h]

/-- All that the end of a command can be. -/
theorem conclude_cases (body : Cmd Unit) (s : State) :
    (∃ r, body (Run.start s) = .ok () r ∧ conclude body s = r.st.finish .success) ∨
    (∃ e r, body (Run.start s) = .error (.reject e) r ∧ conclude body s = s.reject .invalidInput e) ∨
    (∃ r, body (Run.start s) = .error .needMoreData r ∧ conclude body s = s.finish .needMoreData) ∨
    (∃ e r, body (Run.start s) = .error (.fatal e) r ∧ conclude body s = (cutOff (wouldRun body s) r).fatal e) ∨
    (∃ r, body (Run.start s) = .error .portError r ∧ conclude body s =
      (portLoss (wouldRun body s).st.mem (wouldRun body s).writes
        { r.st with draws := max r.st.draws (wouldRun body s).st.draws }).fatal .busError) := by
  rcases h : body (Run.start s) with ⟨⟨⟩, r⟩ | ⟨e, r⟩
  · exact .inl ⟨r, rfl, conclude_ok h⟩
  · cases e with
    | reject e => exact .inr (.inl ⟨e, r, rfl, conclude_reject h⟩)
    | needMoreData => exact .inr (.inr (.inl ⟨r, rfl, conclude_needMoreData h⟩))
    | fatal e => exact .inr (.inr (.inr (.inl ⟨e, r, rfl, conclude_fatal h⟩)))
    | portError => exact .inr (.inr (.inr (.inr ⟨r, rfl, conclude_portError h⟩)))

/-! ## Properties that a run keeps -/

/-- Whatever way it ends, the command leaves a run with the property if it started with one. -/
def Keeps {α : Type} (P : Run → Prop) (c : Cmd α) : Prop :=
  ∀ r, P r → (∀ a r', c r = .ok a r' → P r') ∧ (∀ e r', c r = .error e r' → P r')

section Keeps

variable {P : Run → Prop} {α β : Type}

theorem keeps_pure (a : α) : Keeps P (pure a : Cmd α) := by
  intro r h
  refine ⟨fun b r' hr => ?_, fun e r' hr => by cases hr⟩
  cases hr
  exact h

theorem keeps_stop (x : Stop) : Keeps P (stop x : Cmd α) := by
  intro r h
  refine ⟨fun b r' hr => (by cases hr), fun e r' hr => ?_⟩
  cases hr
  exact h

theorem keeps_bind {x : Cmd α} {f : α → Cmd β} (hx : Keeps P x) (hf : ∀ a, Keeps P (f a)) : Keeps P (x >>= f) := by
  intro r h
  have hx' := hx r h
  rw [bind_run]
  rcases hr : x r with ⟨a, r1⟩ | ⟨e, r1⟩
  · exact hf a r1 (hx'.1 a r1 hr)
  · refine ⟨fun b r' h' => (by cases h'), fun e' r' h' => ?_⟩
    cases h'
    exact hx'.2 e r1 hr

theorem keeps_getState : Keeps P getState := by
  intro r h
  refine ⟨fun b r' hr => ?_, fun e r' hr => by cases hr⟩
  cases hr
  exact h

theorem keeps_modifyState {f : State → State} (hf : ∀ r, P r → P { r with st := f r.st }) : Keeps P (modifyState f) := by
  intro r h
  refine ⟨fun b r' hr => ?_, fun e r' hr => by cases hr⟩
  cases hr
  exact hf r h

/-- The state that `getState` answers is one of a run with the property. -/
theorem keeps_withState {f : State → Cmd β} (hf : ∀ r, P r → Keeps P (f r.st)) : Keeps P (getState >>= f) := by
  intro r h
  exact hf r h r h

theorem keeps_rejectIf (c : Bool) (e : ErrorBit) : Keeps P (rejectIf c e) := by
  cases c
  · exact keeps_pure ()
  · exact keeps_stop _

theorem keeps_fatalIf (c : Bool) (e : ErrorBit) : Keeps P (fatalIf c e) := by
  intro r h
  simp only [fatalIf]
  split
  · exact keeps_stop (α := Unit) _ r h
  · exact keeps_pure () r h

theorem keeps_anyOpen (a n : Nat) : Keeps P (anyOpen a n) := by
  intro r h
  exact keeps_pure _ r h

theorem keeps_ite {c : Prop} [Decidable c] {x y : Cmd α} (hx : c → Keeps P x) (hy : ¬c → Keeps P y) :
    Keeps P (if c then x else y) := by
  split
  · exact hx ‹_›
  · exact hy ‹_›

theorem keeps_forRange {f : Nat → Cmd Unit} (hf : ∀ i, Keeps P (f i)) (n i : Nat) : Keeps P (forRange f n i) := by
  induction n generalizing i with
  | zero => exact keeps_pure ()
  | succ n ih => exact keeps_bind (hf i) fun _ => ih (i + 1)

end Keeps

/-! ## What every memory primitive keeps -/

/-- A property of the run that no free value, read or store of a byte can break. -/
structure MemStable (P : Run → Prop) : Prop where
  /-- Drawing a free value keeps it. -/
  draw : ∀ r, P r → P { r with st := { r.st with draws := r.st.draws + 1 } }
  /-- Noting a read keeps it. -/
  read : ∀ r a, a < Config.addrSpace → P r → P { r with reads := a :: r.reads }
  /-- Noting which bytes are open keeps it. -/
  opens : ∀ r o, P r → P { r with opens := o }
  /-- Fixing the open area keeps it. -/
  area : ∀ r f, P r → P { r with area := f }
  /-- Storing a byte inside the data space keeps it. -/
  store : ∀ r a v, a < Config.addrSpace → P r →
    P { r with st := { r.st with mem := r.st.mem.write a v }, writes := a :: r.writes }

section MemStable

variable {P : Run → Prop}

theorem keeps_drawByte (hP : MemStable P) : Keeps P drawByte := by
  intro r h
  refine ⟨fun b r' hr => ?_, fun e r' hr => by cases hr⟩
  cases hr
  exact hP.draw r h

theorem keeps_drawWord (hP : MemStable P) : Keeps P drawWord := by
  intro r h
  refine ⟨fun b r' hr => ?_, fun e r' hr => by cases hr⟩
  cases hr
  exact hP.draw r h

theorem keeps_s32Value (hP : MemStable P) (x : Int) : Keeps P (s32Value x) := by
  intro r h
  simp only [s32Value]
  split
  · exact keeps_pure _ r h
  · refine ⟨fun b r' hr => ?_, fun e r' hr => by cases hr⟩
    cases hr
    exact hP.draw r h

theorem keeps_storeByte (hP : MemStable P) {a : Nat} (ha : a < Config.addrSpace) (v : Byte) : Keeps P (storeByte a v) := by
  intro r h
  refine ⟨fun b r' hr => ?_, fun e r' hr => by cases hr⟩
  cases hr
  exact hP.store r a v ha h

theorem keeps_memRead8 (hP : MemStable P) (a : Nat) : Keeps P (memRead8 a) := by
  intro r h
  simp only [memRead8]
  split
  · exact keeps_stop _ r h
  · have h' := hP.read r _ (mod_addrSpace_lt a) h
    split
    · exact keeps_drawByte hP _ h'
    · exact keeps_pure _ _ h'

theorem keeps_memWrite8 (hP : MemStable P) (a : Nat) (v : Byte) : Keeps P (memWrite8 a v) := by
  intro r h
  simp only [memWrite8]
  split
  · exact keeps_stop _ r h
  · split
    · exact keeps_bind (keeps_drawByte hP) (fun w => keeps_storeByte hP (mod_addrSpace_lt a) w) r h
    · exact keeps_storeByte hP (mod_addrSpace_lt a) v _ (hP.opens r _ h)

theorem keeps_markOpen (hP : MemStable P) (a : Nat) : Keeps P (markOpen a) := by
  intro r h
  exact keeps_pure () _ (hP.opens r _ h)

theorem keeps_setArea (hP : MemStable P) (f : Nat → Bool) : Keeps P (setArea f) := by
  intro r h
  exact keeps_pure () _ (hP.area r f h)

theorem keeps_memRead (hP : MemStable P) (a n : Nat) : Keeps P (memRead a n) := by
  induction n generalizing a with
  | zero => exact keeps_pure _
  | succ n ih =>
    exact keeps_bind (keeps_memRead8 hP a) fun b => keeps_bind (ih (a + 1)) fun bs => keeps_pure _

theorem keeps_memPut (hP : MemStable P) (isOpen : Bool) (a : Nat) (v : Byte) : Keeps P (memPut isOpen a v) := by
  cases isOpen
  · exact keeps_memWrite8 hP a v
  · exact keeps_bind (keeps_drawByte hP) fun w => keeps_bind (keeps_memWrite8 hP a w) fun _ => keeps_markOpen hP a

theorem keeps_memWrite (hP : MemStable P) (a : Nat) (vs : List Byte) : Keeps P (memWrite a vs) := by
  induction vs generalizing a with
  | nil => exact keeps_pure _
  | cons v vs ih => exact keeps_bind (keeps_memWrite8 hP a v) fun _ => ih (a + 1)

theorem keeps_memZero (hP : MemStable P) (a n : Nat) : Keeps P (memZero a n) :=
  keeps_forRange (fun i => keeps_memWrite8 hP (a + i) 0) n 0

theorem keeps_memLoosen (hP : MemStable P) (a n : Nat) : Keeps P (memLoosen a n) :=
  keeps_forRange (fun i => keeps_memPut hP true (a + i) 0) n 0

theorem keeps_leaveOpen (hP : MemStable P) (a n : Nat) : Keeps P (leaveOpen a n) :=
  keeps_forRange (fun i => keeps_bind (keeps_drawByte hP) fun v => keeps_storeByte hP (mod_addrSpace_lt (a + i)) v) n 0

theorem keeps_accumulate (hP : MemStable P) (dst src : Nat) (f : Byte → Byte) (n : Nat) :
    Keeps P (accumulate dst src f n) :=
  keeps_forRange (fun i => keeps_bind (keeps_memRead8 hP (dst + i)) fun d =>
    keeps_bind (keeps_memRead8 hP (src + i)) fun x => keeps_bind (keeps_anyOpen (dst + i) 1) fun dOpen =>
      keeps_bind (keeps_anyOpen (src + i) 1) fun xOpen => keeps_memPut hP (dOpen || xOpen) (dst + i) (d ^^^ f x)) n 0

theorem keeps_mapBytes (hP : MemStable P) (dst src : Nat) (f : Byte → Byte) (n : Nat) :
    Keeps P (mapBytes dst src f n) :=
  keeps_forRange (fun i => keeps_bind (keeps_memRead8 hP (src + i)) fun x =>
    keeps_bind (keeps_anyOpen (src + i) 1) fun xOpen => keeps_memPut hP xOpen (dst + i) (f x)) n 0

theorem keeps_readDesc (hP : MemStable P) (e : Int) : Keeps P (readDesc e) :=
  keeps_withState fun _ _ => keeps_bind (keeps_memRead hP _ 8) fun _ => keeps_bind (keeps_memRead hP _ 4) fun _ =>
    keeps_bind (keeps_anyOpen _ 12) fun _ => keeps_ite
      (fun _ => keeps_bind (keeps_drawWord hP) fun _ => keeps_bind (keeps_drawWord hP) fun _ => keeps_pure _)
      (fun _ => keeps_pure _)

end MemStable

end Sys2Proof.Machine
end

