-- ==== Sys2Proof/Laws/Commands.lean ====
section
/-! SUPPORT. One form for all commands: every meaning runs its pseudocode to its one end (spec R561). -/

namespace Sys2Proof.Machine

/-- Every command answers the state its pseudocode ends in. -/
theorem exec_eq (i : Instr) (s : State) : exec i s = .next (conclude (commandBody i) s) := by
  cases i <;> rfl

/-- What a running command does (spec R163, R540, R566). -/
theorem runCommand_disabled {s : State} (h : s.disabled = true) :
    runCommand s = .next (s.reject .disabled .disabledCmd) := by
  simp only [runCommand, h, if_true]

theorem runCommand_ok {s : State} {i : Instr} (hd : s.disabled = false) (h : decode s.cmd = .ok i) :
    runCommand s = exec i s := by
  simp [runCommand, hd, h]

theorem runCommand_illegal {s : State} (hd : s.disabled = false) (h : decode s.cmd = .error .illegalOpcode) :
    runCommand s = .next (s.reject .invalidInput .illegalOpcode) := by
  simp [runCommand, hd, h]

theorem runCommand_reserved {s : State} (hd : s.disabled = false) (h : decode s.cmd = .error .reservedField) :
    runCommand s = .next (s.reject .invalidInput .reservedField) := by
  simp [runCommand, hd, h]

/-- All that a running command can come to. -/
theorem runCommand_cases (s : State) :
    (s.disabled = true ∧ runCommand s = .next (s.reject .disabled .disabledCmd)) ∨
    (s.disabled = false ∧ decode s.cmd = .error .illegalOpcode ∧
      runCommand s = .next (s.reject .invalidInput .illegalOpcode)) ∨
    (s.disabled = false ∧ decode s.cmd = .error .reservedField ∧
      runCommand s = .next (s.reject .invalidInput .reservedField)) ∨
    (∃ i, s.disabled = false ∧ decode s.cmd = .ok i ∧ runCommand s = .next (conclude (commandBody i) s)) := by
  by_cases hd : s.disabled = true
  · exact .inl ⟨hd, runCommand_disabled hd⟩
  · have hd : s.disabled = false := by simpa using hd
    rcases hw : decode s.cmd with e | i
    · cases e with
      | illegalOpcode => exact .inr (.inl ⟨hd, rfl, runCommand_illegal hd hw⟩)
      | reservedField => exact .inr (.inr (.inl ⟨hd, rfl, runCommand_reserved hd hw⟩))
    · exact .inr (.inr (.inr ⟨i, hd, rfl, by rw [runCommand_ok hd hw, exec_eq]⟩))

/-- All that a step can be. -/
theorem step_cases (s : State) :
    (∃ a rest, s.inbox = a :: rest ∧ step s = hostAct { s with inbox := rest } a) ∨
    (s.inbox = [] ∧ s.busy = true ∧ step s = runCommand s) ∨
    (s.inbox = [] ∧ s.busy = false ∧ step s = .next s) := by
  rcases hi : s.inbox with _ | ⟨a, rest⟩
  · rcases hb : s.busy with _ | _
    · exact .inr (.inr ⟨rfl, rfl, by simp [step, advance, hi, hb]⟩)
    · exact .inr (.inl ⟨rfl, rfl, by simp [step, advance, hi, hb]⟩)
  · exact .inl ⟨a, rest, rfl, by simp [step, advance, hi]⟩

end Sys2Proof.Machine
end

