-- ==== Sys2Proof/Laws/Encoding.lean ====
section
/-! SUPPORT. The fields of a command word read back from `commandWord` (spec R150). -/

namespace Sys2Proof

variable (op : BitVec 8) (imm sel : Byte)

@[simp] theorem opcodeOf_commandWord : opcodeOf (commandWord op imm sel) = op := by
  apply BitVec.eq_of_getLsbD_eq
  intro i hi
  have h1 : ¬ (24 + i < 8) := by omega
  have h2 : ¬ (24 + i - 8 < 8) := by omega
  have h3 : ¬ (24 + i - 8 - 8 < 8) := by omega
  have h4 : 24 + i - 8 - 8 - 8 = i := by omega
  simp only [opcodeOf, commandWord, BitVec.getLsbD_extractLsb', BitVec.getLsbD_append]
  simp [hi, h1, h2, h3, h4]

@[simp] theorem immOf_commandWord : immOf (commandWord op imm sel) = imm := by
  apply BitVec.eq_of_getLsbD_eq
  intro i hi
  have h1 : ¬ (16 + i < 8) := by omega
  have h2 : ¬ (16 + i - 8 < 8) := by omega
  have h3 : 16 + i - 8 - 8 < 8 := by omega
  have h4 : 16 + i - 8 - 8 = i := by omega
  simp only [immOf, commandWord, BitVec.getLsbD_extractLsb', BitVec.getLsbD_append]
  simp [hi, h1, h2, h4]

@[simp] theorem selOf_commandWord : selOf (commandWord op imm sel) = sel := by
  apply BitVec.eq_of_getLsbD_eq
  intro i hi
  have h1 : ¬ (8 + i < 8) := by omega
  have h2 : 8 + i - 8 < 8 := by omega
  simp only [selOf, commandWord, BitVec.getLsbD_extractLsb', BitVec.getLsbD_append]
  simp [hi, h1]

/-- RSV is 0 (spec R150). -/
@[simp] theorem rsv_commandWord : (commandWord op imm sel).extractLsb' 0 8 = 0#8 := by
  apply BitVec.eq_of_getLsbD_eq
  intro i hi
  simp only [commandWord, BitVec.getLsbD_extractLsb', BitVec.getLsbD_append]
  simp [hi]

end Sys2Proof
end

