-- ==== Sys2Proof/Laws/Field.lean ====
section
/-! SUPPORT. What the log and exp ROM holds (spec R201): for every build whose ROM follows the rule, and by evaluation for the
default build. -/

namespace Sys2Proof.Machine

/-- The default build's ROM follows R201. -/
theorem fieldOk_default : FieldOk Params.default := by
  unfold FieldOk
  decide +kernel

variable {p : Params}

theorem gfExp_zero (h : FieldOk p) : gfExp p 0 = 1 := h.2.1

/-- The exp ROM's recurrence (spec R201). -/
theorem gfExp_succ (h : FieldOk p) {i : Nat} (hi : i < 254) : gfExp p (i + 1) = xmul p (gfExp p i) p.gfGen :=
  h.2.2.1 i hi

/-- The exp ROM closes its cycle: the generator has order 255 (spec R201). -/
theorem gfExp_cycle (h : FieldOk p) : xmul p (gfExp p 254) p.gfGen = 1 := h.2.2.2.1

theorem gfExp_ne_zero (h : FieldOk p) {i : Nat} (hi : i < 255) : gfExp p i ≠ 0 := (h.2.2.2.2 i hi).1

/-- `LOG[EXP[i]] = i`. -/
theorem gfLog_gfExp (h : FieldOk p) {i : Nat} (hi : i < 255) : gfLog p (gfExp p i) = i := (h.2.2.2.2 i hi).2

theorem gfLog_of_ne {x : Byte} (h : x ≠ 0) : gfLog p x = romByte p.logRom x.toNat := by rw [gfLog, if_neg h]

theorem gfMul_zero_left (b : Byte) : gfMul p 0 b = 0 := by simp [gfMul]

theorem gfMul_zero_right (a : Byte) : gfMul p a 0 = 0 := by simp [gfMul]

theorem gfMul_of_ne {a b : Byte} (ha : a ≠ 0) (hb : b ≠ 0) :
    gfMul p a b = gfExp p ((gfLog p a + gfLog p b) % 255) := by
  rw [gfMul, if_neg (fun h => h.elim ha hb)]

end Sys2Proof.Machine
end

