-- ==== Sys2Proof/Laws/PerInstr.lean ====
section
/-! SUPPORT. A property of every command's word, one lemma per constructor. -/

namespace Sys2Proof.Laws.ReservedByteZero

/-- The command's word has a zero RSV byte, and its OPCODE is one of the opcode map (spec R150, R160). -/
def Statement (i : Instr) : Prop :=
  (encode i).extractLsb' 0 8 = 0#8 ∧ (opcodeMap.map (fun row => row.opcode)).contains (opcodeOf (encode i)) = true

theorem of_commandWord {i : Instr} {op : BitVec 8} {imm sel : Byte} (h : encode i = commandWord op imm sel)
    (ho : (opcodeMap.map (fun row => row.opcode)).contains op = true) : Statement i := by
  simp only [Statement, h, rsv_commandWord, opcodeOf_commandWord, ho, and_self]

theorem nop : Statement .nop := of_commandWord rfl (by decide)
theorem gfAddMem : Statement .gfAddMem := of_commandWord rfl (by decide)
theorem gfMuladdMem (c : Byte) : Statement (.gfMuladdMem c) := of_commandWord rfl (by decide)
theorem gfMulMem (c : Byte) : Statement (.gfMulMem c) := of_commandWord rfl (by decide)
theorem gfDivMem (c : Byte) : Statement (.gfDivMem c) := of_commandWord rfl (by decide)
theorem gfMul (a b : Byte) : Statement (.gfMul a b) := of_commandWord rfl (by decide)
theorem gfDiv (a b : Byte) : Statement (.gfDiv a b) := of_commandWord rfl (by decide)
theorem gfSqr (a : Byte) : Statement (.gfSqr a) := of_commandWord rfl (by decide)
theorem gfInv (a : Byte) : Statement (.gfInv a) := of_commandWord rfl (by decide)
theorem gfLog (a : Byte) : Statement (.gfLog a) := of_commandWord rfl (by decide)
theorem gfExp (i : Byte) : Statement (.gfExp i) := of_commandWord rfl (by decide)
theorem gfNibtab (c : Byte) (hi : Bool) (j : BitVec 4) : Statement (.gfNibtab c hi j) := of_commandWord rfl (by decide)
theorem bsSet (b : BitVec 4) : Statement (.bsSet b) := of_commandWord rfl (by decide)
theorem bsClear (b : BitVec 4) : Statement (.bsClear b) := of_commandWord rfl (by decide)
theorem bsCheck (b : BitVec 4) : Statement (.bsCheck b) := of_commandWord rfl (by decide)
theorem bsSetRange (b : BitVec 4) : Statement (.bsSetRange b) := of_commandWord rfl (by decide)
theorem bsClearRange (b : BitVec 4) : Statement (.bsClearRange b) := of_commandWord rfl (by decide)
theorem bsPopcount (b : BitVec 4) : Statement (.bsPopcount b) := of_commandWord rfl (by decide)
theorem bsFfc (b : BitVec 4) : Statement (.bsFfc b) := of_commandWord rfl (by decide)
theorem bsFfs (b : BitVec 4) : Statement (.bsFfs b) := of_commandWord rfl (by decide)
theorem slabAlloc : Statement .slabAlloc := of_commandWord rfl (by decide)
theorem slabFree : Statement .slabFree := of_commandWord rfl (by decide)
theorem slabRealloc (copy : Bool) : Statement (.slabRealloc copy) := of_commandWord rfl (by decide)
theorem slabWinfo : Statement .slabWinfo := of_commandWord rfl (by decide)
theorem sumsReset : Statement .sumsReset := of_commandWord rfl (by decide)
theorem sumsGet (k : BitVec 2) (lane : BitVec 3) : Statement (.sumsGet k lane) := of_commandWord rfl (by decide)
theorem winShift : Statement .winShift := of_commandWord rfl (by decide)
theorem rowEncode : Statement .rowEncode := of_commandWord rfl (by decide)
theorem cauchyElem (r y : Byte) : Statement (.cauchyElem r y) := of_commandWord rfl (by decide)

end Sys2Proof.Laws.ReservedByteZero
end

