-- ==== Sys2Proof/Laws/State.lean ====
section
/-! SUPPORT. What each named update of the state does to each field: one lemma per field per update, and what reading a
slot, a bitset or a sum after an update gives. -/

namespace Sys2Proof.Machine

section raise

variable (s : State) (e : ErrorBit)

@[simp] theorem State.raise_busy : (s.raise e).busy = s.busy := rfl
@[simp] theorem State.raise_cmd : (s.raise e).cmd = s.cmd := rfl
@[simp] theorem State.raise_disabled : (s.raise e).disabled = s.disabled := rfl
@[simp] theorem State.raise_irqPending : (s.raise e).irqPending = s.irqPending := rfl
@[simp] theorem State.raise_result : (s.raise e).result = s.result := rfl
@[simp] theorem State.raise_lastOpcode : (s.raise e).lastOpcode = s.lastOpcode := rfl
@[simp] theorem State.raise_irqEn : (s.raise e).irqEn = s.irqEn := rfl
@[simp] theorem State.raise_error : (s.raise e).error = s.error ||| e.mask := rfl
@[simp] theorem State.raise_arg0 : (s.raise e).arg0 = s.arg0 := rfl
@[simp] theorem State.raise_arg1 : (s.raise e).arg1 = s.arg1 := rfl
@[simp] theorem State.raise_arg2 : (s.raise e).arg2 = s.arg2 := rfl
@[simp] theorem State.raise_arg3 : (s.raise e).arg3 = s.arg3 := rfl
@[simp] theorem State.raise_res0 : (s.raise e).res0 = s.res0 := rfl
@[simp] theorem State.raise_res1 : (s.raise e).res1 = s.res1 := rfl
@[simp] theorem State.raise_res2 : (s.raise e).res2 = s.res2 := rfl
@[simp] theorem State.raise_res3 : (s.raise e).res3 = s.res3 := rfl
@[simp] theorem State.raise_winColumnStart : (s.raise e).winColumnStart = s.winColumnStart := rfl
@[simp] theorem State.raise_winFirstElem : (s.raise e).winFirstElem = s.winFirstElem := rfl
@[simp] theorem State.raise_winCount : (s.raise e).winCount = s.winCount := rfl
@[simp] theorem State.raise_winLongest : (s.raise e).winLongest = s.winLongest := rfl
@[simp] theorem State.raise_descBase : (s.raise e).descBase = s.descBase := rfl
@[simp] theorem State.raise_sumBase : (s.raise e).sumBase = s.sumBase := rfl
@[simp] theorem State.raise_sumStride : (s.raise e).sumStride = s.sumStride := rfl
@[simp] theorem State.raise_recBase : (s.raise e).recBase = s.recBase := rfl
@[simp] theorem State.raise_recCap : (s.raise e).recCap = s.recCap := rfl
@[simp] theorem State.raise_nextRow : (s.raise e).nextRow = s.nextRow := rfl
@[simp] theorem State.raise_nextCauchyRow : (s.raise e).nextCauchyRow = s.nextCauchyRow := rfl
@[simp] theorem State.raise_nextParityColumn : (s.raise e).nextParityColumn = s.nextParityColumn := rfl
@[simp] theorem State.raise_npcValid : (s.raise e).npcValid = s.npcValid := rfl
@[simp] theorem State.raise_sumsValid : (s.raise e).sumsValid = s.sumsValid := rfl
@[simp] theorem State.raise_sumStartElem : (s.raise e).sumStartElem = s.sumStartElem := rfl
@[simp] theorem State.raise_params : (s.raise e).params = s.params := rfl
@[simp] theorem State.raise_bitsets : (s.raise e).bitsets = s.bitsets := rfl
@[simp] theorem State.raise_slots : (s.raise e).slots = s.slots := rfl
@[simp] theorem State.raise_prefList : (s.raise e).prefList = s.prefList := rfl
@[simp] theorem State.raise_fullList : (s.raise e).fullList = s.fullList := rfl
@[simp] theorem State.raise_sums : (s.raise e).sums = s.sums := rfl
@[simp] theorem State.raise_mem : (s.raise e).mem = s.mem := rfl
@[simp] theorem State.raise_port : (s.raise e).port = s.port := rfl
@[simp] theorem State.raise_allocAnswers : (s.raise e).allocAnswers = s.allocAnswers := rfl
@[simp] theorem State.raise_largeLive : (s.raise e).largeLive = s.largeLive := rfl
@[simp] theorem State.raise_windowsLive : (s.raise e).windowsLive = s.windowsLive := rfl
@[simp] theorem State.raise_hostFrees : (s.raise e).hostFrees = s.hostFrees := rfl
@[simp] theorem State.raise_handed : (s.raise e).handed = s.handed := rfl
@[simp] theorem State.raise_slabTainted : (s.raise e).slabTainted = s.slabTainted := rfl
@[simp] theorem State.raise_folded : (s.raise e).folded = s.folded := rfl
@[simp] theorem State.raise_sumsTainted : (s.raise e).sumsTainted = s.sumsTainted := rfl
@[simp] theorem State.raise_pending : (s.raise e).pending = s.pending := rfl
@[simp] theorem State.raise_replaced : (s.raise e).replaced = s.replaced := rfl
@[simp] theorem State.raise_copied : (s.raise e).copied = s.copied := rfl
@[simp] theorem State.raise_tableTainted : (s.raise e).tableTainted = s.tableTainted := rfl
@[simp] theorem State.raise_raced : (s.raise e).raced = s.raced := rfl
@[simp] theorem State.raise_draws : (s.raise e).draws = s.draws := rfl
@[simp] theorem State.raise_hostDraws : (s.raise e).hostDraws = s.hostDraws := rfl
@[simp] theorem State.raise_inbox : (s.raise e).inbox = s.inbox := rfl
@[simp] theorem State.raise_hostRead : (s.raise e).hostRead = s.hostRead := rfl

end raise

section finish

variable (s : State) (c : ResultCode)

@[simp] theorem State.finish_busy : (s.finish c).busy = false := rfl
@[simp] theorem State.finish_cmd : (s.finish c).cmd = s.cmd := rfl
@[simp] theorem State.finish_disabled : (s.finish c).disabled = s.disabled := rfl
@[simp] theorem State.finish_irqPending : (s.finish c).irqPending = true := rfl
@[simp] theorem State.finish_result : (s.finish c).result = c.code := rfl
@[simp] theorem State.finish_lastOpcode : (s.finish c).lastOpcode = opcodeOf s.cmd := rfl
@[simp] theorem State.finish_irqEn : (s.finish c).irqEn = s.irqEn := rfl
@[simp] theorem State.finish_error : (s.finish c).error = s.error := rfl
@[simp] theorem State.finish_arg0 : (s.finish c).arg0 = s.arg0 := rfl
@[simp] theorem State.finish_arg1 : (s.finish c).arg1 = s.arg1 := rfl
@[simp] theorem State.finish_arg2 : (s.finish c).arg2 = s.arg2 := rfl
@[simp] theorem State.finish_arg3 : (s.finish c).arg3 = s.arg3 := rfl
@[simp] theorem State.finish_res0 : (s.finish c).res0 = s.res0 := rfl
@[simp] theorem State.finish_res1 : (s.finish c).res1 = s.res1 := rfl
@[simp] theorem State.finish_res2 : (s.finish c).res2 = s.res2 := rfl
@[simp] theorem State.finish_res3 : (s.finish c).res3 = s.res3 := rfl
@[simp] theorem State.finish_winColumnStart : (s.finish c).winColumnStart = s.winColumnStart := rfl
@[simp] theorem State.finish_winFirstElem : (s.finish c).winFirstElem = s.winFirstElem := rfl
@[simp] theorem State.finish_winCount : (s.finish c).winCount = s.winCount := rfl
@[simp] theorem State.finish_winLongest : (s.finish c).winLongest = s.winLongest := rfl
@[simp] theorem State.finish_descBase : (s.finish c).descBase = s.descBase := rfl
@[simp] theorem State.finish_sumBase : (s.finish c).sumBase = s.sumBase := rfl
@[simp] theorem State.finish_sumStride : (s.finish c).sumStride = s.sumStride := rfl
@[simp] theorem State.finish_recBase : (s.finish c).recBase = s.recBase := rfl
@[simp] theorem State.finish_recCap : (s.finish c).recCap = s.recCap := rfl
@[simp] theorem State.finish_nextRow : (s.finish c).nextRow = s.nextRow := rfl
@[simp] theorem State.finish_nextCauchyRow : (s.finish c).nextCauchyRow = s.nextCauchyRow := rfl
@[simp] theorem State.finish_nextParityColumn : (s.finish c).nextParityColumn = s.nextParityColumn := rfl
@[simp] theorem State.finish_npcValid : (s.finish c).npcValid = s.npcValid := rfl
@[simp] theorem State.finish_sumsValid : (s.finish c).sumsValid = s.sumsValid := rfl
@[simp] theorem State.finish_sumStartElem : (s.finish c).sumStartElem = s.sumStartElem := rfl
@[simp] theorem State.finish_params : (s.finish c).params = s.params := rfl
@[simp] theorem State.finish_bitsets : (s.finish c).bitsets = s.bitsets := rfl
@[simp] theorem State.finish_slots : (s.finish c).slots = s.slots := rfl
@[simp] theorem State.finish_prefList : (s.finish c).prefList = s.prefList := rfl
@[simp] theorem State.finish_fullList : (s.finish c).fullList = s.fullList := rfl
@[simp] theorem State.finish_sums : (s.finish c).sums = s.sums := rfl
@[simp] theorem State.finish_mem : (s.finish c).mem = s.mem := rfl
@[simp] theorem State.finish_port : (s.finish c).port = s.port := rfl
@[simp] theorem State.finish_allocAnswers : (s.finish c).allocAnswers = s.allocAnswers := rfl
@[simp] theorem State.finish_largeLive : (s.finish c).largeLive = s.largeLive := rfl
@[simp] theorem State.finish_windowsLive : (s.finish c).windowsLive = s.windowsLive := rfl
@[simp] theorem State.finish_hostFrees : (s.finish c).hostFrees = s.hostFrees := rfl
@[simp] theorem State.finish_handed : (s.finish c).handed = s.handed := rfl
@[simp] theorem State.finish_slabTainted : (s.finish c).slabTainted = s.slabTainted := rfl
@[simp] theorem State.finish_folded : (s.finish c).folded = s.folded := rfl
@[simp] theorem State.finish_sumsTainted : (s.finish c).sumsTainted = s.sumsTainted := rfl
@[simp] theorem State.finish_pending : (s.finish c).pending = s.pending := rfl
@[simp] theorem State.finish_replaced : (s.finish c).replaced = s.replaced := rfl
@[simp] theorem State.finish_copied : (s.finish c).copied = s.copied := rfl
@[simp] theorem State.finish_tableTainted : (s.finish c).tableTainted = s.tableTainted := rfl
@[simp] theorem State.finish_raced : (s.finish c).raced = [] := rfl
@[simp] theorem State.finish_draws : (s.finish c).draws = s.draws := rfl
@[simp] theorem State.finish_hostDraws : (s.finish c).hostDraws = s.hostDraws := rfl
@[simp] theorem State.finish_inbox : (s.finish c).inbox = s.inbox := rfl
@[simp] theorem State.finish_hostRead : (s.finish c).hostRead = s.hostRead := rfl

end finish

section reject

variable (s : State) (c : ResultCode) (e : ErrorBit)

@[simp] theorem State.reject_busy : (s.reject c e).busy = false := rfl
@[simp] theorem State.reject_cmd : (s.reject c e).cmd = s.cmd := rfl
@[simp] theorem State.reject_disabled : (s.reject c e).disabled = s.disabled := rfl
@[simp] theorem State.reject_irqPending : (s.reject c e).irqPending = true := rfl
@[simp] theorem State.reject_result : (s.reject c e).result = c.code := rfl
@[simp] theorem State.reject_lastOpcode : (s.reject c e).lastOpcode = opcodeOf s.cmd := rfl
@[simp] theorem State.reject_irqEn : (s.reject c e).irqEn = s.irqEn := rfl
@[simp] theorem State.reject_error : (s.reject c e).error = s.error ||| e.mask := rfl
@[simp] theorem State.reject_arg0 : (s.reject c e).arg0 = s.arg0 := rfl
@[simp] theorem State.reject_arg1 : (s.reject c e).arg1 = s.arg1 := rfl
@[simp] theorem State.reject_arg2 : (s.reject c e).arg2 = s.arg2 := rfl
@[simp] theorem State.reject_arg3 : (s.reject c e).arg3 = s.arg3 := rfl
@[simp] theorem State.reject_res0 : (s.reject c e).res0 = s.res0 := rfl
@[simp] theorem State.reject_res1 : (s.reject c e).res1 = s.res1 := rfl
@[simp] theorem State.reject_res2 : (s.reject c e).res2 = s.res2 := rfl
@[simp] theorem State.reject_res3 : (s.reject c e).res3 = s.res3 := rfl
@[simp] theorem State.reject_winColumnStart : (s.reject c e).winColumnStart = s.winColumnStart := rfl
@[simp] theorem State.reject_winFirstElem : (s.reject c e).winFirstElem = s.winFirstElem := rfl
@[simp] theorem State.reject_winCount : (s.reject c e).winCount = s.winCount := rfl
@[simp] theorem State.reject_winLongest : (s.reject c e).winLongest = s.winLongest := rfl
@[simp] theorem State.reject_descBase : (s.reject c e).descBase = s.descBase := rfl
@[simp] theorem State.reject_sumBase : (s.reject c e).sumBase = s.sumBase := rfl
@[simp] theorem State.reject_sumStride : (s.reject c e).sumStride = s.sumStride := rfl
@[simp] theorem State.reject_recBase : (s.reject c e).recBase = s.recBase := rfl
@[simp] theorem State.reject_recCap : (s.reject c e).recCap = s.recCap := rfl
@[simp] theorem State.reject_nextRow : (s.reject c e).nextRow = s.nextRow := rfl
@[simp] theorem State.reject_nextCauchyRow : (s.reject c e).nextCauchyRow = s.nextCauchyRow := rfl
@[simp] theorem State.reject_nextParityColumn : (s.reject c e).nextParityColumn = s.nextParityColumn := rfl
@[simp] theorem State.reject_npcValid : (s.reject c e).npcValid = s.npcValid := rfl
@[simp] theorem State.reject_sumsValid : (s.reject c e).sumsValid = s.sumsValid := rfl
@[simp] theorem State.reject_sumStartElem : (s.reject c e).sumStartElem = s.sumStartElem := rfl
@[simp] theorem State.reject_params : (s.reject c e).params = s.params := rfl
@[simp] theorem State.reject_bitsets : (s.reject c e).bitsets = s.bitsets := rfl
@[simp] theorem State.reject_slots : (s.reject c e).slots = s.slots := rfl
@[simp] theorem State.reject_prefList : (s.reject c e).prefList = s.prefList := rfl
@[simp] theorem State.reject_fullList : (s.reject c e).fullList = s.fullList := rfl
@[simp] theorem State.reject_sums : (s.reject c e).sums = s.sums := rfl
@[simp] theorem State.reject_mem : (s.reject c e).mem = s.mem := rfl
@[simp] theorem State.reject_port : (s.reject c e).port = s.port := rfl
@[simp] theorem State.reject_allocAnswers : (s.reject c e).allocAnswers = s.allocAnswers := rfl
@[simp] theorem State.reject_largeLive : (s.reject c e).largeLive = s.largeLive := rfl
@[simp] theorem State.reject_windowsLive : (s.reject c e).windowsLive = s.windowsLive := rfl
@[simp] theorem State.reject_hostFrees : (s.reject c e).hostFrees = s.hostFrees := rfl
@[simp] theorem State.reject_handed : (s.reject c e).handed = s.handed := rfl
@[simp] theorem State.reject_slabTainted : (s.reject c e).slabTainted = s.slabTainted := rfl
@[simp] theorem State.reject_folded : (s.reject c e).folded = s.folded := rfl
@[simp] theorem State.reject_sumsTainted : (s.reject c e).sumsTainted = s.sumsTainted := rfl
@[simp] theorem State.reject_pending : (s.reject c e).pending = s.pending := rfl
@[simp] theorem State.reject_replaced : (s.reject c e).replaced = s.replaced := rfl
@[simp] theorem State.reject_copied : (s.reject c e).copied = s.copied := rfl
@[simp] theorem State.reject_tableTainted : (s.reject c e).tableTainted = s.tableTainted := rfl
@[simp] theorem State.reject_raced : (s.reject c e).raced = [] := rfl
@[simp] theorem State.reject_draws : (s.reject c e).draws = s.draws := rfl
@[simp] theorem State.reject_hostDraws : (s.reject c e).hostDraws = s.hostDraws := rfl
@[simp] theorem State.reject_inbox : (s.reject c e).inbox = s.inbox := rfl
@[simp] theorem State.reject_hostRead : (s.reject c e).hostRead = s.hostRead := rfl

end reject

section fatal

variable (s : State) (e : ErrorBit)

@[simp] theorem State.fatal_busy : (s.fatal e).busy = false := rfl
@[simp] theorem State.fatal_cmd : (s.fatal e).cmd = s.cmd := rfl
@[simp] theorem State.fatal_disabled : (s.fatal e).disabled = true := rfl
@[simp] theorem State.fatal_irqPending : (s.fatal e).irqPending = true := rfl
@[simp] theorem State.fatal_result : (s.fatal e).result = ResultCode.disabled.code := rfl
@[simp] theorem State.fatal_lastOpcode : (s.fatal e).lastOpcode = opcodeOf s.cmd := rfl
@[simp] theorem State.fatal_irqEn : (s.fatal e).irqEn = s.irqEn := rfl
@[simp] theorem State.fatal_error : (s.fatal e).error = s.error ||| e.mask := rfl
@[simp] theorem State.fatal_arg0 : (s.fatal e).arg0 = s.arg0 := rfl
@[simp] theorem State.fatal_arg1 : (s.fatal e).arg1 = s.arg1 := rfl
@[simp] theorem State.fatal_arg2 : (s.fatal e).arg2 = s.arg2 := rfl
@[simp] theorem State.fatal_arg3 : (s.fatal e).arg3 = s.arg3 := rfl
@[simp] theorem State.fatal_res0 : (s.fatal e).res0 = s.res0 := rfl
@[simp] theorem State.fatal_res1 : (s.fatal e).res1 = s.res1 := rfl
@[simp] theorem State.fatal_res2 : (s.fatal e).res2 = s.res2 := rfl
@[simp] theorem State.fatal_res3 : (s.fatal e).res3 = s.res3 := rfl
@[simp] theorem State.fatal_winColumnStart : (s.fatal e).winColumnStart = s.winColumnStart := rfl
@[simp] theorem State.fatal_winFirstElem : (s.fatal e).winFirstElem = s.winFirstElem := rfl
@[simp] theorem State.fatal_winCount : (s.fatal e).winCount = s.winCount := rfl
@[simp] theorem State.fatal_winLongest : (s.fatal e).winLongest = s.winLongest := rfl
@[simp] theorem State.fatal_descBase : (s.fatal e).descBase = s.descBase := rfl
@[simp] theorem State.fatal_sumBase : (s.fatal e).sumBase = s.sumBase := rfl
@[simp] theorem State.fatal_sumStride : (s.fatal e).sumStride = s.sumStride := rfl
@[simp] theorem State.fatal_recBase : (s.fatal e).recBase = s.recBase := rfl
@[simp] theorem State.fatal_recCap : (s.fatal e).recCap = s.recCap := rfl
@[simp] theorem State.fatal_nextRow : (s.fatal e).nextRow = s.nextRow := rfl
@[simp] theorem State.fatal_nextCauchyRow : (s.fatal e).nextCauchyRow = s.nextCauchyRow := rfl
@[simp] theorem State.fatal_nextParityColumn : (s.fatal e).nextParityColumn = s.nextParityColumn := rfl
@[simp] theorem State.fatal_npcValid : (s.fatal e).npcValid = s.npcValid := rfl
@[simp] theorem State.fatal_sumsValid : (s.fatal e).sumsValid = s.sumsValid := rfl
@[simp] theorem State.fatal_sumStartElem : (s.fatal e).sumStartElem = s.sumStartElem := rfl
@[simp] theorem State.fatal_params : (s.fatal e).params = s.params := rfl
@[simp] theorem State.fatal_bitsets : (s.fatal e).bitsets = s.bitsets := rfl
@[simp] theorem State.fatal_slots : (s.fatal e).slots = s.slots := rfl
@[simp] theorem State.fatal_prefList : (s.fatal e).prefList = s.prefList := rfl
@[simp] theorem State.fatal_fullList : (s.fatal e).fullList = s.fullList := rfl
@[simp] theorem State.fatal_sums : (s.fatal e).sums = s.sums := rfl
@[simp] theorem State.fatal_mem : (s.fatal e).mem = s.mem := rfl
@[simp] theorem State.fatal_port : (s.fatal e).port = s.port := rfl
@[simp] theorem State.fatal_allocAnswers : (s.fatal e).allocAnswers = s.allocAnswers := rfl
@[simp] theorem State.fatal_largeLive : (s.fatal e).largeLive = s.largeLive := rfl
@[simp] theorem State.fatal_windowsLive : (s.fatal e).windowsLive = s.windowsLive := rfl
@[simp] theorem State.fatal_hostFrees : (s.fatal e).hostFrees = s.hostFrees := rfl
@[simp] theorem State.fatal_handed : (s.fatal e).handed = s.handed := rfl
@[simp] theorem State.fatal_slabTainted : (s.fatal e).slabTainted = s.slabTainted := rfl
@[simp] theorem State.fatal_folded : (s.fatal e).folded = s.folded := rfl
@[simp] theorem State.fatal_sumsTainted : (s.fatal e).sumsTainted = s.sumsTainted := rfl
@[simp] theorem State.fatal_pending : (s.fatal e).pending = s.pending := rfl
@[simp] theorem State.fatal_replaced : (s.fatal e).replaced = s.replaced := rfl
@[simp] theorem State.fatal_copied : (s.fatal e).copied = s.copied := rfl
@[simp] theorem State.fatal_tableTainted : (s.fatal e).tableTainted = s.tableTainted := rfl
@[simp] theorem State.fatal_raced : (s.fatal e).raced = [] := rfl
@[simp] theorem State.fatal_draws : (s.fatal e).draws = s.draws := rfl
@[simp] theorem State.fatal_hostDraws : (s.fatal e).hostDraws = s.hostDraws := rfl
@[simp] theorem State.fatal_inbox : (s.fatal e).inbox = s.inbox := rfl
@[simp] theorem State.fatal_hostRead : (s.fatal e).hostRead = s.hostRead := rfl

end fatal

section setRes0

variable (s : State) (v : Word)

@[simp] theorem State.setRes0_busy : (s.setRes0 v).busy = s.busy := rfl
@[simp] theorem State.setRes0_cmd : (s.setRes0 v).cmd = s.cmd := rfl
@[simp] theorem State.setRes0_disabled : (s.setRes0 v).disabled = s.disabled := rfl
@[simp] theorem State.setRes0_irqPending : (s.setRes0 v).irqPending = s.irqPending := rfl
@[simp] theorem State.setRes0_result : (s.setRes0 v).result = s.result := rfl
@[simp] theorem State.setRes0_lastOpcode : (s.setRes0 v).lastOpcode = s.lastOpcode := rfl
@[simp] theorem State.setRes0_irqEn : (s.setRes0 v).irqEn = s.irqEn := rfl
@[simp] theorem State.setRes0_error : (s.setRes0 v).error = s.error := rfl
@[simp] theorem State.setRes0_arg0 : (s.setRes0 v).arg0 = s.arg0 := rfl
@[simp] theorem State.setRes0_arg1 : (s.setRes0 v).arg1 = s.arg1 := rfl
@[simp] theorem State.setRes0_arg2 : (s.setRes0 v).arg2 = s.arg2 := rfl
@[simp] theorem State.setRes0_arg3 : (s.setRes0 v).arg3 = s.arg3 := rfl
@[simp] theorem State.setRes0_res0 : (s.setRes0 v).res0 = v := rfl
@[simp] theorem State.setRes0_res1 : (s.setRes0 v).res1 = s.res1 := rfl
@[simp] theorem State.setRes0_res2 : (s.setRes0 v).res2 = s.res2 := rfl
@[simp] theorem State.setRes0_res3 : (s.setRes0 v).res3 = s.res3 := rfl
@[simp] theorem State.setRes0_winColumnStart : (s.setRes0 v).winColumnStart = s.winColumnStart := rfl
@[simp] theorem State.setRes0_winFirstElem : (s.setRes0 v).winFirstElem = s.winFirstElem := rfl
@[simp] theorem State.setRes0_winCount : (s.setRes0 v).winCount = s.winCount := rfl
@[simp] theorem State.setRes0_winLongest : (s.setRes0 v).winLongest = s.winLongest := rfl
@[simp] theorem State.setRes0_descBase : (s.setRes0 v).descBase = s.descBase := rfl
@[simp] theorem State.setRes0_sumBase : (s.setRes0 v).sumBase = s.sumBase := rfl
@[simp] theorem State.setRes0_sumStride : (s.setRes0 v).sumStride = s.sumStride := rfl
@[simp] theorem State.setRes0_recBase : (s.setRes0 v).recBase = s.recBase := rfl
@[simp] theorem State.setRes0_recCap : (s.setRes0 v).recCap = s.recCap := rfl
@[simp] theorem State.setRes0_nextRow : (s.setRes0 v).nextRow = s.nextRow := rfl
@[simp] theorem State.setRes0_nextCauchyRow : (s.setRes0 v).nextCauchyRow = s.nextCauchyRow := rfl
@[simp] theorem State.setRes0_nextParityColumn : (s.setRes0 v).nextParityColumn = s.nextParityColumn := rfl
@[simp] theorem State.setRes0_npcValid : (s.setRes0 v).npcValid = s.npcValid := rfl
@[simp] theorem State.setRes0_sumsValid : (s.setRes0 v).sumsValid = s.sumsValid := rfl
@[simp] theorem State.setRes0_sumStartElem : (s.setRes0 v).sumStartElem = s.sumStartElem := rfl
@[simp] theorem State.setRes0_params : (s.setRes0 v).params = s.params := rfl
@[simp] theorem State.setRes0_bitsets : (s.setRes0 v).bitsets = s.bitsets := rfl
@[simp] theorem State.setRes0_slots : (s.setRes0 v).slots = s.slots := rfl
@[simp] theorem State.setRes0_prefList : (s.setRes0 v).prefList = s.prefList := rfl
@[simp] theorem State.setRes0_fullList : (s.setRes0 v).fullList = s.fullList := rfl
@[simp] theorem State.setRes0_sums : (s.setRes0 v).sums = s.sums := rfl
@[simp] theorem State.setRes0_mem : (s.setRes0 v).mem = s.mem := rfl
@[simp] theorem State.setRes0_port : (s.setRes0 v).port = s.port := rfl
@[simp] theorem State.setRes0_allocAnswers : (s.setRes0 v).allocAnswers = s.allocAnswers := rfl
@[simp] theorem State.setRes0_largeLive : (s.setRes0 v).largeLive = s.largeLive := rfl
@[simp] theorem State.setRes0_windowsLive : (s.setRes0 v).windowsLive = s.windowsLive := rfl
@[simp] theorem State.setRes0_hostFrees : (s.setRes0 v).hostFrees = s.hostFrees := rfl
@[simp] theorem State.setRes0_handed : (s.setRes0 v).handed = s.handed := rfl
@[simp] theorem State.setRes0_slabTainted : (s.setRes0 v).slabTainted = s.slabTainted := rfl
@[simp] theorem State.setRes0_folded : (s.setRes0 v).folded = s.folded := rfl
@[simp] theorem State.setRes0_sumsTainted : (s.setRes0 v).sumsTainted = s.sumsTainted := rfl
@[simp] theorem State.setRes0_pending : (s.setRes0 v).pending = s.pending := rfl
@[simp] theorem State.setRes0_replaced : (s.setRes0 v).replaced = s.replaced := rfl
@[simp] theorem State.setRes0_copied : (s.setRes0 v).copied = s.copied := rfl
@[simp] theorem State.setRes0_tableTainted : (s.setRes0 v).tableTainted = s.tableTainted := rfl
@[simp] theorem State.setRes0_raced : (s.setRes0 v).raced = s.raced := rfl
@[simp] theorem State.setRes0_draws : (s.setRes0 v).draws = s.draws := rfl
@[simp] theorem State.setRes0_hostDraws : (s.setRes0 v).hostDraws = s.hostDraws := rfl
@[simp] theorem State.setRes0_inbox : (s.setRes0 v).inbox = s.inbox := rfl
@[simp] theorem State.setRes0_hostRead : (s.setRes0 v).hostRead = s.hostRead := rfl

end setRes0

section setRes

variable (s : State) (a b c d : Word)

@[simp] theorem State.setRes_busy : (s.setRes a b c d).busy = s.busy := rfl
@[simp] theorem State.setRes_cmd : (s.setRes a b c d).cmd = s.cmd := rfl
@[simp] theorem State.setRes_disabled : (s.setRes a b c d).disabled = s.disabled := rfl
@[simp] theorem State.setRes_irqPending : (s.setRes a b c d).irqPending = s.irqPending := rfl
@[simp] theorem State.setRes_result : (s.setRes a b c d).result = s.result := rfl
@[simp] theorem State.setRes_lastOpcode : (s.setRes a b c d).lastOpcode = s.lastOpcode := rfl
@[simp] theorem State.setRes_irqEn : (s.setRes a b c d).irqEn = s.irqEn := rfl
@[simp] theorem State.setRes_error : (s.setRes a b c d).error = s.error := rfl
@[simp] theorem State.setRes_arg0 : (s.setRes a b c d).arg0 = s.arg0 := rfl
@[simp] theorem State.setRes_arg1 : (s.setRes a b c d).arg1 = s.arg1 := rfl
@[simp] theorem State.setRes_arg2 : (s.setRes a b c d).arg2 = s.arg2 := rfl
@[simp] theorem State.setRes_arg3 : (s.setRes a b c d).arg3 = s.arg3 := rfl
@[simp] theorem State.setRes_res0 : (s.setRes a b c d).res0 = a := rfl
@[simp] theorem State.setRes_res1 : (s.setRes a b c d).res1 = b := rfl
@[simp] theorem State.setRes_res2 : (s.setRes a b c d).res2 = c := rfl
@[simp] theorem State.setRes_res3 : (s.setRes a b c d).res3 = d := rfl
@[simp] theorem State.setRes_winColumnStart : (s.setRes a b c d).winColumnStart = s.winColumnStart := rfl
@[simp] theorem State.setRes_winFirstElem : (s.setRes a b c d).winFirstElem = s.winFirstElem := rfl
@[simp] theorem State.setRes_winCount : (s.setRes a b c d).winCount = s.winCount := rfl
@[simp] theorem State.setRes_winLongest : (s.setRes a b c d).winLongest = s.winLongest := rfl
@[simp] theorem State.setRes_descBase : (s.setRes a b c d).descBase = s.descBase := rfl
@[simp] theorem State.setRes_sumBase : (s.setRes a b c d).sumBase = s.sumBase := rfl
@[simp] theorem State.setRes_sumStride : (s.setRes a b c d).sumStride = s.sumStride := rfl
@[simp] theorem State.setRes_recBase : (s.setRes a b c d).recBase = s.recBase := rfl
@[simp] theorem State.setRes_recCap : (s.setRes a b c d).recCap = s.recCap := rfl
@[simp] theorem State.setRes_nextRow : (s.setRes a b c d).nextRow = s.nextRow := rfl
@[simp] theorem State.setRes_nextCauchyRow : (s.setRes a b c d).nextCauchyRow = s.nextCauchyRow := rfl
@[simp] theorem State.setRes_nextParityColumn : (s.setRes a b c d).nextParityColumn = s.nextParityColumn := rfl
@[simp] theorem State.setRes_npcValid : (s.setRes a b c d).npcValid = s.npcValid := rfl
@[simp] theorem State.setRes_sumsValid : (s.setRes a b c d).sumsValid = s.sumsValid := rfl
@[simp] theorem State.setRes_sumStartElem : (s.setRes a b c d).sumStartElem = s.sumStartElem := rfl
@[simp] theorem State.setRes_params : (s.setRes a b c d).params = s.params := rfl
@[simp] theorem State.setRes_bitsets : (s.setRes a b c d).bitsets = s.bitsets := rfl
@[simp] theorem State.setRes_slots : (s.setRes a b c d).slots = s.slots := rfl
@[simp] theorem State.setRes_prefList : (s.setRes a b c d).prefList = s.prefList := rfl
@[simp] theorem State.setRes_fullList : (s.setRes a b c d).fullList = s.fullList := rfl
@[simp] theorem State.setRes_sums : (s.setRes a b c d).sums = s.sums := rfl
@[simp] theorem State.setRes_mem : (s.setRes a b c d).mem = s.mem := rfl
@[simp] theorem State.setRes_port : (s.setRes a b c d).port = s.port := rfl
@[simp] theorem State.setRes_allocAnswers : (s.setRes a b c d).allocAnswers = s.allocAnswers := rfl
@[simp] theorem State.setRes_largeLive : (s.setRes a b c d).largeLive = s.largeLive := rfl
@[simp] theorem State.setRes_windowsLive : (s.setRes a b c d).windowsLive = s.windowsLive := rfl
@[simp] theorem State.setRes_hostFrees : (s.setRes a b c d).hostFrees = s.hostFrees := rfl
@[simp] theorem State.setRes_handed : (s.setRes a b c d).handed = s.handed := rfl
@[simp] theorem State.setRes_slabTainted : (s.setRes a b c d).slabTainted = s.slabTainted := rfl
@[simp] theorem State.setRes_folded : (s.setRes a b c d).folded = s.folded := rfl
@[simp] theorem State.setRes_sumsTainted : (s.setRes a b c d).sumsTainted = s.sumsTainted := rfl
@[simp] theorem State.setRes_pending : (s.setRes a b c d).pending = s.pending := rfl
@[simp] theorem State.setRes_replaced : (s.setRes a b c d).replaced = s.replaced := rfl
@[simp] theorem State.setRes_copied : (s.setRes a b c d).copied = s.copied := rfl
@[simp] theorem State.setRes_tableTainted : (s.setRes a b c d).tableTainted = s.tableTainted := rfl
@[simp] theorem State.setRes_raced : (s.setRes a b c d).raced = s.raced := rfl
@[simp] theorem State.setRes_draws : (s.setRes a b c d).draws = s.draws := rfl
@[simp] theorem State.setRes_hostDraws : (s.setRes a b c d).hostDraws = s.hostDraws := rfl
@[simp] theorem State.setRes_inbox : (s.setRes a b c d).inbox = s.inbox := rfl
@[simp] theorem State.setRes_hostRead : (s.setRes a b c d).hostRead = s.hostRead := rfl

end setRes

section setBitset

variable (s : State) (b : Nat) (v : BitVec Config.bitsetWidth)

@[simp] theorem State.setBitset_busy : (s.setBitset b v).busy = s.busy := rfl
@[simp] theorem State.setBitset_cmd : (s.setBitset b v).cmd = s.cmd := rfl
@[simp] theorem State.setBitset_disabled : (s.setBitset b v).disabled = s.disabled := rfl
@[simp] theorem State.setBitset_irqPending : (s.setBitset b v).irqPending = s.irqPending := rfl
@[simp] theorem State.setBitset_result : (s.setBitset b v).result = s.result := rfl
@[simp] theorem State.setBitset_lastOpcode : (s.setBitset b v).lastOpcode = s.lastOpcode := rfl
@[simp] theorem State.setBitset_irqEn : (s.setBitset b v).irqEn = s.irqEn := rfl
@[simp] theorem State.setBitset_error : (s.setBitset b v).error = s.error := rfl
@[simp] theorem State.setBitset_arg0 : (s.setBitset b v).arg0 = s.arg0 := rfl
@[simp] theorem State.setBitset_arg1 : (s.setBitset b v).arg1 = s.arg1 := rfl
@[simp] theorem State.setBitset_arg2 : (s.setBitset b v).arg2 = s.arg2 := rfl
@[simp] theorem State.setBitset_arg3 : (s.setBitset b v).arg3 = s.arg3 := rfl
@[simp] theorem State.setBitset_res0 : (s.setBitset b v).res0 = s.res0 := rfl
@[simp] theorem State.setBitset_res1 : (s.setBitset b v).res1 = s.res1 := rfl
@[simp] theorem State.setBitset_res2 : (s.setBitset b v).res2 = s.res2 := rfl
@[simp] theorem State.setBitset_res3 : (s.setBitset b v).res3 = s.res3 := rfl
@[simp] theorem State.setBitset_winColumnStart : (s.setBitset b v).winColumnStart = s.winColumnStart := rfl
@[simp] theorem State.setBitset_winFirstElem : (s.setBitset b v).winFirstElem = s.winFirstElem := rfl
@[simp] theorem State.setBitset_winCount : (s.setBitset b v).winCount = s.winCount := rfl
@[simp] theorem State.setBitset_winLongest : (s.setBitset b v).winLongest = s.winLongest := rfl
@[simp] theorem State.setBitset_descBase : (s.setBitset b v).descBase = s.descBase := rfl
@[simp] theorem State.setBitset_sumBase : (s.setBitset b v).sumBase = s.sumBase := rfl
@[simp] theorem State.setBitset_sumStride : (s.setBitset b v).sumStride = s.sumStride := rfl
@[simp] theorem State.setBitset_recBase : (s.setBitset b v).recBase = s.recBase := rfl
@[simp] theorem State.setBitset_recCap : (s.setBitset b v).recCap = s.recCap := rfl
@[simp] theorem State.setBitset_nextRow : (s.setBitset b v).nextRow = s.nextRow := rfl
@[simp] theorem State.setBitset_nextCauchyRow : (s.setBitset b v).nextCauchyRow = s.nextCauchyRow := rfl
@[simp] theorem State.setBitset_nextParityColumn : (s.setBitset b v).nextParityColumn = s.nextParityColumn := rfl
@[simp] theorem State.setBitset_npcValid : (s.setBitset b v).npcValid = s.npcValid := rfl
@[simp] theorem State.setBitset_sumsValid : (s.setBitset b v).sumsValid = s.sumsValid := rfl
@[simp] theorem State.setBitset_sumStartElem : (s.setBitset b v).sumStartElem = s.sumStartElem := rfl
@[simp] theorem State.setBitset_params : (s.setBitset b v).params = s.params := rfl
@[simp] theorem State.setBitset_bitsets : (s.setBitset b v).bitsets = s.bitsets.setIfInBounds b v := rfl
@[simp] theorem State.setBitset_slots : (s.setBitset b v).slots = s.slots := rfl
@[simp] theorem State.setBitset_prefList : (s.setBitset b v).prefList = s.prefList := rfl
@[simp] theorem State.setBitset_fullList : (s.setBitset b v).fullList = s.fullList := rfl
@[simp] theorem State.setBitset_sums : (s.setBitset b v).sums = s.sums := rfl
@[simp] theorem State.setBitset_mem : (s.setBitset b v).mem = s.mem := rfl
@[simp] theorem State.setBitset_port : (s.setBitset b v).port = s.port := rfl
@[simp] theorem State.setBitset_allocAnswers : (s.setBitset b v).allocAnswers = s.allocAnswers := rfl
@[simp] theorem State.setBitset_largeLive : (s.setBitset b v).largeLive = s.largeLive := rfl
@[simp] theorem State.setBitset_windowsLive : (s.setBitset b v).windowsLive = s.windowsLive := rfl
@[simp] theorem State.setBitset_hostFrees : (s.setBitset b v).hostFrees = s.hostFrees := rfl
@[simp] theorem State.setBitset_handed : (s.setBitset b v).handed = s.handed := rfl
@[simp] theorem State.setBitset_slabTainted : (s.setBitset b v).slabTainted = s.slabTainted := rfl
@[simp] theorem State.setBitset_folded : (s.setBitset b v).folded = s.folded := rfl
@[simp] theorem State.setBitset_sumsTainted : (s.setBitset b v).sumsTainted = s.sumsTainted := rfl
@[simp] theorem State.setBitset_pending : (s.setBitset b v).pending = s.pending := rfl
@[simp] theorem State.setBitset_replaced : (s.setBitset b v).replaced = s.replaced := rfl
@[simp] theorem State.setBitset_copied : (s.setBitset b v).copied = s.copied := rfl
@[simp] theorem State.setBitset_tableTainted : (s.setBitset b v).tableTainted = s.tableTainted := rfl
@[simp] theorem State.setBitset_raced : (s.setBitset b v).raced = s.raced := rfl
@[simp] theorem State.setBitset_draws : (s.setBitset b v).draws = s.draws := rfl
@[simp] theorem State.setBitset_hostDraws : (s.setBitset b v).hostDraws = s.hostDraws := rfl
@[simp] theorem State.setBitset_inbox : (s.setBitset b v).inbox = s.inbox := rfl
@[simp] theorem State.setBitset_hostRead : (s.setBitset b v).hostRead = s.hostRead := rfl

end setBitset

section setSlot

variable (s : State) (i : Nat) (w : Slot)

@[simp] theorem State.setSlot_busy : (s.setSlot i w).busy = s.busy := rfl
@[simp] theorem State.setSlot_cmd : (s.setSlot i w).cmd = s.cmd := rfl
@[simp] theorem State.setSlot_disabled : (s.setSlot i w).disabled = s.disabled := rfl
@[simp] theorem State.setSlot_irqPending : (s.setSlot i w).irqPending = s.irqPending := rfl
@[simp] theorem State.setSlot_result : (s.setSlot i w).result = s.result := rfl
@[simp] theorem State.setSlot_lastOpcode : (s.setSlot i w).lastOpcode = s.lastOpcode := rfl
@[simp] theorem State.setSlot_irqEn : (s.setSlot i w).irqEn = s.irqEn := rfl
@[simp] theorem State.setSlot_error : (s.setSlot i w).error = s.error := rfl
@[simp] theorem State.setSlot_arg0 : (s.setSlot i w).arg0 = s.arg0 := rfl
@[simp] theorem State.setSlot_arg1 : (s.setSlot i w).arg1 = s.arg1 := rfl
@[simp] theorem State.setSlot_arg2 : (s.setSlot i w).arg2 = s.arg2 := rfl
@[simp] theorem State.setSlot_arg3 : (s.setSlot i w).arg3 = s.arg3 := rfl
@[simp] theorem State.setSlot_res0 : (s.setSlot i w).res0 = s.res0 := rfl
@[simp] theorem State.setSlot_res1 : (s.setSlot i w).res1 = s.res1 := rfl
@[simp] theorem State.setSlot_res2 : (s.setSlot i w).res2 = s.res2 := rfl
@[simp] theorem State.setSlot_res3 : (s.setSlot i w).res3 = s.res3 := rfl
@[simp] theorem State.setSlot_winColumnStart : (s.setSlot i w).winColumnStart = s.winColumnStart := rfl
@[simp] theorem State.setSlot_winFirstElem : (s.setSlot i w).winFirstElem = s.winFirstElem := rfl
@[simp] theorem State.setSlot_winCount : (s.setSlot i w).winCount = s.winCount := rfl
@[simp] theorem State.setSlot_winLongest : (s.setSlot i w).winLongest = s.winLongest := rfl
@[simp] theorem State.setSlot_descBase : (s.setSlot i w).descBase = s.descBase := rfl
@[simp] theorem State.setSlot_sumBase : (s.setSlot i w).sumBase = s.sumBase := rfl
@[simp] theorem State.setSlot_sumStride : (s.setSlot i w).sumStride = s.sumStride := rfl
@[simp] theorem State.setSlot_recBase : (s.setSlot i w).recBase = s.recBase := rfl
@[simp] theorem State.setSlot_recCap : (s.setSlot i w).recCap = s.recCap := rfl
@[simp] theorem State.setSlot_nextRow : (s.setSlot i w).nextRow = s.nextRow := rfl
@[simp] theorem State.setSlot_nextCauchyRow : (s.setSlot i w).nextCauchyRow = s.nextCauchyRow := rfl
@[simp] theorem State.setSlot_nextParityColumn : (s.setSlot i w).nextParityColumn = s.nextParityColumn := rfl
@[simp] theorem State.setSlot_npcValid : (s.setSlot i w).npcValid = s.npcValid := rfl
@[simp] theorem State.setSlot_sumsValid : (s.setSlot i w).sumsValid = s.sumsValid := rfl
@[simp] theorem State.setSlot_sumStartElem : (s.setSlot i w).sumStartElem = s.sumStartElem := rfl
@[simp] theorem State.setSlot_params : (s.setSlot i w).params = s.params := rfl
@[simp] theorem State.setSlot_bitsets : (s.setSlot i w).bitsets = s.bitsets := rfl
@[simp] theorem State.setSlot_slots : (s.setSlot i w).slots = s.slots.setIfInBounds i w := rfl
@[simp] theorem State.setSlot_prefList : (s.setSlot i w).prefList = s.prefList := rfl
@[simp] theorem State.setSlot_fullList : (s.setSlot i w).fullList = s.fullList := rfl
@[simp] theorem State.setSlot_sums : (s.setSlot i w).sums = s.sums := rfl
@[simp] theorem State.setSlot_mem : (s.setSlot i w).mem = s.mem := rfl
@[simp] theorem State.setSlot_port : (s.setSlot i w).port = s.port := rfl
@[simp] theorem State.setSlot_allocAnswers : (s.setSlot i w).allocAnswers = s.allocAnswers := rfl
@[simp] theorem State.setSlot_largeLive : (s.setSlot i w).largeLive = s.largeLive := rfl
@[simp] theorem State.setSlot_windowsLive : (s.setSlot i w).windowsLive = s.windowsLive := rfl
@[simp] theorem State.setSlot_hostFrees : (s.setSlot i w).hostFrees = s.hostFrees := rfl
@[simp] theorem State.setSlot_handed : (s.setSlot i w).handed = s.handed := rfl
@[simp] theorem State.setSlot_slabTainted : (s.setSlot i w).slabTainted = s.slabTainted := rfl
@[simp] theorem State.setSlot_folded : (s.setSlot i w).folded = s.folded := rfl
@[simp] theorem State.setSlot_sumsTainted : (s.setSlot i w).sumsTainted = s.sumsTainted := rfl
@[simp] theorem State.setSlot_pending : (s.setSlot i w).pending = s.pending := rfl
@[simp] theorem State.setSlot_replaced : (s.setSlot i w).replaced = s.replaced := rfl
@[simp] theorem State.setSlot_copied : (s.setSlot i w).copied = s.copied := rfl
@[simp] theorem State.setSlot_tableTainted : (s.setSlot i w).tableTainted = s.tableTainted := rfl
@[simp] theorem State.setSlot_raced : (s.setSlot i w).raced = s.raced := rfl
@[simp] theorem State.setSlot_draws : (s.setSlot i w).draws = s.draws := rfl
@[simp] theorem State.setSlot_hostDraws : (s.setSlot i w).hostDraws = s.hostDraws := rfl
@[simp] theorem State.setSlot_inbox : (s.setSlot i w).inbox = s.inbox := rfl
@[simp] theorem State.setSlot_hostRead : (s.setSlot i w).hostRead = s.hostRead := rfl

end setSlot

section setLists

variable (s : State) (p f : List Nat)

@[simp] theorem State.setLists_busy : (s.setLists p f).busy = s.busy := rfl
@[simp] theorem State.setLists_cmd : (s.setLists p f).cmd = s.cmd := rfl
@[simp] theorem State.setLists_disabled : (s.setLists p f).disabled = s.disabled := rfl
@[simp] theorem State.setLists_irqPending : (s.setLists p f).irqPending = s.irqPending := rfl
@[simp] theorem State.setLists_result : (s.setLists p f).result = s.result := rfl
@[simp] theorem State.setLists_lastOpcode : (s.setLists p f).lastOpcode = s.lastOpcode := rfl
@[simp] theorem State.setLists_irqEn : (s.setLists p f).irqEn = s.irqEn := rfl
@[simp] theorem State.setLists_error : (s.setLists p f).error = s.error := rfl
@[simp] theorem State.setLists_arg0 : (s.setLists p f).arg0 = s.arg0 := rfl
@[simp] theorem State.setLists_arg1 : (s.setLists p f).arg1 = s.arg1 := rfl
@[simp] theorem State.setLists_arg2 : (s.setLists p f).arg2 = s.arg2 := rfl
@[simp] theorem State.setLists_arg3 : (s.setLists p f).arg3 = s.arg3 := rfl
@[simp] theorem State.setLists_res0 : (s.setLists p f).res0 = s.res0 := rfl
@[simp] theorem State.setLists_res1 : (s.setLists p f).res1 = s.res1 := rfl
@[simp] theorem State.setLists_res2 : (s.setLists p f).res2 = s.res2 := rfl
@[simp] theorem State.setLists_res3 : (s.setLists p f).res3 = s.res3 := rfl
@[simp] theorem State.setLists_winColumnStart : (s.setLists p f).winColumnStart = s.winColumnStart := rfl
@[simp] theorem State.setLists_winFirstElem : (s.setLists p f).winFirstElem = s.winFirstElem := rfl
@[simp] theorem State.setLists_winCount : (s.setLists p f).winCount = s.winCount := rfl
@[simp] theorem State.setLists_winLongest : (s.setLists p f).winLongest = s.winLongest := rfl
@[simp] theorem State.setLists_descBase : (s.setLists p f).descBase = s.descBase := rfl
@[simp] theorem State.setLists_sumBase : (s.setLists p f).sumBase = s.sumBase := rfl
@[simp] theorem State.setLists_sumStride : (s.setLists p f).sumStride = s.sumStride := rfl
@[simp] theorem State.setLists_recBase : (s.setLists p f).recBase = s.recBase := rfl
@[simp] theorem State.setLists_recCap : (s.setLists p f).recCap = s.recCap := rfl
@[simp] theorem State.setLists_nextRow : (s.setLists p f).nextRow = s.nextRow := rfl
@[simp] theorem State.setLists_nextCauchyRow : (s.setLists p f).nextCauchyRow = s.nextCauchyRow := rfl
@[simp] theorem State.setLists_nextParityColumn : (s.setLists p f).nextParityColumn = s.nextParityColumn := rfl
@[simp] theorem State.setLists_npcValid : (s.setLists p f).npcValid = s.npcValid := rfl
@[simp] theorem State.setLists_sumsValid : (s.setLists p f).sumsValid = s.sumsValid := rfl
@[simp] theorem State.setLists_sumStartElem : (s.setLists p f).sumStartElem = s.sumStartElem := rfl
@[simp] theorem State.setLists_params : (s.setLists p f).params = s.params := rfl
@[simp] theorem State.setLists_bitsets : (s.setLists p f).bitsets = s.bitsets := rfl
@[simp] theorem State.setLists_slots : (s.setLists p f).slots = s.slots := rfl
@[simp] theorem State.setLists_prefList : (s.setLists p f).prefList = p := rfl
@[simp] theorem State.setLists_fullList : (s.setLists p f).fullList = f := rfl
@[simp] theorem State.setLists_sums : (s.setLists p f).sums = s.sums := rfl
@[simp] theorem State.setLists_mem : (s.setLists p f).mem = s.mem := rfl
@[simp] theorem State.setLists_port : (s.setLists p f).port = s.port := rfl
@[simp] theorem State.setLists_allocAnswers : (s.setLists p f).allocAnswers = s.allocAnswers := rfl
@[simp] theorem State.setLists_largeLive : (s.setLists p f).largeLive = s.largeLive := rfl
@[simp] theorem State.setLists_windowsLive : (s.setLists p f).windowsLive = s.windowsLive := rfl
@[simp] theorem State.setLists_hostFrees : (s.setLists p f).hostFrees = s.hostFrees := rfl
@[simp] theorem State.setLists_handed : (s.setLists p f).handed = s.handed := rfl
@[simp] theorem State.setLists_slabTainted : (s.setLists p f).slabTainted = s.slabTainted := rfl
@[simp] theorem State.setLists_folded : (s.setLists p f).folded = s.folded := rfl
@[simp] theorem State.setLists_sumsTainted : (s.setLists p f).sumsTainted = s.sumsTainted := rfl
@[simp] theorem State.setLists_pending : (s.setLists p f).pending = s.pending := rfl
@[simp] theorem State.setLists_replaced : (s.setLists p f).replaced = s.replaced := rfl
@[simp] theorem State.setLists_copied : (s.setLists p f).copied = s.copied := rfl
@[simp] theorem State.setLists_tableTainted : (s.setLists p f).tableTainted = s.tableTainted := rfl
@[simp] theorem State.setLists_raced : (s.setLists p f).raced = s.raced := rfl
@[simp] theorem State.setLists_draws : (s.setLists p f).draws = s.draws := rfl
@[simp] theorem State.setLists_hostDraws : (s.setLists p f).hostDraws = s.hostDraws := rfl
@[simp] theorem State.setLists_inbox : (s.setLists p f).inbox = s.inbox := rfl
@[simp] theorem State.setLists_hostRead : (s.setLists p f).hostRead = s.hostRead := rfl

end setLists

section setSum

variable (s : State) (l k : Nat) (c : SumCtr)

@[simp] theorem State.setSum_busy : (s.setSum l k c).busy = s.busy := rfl
@[simp] theorem State.setSum_cmd : (s.setSum l k c).cmd = s.cmd := rfl
@[simp] theorem State.setSum_disabled : (s.setSum l k c).disabled = s.disabled := rfl
@[simp] theorem State.setSum_irqPending : (s.setSum l k c).irqPending = s.irqPending := rfl
@[simp] theorem State.setSum_result : (s.setSum l k c).result = s.result := rfl
@[simp] theorem State.setSum_lastOpcode : (s.setSum l k c).lastOpcode = s.lastOpcode := rfl
@[simp] theorem State.setSum_irqEn : (s.setSum l k c).irqEn = s.irqEn := rfl
@[simp] theorem State.setSum_error : (s.setSum l k c).error = s.error := rfl
@[simp] theorem State.setSum_arg0 : (s.setSum l k c).arg0 = s.arg0 := rfl
@[simp] theorem State.setSum_arg1 : (s.setSum l k c).arg1 = s.arg1 := rfl
@[simp] theorem State.setSum_arg2 : (s.setSum l k c).arg2 = s.arg2 := rfl
@[simp] theorem State.setSum_arg3 : (s.setSum l k c).arg3 = s.arg3 := rfl
@[simp] theorem State.setSum_res0 : (s.setSum l k c).res0 = s.res0 := rfl
@[simp] theorem State.setSum_res1 : (s.setSum l k c).res1 = s.res1 := rfl
@[simp] theorem State.setSum_res2 : (s.setSum l k c).res2 = s.res2 := rfl
@[simp] theorem State.setSum_res3 : (s.setSum l k c).res3 = s.res3 := rfl
@[simp] theorem State.setSum_winColumnStart : (s.setSum l k c).winColumnStart = s.winColumnStart := rfl
@[simp] theorem State.setSum_winFirstElem : (s.setSum l k c).winFirstElem = s.winFirstElem := rfl
@[simp] theorem State.setSum_winCount : (s.setSum l k c).winCount = s.winCount := rfl
@[simp] theorem State.setSum_winLongest : (s.setSum l k c).winLongest = s.winLongest := rfl
@[simp] theorem State.setSum_descBase : (s.setSum l k c).descBase = s.descBase := rfl
@[simp] theorem State.setSum_sumBase : (s.setSum l k c).sumBase = s.sumBase := rfl
@[simp] theorem State.setSum_sumStride : (s.setSum l k c).sumStride = s.sumStride := rfl
@[simp] theorem State.setSum_recBase : (s.setSum l k c).recBase = s.recBase := rfl
@[simp] theorem State.setSum_recCap : (s.setSum l k c).recCap = s.recCap := rfl
@[simp] theorem State.setSum_nextRow : (s.setSum l k c).nextRow = s.nextRow := rfl
@[simp] theorem State.setSum_nextCauchyRow : (s.setSum l k c).nextCauchyRow = s.nextCauchyRow := rfl
@[simp] theorem State.setSum_nextParityColumn : (s.setSum l k c).nextParityColumn = s.nextParityColumn := rfl
@[simp] theorem State.setSum_npcValid : (s.setSum l k c).npcValid = s.npcValid := rfl
@[simp] theorem State.setSum_sumsValid : (s.setSum l k c).sumsValid = s.sumsValid := rfl
@[simp] theorem State.setSum_sumStartElem : (s.setSum l k c).sumStartElem = s.sumStartElem := rfl
@[simp] theorem State.setSum_params : (s.setSum l k c).params = s.params := rfl
@[simp] theorem State.setSum_bitsets : (s.setSum l k c).bitsets = s.bitsets := rfl
@[simp] theorem State.setSum_slots : (s.setSum l k c).slots = s.slots := rfl
@[simp] theorem State.setSum_prefList : (s.setSum l k c).prefList = s.prefList := rfl
@[simp] theorem State.setSum_fullList : (s.setSum l k c).fullList = s.fullList := rfl
@[simp] theorem State.setSum_sums : (s.setSum l k c).sums = s.sums.setIfInBounds (sumIndex l k) c := rfl
@[simp] theorem State.setSum_mem : (s.setSum l k c).mem = s.mem := rfl
@[simp] theorem State.setSum_port : (s.setSum l k c).port = s.port := rfl
@[simp] theorem State.setSum_allocAnswers : (s.setSum l k c).allocAnswers = s.allocAnswers := rfl
@[simp] theorem State.setSum_largeLive : (s.setSum l k c).largeLive = s.largeLive := rfl
@[simp] theorem State.setSum_windowsLive : (s.setSum l k c).windowsLive = s.windowsLive := rfl
@[simp] theorem State.setSum_hostFrees : (s.setSum l k c).hostFrees = s.hostFrees := rfl
@[simp] theorem State.setSum_handed : (s.setSum l k c).handed = s.handed := rfl
@[simp] theorem State.setSum_slabTainted : (s.setSum l k c).slabTainted = s.slabTainted := rfl
@[simp] theorem State.setSum_folded : (s.setSum l k c).folded = s.folded := rfl
@[simp] theorem State.setSum_sumsTainted : (s.setSum l k c).sumsTainted = s.sumsTainted := rfl
@[simp] theorem State.setSum_pending : (s.setSum l k c).pending = s.pending := rfl
@[simp] theorem State.setSum_replaced : (s.setSum l k c).replaced = s.replaced := rfl
@[simp] theorem State.setSum_copied : (s.setSum l k c).copied = s.copied := rfl
@[simp] theorem State.setSum_tableTainted : (s.setSum l k c).tableTainted = s.tableTainted := rfl
@[simp] theorem State.setSum_raced : (s.setSum l k c).raced = s.raced := rfl
@[simp] theorem State.setSum_draws : (s.setSum l k c).draws = s.draws := rfl
@[simp] theorem State.setSum_hostDraws : (s.setSum l k c).hostDraws = s.hostDraws := rfl
@[simp] theorem State.setSum_inbox : (s.setSum l k c).inbox = s.inbox := rfl
@[simp] theorem State.setSum_hostRead : (s.setSum l k c).hostRead = s.hostRead := rfl

end setSum

section recheckTable

variable (s : State)

@[simp] theorem recheckTable_busy : (recheckTable s).busy = s.busy := rfl
@[simp] theorem recheckTable_cmd : (recheckTable s).cmd = s.cmd := rfl
@[simp] theorem recheckTable_disabled : (recheckTable s).disabled = s.disabled := rfl
@[simp] theorem recheckTable_irqPending : (recheckTable s).irqPending = s.irqPending := rfl
@[simp] theorem recheckTable_result : (recheckTable s).result = s.result := rfl
@[simp] theorem recheckTable_lastOpcode : (recheckTable s).lastOpcode = s.lastOpcode := rfl
@[simp] theorem recheckTable_irqEn : (recheckTable s).irqEn = s.irqEn := rfl
@[simp] theorem recheckTable_error : (recheckTable s).error = s.error := rfl
@[simp] theorem recheckTable_arg0 : (recheckTable s).arg0 = s.arg0 := rfl
@[simp] theorem recheckTable_arg1 : (recheckTable s).arg1 = s.arg1 := rfl
@[simp] theorem recheckTable_arg2 : (recheckTable s).arg2 = s.arg2 := rfl
@[simp] theorem recheckTable_arg3 : (recheckTable s).arg3 = s.arg3 := rfl
@[simp] theorem recheckTable_res0 : (recheckTable s).res0 = s.res0 := rfl
@[simp] theorem recheckTable_res1 : (recheckTable s).res1 = s.res1 := rfl
@[simp] theorem recheckTable_res2 : (recheckTable s).res2 = s.res2 := rfl
@[simp] theorem recheckTable_res3 : (recheckTable s).res3 = s.res3 := rfl
@[simp] theorem recheckTable_winColumnStart : (recheckTable s).winColumnStart = s.winColumnStart := rfl
@[simp] theorem recheckTable_winFirstElem : (recheckTable s).winFirstElem = s.winFirstElem := rfl
@[simp] theorem recheckTable_winCount : (recheckTable s).winCount = s.winCount := rfl
@[simp] theorem recheckTable_winLongest : (recheckTable s).winLongest = s.winLongest := rfl
@[simp] theorem recheckTable_descBase : (recheckTable s).descBase = s.descBase := rfl
@[simp] theorem recheckTable_sumBase : (recheckTable s).sumBase = s.sumBase := rfl
@[simp] theorem recheckTable_sumStride : (recheckTable s).sumStride = s.sumStride := rfl
@[simp] theorem recheckTable_recBase : (recheckTable s).recBase = s.recBase := rfl
@[simp] theorem recheckTable_recCap : (recheckTable s).recCap = s.recCap := rfl
@[simp] theorem recheckTable_nextRow : (recheckTable s).nextRow = s.nextRow := rfl
@[simp] theorem recheckTable_nextCauchyRow : (recheckTable s).nextCauchyRow = s.nextCauchyRow := rfl
@[simp] theorem recheckTable_nextParityColumn : (recheckTable s).nextParityColumn = s.nextParityColumn := rfl
@[simp] theorem recheckTable_npcValid : (recheckTable s).npcValid = s.npcValid := rfl
@[simp] theorem recheckTable_sumsValid : (recheckTable s).sumsValid = s.sumsValid := rfl
@[simp] theorem recheckTable_sumStartElem : (recheckTable s).sumStartElem = s.sumStartElem := rfl
@[simp] theorem recheckTable_params : (recheckTable s).params = s.params := rfl
@[simp] theorem recheckTable_bitsets : (recheckTable s).bitsets = s.bitsets := rfl
@[simp] theorem recheckTable_slots : (recheckTable s).slots = s.slots := rfl
@[simp] theorem recheckTable_prefList : (recheckTable s).prefList = s.prefList := rfl
@[simp] theorem recheckTable_fullList : (recheckTable s).fullList = s.fullList := rfl
@[simp] theorem recheckTable_sums : (recheckTable s).sums = s.sums := rfl
@[simp] theorem recheckTable_mem : (recheckTable s).mem = s.mem := rfl
@[simp] theorem recheckTable_port : (recheckTable s).port = s.port := rfl
@[simp] theorem recheckTable_allocAnswers : (recheckTable s).allocAnswers = s.allocAnswers := rfl
@[simp] theorem recheckTable_largeLive : (recheckTable s).largeLive = s.largeLive := rfl
@[simp] theorem recheckTable_windowsLive : (recheckTable s).windowsLive = s.windowsLive := rfl
@[simp] theorem recheckTable_hostFrees : (recheckTable s).hostFrees = s.hostFrees := rfl
@[simp] theorem recheckTable_handed : (recheckTable s).handed = s.handed := rfl
@[simp] theorem recheckTable_slabTainted : (recheckTable s).slabTainted = s.slabTainted := rfl
@[simp] theorem recheckTable_folded : (recheckTable s).folded = s.folded := rfl
@[simp] theorem recheckTable_sumsTainted : (recheckTable s).sumsTainted = s.sumsTainted := rfl
@[simp] theorem recheckTable_pending : (recheckTable s).pending = [] := rfl
@[simp] theorem recheckTable_replaced : (recheckTable s).replaced = s.replaced := rfl
@[simp] theorem recheckTable_copied : (recheckTable s).copied = s.copied := rfl
@[simp] theorem recheckTable_tableTainted : (recheckTable s).tableTainted = (s.tableTainted || s.pending.any fun x => decide (x.orig.elem < s.winCount.toNat) && !fulfilled s x) := rfl
@[simp] theorem recheckTable_raced : (recheckTable s).raced = s.raced := rfl
@[simp] theorem recheckTable_draws : (recheckTable s).draws = s.draws := rfl
@[simp] theorem recheckTable_hostDraws : (recheckTable s).hostDraws = s.hostDraws := rfl
@[simp] theorem recheckTable_inbox : (recheckTable s).inbox = s.inbox := rfl
@[simp] theorem recheckTable_hostRead : (recheckTable s).hostRead = s.hostRead := rfl

end recheckTable

section recheckFolded

variable (s : State)

@[simp] theorem recheckFolded_busy : (recheckFolded s).busy = s.busy := rfl
@[simp] theorem recheckFolded_cmd : (recheckFolded s).cmd = s.cmd := rfl
@[simp] theorem recheckFolded_disabled : (recheckFolded s).disabled = s.disabled := rfl
@[simp] theorem recheckFolded_irqPending : (recheckFolded s).irqPending = s.irqPending := rfl
@[simp] theorem recheckFolded_result : (recheckFolded s).result = s.result := rfl
@[simp] theorem recheckFolded_lastOpcode : (recheckFolded s).lastOpcode = s.lastOpcode := rfl
@[simp] theorem recheckFolded_irqEn : (recheckFolded s).irqEn = s.irqEn := rfl
@[simp] theorem recheckFolded_error : (recheckFolded s).error = s.error := rfl
@[simp] theorem recheckFolded_arg0 : (recheckFolded s).arg0 = s.arg0 := rfl
@[simp] theorem recheckFolded_arg1 : (recheckFolded s).arg1 = s.arg1 := rfl
@[simp] theorem recheckFolded_arg2 : (recheckFolded s).arg2 = s.arg2 := rfl
@[simp] theorem recheckFolded_arg3 : (recheckFolded s).arg3 = s.arg3 := rfl
@[simp] theorem recheckFolded_res0 : (recheckFolded s).res0 = s.res0 := rfl
@[simp] theorem recheckFolded_res1 : (recheckFolded s).res1 = s.res1 := rfl
@[simp] theorem recheckFolded_res2 : (recheckFolded s).res2 = s.res2 := rfl
@[simp] theorem recheckFolded_res3 : (recheckFolded s).res3 = s.res3 := rfl
@[simp] theorem recheckFolded_winColumnStart : (recheckFolded s).winColumnStart = s.winColumnStart := rfl
@[simp] theorem recheckFolded_winFirstElem : (recheckFolded s).winFirstElem = s.winFirstElem := rfl
@[simp] theorem recheckFolded_winCount : (recheckFolded s).winCount = s.winCount := rfl
@[simp] theorem recheckFolded_winLongest : (recheckFolded s).winLongest = s.winLongest := rfl
@[simp] theorem recheckFolded_descBase : (recheckFolded s).descBase = s.descBase := rfl
@[simp] theorem recheckFolded_sumBase : (recheckFolded s).sumBase = s.sumBase := rfl
@[simp] theorem recheckFolded_sumStride : (recheckFolded s).sumStride = s.sumStride := rfl
@[simp] theorem recheckFolded_recBase : (recheckFolded s).recBase = s.recBase := rfl
@[simp] theorem recheckFolded_recCap : (recheckFolded s).recCap = s.recCap := rfl
@[simp] theorem recheckFolded_nextRow : (recheckFolded s).nextRow = s.nextRow := rfl
@[simp] theorem recheckFolded_nextCauchyRow : (recheckFolded s).nextCauchyRow = s.nextCauchyRow := rfl
@[simp] theorem recheckFolded_nextParityColumn : (recheckFolded s).nextParityColumn = s.nextParityColumn := rfl
@[simp] theorem recheckFolded_npcValid : (recheckFolded s).npcValid = s.npcValid := rfl
@[simp] theorem recheckFolded_sumsValid : (recheckFolded s).sumsValid = s.sumsValid := rfl
@[simp] theorem recheckFolded_sumStartElem : (recheckFolded s).sumStartElem = s.sumStartElem := rfl
@[simp] theorem recheckFolded_params : (recheckFolded s).params = s.params := rfl
@[simp] theorem recheckFolded_bitsets : (recheckFolded s).bitsets = s.bitsets := rfl
@[simp] theorem recheckFolded_slots : (recheckFolded s).slots = s.slots := rfl
@[simp] theorem recheckFolded_prefList : (recheckFolded s).prefList = s.prefList := rfl
@[simp] theorem recheckFolded_fullList : (recheckFolded s).fullList = s.fullList := rfl
@[simp] theorem recheckFolded_sums : (recheckFolded s).sums = s.sums := rfl
@[simp] theorem recheckFolded_mem : (recheckFolded s).mem = s.mem := rfl
@[simp] theorem recheckFolded_port : (recheckFolded s).port = s.port := rfl
@[simp] theorem recheckFolded_allocAnswers : (recheckFolded s).allocAnswers = s.allocAnswers := rfl
@[simp] theorem recheckFolded_largeLive : (recheckFolded s).largeLive = s.largeLive := rfl
@[simp] theorem recheckFolded_windowsLive : (recheckFolded s).windowsLive = s.windowsLive := rfl
@[simp] theorem recheckFolded_hostFrees : (recheckFolded s).hostFrees = s.hostFrees := rfl
@[simp] theorem recheckFolded_handed : (recheckFolded s).handed = s.handed := rfl
@[simp] theorem recheckFolded_slabTainted : (recheckFolded s).slabTainted = s.slabTainted := rfl
@[simp] theorem recheckFolded_folded : (recheckFolded s).folded = s.folded := rfl
@[simp] theorem recheckFolded_sumsTainted : (recheckFolded s).sumsTainted = (s.sumsTainted || s.folded.any (foldedChanged s)) := rfl
@[simp] theorem recheckFolded_pending : (recheckFolded s).pending = s.pending := rfl
@[simp] theorem recheckFolded_replaced : (recheckFolded s).replaced = s.replaced := rfl
@[simp] theorem recheckFolded_copied : (recheckFolded s).copied = s.copied := rfl
@[simp] theorem recheckFolded_tableTainted : (recheckFolded s).tableTainted = s.tableTainted := rfl
@[simp] theorem recheckFolded_raced : (recheckFolded s).raced = s.raced := rfl
@[simp] theorem recheckFolded_draws : (recheckFolded s).draws = s.draws := rfl
@[simp] theorem recheckFolded_hostDraws : (recheckFolded s).hostDraws = s.hostDraws := rfl
@[simp] theorem recheckFolded_inbox : (recheckFolded s).inbox = s.inbox := rfl
@[simp] theorem recheckFolded_hostRead : (recheckFolded s).hostRead = s.hostRead := rfl

end recheckFolded

section sumsResetTo

variable (s : State) (es : Nat)

@[simp] theorem sumsResetTo_busy : (sumsResetTo s es).busy = s.busy := rfl
@[simp] theorem sumsResetTo_cmd : (sumsResetTo s es).cmd = s.cmd := rfl
@[simp] theorem sumsResetTo_disabled : (sumsResetTo s es).disabled = s.disabled := rfl
@[simp] theorem sumsResetTo_irqPending : (sumsResetTo s es).irqPending = s.irqPending := rfl
@[simp] theorem sumsResetTo_result : (sumsResetTo s es).result = s.result := rfl
@[simp] theorem sumsResetTo_lastOpcode : (sumsResetTo s es).lastOpcode = s.lastOpcode := rfl
@[simp] theorem sumsResetTo_irqEn : (sumsResetTo s es).irqEn = s.irqEn := rfl
@[simp] theorem sumsResetTo_error : (sumsResetTo s es).error = s.error := rfl
@[simp] theorem sumsResetTo_arg0 : (sumsResetTo s es).arg0 = s.arg0 := rfl
@[simp] theorem sumsResetTo_arg1 : (sumsResetTo s es).arg1 = s.arg1 := rfl
@[simp] theorem sumsResetTo_arg2 : (sumsResetTo s es).arg2 = s.arg2 := rfl
@[simp] theorem sumsResetTo_arg3 : (sumsResetTo s es).arg3 = s.arg3 := rfl
@[simp] theorem sumsResetTo_res0 : (sumsResetTo s es).res0 = s.res0 := rfl
@[simp] theorem sumsResetTo_res1 : (sumsResetTo s es).res1 = s.res1 := rfl
@[simp] theorem sumsResetTo_res2 : (sumsResetTo s es).res2 = s.res2 := rfl
@[simp] theorem sumsResetTo_res3 : (sumsResetTo s es).res3 = s.res3 := rfl
@[simp] theorem sumsResetTo_winColumnStart : (sumsResetTo s es).winColumnStart = s.winColumnStart := rfl
@[simp] theorem sumsResetTo_winFirstElem : (sumsResetTo s es).winFirstElem = s.winFirstElem := rfl
@[simp] theorem sumsResetTo_winCount : (sumsResetTo s es).winCount = s.winCount := rfl
@[simp] theorem sumsResetTo_winLongest : (sumsResetTo s es).winLongest = s.winLongest := rfl
@[simp] theorem sumsResetTo_descBase : (sumsResetTo s es).descBase = s.descBase := rfl
@[simp] theorem sumsResetTo_sumBase : (sumsResetTo s es).sumBase = s.sumBase := rfl
@[simp] theorem sumsResetTo_sumStride : (sumsResetTo s es).sumStride = s.sumStride := rfl
@[simp] theorem sumsResetTo_recBase : (sumsResetTo s es).recBase = s.recBase := rfl
@[simp] theorem sumsResetTo_recCap : (sumsResetTo s es).recCap = s.recCap := rfl
@[simp] theorem sumsResetTo_nextRow : (sumsResetTo s es).nextRow = s.nextRow := rfl
@[simp] theorem sumsResetTo_nextCauchyRow : (sumsResetTo s es).nextCauchyRow = s.nextCauchyRow := rfl
@[simp] theorem sumsResetTo_nextParityColumn : (sumsResetTo s es).nextParityColumn = s.nextParityColumn := rfl
@[simp] theorem sumsResetTo_npcValid : (sumsResetTo s es).npcValid = s.npcValid := rfl
@[simp] theorem sumsResetTo_sumsValid : (sumsResetTo s es).sumsValid = true := rfl
@[simp] theorem sumsResetTo_sumStartElem : (sumsResetTo s es).sumStartElem = BitVec.ofNat 32 es := rfl
@[simp] theorem sumsResetTo_params : (sumsResetTo s es).params = s.params := rfl
@[simp] theorem sumsResetTo_bitsets : (sumsResetTo s es).bitsets = s.bitsets := rfl
@[simp] theorem sumsResetTo_slots : (sumsResetTo s es).slots = s.slots := rfl
@[simp] theorem sumsResetTo_prefList : (sumsResetTo s es).prefList = s.prefList := rfl
@[simp] theorem sumsResetTo_fullList : (sumsResetTo s es).fullList = s.fullList := rfl
@[simp] theorem sumsResetTo_sums : (sumsResetTo s es).sums = Vector.ofFn fun i : Fin 24 => resetCtr es (i.val / Config.sumCount) := rfl
@[simp] theorem sumsResetTo_mem : (sumsResetTo s es).mem = s.mem := rfl
@[simp] theorem sumsResetTo_port : (sumsResetTo s es).port = s.port := rfl
@[simp] theorem sumsResetTo_allocAnswers : (sumsResetTo s es).allocAnswers = s.allocAnswers := rfl
@[simp] theorem sumsResetTo_largeLive : (sumsResetTo s es).largeLive = s.largeLive := rfl
@[simp] theorem sumsResetTo_windowsLive : (sumsResetTo s es).windowsLive = s.windowsLive := rfl
@[simp] theorem sumsResetTo_hostFrees : (sumsResetTo s es).hostFrees = s.hostFrees := rfl
@[simp] theorem sumsResetTo_handed : (sumsResetTo s es).handed = s.handed := rfl
@[simp] theorem sumsResetTo_slabTainted : (sumsResetTo s es).slabTainted = s.slabTainted := rfl
@[simp] theorem sumsResetTo_folded : (sumsResetTo s es).folded = [] := rfl
@[simp] theorem sumsResetTo_sumsTainted : (sumsResetTo s es).sumsTainted = false := rfl
@[simp] theorem sumsResetTo_pending : (sumsResetTo s es).pending = s.pending := rfl
@[simp] theorem sumsResetTo_replaced : (sumsResetTo s es).replaced = s.replaced := rfl
@[simp] theorem sumsResetTo_copied : (sumsResetTo s es).copied = s.copied := rfl
@[simp] theorem sumsResetTo_tableTainted : (sumsResetTo s es).tableTainted = s.tableTainted := rfl
@[simp] theorem sumsResetTo_raced : (sumsResetTo s es).raced = s.raced := rfl
@[simp] theorem sumsResetTo_draws : (sumsResetTo s es).draws = s.draws := rfl
@[simp] theorem sumsResetTo_hostDraws : (sumsResetTo s es).hostDraws = s.hostDraws := rfl
@[simp] theorem sumsResetTo_inbox : (sumsResetTo s es).inbox = s.inbox := rfl
@[simp] theorem sumsResetTo_hostRead : (sumsResetTo s es).hostRead = s.hostRead := rfl

end sumsResetTo

section noteEarly

variable (early : Bool) (s : State)

@[simp] theorem noteEarly_busy : (noteEarly early s).busy = s.busy := rfl
@[simp] theorem noteEarly_cmd : (noteEarly early s).cmd = s.cmd := rfl
@[simp] theorem noteEarly_disabled : (noteEarly early s).disabled = s.disabled := rfl
@[simp] theorem noteEarly_irqPending : (noteEarly early s).irqPending = s.irqPending := rfl
@[simp] theorem noteEarly_result : (noteEarly early s).result = s.result := rfl
@[simp] theorem noteEarly_lastOpcode : (noteEarly early s).lastOpcode = s.lastOpcode := rfl
@[simp] theorem noteEarly_irqEn : (noteEarly early s).irqEn = s.irqEn := rfl
@[simp] theorem noteEarly_error : (noteEarly early s).error = s.error := rfl
@[simp] theorem noteEarly_arg0 : (noteEarly early s).arg0 = s.arg0 := rfl
@[simp] theorem noteEarly_arg1 : (noteEarly early s).arg1 = s.arg1 := rfl
@[simp] theorem noteEarly_arg2 : (noteEarly early s).arg2 = s.arg2 := rfl
@[simp] theorem noteEarly_arg3 : (noteEarly early s).arg3 = s.arg3 := rfl
@[simp] theorem noteEarly_res0 : (noteEarly early s).res0 = s.res0 := rfl
@[simp] theorem noteEarly_res1 : (noteEarly early s).res1 = s.res1 := rfl
@[simp] theorem noteEarly_res2 : (noteEarly early s).res2 = s.res2 := rfl
@[simp] theorem noteEarly_res3 : (noteEarly early s).res3 = s.res3 := rfl
@[simp] theorem noteEarly_winColumnStart : (noteEarly early s).winColumnStart = s.winColumnStart := rfl
@[simp] theorem noteEarly_winFirstElem : (noteEarly early s).winFirstElem = s.winFirstElem := rfl
@[simp] theorem noteEarly_winCount : (noteEarly early s).winCount = s.winCount := rfl
@[simp] theorem noteEarly_winLongest : (noteEarly early s).winLongest = s.winLongest := rfl
@[simp] theorem noteEarly_descBase : (noteEarly early s).descBase = s.descBase := rfl
@[simp] theorem noteEarly_sumBase : (noteEarly early s).sumBase = s.sumBase := rfl
@[simp] theorem noteEarly_sumStride : (noteEarly early s).sumStride = s.sumStride := rfl
@[simp] theorem noteEarly_recBase : (noteEarly early s).recBase = s.recBase := rfl
@[simp] theorem noteEarly_recCap : (noteEarly early s).recCap = s.recCap := rfl
@[simp] theorem noteEarly_nextRow : (noteEarly early s).nextRow = s.nextRow := rfl
@[simp] theorem noteEarly_nextCauchyRow : (noteEarly early s).nextCauchyRow = s.nextCauchyRow := rfl
@[simp] theorem noteEarly_nextParityColumn : (noteEarly early s).nextParityColumn = s.nextParityColumn := rfl
@[simp] theorem noteEarly_npcValid : (noteEarly early s).npcValid = s.npcValid := rfl
@[simp] theorem noteEarly_sumsValid : (noteEarly early s).sumsValid = s.sumsValid := rfl
@[simp] theorem noteEarly_sumStartElem : (noteEarly early s).sumStartElem = s.sumStartElem := rfl
@[simp] theorem noteEarly_params : (noteEarly early s).params = s.params := rfl
@[simp] theorem noteEarly_bitsets : (noteEarly early s).bitsets = s.bitsets := rfl
@[simp] theorem noteEarly_slots : (noteEarly early s).slots = s.slots := rfl
@[simp] theorem noteEarly_prefList : (noteEarly early s).prefList = s.prefList := rfl
@[simp] theorem noteEarly_fullList : (noteEarly early s).fullList = s.fullList := rfl
@[simp] theorem noteEarly_sums : (noteEarly early s).sums = s.sums := rfl
@[simp] theorem noteEarly_mem : (noteEarly early s).mem = s.mem := rfl
@[simp] theorem noteEarly_port : (noteEarly early s).port = s.port := rfl
@[simp] theorem noteEarly_allocAnswers : (noteEarly early s).allocAnswers = s.allocAnswers := rfl
@[simp] theorem noteEarly_largeLive : (noteEarly early s).largeLive = s.largeLive := rfl
@[simp] theorem noteEarly_windowsLive : (noteEarly early s).windowsLive = s.windowsLive := rfl
@[simp] theorem noteEarly_hostFrees : (noteEarly early s).hostFrees = s.hostFrees := rfl
@[simp] theorem noteEarly_handed : (noteEarly early s).handed = s.handed := rfl
@[simp] theorem noteEarly_slabTainted : (noteEarly early s).slabTainted = s.slabTainted := rfl
@[simp] theorem noteEarly_folded : (noteEarly early s).folded = s.folded := rfl
@[simp] theorem noteEarly_sumsTainted : (noteEarly early s).sumsTainted = s.sumsTainted := rfl
@[simp] theorem noteEarly_pending : (noteEarly early s).pending = s.pending := rfl
@[simp] theorem noteEarly_replaced : (noteEarly early s).replaced = s.replaced := rfl
@[simp] theorem noteEarly_copied : (noteEarly early s).copied = s.copied := rfl
@[simp] theorem noteEarly_tableTainted : (noteEarly early s).tableTainted = (s.tableTainted || early) := rfl
@[simp] theorem noteEarly_raced : (noteEarly early s).raced = s.raced := rfl
@[simp] theorem noteEarly_draws : (noteEarly early s).draws = s.draws := rfl
@[simp] theorem noteEarly_hostDraws : (noteEarly early s).hostDraws = s.hostDraws := rfl
@[simp] theorem noteEarly_inbox : (noteEarly early s).inbox = s.inbox := rfl
@[simp] theorem noteEarly_hostRead : (noteEarly early s).hostRead = s.hostRead := rfl

end noteEarly

section noteTable

variable (before s : State)

@[simp] theorem noteTable_busy : (noteTable before s).busy = s.busy := rfl
@[simp] theorem noteTable_cmd : (noteTable before s).cmd = s.cmd := rfl
@[simp] theorem noteTable_disabled : (noteTable before s).disabled = s.disabled := rfl
@[simp] theorem noteTable_irqPending : (noteTable before s).irqPending = s.irqPending := rfl
@[simp] theorem noteTable_result : (noteTable before s).result = s.result := rfl
@[simp] theorem noteTable_lastOpcode : (noteTable before s).lastOpcode = s.lastOpcode := rfl
@[simp] theorem noteTable_irqEn : (noteTable before s).irqEn = s.irqEn := rfl
@[simp] theorem noteTable_error : (noteTable before s).error = s.error := rfl
@[simp] theorem noteTable_arg0 : (noteTable before s).arg0 = s.arg0 := rfl
@[simp] theorem noteTable_arg1 : (noteTable before s).arg1 = s.arg1 := rfl
@[simp] theorem noteTable_arg2 : (noteTable before s).arg2 = s.arg2 := rfl
@[simp] theorem noteTable_arg3 : (noteTable before s).arg3 = s.arg3 := rfl
@[simp] theorem noteTable_res0 : (noteTable before s).res0 = s.res0 := rfl
@[simp] theorem noteTable_res1 : (noteTable before s).res1 = s.res1 := rfl
@[simp] theorem noteTable_res2 : (noteTable before s).res2 = s.res2 := rfl
@[simp] theorem noteTable_res3 : (noteTable before s).res3 = s.res3 := rfl
@[simp] theorem noteTable_winColumnStart : (noteTable before s).winColumnStart = s.winColumnStart := rfl
@[simp] theorem noteTable_winFirstElem : (noteTable before s).winFirstElem = s.winFirstElem := rfl
@[simp] theorem noteTable_winCount : (noteTable before s).winCount = s.winCount := rfl
@[simp] theorem noteTable_winLongest : (noteTable before s).winLongest = s.winLongest := rfl
@[simp] theorem noteTable_descBase : (noteTable before s).descBase = s.descBase := rfl
@[simp] theorem noteTable_sumBase : (noteTable before s).sumBase = s.sumBase := rfl
@[simp] theorem noteTable_sumStride : (noteTable before s).sumStride = s.sumStride := rfl
@[simp] theorem noteTable_recBase : (noteTable before s).recBase = s.recBase := rfl
@[simp] theorem noteTable_recCap : (noteTable before s).recCap = s.recCap := rfl
@[simp] theorem noteTable_nextRow : (noteTable before s).nextRow = s.nextRow := rfl
@[simp] theorem noteTable_nextCauchyRow : (noteTable before s).nextCauchyRow = s.nextCauchyRow := rfl
@[simp] theorem noteTable_nextParityColumn : (noteTable before s).nextParityColumn = s.nextParityColumn := rfl
@[simp] theorem noteTable_npcValid : (noteTable before s).npcValid = s.npcValid := rfl
@[simp] theorem noteTable_sumsValid : (noteTable before s).sumsValid = s.sumsValid := rfl
@[simp] theorem noteTable_sumStartElem : (noteTable before s).sumStartElem = s.sumStartElem := rfl
@[simp] theorem noteTable_params : (noteTable before s).params = s.params := rfl
@[simp] theorem noteTable_bitsets : (noteTable before s).bitsets = s.bitsets := rfl
@[simp] theorem noteTable_slots : (noteTable before s).slots = s.slots := rfl
@[simp] theorem noteTable_prefList : (noteTable before s).prefList = s.prefList := rfl
@[simp] theorem noteTable_fullList : (noteTable before s).fullList = s.fullList := rfl
@[simp] theorem noteTable_sums : (noteTable before s).sums = s.sums := rfl
@[simp] theorem noteTable_mem : (noteTable before s).mem = s.mem := rfl
@[simp] theorem noteTable_port : (noteTable before s).port = s.port := rfl
@[simp] theorem noteTable_allocAnswers : (noteTable before s).allocAnswers = s.allocAnswers := rfl
@[simp] theorem noteTable_largeLive : (noteTable before s).largeLive = s.largeLive := rfl
@[simp] theorem noteTable_windowsLive : (noteTable before s).windowsLive = s.windowsLive := rfl
@[simp] theorem noteTable_hostFrees : (noteTable before s).hostFrees = s.hostFrees := rfl
@[simp] theorem noteTable_handed : (noteTable before s).handed = s.handed := rfl
@[simp] theorem noteTable_slabTainted : (noteTable before s).slabTainted = s.slabTainted := rfl
@[simp] theorem noteTable_folded : (noteTable before s).folded = s.folded := rfl
@[simp] theorem noteTable_sumsTainted : (noteTable before s).sumsTainted = s.sumsTainted := rfl
@[simp] theorem noteTable_pending : (noteTable before s).pending = s.pending.filter fun x => !rewritten before s x := rfl
@[simp] theorem noteTable_replaced : (noteTable before s).replaced = replacedIn before s ++ s.replaced := rfl
@[simp] theorem noteTable_copied : (noteTable before s).copied = copiedIn before s ++ s.copied.filter (stillCopied before s) := rfl
@[simp] theorem noteTable_tableTainted : (noteTable before s).tableTainted = s.tableTainted := rfl
@[simp] theorem noteTable_raced : (noteTable before s).raced = s.raced := rfl
@[simp] theorem noteTable_draws : (noteTable before s).draws = s.draws := rfl
@[simp] theorem noteTable_hostDraws : (noteTable before s).hostDraws = s.hostDraws := rfl
@[simp] theorem noteTable_inbox : (noteTable before s).inbox = s.inbox := rfl
@[simp] theorem noteTable_hostRead : (noteTable before s).hostRead = s.hostRead := rfl

end noteTable

section noteCount

variable (s : State)

@[simp] theorem noteCount_busy : (noteCount s).busy = s.busy := rfl
@[simp] theorem noteCount_cmd : (noteCount s).cmd = s.cmd := rfl
@[simp] theorem noteCount_disabled : (noteCount s).disabled = s.disabled := rfl
@[simp] theorem noteCount_irqPending : (noteCount s).irqPending = s.irqPending := rfl
@[simp] theorem noteCount_result : (noteCount s).result = s.result := rfl
@[simp] theorem noteCount_lastOpcode : (noteCount s).lastOpcode = s.lastOpcode := rfl
@[simp] theorem noteCount_irqEn : (noteCount s).irqEn = s.irqEn := rfl
@[simp] theorem noteCount_error : (noteCount s).error = s.error := rfl
@[simp] theorem noteCount_arg0 : (noteCount s).arg0 = s.arg0 := rfl
@[simp] theorem noteCount_arg1 : (noteCount s).arg1 = s.arg1 := rfl
@[simp] theorem noteCount_arg2 : (noteCount s).arg2 = s.arg2 := rfl
@[simp] theorem noteCount_arg3 : (noteCount s).arg3 = s.arg3 := rfl
@[simp] theorem noteCount_res0 : (noteCount s).res0 = s.res0 := rfl
@[simp] theorem noteCount_res1 : (noteCount s).res1 = s.res1 := rfl
@[simp] theorem noteCount_res2 : (noteCount s).res2 = s.res2 := rfl
@[simp] theorem noteCount_res3 : (noteCount s).res3 = s.res3 := rfl
@[simp] theorem noteCount_winColumnStart : (noteCount s).winColumnStart = s.winColumnStart := rfl
@[simp] theorem noteCount_winFirstElem : (noteCount s).winFirstElem = s.winFirstElem := rfl
@[simp] theorem noteCount_winCount : (noteCount s).winCount = s.winCount := rfl
@[simp] theorem noteCount_winLongest : (noteCount s).winLongest = s.winLongest := rfl
@[simp] theorem noteCount_descBase : (noteCount s).descBase = s.descBase := rfl
@[simp] theorem noteCount_sumBase : (noteCount s).sumBase = s.sumBase := rfl
@[simp] theorem noteCount_sumStride : (noteCount s).sumStride = s.sumStride := rfl
@[simp] theorem noteCount_recBase : (noteCount s).recBase = s.recBase := rfl
@[simp] theorem noteCount_recCap : (noteCount s).recCap = s.recCap := rfl
@[simp] theorem noteCount_nextRow : (noteCount s).nextRow = s.nextRow := rfl
@[simp] theorem noteCount_nextCauchyRow : (noteCount s).nextCauchyRow = s.nextCauchyRow := rfl
@[simp] theorem noteCount_nextParityColumn : (noteCount s).nextParityColumn = s.nextParityColumn := rfl
@[simp] theorem noteCount_npcValid : (noteCount s).npcValid = s.npcValid := rfl
@[simp] theorem noteCount_sumsValid : (noteCount s).sumsValid = s.sumsValid := rfl
@[simp] theorem noteCount_sumStartElem : (noteCount s).sumStartElem = s.sumStartElem := rfl
@[simp] theorem noteCount_params : (noteCount s).params = s.params := rfl
@[simp] theorem noteCount_bitsets : (noteCount s).bitsets = s.bitsets := rfl
@[simp] theorem noteCount_slots : (noteCount s).slots = s.slots := rfl
@[simp] theorem noteCount_prefList : (noteCount s).prefList = s.prefList := rfl
@[simp] theorem noteCount_fullList : (noteCount s).fullList = s.fullList := rfl
@[simp] theorem noteCount_sums : (noteCount s).sums = s.sums := rfl
@[simp] theorem noteCount_mem : (noteCount s).mem = s.mem := rfl
@[simp] theorem noteCount_port : (noteCount s).port = s.port := rfl
@[simp] theorem noteCount_allocAnswers : (noteCount s).allocAnswers = s.allocAnswers := rfl
@[simp] theorem noteCount_largeLive : (noteCount s).largeLive = s.largeLive := rfl
@[simp] theorem noteCount_windowsLive : (noteCount s).windowsLive = s.windowsLive := rfl
@[simp] theorem noteCount_hostFrees : (noteCount s).hostFrees = s.hostFrees := rfl
@[simp] theorem noteCount_handed : (noteCount s).handed = s.handed := rfl
@[simp] theorem noteCount_slabTainted : (noteCount s).slabTainted = s.slabTainted := rfl
@[simp] theorem noteCount_folded : (noteCount s).folded = s.folded := rfl
@[simp] theorem noteCount_sumsTainted : (noteCount s).sumsTainted = s.sumsTainted := rfl
@[simp] theorem noteCount_pending : (noteCount s).pending = s.pending.filter fun x : Owed => decide (x.orig.elem < (s.winCount.toNat : Int)) := rfl
@[simp] theorem noteCount_replaced : (noteCount s).replaced = s.replaced.filter fun x : Original => decide (x.elem < (s.winCount.toNat : Int)) := rfl
@[simp] theorem noteCount_copied : (noteCount s).copied = s.copied.filter fun x : Int × Int => decide (x.1 < (s.winCount.toNat : Int) ∧ x.2 < (s.winCount.toNat : Int)) := rfl
@[simp] theorem noteCount_tableTainted : (noteCount s).tableTainted = s.tableTainted := rfl
@[simp] theorem noteCount_raced : (noteCount s).raced = s.raced := rfl
@[simp] theorem noteCount_draws : (noteCount s).draws = s.draws := rfl
@[simp] theorem noteCount_hostDraws : (noteCount s).hostDraws = s.hostDraws := rfl
@[simp] theorem noteCount_inbox : (noteCount s).inbox = s.inbox := rfl
@[simp] theorem noteCount_hostRead : (noteCount s).hostRead = s.hostRead := rfl

end noteCount

section startCommand

variable (s : State) (w : CmdWord)

@[simp] theorem startCommand_busy : (startCommand s w).busy = true := rfl
@[simp] theorem startCommand_cmd : (startCommand s w).cmd = w := rfl
@[simp] theorem startCommand_disabled : (startCommand s w).disabled = s.disabled := rfl
@[simp] theorem startCommand_irqPending : (startCommand s w).irqPending = s.irqPending := rfl
@[simp] theorem startCommand_result : (startCommand s w).result = s.result := rfl
@[simp] theorem startCommand_lastOpcode : (startCommand s w).lastOpcode = s.lastOpcode := rfl
@[simp] theorem startCommand_irqEn : (startCommand s w).irqEn = s.irqEn := rfl
@[simp] theorem startCommand_error : (startCommand s w).error = s.error := rfl
@[simp] theorem startCommand_arg0 : (startCommand s w).arg0 = s.arg0 := rfl
@[simp] theorem startCommand_arg1 : (startCommand s w).arg1 = s.arg1 := rfl
@[simp] theorem startCommand_arg2 : (startCommand s w).arg2 = s.arg2 := rfl
@[simp] theorem startCommand_arg3 : (startCommand s w).arg3 = s.arg3 := rfl
@[simp] theorem startCommand_res0 : (startCommand s w).res0 = s.res0 := rfl
@[simp] theorem startCommand_res1 : (startCommand s w).res1 = s.res1 := rfl
@[simp] theorem startCommand_res2 : (startCommand s w).res2 = s.res2 := rfl
@[simp] theorem startCommand_res3 : (startCommand s w).res3 = s.res3 := rfl
@[simp] theorem startCommand_winColumnStart : (startCommand s w).winColumnStart = s.winColumnStart := rfl
@[simp] theorem startCommand_winFirstElem : (startCommand s w).winFirstElem = s.winFirstElem := rfl
@[simp] theorem startCommand_winCount : (startCommand s w).winCount = s.winCount := rfl
@[simp] theorem startCommand_winLongest : (startCommand s w).winLongest = s.winLongest := rfl
@[simp] theorem startCommand_descBase : (startCommand s w).descBase = s.descBase := rfl
@[simp] theorem startCommand_sumBase : (startCommand s w).sumBase = s.sumBase := rfl
@[simp] theorem startCommand_sumStride : (startCommand s w).sumStride = s.sumStride := rfl
@[simp] theorem startCommand_recBase : (startCommand s w).recBase = s.recBase := rfl
@[simp] theorem startCommand_recCap : (startCommand s w).recCap = s.recCap := rfl
@[simp] theorem startCommand_nextRow : (startCommand s w).nextRow = s.nextRow := rfl
@[simp] theorem startCommand_nextCauchyRow : (startCommand s w).nextCauchyRow = s.nextCauchyRow := rfl
@[simp] theorem startCommand_nextParityColumn : (startCommand s w).nextParityColumn = s.nextParityColumn := rfl
@[simp] theorem startCommand_npcValid : (startCommand s w).npcValid = s.npcValid := rfl
@[simp] theorem startCommand_sumsValid : (startCommand s w).sumsValid = s.sumsValid := rfl
@[simp] theorem startCommand_sumStartElem : (startCommand s w).sumStartElem = s.sumStartElem := rfl
@[simp] theorem startCommand_params : (startCommand s w).params = s.params := rfl
@[simp] theorem startCommand_bitsets : (startCommand s w).bitsets = s.bitsets := rfl
@[simp] theorem startCommand_slots : (startCommand s w).slots = s.slots := rfl
@[simp] theorem startCommand_prefList : (startCommand s w).prefList = s.prefList := rfl
@[simp] theorem startCommand_fullList : (startCommand s w).fullList = s.fullList := rfl
@[simp] theorem startCommand_sums : (startCommand s w).sums = s.sums := rfl
@[simp] theorem startCommand_mem : (startCommand s w).mem = s.mem := rfl
@[simp] theorem startCommand_port : (startCommand s w).port = s.port := rfl
@[simp] theorem startCommand_allocAnswers : (startCommand s w).allocAnswers = s.allocAnswers := rfl
@[simp] theorem startCommand_largeLive : (startCommand s w).largeLive = s.largeLive := rfl
@[simp] theorem startCommand_windowsLive : (startCommand s w).windowsLive = s.windowsLive := rfl
@[simp] theorem startCommand_hostFrees : (startCommand s w).hostFrees = s.hostFrees := rfl
@[simp] theorem startCommand_handed : (startCommand s w).handed = s.handed := rfl
@[simp] theorem startCommand_slabTainted : (startCommand s w).slabTainted = s.slabTainted := rfl
@[simp] theorem startCommand_folded : (startCommand s w).folded = s.folded := rfl
@[simp] theorem startCommand_sumsTainted : (startCommand s w).sumsTainted = s.sumsTainted := rfl
@[simp] theorem startCommand_pending : (startCommand s w).pending = s.pending := rfl
@[simp] theorem startCommand_replaced : (startCommand s w).replaced = s.replaced := rfl
@[simp] theorem startCommand_copied : (startCommand s w).copied = s.copied := rfl
@[simp] theorem startCommand_tableTainted : (startCommand s w).tableTainted = s.tableTainted := rfl
@[simp] theorem startCommand_raced : (startCommand s w).raced = s.raced := rfl
@[simp] theorem startCommand_draws : (startCommand s w).draws = s.draws := rfl
@[simp] theorem startCommand_hostDraws : (startCommand s w).hostDraws = s.hostDraws := rfl
@[simp] theorem startCommand_inbox : (startCommand s w).inbox = s.inbox := rfl
@[simp] theorem startCommand_hostRead : (startCommand s w).hostRead = s.hostRead := rfl

end startCommand

section resetBlock

variable (s : State)

@[simp] theorem State.resetBlock_busy : s.resetBlock.busy = State.reset.busy := rfl
@[simp] theorem State.resetBlock_cmd : s.resetBlock.cmd = State.reset.cmd := rfl
@[simp] theorem State.resetBlock_disabled : s.resetBlock.disabled = State.reset.disabled := rfl
@[simp] theorem State.resetBlock_irqPending : s.resetBlock.irqPending = State.reset.irqPending := rfl
@[simp] theorem State.resetBlock_result : s.resetBlock.result = State.reset.result := rfl
@[simp] theorem State.resetBlock_lastOpcode : s.resetBlock.lastOpcode = State.reset.lastOpcode := rfl
@[simp] theorem State.resetBlock_irqEn : s.resetBlock.irqEn = State.reset.irqEn := rfl
@[simp] theorem State.resetBlock_error : s.resetBlock.error = State.reset.error := rfl
@[simp] theorem State.resetBlock_arg0 : s.resetBlock.arg0 = State.reset.arg0 := rfl
@[simp] theorem State.resetBlock_arg1 : s.resetBlock.arg1 = State.reset.arg1 := rfl
@[simp] theorem State.resetBlock_arg2 : s.resetBlock.arg2 = State.reset.arg2 := rfl
@[simp] theorem State.resetBlock_arg3 : s.resetBlock.arg3 = State.reset.arg3 := rfl
@[simp] theorem State.resetBlock_res0 : s.resetBlock.res0 = State.reset.res0 := rfl
@[simp] theorem State.resetBlock_res1 : s.resetBlock.res1 = State.reset.res1 := rfl
@[simp] theorem State.resetBlock_res2 : s.resetBlock.res2 = State.reset.res2 := rfl
@[simp] theorem State.resetBlock_res3 : s.resetBlock.res3 = State.reset.res3 := rfl
@[simp] theorem State.resetBlock_winColumnStart : s.resetBlock.winColumnStart = State.reset.winColumnStart := rfl
@[simp] theorem State.resetBlock_winFirstElem : s.resetBlock.winFirstElem = State.reset.winFirstElem := rfl
@[simp] theorem State.resetBlock_winCount : s.resetBlock.winCount = State.reset.winCount := rfl
@[simp] theorem State.resetBlock_winLongest : s.resetBlock.winLongest = State.reset.winLongest := rfl
@[simp] theorem State.resetBlock_descBase : s.resetBlock.descBase = State.reset.descBase := rfl
@[simp] theorem State.resetBlock_sumBase : s.resetBlock.sumBase = State.reset.sumBase := rfl
@[simp] theorem State.resetBlock_sumStride : s.resetBlock.sumStride = State.reset.sumStride := rfl
@[simp] theorem State.resetBlock_recBase : s.resetBlock.recBase = State.reset.recBase := rfl
@[simp] theorem State.resetBlock_recCap : s.resetBlock.recCap = State.reset.recCap := rfl
@[simp] theorem State.resetBlock_nextRow : s.resetBlock.nextRow = State.reset.nextRow := rfl
@[simp] theorem State.resetBlock_nextCauchyRow : s.resetBlock.nextCauchyRow = State.reset.nextCauchyRow := rfl
@[simp] theorem State.resetBlock_nextParityColumn : s.resetBlock.nextParityColumn = State.reset.nextParityColumn := rfl
@[simp] theorem State.resetBlock_npcValid : s.resetBlock.npcValid = State.reset.npcValid := rfl
@[simp] theorem State.resetBlock_sumsValid : s.resetBlock.sumsValid = State.reset.sumsValid := rfl
@[simp] theorem State.resetBlock_sumStartElem : s.resetBlock.sumStartElem = State.reset.sumStartElem := rfl
@[simp] theorem State.resetBlock_params : s.resetBlock.params = s.params := rfl
@[simp] theorem State.resetBlock_bitsets : s.resetBlock.bitsets = State.reset.bitsets := rfl
@[simp] theorem State.resetBlock_slots : s.resetBlock.slots = State.reset.slots := rfl
@[simp] theorem State.resetBlock_prefList : s.resetBlock.prefList = State.reset.prefList := rfl
@[simp] theorem State.resetBlock_fullList : s.resetBlock.fullList = State.reset.fullList := rfl
@[simp] theorem State.resetBlock_sums : s.resetBlock.sums = State.reset.sums := rfl
@[simp] theorem State.resetBlock_mem : s.resetBlock.mem = s.mem := rfl
@[simp] theorem State.resetBlock_port : s.resetBlock.port = s.port := rfl
@[simp] theorem State.resetBlock_allocAnswers : s.resetBlock.allocAnswers = s.allocAnswers := rfl
@[simp] theorem State.resetBlock_largeLive : s.resetBlock.largeLive = s.largeLive := rfl
@[simp] theorem State.resetBlock_windowsLive : s.resetBlock.windowsLive = s.windowsLive := rfl
@[simp] theorem State.resetBlock_hostFrees : s.resetBlock.hostFrees = s.hostFrees := rfl
@[simp] theorem State.resetBlock_handed : s.resetBlock.handed = State.reset.handed := rfl
@[simp] theorem State.resetBlock_slabTainted : s.resetBlock.slabTainted = State.reset.slabTainted := rfl
@[simp] theorem State.resetBlock_folded : s.resetBlock.folded = State.reset.folded := rfl
@[simp] theorem State.resetBlock_sumsTainted : s.resetBlock.sumsTainted = State.reset.sumsTainted := rfl
@[simp] theorem State.resetBlock_pending : s.resetBlock.pending = State.reset.pending := rfl
@[simp] theorem State.resetBlock_replaced : s.resetBlock.replaced = State.reset.replaced := rfl
@[simp] theorem State.resetBlock_copied : s.resetBlock.copied = State.reset.copied := rfl
@[simp] theorem State.resetBlock_tableTainted : s.resetBlock.tableTainted = State.reset.tableTainted := rfl
@[simp] theorem State.resetBlock_raced : s.resetBlock.raced = State.reset.raced := rfl
@[simp] theorem State.resetBlock_draws : s.resetBlock.draws = s.draws := rfl
@[simp] theorem State.resetBlock_hostDraws : s.resetBlock.hostDraws = s.hostDraws := rfl
@[simp] theorem State.resetBlock_inbox : s.resetBlock.inbox = s.inbox := rfl
@[simp] theorem State.resetBlock_hostRead : s.resetBlock.hostRead = s.hostRead := rfl

end resetBlock

/-! ## Reading back a slot, a bitset, a sum -/

theorem State.slot_setSlot (s : State) (i j : Nat) (w : Slot) (hj : j < Config.maxSlots) :
    (s.setSlot j w).slot i = if i = j then w else s.slot i := by
  simp only [State.slot, State.setSlot_slots]
  by_cases h : i = j
  · subst h
    rw [if_pos rfl]
    simp [hj]
  · rw [if_neg h]
    simp [Ne.symm h]

theorem State.bitset_setBitset (s : State) (i j : Nat) (v : BitVec Config.bitsetWidth) (hj : j < Config.maxBitsets) :
    (s.setBitset j v).bitset i = if i = j then v else s.bitset i := by
  simp only [State.bitset, State.setBitset_bitsets]
  by_cases h : i = j
  · subst h
    rw [if_pos rfl]
    simp [hj]
  · rw [if_neg h]
    simp [Ne.symm h]

theorem sumIndex_lt {l k : Nat} (hl : l < 8) (hk : k < 3) : sumIndex l k < 24 := by
  simp only [sumIndex, Config.sumCount]
  omega

theorem sumIndex_inj {l k l' k' : Nat} (hk : k < 3) (hk' : k' < 3) :
    sumIndex l k = sumIndex l' k' ↔ l = l' ∧ k = k' := by
  simp only [sumIndex, Config.sumCount]
  omega

theorem State.sum_setSum (s : State) {l k l' k' : Nat} (c : SumCtr) (hl : l < 8) (hk : k < 3) (hk' : k' < 3) :
    (s.setSum l k c).sum l' k' = if l' = l ∧ k' = k then c else s.sum l' k' := by
  simp only [State.sum, State.setSum_sums]
  by_cases h : l' = l ∧ k' = k
  · obtain ⟨rfl, rfl⟩ := h
    rw [if_pos ⟨rfl, rfl⟩]
    simp [sumIndex_lt hl hk]
  · rw [if_neg h]
    have hne : sumIndex l k ≠ sumIndex l' k' := fun he => h (by
      have := (sumIndex_inj hk hk').1 he
      exact ⟨this.1.symm, this.2.symm⟩)
    simp [hne]

/-- A slot number past the last names no live window. -/
theorem State.slot_of_ge (s : State) {i : Nat} (h : Config.maxSlots ≤ i) : s.slot i = Slot.empty := by
  simp [State.slot, h]

end Sys2Proof.Machine
end

