-- ==== Sys2Proof/Laws/Sums.lean ====
section
/-! SUPPORT. What the fold of one element does (spec R422, R423), and when a table counts as rewritten early (R622). -/

namespace Sys2Proof.Machine

variable {t : Tables} {l k : Nat} {e : Int} {r r' : Run} {d : Desc}

/-- An original longer than the sum's buffer is fatal (spec R423). -/
theorem foldElement_tooLong (hd : readDesc e r = .ok d r') (hl : r'.st.sumStride.toNat < d.len) (hs : r'.skip = false) :
    foldElement t l k e r = .error (.fatal .sumOverflow) r' := by
  rw [foldElement, bind_run_ok hd, bind_run_ok (getState_run r'), decide_eq_true hl]
  exact bind_run_error (fatalIf_true _ hs)

/-- In a run that goes on past fatal causes it writes nothing, and the sum's loop ends (spec R423). -/
theorem foldElement_tooLong_skip (hd : readDesc e r = .ok d r') (hl : r'.st.sumStride.toNat < d.len)
    (hs : r'.skip = true) : foldElement t l k e r = .ok false r' := by
  rw [foldElement, bind_run_ok hd, bind_run_ok (getState_run r'), decide_eq_true hl]
  exact bind_run_ok (fatalIf_skip _ _ hs)

/-- An original that fits the buffer is folded, and the loop goes on (spec R422). -/
theorem foldElement_fits (hd : readDesc e r = .ok d r') (hl : d.len ≤ r'.st.sumStride.toNat) :
    foldElement t l k e r = (do foldFitting t l k e d; pure true : Cmd Bool) r' := by
  rw [foldElement, bind_run_ok hd, bind_run_ok (getState_run r'), decide_eq_false (by omega)]
  rfl

/-- What changes no descriptor of the window leaves the records of the table. -/
theorem noteTable_of_unchanged {before s : State} (h : changedElements before s = []) : noteTable before s = s := by
  have kept : s.copied.filter (stillCopied before s) = s.copied :=
    List.filter_eq_self.2 fun x _ => by simp [stillCopied, h]
  simp [noteTable, replacedIn, rewritten, copiedIn, kept, h]

/-- A host that has changed no descriptor of the window has not rewritten its table early. -/
theorem rewrittenEarly_of_nothing_changed {s : State} (hr : s.replaced = []) (hc : s.copied = []) (delta : Nat) :
    rewrittenEarly s delta = false := by
  simp [rewrittenEarly, hr, hc]

/-- A WIN_SHIFT by 0 asks for no rewrite. -/
@[simp] theorem rewrittenEarly_zero (s : State) : rewrittenEarly s 0 = false := by simp [rewrittenEarly]

end Sys2Proof.Machine
end

