-- ==== Sys2Proof/Laws/Vector.lean ====
section
/-! SUPPORT. What the byte loops do over ordinary memory none of whose bytes is open (spec R220, R225 to R228, R422, R492). -/

namespace Sys2Proof.Machine

/-- The port is ordinary memory at the address. -/
abbrev PlainAt (port : List PortRange) (a : Nat) : Prop := ∀ p ∈ port, ¬ (p.base ≤ a ∧ a < p.base + p.size)

/-- No byte is open but those of the run's area: the host has raced for none, and the command has computed from none. -/
structure Quiet (r : Run) : Prop where
  raced : r.st.raced = []
  opens : r.opens = []

/-- A byte of ordinary memory outside the open area of a quiet run is closed. -/
theorem Quiet.heldOpen_false {r : Run} (q : Quiet r) {a : Nat} (hp : PlainAt r.st.port a) (ha : r.area a = false) :
    r.heldOpen a = false := Machine.heldOpen_false hp q.raced ha

theorem Quiet.isOpen_false {r : Run} (q : Quiet r) {a : Nat} (hp : PlainAt r.st.port a) (ha : r.area a = false) :
    r.isOpen a = false := Machine.isOpen_false hp q.raced ha q.opens

theorem quiet_start {s : State} (h : s.raced = []) : Quiet (Run.start s) := ⟨h, rfl⟩

/-- The same run with another memory and more of a footprint. -/
structure MemStep (r r' : Run) (m : Memory) : Prop where
  st : r'.st = { r.st with mem := m }
  area : r'.area = r.area
  skip : r'.skip = r.skip
  quiet : Quiet r → Quiet r'

theorem MemStep.refl (r : Run) : MemStep r r r.st.mem := ⟨rfl, rfl, rfl, id⟩

theorem MemStep.mem {r r' : Run} {m : Memory} (h : MemStep r r' m) : r'.st.mem = m := by rw [h.st]

theorem MemStep.port {r r' : Run} {m : Memory} (h : MemStep r r' m) : r'.st.port = r.st.port := by rw [h.st]

theorem MemStep.trans {r1 r2 r3 : Run} {m m' : Memory} (h : MemStep r1 r2 m) (h' : MemStep r2 r3 m') :
    MemStep r1 r3 m' :=
  ⟨by rw [h'.st, h.st], by rw [h'.area, h.area], by rw [h'.skip, h.skip], fun q => h'.quiet (h.quiet q)⟩

/-- One load of a closed byte. -/
theorem memRead8_step {a : Nat} {r : Run} (q : Quiet r) (hp : PlainAt r.st.port (a % Config.addrSpace))
    (ha : r.area (a % Config.addrSpace) = false) :
    ∃ r', memRead8 a r = .ok (r.st.mem.read (a % Config.addrSpace)) r' ∧ MemStep r r' r.st.mem :=
  ⟨_, memRead8_run hp (q.isOpen_false hp ha), ⟨rfl, rfl, rfl, fun q => ⟨q.raced, q.opens⟩⟩⟩

/-- One store of a value that is not open to a byte outside the open area. -/
theorem memWrite8_step {a : Nat} {v : Byte} {r : Run} (q : Quiet r) (hp : PlainAt r.st.port (a % Config.addrSpace))
    (ha : r.area (a % Config.addrSpace) = false) :
    ∃ r', memWrite8 a v r = .ok () r' ∧ MemStep r r' (r.st.mem.write (a % Config.addrSpace) v) :=
  ⟨_, memWrite8_run hp (q.heldOpen_false hp ha), ⟨rfl, rfl, rfl, fun q => ⟨q.raced, by simp [q.opens]⟩⟩⟩

/-- Asking about one closed byte. -/
theorem anyOpen_one {a : Nat} {r : Run} (q : Quiet r) (hp : PlainAt r.st.port (a % Config.addrSpace))
    (ha : r.area (a % Config.addrSpace) = false) : anyOpen a 1 r = .ok false r := by
  simp [q.isOpen_false hp ha, List.range_succ]

/-- What the bytes `dst .. dst + n - 1` hold after a byte loop, all others as before. -/
def Rewritten (m m' : Memory) (dst n : Nat) (value : Nat → Byte) : Prop :=
  m'.wf = true ∧ ∀ a, m'.read a = if dst ≤ a ∧ a < dst + n then value (a - dst) else m.read a

/-- A loop whose round `i` stores `value i` at `dst + i`, whatever the earlier rounds have stored before it. -/
theorem forRange_rewrites {f : Nat → Cmd Unit} {dst n : Nat} {value : Nat → Byte} {r : Run} (hwf : r.st.mem.wf = true)
    (hn : dst + n ≤ Config.addrSpace)
    (hf : ∀ i r1 m, i < n → MemStep r r1 m → Rewritten r.st.mem m dst i value →
      ∃ r2, f i r1 = .ok () r2 ∧ MemStep r r2 (m.write (dst + i) (value i))) :
    ∃ r' m', forRange f n 0 r = .ok () r' ∧ MemStep r r' m' ∧ Rewritten r.st.mem m' dst n value := by
  suffices h : ∀ k i r1 m, i + k = n → MemStep r r1 m → Rewritten r.st.mem m dst i value →
      ∃ r' m', forRange f k i r1 = .ok () r' ∧ MemStep r r' m' ∧ Rewritten r.st.mem m' dst n value from
    h n 0 r r.st.mem (by omega) (MemStep.refl r) ⟨hwf, fun a => by rw [if_neg (by omega)]⟩
  intro k
  induction k with
  | zero =>
    intro i r1 m hi h1 h2
    obtain rfl : i = n := by omega
    exact ⟨r1, m, rfl, h1, h2⟩
  | succ k ih =>
    intro i r1 m hi h1 h2
    obtain ⟨r2, hr2, hs2⟩ := hf i r1 m (by omega) h1 h2
    rw [forRange_succ, bind_run_ok hr2]
    refine ih (i + 1) r2 _ (by omega) hs2 ⟨Memory.wf_write h2.1 (by omega), fun a => ?_⟩
    rw [Memory.read_write h2.1, h2.2]
    by_cases ha : a = dst + i
    · subst ha
      rw [if_pos rfl, if_pos (by omega), Nat.add_sub_cancel_left]
    · rw [if_neg ha]
      by_cases hb : dst ≤ a ∧ a < dst + i
      · rw [if_pos hb, if_pos (by omega)]
      · rw [if_neg hb, if_neg (by omega)]

/-- The `n` bytes from `a` are ordinary memory outside the run's open area. -/
def Closed (r : Run) (a n : Nat) : Prop := ∀ i, i < n → PlainAt r.st.port (a + i) ∧ r.area (a + i) = false

/-- A closed byte of `r` is one of a later run with another memory. -/
theorem Closed.at {r r1 : Run} {m : Memory} {a n i : Nat} (h : Closed r a n) (hs : MemStep r r1 m)
    (ha : a + n ≤ Config.addrSpace) (hi : i < n) :
    PlainAt r1.st.port ((a + i) % Config.addrSpace) ∧ r1.area ((a + i) % Config.addrSpace) = false := by
  rw [Nat.mod_eq_of_lt (by omega), hs.port, hs.area]
  exact h i hi

/-- `accumulate` over two buffers that do not partly overlap, where no byte is open: byte i becomes `dst[i] ^ f(src[i])` of
the bytes before the loop (spec R221, R225, R226). -/
theorem accumulate_rewrites {dst src n : Nat} {f : Byte → Byte} {r : Run} (q : Quiet r) (hwf : r.st.mem.wf = true)
    (hd : dst + n ≤ Config.addrSpace) (hs : src + n ≤ Config.addrSpace)
    (hov : dst = src ∨ src + n ≤ dst ∨ dst + n ≤ src) (cd : Closed r dst n) (cs : Closed r src n) :
    ∃ r' m', accumulate dst src f n r = .ok () r' ∧ MemStep r r' m' ∧
      Rewritten r.st.mem m' dst n (fun i => r.st.mem.read (dst + i) ^^^ f (r.st.mem.read (src + i))) := by
  refine forRange_rewrites hwf hd fun i r1 m hi h1 h2 => ?_
  have hmd : m.read (dst + i) = r.st.mem.read (dst + i) := by rw [h2.2, if_neg (by omega)]
  have hms : m.read (src + i) = r.st.mem.read (src + i) := by
    rw [h2.2, if_neg]
    rcases hov with h | h | h <;> omega
  have e1 : (dst + i) % Config.addrSpace = dst + i := Nat.mod_eq_of_lt (by omega)
  have e2 : (src + i) % Config.addrSpace = src + i := Nat.mod_eq_of_lt (by omega)
  have c1 := cd.at h1 hd hi
  obtain ⟨ra, hra, sa⟩ := memRead8_step (h1.quiet q) c1.1 c1.2
  have ta := h1.trans sa
  have c2 := cs.at ta hs hi
  obtain ⟨rb, hrb, sb⟩ := memRead8_step (ta.quiet q) c2.1 c2.2
  have tb := ta.trans sb
  have cd' := cd.at tb hd hi
  have cs' := cs.at tb hs hi
  obtain ⟨rc, hrc, sc⟩ := memWrite8_step (v := m.read (dst + i) ^^^ f (m.read (src + i))) (tb.quiet q) cd'.1 cd'.2
  refine ⟨rc, ?_, ?_⟩
  · rw [bind_run_ok hra, bind_run_ok hrb, bind_run_ok (anyOpen_one (tb.quiet q) cd'.1 cd'.2),
      bind_run_ok (anyOpen_one (tb.quiet q) cs'.1 cs'.2)]
    simpa [e1, e2, h1.mem, ta.mem] using hrc
  · have := tb.trans sc
    simpa [e1, h1.mem, ta.mem, tb.mem, hmd, hms] using this

/-- `mapBytes` over two buffers that do not partly overlap, where no byte is open: byte i becomes `f(src[i])` of the byte
before the loop (spec R221, R227, R228). -/
theorem mapBytes_rewrites {dst src n : Nat} {f : Byte → Byte} {r : Run} (q : Quiet r) (hwf : r.st.mem.wf = true)
    (hd : dst + n ≤ Config.addrSpace) (hs : src + n ≤ Config.addrSpace)
    (hov : dst = src ∨ src + n ≤ dst ∨ dst + n ≤ src) (cd : Closed r dst n) (cs : Closed r src n) :
    ∃ r' m', mapBytes dst src f n r = .ok () r' ∧ MemStep r r' m' ∧
      Rewritten r.st.mem m' dst n (fun i => f (r.st.mem.read (src + i))) := by
  refine forRange_rewrites hwf hd fun i r1 m hi h1 h2 => ?_
  have hms : m.read (src + i) = r.st.mem.read (src + i) := by
    rw [h2.2, if_neg]
    rcases hov with h | h | h <;> omega
  have e1 : (dst + i) % Config.addrSpace = dst + i := Nat.mod_eq_of_lt (by omega)
  have e2 : (src + i) % Config.addrSpace = src + i := Nat.mod_eq_of_lt (by omega)
  have c2 := cs.at h1 hs hi
  obtain ⟨ra, hra, sa⟩ := memRead8_step (h1.quiet q) c2.1 c2.2
  have ta := h1.trans sa
  have cd' := cd.at ta hd hi
  have cs' := cs.at ta hs hi
  obtain ⟨rc, hrc, sc⟩ := memWrite8_step (v := f (m.read (src + i))) (ta.quiet q) cd'.1 cd'.2
  refine ⟨rc, ?_, ?_⟩
  · rw [bind_run_ok hra, bind_run_ok (anyOpen_one (ta.quiet q) cs'.1 cs'.2)]
    simpa [e2, h1.mem] using hrc
  · have := ta.trans sc
    simpa [e1, h1.mem, ta.mem, hms] using this

/-- A run of zeros stored where no byte is open (spec R422, R492, R493). -/
theorem memZero_rewrites {a n : Nat} {r : Run} (q : Quiet r) (hwf : r.st.mem.wf = true)
    (hd : a + n ≤ Config.addrSpace) (c : Closed r a n) :
    ∃ r' m', memZero a n r = .ok () r' ∧ MemStep r r' m' ∧ Rewritten r.st.mem m' a n (fun _ => 0) := by
  refine forRange_rewrites hwf hd fun i r1 m hi h1 _ => ?_
  have c1 := c.at h1 hd hi
  obtain ⟨rc, hrc, sc⟩ := memWrite8_step (v := 0) (h1.quiet q) c1.1 c1.2
  refine ⟨rc, hrc, ?_⟩
  have := h1.trans sc
  rwa [Nat.mod_eq_of_lt (by omega), h1.mem] at this

/-- Reading `n` closed bytes of ordinary memory gives the number they hold (spec R102). -/
theorem memRead_step {a n : Nat} {r : Run} (q : Quiet r)
    (hp : ∀ i, i < n → PlainAt r.st.port ((a + i) % Config.addrSpace) ∧ r.area ((a + i) % Config.addrSpace) = false) :
    ∃ r' bs, memRead a n r = .ok bs r' ∧ MemStep r r' r.st.mem ∧ leValue bs = leAt r.st.mem a n := by
  induction n generalizing a r with
  | zero => exact ⟨r, [], rfl, MemStep.refl r, rfl⟩
  | succ n ih =>
    obtain ⟨r1, h1, s1⟩ := memRead8_step (a := a) q (hp 0 (by omega)).1 (hp 0 (by omega)).2
    obtain ⟨r', bs, hr, hs, hv⟩ := ih (a := a + 1) (r := r1) (s1.quiet q) (fun i hi => by
      rw [s1.port, s1.area, show a + 1 + i = a + (i + 1) by omega]
      exact hp (i + 1) (by omega))
    refine ⟨r', r.st.mem.read (a % Config.addrSpace) :: bs, ?_, by simpa [s1.mem] using s1.trans hs, ?_⟩
    · rw [memRead, bind_run_ok h1, bind_run_ok hr]
      rfl
    · rw [leValue, hv, leAt, s1.mem]

/-- Reading a closed descriptor of a table that the host has kept gives the address and the length it holds (spec R110). -/
theorem readDesc_step {e : Int} {r : Run} (q : Quiet r) (ht : r.st.tableTainted = false)
    (hp : ∀ i, i < 12 → PlainAt r.st.port ((descAddr r.st e + i) % Config.addrSpace) ∧
      r.area ((descAddr r.st e + i) % Config.addrSpace) = false) :
    ∃ r', readDesc e r =
      .ok { addr := (descAt r.st e).1, len := (descAt r.st e).2, isOpen := false } r' ∧ MemStep r r' r.st.mem := by
  obtain ⟨r1, bs1, h1, s1, v1⟩ := memRead_step (a := descAddr r.st e) (n := 8) q (fun i hi => hp i (by omega))
  have st1 : r1.st = r.st := s1.st
  obtain ⟨r2, bs2, h2, s2, v2⟩ := memRead_step (a := descAddr r.st e + 8) (n := 4) (s1.quiet q) (fun i hi => by
    rw [s1.port, s1.area, show descAddr r.st e + 8 + i = descAddr r.st e + (8 + i) by omega]
    exact hp (8 + i) (by omega))
  have s12 : MemStep r r2 r.st.mem := by simpa [s1.mem] using s1.trans s2
  have ho : anyOpen (descAddr r.st e) 12 r2 = .ok false r2 := by
    rw [anyOpen_run]
    congr
    simp only [List.any_eq_false, List.mem_range, Bool.not_eq_true]
    intro i hi
    refine (s12.quiet q).isOpen_false ?_ ?_
    · rw [s12.port]
      exact (hp i hi).1
    · rw [s12.area]
      exact (hp i hi).2
  refine ⟨r2, ?_, s12⟩
  rw [readDesc, bind_run_ok (getState_run r), bind_run_ok h1, bind_run_ok h2, bind_run_ok ho, if_neg (by simp [ht]), v1,
    v2, st1]
  rfl

end Sys2Proof.Machine
end

