-- ==== Sys2Proof/Tests/Slice0.lean ====
section
/-! SUPPORT. Tests of the model against words and vectors of the spec (`30_encoding.md` R170, `95_test_vectors.md`), the
checks of well-formedness, and for every statement with hypotheses a state that meets them. -/

set_option maxRecDepth 20000
set_option Elab.async false

namespace Sys2Proof.Tests

open Sys2Proof.Machine

/-! ## Well-formedness: an ill-formed term for each check (R302, R431, R211, R213, R214, R222, R496) -/

theorem test_wf_div_zero : (Instr.gfDiv 0x53#8 0#8).wellFormed .default = false := by decide
theorem test_wf_inv_zero : (Instr.gfInv 0#8).wellFormed .default = false := by decide
theorem test_wf_log_zero : (Instr.gfLog 0#8).wellFormed .default = false := by decide
theorem test_wf_div_mem_zero : (Instr.gfDivMem 0#8).wellFormed .default = false := by decide
theorem test_wf_bitset_number : [Instr.bsSet 4#4, .bsClear 4#4, .bsCheck 4#4, .bsSetRange 4#4, .bsClearRange 4#4,
    .bsPopcount 4#4, .bsFfc 4#4, .bsFfs 15#4].all (fun i => !i.wellFormed .default) = true := by decide
theorem test_wf_sum_index : (Instr.sumsGet 3#2 0#3).wellFormed .default = false := by decide
theorem test_wf_cauchy : [Instr.cauchyElem 64#8 0#8, .cauchyElem 0#8 192#8].all (fun i => !i.wellFormed .default) = true := by
  decide
theorem test_wf_accepts : [Instr.cauchyElem 63#8 191#8, .gfDiv 0#8 1#8, .bsFfs 3#4, .sumsGet 2#2 7#3].all (fun i => i.wellFormed .default) = true := by
  decide

/-! ## Decoding: every command's word written out from R170 -/

theorem test_decode_gf_vectors :
    decode 0x00000000#32 = .ok .nop ∧ decode 0x10000000#32 = .ok .gfAddMem ∧
    decode 0x11A50000#32 = .ok (.gfMuladdMem 0xA5#8) ∧ decode 0x12530000#32 = .ok (.gfMulMem 0x53#8) ∧
    decode 0x13010000#32 = .ok (.gfDivMem 0x01#8) := by decide

theorem test_decode_gf_scalars :
    decode 0x1453CA00#32 = .ok (.gfMul 0x53#8 0xCA#8) ∧ decode 0x15AB0100#32 = .ok (.gfDiv 0xAB#8 1#8) ∧
    decode 0x16800000#32 = .ok (.gfSqr 0x80#8) ∧ decode 0x17530000#32 = .ok (.gfInv 0x53#8) ∧
    decode 0x181D0000#32 = .ok (.gfLog 0x1D#8) ∧ decode 0x19640000#32 = .ok (.gfExp 100#8) ∧
    decode 0x1A531500#32 = .ok (.gfNibtab 0x53#8 true 5#4) ∧
    decode 0x1A530A00#32 = .ok (.gfNibtab 0x53#8 false 10#4) := by decide

theorem test_decode_bitsets :
    decode 0x20000000#32 = .ok (.bsSet 0#4) ∧ decode 0x21000100#32 = .ok (.bsClear 1#4) ∧
    decode 0x22000200#32 = .ok (.bsCheck 2#4) ∧ decode 0x23000300#32 = .ok (.bsSetRange 3#4) ∧
    decode 0x24000F00#32 = .ok (.bsClearRange 15#4) ∧ decode 0x25000000#32 = .ok (.bsPopcount 0#4) ∧
    decode 0x26000100#32 = .ok (.bsFfc 1#4) ∧ decode 0x27000200#32 = .ok (.bsFfs 2#4) := by decide

theorem test_decode_slab :
    decode 0x30000000#32 = .ok .slabAlloc ∧ decode 0x31000000#32 = .ok .slabFree ∧
    decode 0x32000000#32 = .ok (.slabRealloc false) ∧ decode 0x32000100#32 = .ok (.slabRealloc true) ∧
    decode 0x33000000#32 = .ok .slabWinfo := by decide

theorem test_decode_rows :
    decode 0x40000000#32 = .ok .sumsReset ∧ decode 0x41000100#32 = .ok (.sumsGet 0#2 1#3) ∧
    decode 0x41003700#32 = .ok (.sumsGet 3#2 7#3) ∧ decode 0x42000000#32 = .ok .winShift ∧
    decode 0x48000000#32 = .ok .rowEncode ∧ decode 0x49056400#32 = .ok (.cauchyElem 5#8 100#8) := by decide

theorem test_encode_words :
    encode (.gfNibtab 0x53#8 true 5#4) = 0x1A531500#32 ∧ encode (.sumsGet 2#2 1#3) = 0x41002100#32 ∧
    encode (.bsFfs 3#4) = 0x27000300#32 ∧ encode (.slabRealloc true) = 0x32000100#32 := by decide

/-! ## Running a word as the next command -/

/-- The state a word's command ends in. -/
def after (s : State) (w : Nat) : State :=
  match step (s.withFetchWord 32 w) with
  | .next t => t
  | .fault _ => s
  | .refused _ => s

/-- The bytes of the data memory from an address. -/
def bytes (s : State) (a n : Nat) : List Nat := (List.range n).map fun i => (s.mem.read (a + i)).toNat

/-- V-D1 to V-D5, V-D8, V-D11. -/
theorem test_status_words :
    statusWord (after .reset 0x00000000) = 0x4#64 ∧ statusWord (after .reset 0x01000000) = 0x1FF04#64 ∧
    statusWord (after .reset 0xFF000000) = 0xFFFF04#64 ∧ (after .reset 0x00000001).error = 0x2#15 ∧
    (after .reset 0x10010000).error = 0x2#15 ∧ (after .reset 0x41000800).error = 0x2#15 ∧
    (after .reset 0x02000001).error = 0x1#15 := by decide +kernel

/-- V-G1, V-G10, V-G17, V-G20, V-G24, V-G26, V-G29, V-G30. -/
theorem test_gf_scalars :
    [0x1453CA00, 0x1553CA00, 0x16800000, 0x17530000, 0x18FF0000, 0x19640000, 0x1A531500, 0x1A530A00].map
      (fun w => (after .reset w).res0) = [0x8F, 0x6D, 0x13, 0x8C, 175, 0x11, 0x20, 0x04] := by decide +kernel

/-- V-G9 (the reduction), V-G12, V-G15, V-G22, V-G25, V-G27. -/
theorem test_gf_scalar_corners :
    (after .reset 0x14800200).res0 = 0x1D ∧ (after .reset 0x15000700).res0 = 0 ∧
    (after .reset 0x15050000).error = 0x10#15 ∧ (after .reset 0x17000000).error = 0x10#15 ∧
    (after .reset 0x18000000).error = 0x10#15 ∧ (after .reset 0x19FF0000).res0 = 1 := by decide +kernel

/-- The start state of V-V1 to V-V6. -/
def gfStart : State :=
  { State.reset with
    arg0 := 0x1100
    arg1 := 0x1000
    arg2 := 4
    mem := (Memory.writeList [] 0x1100 [0x01, 0x02, 0x80, 0xFF]).writeList 0x1000 [0x03, 0x80, 0x02, 0xFF] }

/-- V-V1, V-V2, V-V3, V-V5, V-V6, V-V10, V-V11. -/
theorem test_gf_vectors :
    [0x10000000, 0x11020000, 0x11000000, 0x12530000, 0x13530000, 0x12000000, 0x12010000].map
      (fun w => bytes (after gfStart w) 0x1100 4) =
    [[0x02, 0x82, 0x82, 0x00], [0x07, 0x1F, 0x84, 0x1C], [0x01, 0x02, 0x80, 0xFF], [0xF5, 0xF2, 0xA6, 0x66],
      [0x89, 0x5D, 0x05, 0x12], [0, 0, 0, 0], [0x03, 0x80, 0x02, 0xFF]] := by decide +kernel

/-- V-V8 (exact alias), V-V16, V-V17, V-V18. -/
theorem test_gf_vector_corners :
    bytes (after { gfStart with arg1 := 0x1100 } 0x11020000) 0x1100 4 = [0x03, 0x06, 0x9D, 0x1C] ∧
    (after { gfStart with arg0 := 0xFFFFFFFFFFFFFFFE } 0x10000000).error = 0x4#15 ∧
    (after { gfStart with arg0 := 0x1101, arg1 := 0x1100 } 0x10000000).error = 0x8#15 ∧
    (after { gfStart with arg0 := 0x1104, arg1 := 0x1100 } 0x10000000).result = 0 := by decide +kernel

/-- A state with bits 60 to 63 and 66 to 69 of bitset 0 set (the examples of R314 to R317). -/
def bitStart (a e : Word) : State :=
  { State.reset with arg0 := a, arg1 := e }.setBitset 0 (clearBits (setBits 0 60 70) 64 66)

/-- V-B8 to V-B12 and the examples of R312, R315. -/
theorem test_bitset_questions :
    (after (bitStart 62 67) 0x25000000).res0 = 3 ∧ (after (bitStart 0 2048) 0x25000000).res0 = 8 ∧
    (after (bitStart 60 0) 0x26000000).res0 = 64 ∧ (after (bitStart 64 2048) 0x27000000).res0 = 66 ∧
    (after (bitStart 0 60) 0x27000000).res0 = 60 ∧ (after (bitStart 69 0) 0x22000000).res0 = 1 ∧
    (after (bitStart 64 0) 0x22000000).res0 = 0 := by decide +kernel

/-- R310, R311, R313, R314: which bits change. -/
theorem test_bitset_updates :
    (List.range 80).filter ((after { State.reset with arg0 := 5 } 0x20000000).bit 0) = [5] ∧
    (List.range 80).filter ((after (bitStart 63 0) 0x21000000).bit 0) = [60, 61, 62, 66, 67, 68, 69] ∧
    (List.range 80).filter ((after { State.reset with arg0 := 63, arg1 := 65 } 0x23000300).bit 3) = [63, 64] ∧
    (List.range 80).filter ((after (bitStart 62 68) 0x24000000).bit 0) = [60, 61, 68, 69] := by decide +kernel

/-- The host allocator of R370's examples. -/
def slabStart (b : Word) : State := { State.reset with arg0 := b, allocAnswers := [some 0x10000, some 0x20000] }

/-- Example (a) of R370. -/
def slabA : State := after (slabStart 100) 0x30000000

theorem test_slab_alloc :
    slabA.res0 = 0x10010 ∧ bytes slabA 0x10000 16 = [1, 0, 0, 0, 0, 0, 0, 0, 8, 0, 0, 0, 0, 0, 0, 0] ∧
    (slabA.slot 0).free = 2040 ∧ (slabA.slot 0).resume = 8 ∧
    (after { slabA with arg0 := 1 } 0x30000000).res0 = 0x10090 := by decide +kernel

/-- Examples (c), (d), (e) of R371. -/
theorem test_slab_free :
    ((after { slabA with arg0 := 0x10010 } 0x31000000).slot 0).free = 2048 ∧
    bytes (after { slabA with arg0 := 0x10010 } 0x31000000) 0x1000C 1 = [1] ∧
    (after (after { slabA with arg0 := 0x10010 } 0x31000000) 0x31000000).error = 0x40#15 ∧
    (after { slabA with arg0 := 0x10018 } 0x31000000).error = 0x20#15 := by decide +kernel

/-- R366, R367: growing in place, and moving to a large allocation. -/
theorem test_slab_realloc :
    (after { slabA with arg0 := 0x10010, arg1 := 120 } 0x32000100).res0 = 0x10010 ∧
    bytes (after { slabA with arg0 := 0x10010, arg1 := 120 } 0x32000100) 0x10008 4 = [9, 0, 0, 0] ∧
    (after { slabA with arg0 := 0x10010, arg1 := 8161 } 0x32000100).res0 = 0x20010 := by decide +kernel

theorem test_slab_winfo :
    (after { slabA with arg0 := 0 } 0x33000000).res0 = 0x10000 ∧ (after { slabA with arg0 := 0 } 0x33000000).res1 = 2040 ∧
    (after { slabA with arg0 := 0 } 0x33000000).res3 = 1 ∧ (after { slabA with arg0 := 1 } 0x33000000).res0 = 0 ∧
    (after { slabA with arg0 := 32 } 0x33000000).error = 0x4#15 := by decide +kernel

/-- The bytes of element `e` of the test window TW. -/
def twBytes (e : Nat) : List Byte := (List.range (if e % 2 = 0 then 4 else 3)).map fun i => BitVec.ofNat 8 (16 * e + i + 1)

/-- The memory of the test window TW of `n` elements. -/
def twMemory : Nat → Memory
  | 0 => []
  | e + 1 => ((twMemory e).writeList (0x2000 + 0x100 * e) (twBytes e)).writeList (0x1000 + 16 * e)
      (leBytes 8 (0x2000 + 0x100 * e) ++ leBytes 4 (twBytes e).length)

/-- The test window TW of `n` elements (`95_test_vectors.md` section 2). -/
def tw (n : Nat) : State :=
  { State.reset with
    descBase := 0x1000
    sumBase := 0x8000
    sumStride := 0x100
    recBase := 0xC000
    recCap := 0x1000
    winLongest := 4
    winCount := BitVec.ofNat 32 n
    mem := twMemory n }

/-- TW with the sums reset at 0. -/
def twSums (n : Nat) (a : Word) : State := { sumsResetTo (tw n) 0 with arg0 := a }

/-- R430's bound, R425's example. -/
theorem test_sums_reset :
    (List.range 8).map (fun l => ((after { tw 10 with arg0 := 3 } 0x40000000).sum l 2).ne.toNat) =
      [8, 9, 10, 3, 4, 5, 6, 7] ∧
    (after { tw 10 with arg0 := 11 } 0x40000000).error = 0x4#15 := by decide +kernel

/-- Examples (a), (d) and (f) of R431. -/
theorem test_sums_get :
    bytes (after (twSums 10 10) 0x41000100) 0x8300 3 = [0x80, 0x80, 0x80] ∧
    (after (twSums 10 10) 0x41000100).res0 = 0x8300 ∧ (after (twSums 10 10) 0x41000100).res1 = 3 ∧
    (after (twSums 10 10) 0x41000100).res2 = 17 ∧ bytes (after (twSums 10 5) 0x41000000) 0x8000 4 = [1, 2, 3, 4] ∧
    (after (twSums 10 5) 0x41003000).error = 0x4#15 := by decide +kernel

/-- A window whose host removed 8 elements and has no sums. -/
theorem test_win_shift :
    (after { tw 0 with winCount := 16, winFirstElem := 8, arg0 := 8 } 0x42000000).winColumnStart = 8 ∧
    (after { tw 0 with winCount := 16, winFirstElem := 8, arg0 := 8 } 0x42000000).winFirstElem = 0 ∧
    (after { tw 0 with winCount := 16, winFirstElem := 8, arg0 := 8 } 0x42000000).winCount = 8 ∧
    (after { tw 0 with winCount := 16, winFirstElem := 8, arg0 := 4 } 0x42000000).error = 0x4#15 := by decide +kernel

/-- Example (b) of R495. -/
theorem test_row_parity_then_cauchy :
    bytes (after (tw 2) 0x48000000) 0xC000 4 = [0x10, 0x10, 0x10, 0x04] ∧
    (after (tw 2) 0x48000000).res1 = 0x100000004 ∧ nextParityWord (after (tw 2) 0x48000000) = 0x100000002 ∧
    bytes (after (after (tw 2) 0x48000000) 0x48000000) 0xC000 4 = [0xB2, 0x6F, 0x24, 0x48] := by decide +kernel

/-- The test tables of TC-S. -/
def testTables : Tables where
  cx := fun c => BitVec.ofNat 8 (c.toNat % 255 + 1)
  rowValue := fun r => BitVec.ofNat 8 (r.toNat + 2)
  rowOpcode := fun l r => BitVec.ofNat 6 (7 * l.toNat + 13 * r.toNat + 1)

/-- A Siamese row's data, before the bytes it leaves open. -/
def siameseRowOf (s : State) : State :=
  match siameseRow testTables (Run.start s) with
  | .ok _ r => r.st
  | .error _ r => r.st

/-- Example (c) of R495: the first Siamese row of TC-S. -/
theorem test_row_siamese :
    bytes (siameseRowOf
      { tw 3 with params := { Params.default with cauchyThreshold := 2, pairAddRate := 2, rowPeriod := 4 } }) 0xC000 4 =
      [0xB6, 0xBC, 0xBA, 0xBC] := by decide +kernel

/-- The published PCG32 sequence of R488. -/
theorem test_pcg :
    (pcgSeed 54 42).output = 0xa15c02b7#32 ∧ (pcgSeed 54 42).advance.output = 0x7b47f409#32 ∧
    (pcgSeed 54 42).advance.advance.output = 0xba1d3330#32 := by decide +kernel

/-- The examples of R496. -/
theorem test_cauchy_elem :
    [0x49000000, 0x49000100, 0x49056400, 0x493FBF00].map (fun w => (after .reset w).res0) = [0x12, 0x59, 0x82, 0x36] ∧
    (after .reset 0x49400000).error = 0x4#15 := by decide +kernel

/-! ## For every statement with hypotheses, states and operands that meet them -/

/-- A running command with nothing to happen before its end. -/
def running (w : Nat) : State := { State.reset with busy := true, cmd := BitVec.ofNat 32 w }

/-- A state whose next event is one of the host's. -/
def host (a : HostAction) : State := { State.reset with inbox := [a] }

theorem ordinary_of_no_ranges {s : State} (h : s.port = []) (a n : Nat) : Ordinary s a n := by
  intro i _ p hp
  rw [h] at hp
  cases hp

/-- The lists of a state agree with its slots when they do for the slot numbers and hold no other number. -/
theorem listsAgree_of {s : State} (hp : s.prefList.Nodup) (hf : s.fullList.Nodup)
    (bp : ∀ i ∈ s.prefList, i < s.params.nwMax) (bf : ∀ i ∈ s.fullList, i < s.params.nwMax)
    (h : ∀ i, i < s.params.nwMax → ((i ∈ s.prefList ↔ (s.slot i).live = true ∧ (s.slot i).list = .pref) ∧
      (i ∈ s.fullList ↔ (s.slot i).live = true ∧ (s.slot i).list = .full))) : ListsAgree s := by
  refine ⟨hp, hf, fun i => ⟨fun hi => ⟨bp i hi, (h i (bp i hi)).1.1 hi⟩, fun hi => (h i hi.1).1.2 hi.2⟩,
    fun i => ⟨fun hi => ⟨bf i hi, (h i (bf i hi)).2.1 hi⟩, fun hi => (h i hi.1).2.2 hi.2⟩⟩

theorem witness_EncodeDecode : decode 0x41003700#32 = .ok (.sumsGet 3#2 7#3) := by decide

theorem witness_IllegalOpcodeRejected :
    [0x01, 0x0F, 0x1B, 0x1F, 0x28, 0x2F, 0x34, 0x3F, 0x43, 0x47, 0x4A, 0xFF].all (fun op =>
      decide ((opcodeOf (running (op * 2 ^ 24)).cmd).toNat = op ∧ (running (op * 2 ^ 24)).inbox = [] ∧
        (running (op * 2 ^ 24)).busy = true ∧ (running (op * 2 ^ 24)).disabled = false)) = true ∧
    [0x01, 0x0F, 0x1B, 0x1F, 0x28, 0x2F, 0x34, 0x3F, 0x43, 0x47, 0x4A, 0xFF].all (fun op =>
      decide (decode (running (op * 2 ^ 24)).cmd = .error .illegalOpcode)) = true := by decide +kernel

theorem witness_ReservedFieldRejected :
    (opcodeOf (running 0x10010000).cmd = 0x10#8 ∧ (running 0x10010000).cmd &&& 0xFFFFFFFF#32 ≠ 0x10#8 ++ 0#24 ∧
      (running 0x10010000).busy = true ∧ (running 0x10010000).disabled = false) ∧
    (opcodeOf (running 0x49FFFF00).cmd = 0x49#8 ∧ (running 0x49FFFF00).cmd &&& 0xFF0000FF#32 = 0x49#8 ++ 0#24) ∧
    (opcodeOf (running 0x49000080).cmd = 0x49#8 ∧ (running 0x49000080).cmd.extractLsb' 0 8 ≠ 0#8) := by decide

theorem witness_StepRunsCommand_store :
    (host (.csrStore 0x020 8 0xFFFFFFFF48000000)).busy = false ∧
    (host (.csrStore 0x020 8 0xFFFFFFFF48000000)).inbox = [.csrStore 0x020 8 0xFFFFFFFF48000000] := by decide

theorem witness_StepRunsCommand_run :
    (running 0x48000000).busy = true ∧ (running 0x48000000).disabled = false ∧
    decode (running 0x48000000).cmd = .ok .rowEncode ∧ (running 0x48000000).inbox = [] ∧
    ({ running 0x48000000 with inbox := [.letRun] } : State).inbox = .letRun :: [] := by decide

theorem witness_StepRunsCommand_fetch :
    State.reset.disabled = false ∧ decodeTableWord 32 0x49056400 = some (.cauchyElem 5#8 100#8) := by decide

theorem witness_RejectIsPrecise :
    exec (.gfDiv 5#8 0#8) .reset = .next (State.reset.reject .invalidInput .zeroDivisor) ∧
    (State.reset.reject .invalidInput .zeroDivisor).result = 0xFF#8 := ⟨rfl, by decide⟩

theorem witness_OutcomesSetErrors_success : ∃ t, exec .nop .reset = .next t ∧ t.result = 0x00#8 :=
  ⟨_, rfl, by decide +kernel⟩

theorem witness_OutcomesSetErrors_needMoreData : ∃ t, exec .rowEncode .reset = .next t ∧ t.result = 0xFE#8 :=
  ⟨_, exec_eq _ _, by decide +kernel⟩

theorem witness_OutcomesSetErrors_reject : ∃ t, exec (.gfInv 0#8) .reset = .next t ∧ t.result = 0xFF#8 :=
  ⟨_, exec_eq _ _, by decide +kernel⟩

theorem witness_OutcomesSetErrors_fatal :
    ∃ t, exec .slabAlloc { slabStart 1 with allocAnswers := [none] } = .next t ∧ t.result = 0xFB#8 :=
  ⟨_, exec_eq _ _, by decide +kernel⟩

theorem witness_CommandFrame : ∃ t, exec .slabAlloc (slabStart 100) = .next t := ⟨_, exec_eq _ _⟩

theorem witness_DisabledIsTerminal_run :
    ({ running 0x01000000 with disabled := true } : State).disabled = true ∧
    ({ running 0x01000000 with disabled := true } : State).busy = true ∧
    ({ running 0x01000000 with disabled := true } : State).inbox = [] := by decide

theorem witness_DisabledIsTerminal_step :
    let s := { host (.csrStore 0x008 8 0xFFFFFFFFFFFFFFFF) with disabled := true }
    s.disabled = true ∧ (∃ t, step s = .next t) ∧ (∀ rest, s.inbox ≠ .platformReset :: rest) ∧
    (∀ v rest, v.getLsbD 1 = true → s.inbox ≠ .csrStore (s.params.csrBase + 0x010) 8 v :: rest) :=
  ⟨rfl, ⟨_, rfl⟩, by simp [host], by simp [host]⟩

theorem witness_InterruptLine_store : (host (.csrStore 0x008 8 4)).inbox = [.csrStore 0x008 8 4] ∧
    (4 : Word).getLsbD 2 = true := by decide

theorem witness_CsrStoreReadBack :
    [0x028, 0x030, 0x038, 0x040, 0x080, 0x088, 0x090, 0x098, 0x0A0, 0x0A8, 0x0B0, 0x0B8, 0x0C0, 0x0C8, 0x0D0, 0x0D8].all
      (fun o => (host (.csrStore o 8 0xFFFFFFFFFFFFFFFF)).busy == false &&
        (host (.csrStore o 8 0xFFFFFFFFFFFFFFFF)).inbox == [.csrStore o 8 0xFFFFFFFFFFFFFFFF]) = true := by decide

/-- R33, R34: stores to CONTROL and ERROR while BUSY = 0. -/
theorem witness_CsrStoreReadBack_control :
    (host (.csrStore 0x010 8 1)).busy = false ∧ (1 : Word).getLsbD 1 = false ∧
    (host (.csrStore 0x018 8 4)).inbox = [.csrStore 0x018 8 4] := by decide

/-- R107: the CSR window stands where CSR_BASE says; a store below it does not reach the block. -/
theorem test_csr_base :
    let s := { State.reset with params := { Params.default with csrBase := 0x4000 } }
    (csrStore s 0x4028 8 7).arg0 = 7 ∧ (csrStore s 0x0028 8 7).arg0 = 0 ∧ (csrLoad s 0x4000 8).hostRead = idWord := by
  decide +kernel

/-- R543: a load draws none of the free values that the running command draws. -/
theorem test_load_keeps_draws (s : State) (a w : Nat) : (csrLoad s a w).draws = s.draws := rfl

/-- What all-ones stores leave (R40 to R52, with the default ROW_PERIOD and MAX_CAUCHY_ROWS). -/
theorem test_csr_stores :
    [0x080, 0x088, 0x0A0, 0x0B0, 0x0C8, 0x0D0, 0x0D8].map (fun o =>
      csrValue (csrStoreEffect .reset o 0xFFFFFFFFFFFFFFFF) o) =
    [0x3FFFF8, 0xFFFFFFFF, 0xFFFFFFFFFFFFFFF0, 0xFFFFFFF0, 0xFF, 0x3F, 0x1003FFFFF] := by decide +kernel

theorem witness_WriteWhileBusy :
    [0x020, 0x0D8, 0x008, 0x018, 0x010].all (fun o =>
      ({ running 0 with inbox := [.csrStore o 8 2] } : State).busy &&
        ({ running 0 with inbox := [.csrStore o 8 2] } : State).inbox == [.csrStore o 8 2]) = true ∧
    (2 : Word).getLsbD 1 = true ∧ (1 : Word).getLsbD 1 = false := by decide

theorem witness_CsrStoresIgnored :
    (host (.csrStore 0x008 4 4)).inbox = [.csrStore 0x008 4 4] ∧ (host (.csrStore 0x00C 8 4)).inbox = [.csrStore 0x00C 8 4] ∧
    (host (.csrStore 0x120 8 4)).inbox = [.csrStore 0x120 8 4] ∧ (host (.csrStore 0x048 8 4)).inbox = [.csrStore 0x048 8 4] := by
  decide

theorem witness_CsrLoads :
    (host (.csrLoad 0x000 8)).inbox = [.csrLoad 0x000 8] ∧ (host (.csrLoad 0x000 8)).busy = false ∧
    (host (.csrLoad 0x000 4)).inbox = [.csrLoad 0x000 4] ∧ (host (.csrLoad 0x020 8)).inbox = [.csrLoad 0x020 8] ∧
    ({ running 0 with inbox := [.csrLoad 0x048 8] } : State).busy = true ∧
    ({ running 0 with inbox := [.csrLoad 0x048 8] } : State).inbox = [.csrLoad 0x048 8] := by decide

/-- GF_ADD_MEM running over the buffers of V-V1 while the host stores a byte. -/
def racing (a : Word) : State :=
  { gfStart with busy := true, cmd := 0x10000000#32, inbox := [.memStore a [0x55#8]] }

theorem witness_HostMemory :
    (racing 0x3000).mem.wf = true ∧ (0x3000 : Word).toNat + 1 ≤ 2 ^ 64 ∧
    usesByte { racing 0x3000 with inbox := [] } 0x3000 = false ∧ usesByte { racing 0x1001 with inbox := [] } 0x1001 = true ∧
    ({ gfStart with inbox := [.memStore 0xFFFFFFFFFFFFFFFF [1#8]] } : State).busy = false := by decide +kernel

/-- R126: a store to a byte that the command uses is a race, a store elsewhere is not. -/
theorem test_host_race :
    (match step (racing 0x1001) with
      | .next t => t.raced == [0x1001]
      | _ => false) = true ∧
    (match step (racing 0x3000) with
      | .next t => t.raced.isEmpty && bytes t 0x3000 1 == [0x55]
      | _ => false) = true := by decide +kernel

theorem witness_ResetWhileIdle :
    ((host .platformReset).busy = false ∧ (host .platformReset).inbox = .platformReset :: []) ∧
    ((host (.csrStore 0x010 8 2)).busy = false ∧ (2 : Word).getLsbD 1 = true ∧
      (host (.csrStore 0x010 8 2)).inbox = .csrStore 0x010 8 2 :: []) := by decide

theorem witness_AbandonedCommand :
    let s := { gfStart with busy := true, cmd := 0x10000000#32, inbox := [.csrStore 0x010 8 2] }
    s.busy = true ∧ s.mem.wf = true ∧ (2 : Word).getLsbD 1 = true ∧ s.inbox = .csrStore 0x010 8 2 :: [] ∧
    0x1000 ∉ (runningCommand { s with inbox := [] }).writes := by decide +kernel

theorem witness_StepKeepsMemoryCanonical :
    ({ gfStart with busy := true, cmd := 0x10000000#32 } : State).mem.wf = true ∧
    ∃ t, step { gfStart with busy := true, cmd := 0x10000000#32 } = .next t := ⟨by decide +kernel, _, rfl⟩

theorem witness_StepKeepsRegistersLegal :
    (running 0x48000000).params.Legal ∧ RegistersLegal (running 0x48000000) ∧ ∃ t, step (running 0x48000000) = .next t :=
  ⟨by decide, by unfold RegistersLegal; decide, _, rfl⟩

/-- A state whose only window is full of allocated units and still in PREF. -/
def fullWindow : State :=
  ({ State.reset with prefList := [0], windowsLive := [(0x10000, 0x8000)] } : State).setSlot 0
    { live := true, base := 0x10000, used := setBits 0 0 2048, free := 0, resume := 2048, list := .pref }

theorem slabInvariant_fullWindow : SlabInvariant fullWindow :=
  ⟨by unfold WindowCountsAgree; decide +kernel, listsAgree_of (by decide +kernel) (by decide +kernel)
    (by decide +kernel) (by decide +kernel) (by decide +kernel), by unfold WindowsInBooks; decide +kernel⟩

theorem witness_StepKeepsSlabInvariant :
    fullWindow.params.Legal ∧ SlabInvariant fullWindow ∧ ∃ t, step fullWindow = .next t :=
  ⟨by decide +kernel, slabInvariant_fullWindow, _, rfl⟩

theorem witness_CommandsKeepSumCounters :
    SumCountersOk (twSums 10 10) ∧ (twSums 10 10).winCount.toNat ≤ 2 ^ 30 ∧
    -2 ^ 30 ≤ (twSums 10 10).sumStartElem.toInt ∧
    ∃ t, exec (.sumsGet 0#2 1#3) (twSums 10 10) = .next t ∧ t.disabled = false :=
  ⟨by unfold SumCountersOk; decide +kernel, by decide +kernel, by decide +kernel, _, exec_eq _ _, by decide +kernel⟩

theorem witness_BitsetIsolation :
    isBitsetCommand .slabAlloc = false ∧ ∃ t, exec .slabAlloc (slabStart 100) = .next t := ⟨rfl, _, exec_eq _ _⟩

theorem witness_GfFieldOk : FieldOk State.reset.params ∧ FieldOk gfStart.params ∧ (0xFF#8 : Byte) ≠ 0 :=
  ⟨fieldOk_default, fieldOk_default, by decide⟩

/-- The largest buffers, touching, the second ending at the top of the data space. -/
def gfEdge : State :=
  { State.reset with arg0 := 0xFFFFFFFFC0000000, arg1 := 0xFFFFFFFF80000000, arg2 := 0x40000000 }

theorem witness_GfVectorChecks :
    gfEdge.params.Legal ∧ (0x40000001 : Word).toNat > 2 ^ 30 ∧ (0 : Word).toNat = 0 ∧
    (let s := { gfEdge with arg0 := 0xFFFFFFFFC0000001 }
     0 < s.arg2.toNat ∧ s.arg2.toNat ≤ 2 ^ 30 ∧ s.arg0.toNat + s.arg2.toNat > 2 ^ 64) ∧
    (let s := { gfEdge with arg1 := 0xFFFFFFFF80000001 }
     0 < s.arg2.toNat ∧ s.arg2.toNat ≤ 2 ^ 30 ∧ s.arg0.toNat + s.arg2.toNat ≤ 2 ^ 64 ∧
      s.arg1.toNat + s.arg2.toNat ≤ 2 ^ 64 ∧ s.arg0.toNat ≠ s.arg1.toNat ∧
      s.arg0.toNat < s.arg1.toNat + s.arg2.toNat ∧ s.arg1.toNat < s.arg0.toNat + s.arg2.toNat) ∧
    (0x01#8 : Byte) ≠ 0 := by decide

theorem witness_GfMemResults :
    FieldOk gfEdge.params ∧ GfBuffersOk gfEdge ∧ gfEdge.raced = [] ∧ Ordinary gfEdge gfEdge.arg0.toNat gfEdge.arg2.toNat ∧
    Ordinary gfEdge gfEdge.arg1.toNat gfEdge.arg2.toNat ∧ (0x53#8 : Byte) ≠ 0 :=
  ⟨fieldOk_default, by unfold GfBuffersOk; decide, rfl, ordinary_of_no_ranges rfl _ _, ordinary_of_no_ranges rfl _ _, by decide⟩

theorem witness_GfMemResults_alias :
    GfBuffersOk { gfStart with arg1 := 0x1100 } ∧ GfBuffersOk gfStart := by
  unfold GfBuffersOk; decide +kernel

theorem witness_GfBusError :
    (let s := { gfStart with port := [⟨0x1003, 1, .readError⟩] }
     GfBuffersOk s ∧ 3 < s.arg2.toNat ∧ portHits s.port (s.arg1.toNat + 3) [.readError, .anyError] = true) ∧
    (let s := { gfStart with port := [⟨0x1100, 1, .readError⟩] }
     GfBuffersOk s ∧ 0 < s.arg2.toNat ∧ portHits s.port (s.arg0.toNat + 0) [.readError, .anyError] = true) ∧
    (let s := { gfStart with port := [⟨0x1100, 1, .writeError⟩] }
     GfBuffersOk s ∧ 0 < s.arg2.toNat ∧ portHits s.port (s.arg0.toNat + 0) [.writeError, .anyError] = true) ∧
    (2#8 : Byte) ≠ 0 := by unfold GfBuffersOk; decide +kernel

theorem witness_BitsetStatements :
    State.reset.params.Legal ∧ (3#4 : BitVec 4).toNat < State.reset.params.nbs ∧
    (bitStart 2047 0).arg0.toNat < (bitStart 2047 0).params.bsCap ∧
    ((bitStart 0 2048).arg0.toNat ≤ (bitStart 0 2048).arg1.toNat ∧
      (bitStart 0 2048).arg1.toNat ≤ (bitStart 0 2048).params.bsCap) ∧
    ((bitStart 2048 2048).arg0.toNat ≤ (bitStart 2048 2048).arg1.toNat ∧
      (bitStart 2048 2048).arg0.toNat ≤ (bitStart 2048 2048).params.bsCap) := by
  decide

theorem witness_BitsetRejects :
    (4#4 : BitVec 4).toNat ≥ State.reset.params.nbs ∧ (bitStart 2048 0).arg0.toNat ≥ (bitStart 2048 0).params.bsCap ∧
    (bitStart 2049 0).arg0.toNat > (bitStart 2049 0).params.bsCap ∧
    ¬ ((bitStart 1 0).arg0.toNat ≤ (bitStart 1 0).arg1.toNat ∧
      (bitStart 1 0).arg1.toNat ≤ (bitStart 1 0).params.bsCap) ∧
    ¬ ((bitStart 0 2049).arg0.toNat ≤ (bitStart 0 2049).arg1.toNat ∧
      (bitStart 0 2049).arg1.toNat ≤ (bitStart 0 2049).params.bsCap) := by decide

theorem witness_FindGapIsLowest :
    (0 < 2048 ∧ findGap 2048 Slot.empty 2048 = some 0) ∧ findGap 2048 { Slot.empty with resume := 2048 } 1 = none := by
  decide +kernel

theorem clearOfStructures_of_empty {s : State} (h : aroundWindows s = [(0, 0), (0, 0), (0, 0)]) (a n : Nat) :
    ClearOfStructures s a n := by
  intro i _
  simp [h, inRegions, inRegion]

/-- Example (b) of R370, and the largest request that is not large. -/
def fromWindow (b : Word) : State := { slabA with arg0 := b }

theorem witness_SlabAllocFromWindow_edges :
    [(1 : Word), 8160].all (fun b =>
      let s := fromWindow b
      let h := (s.slot 0).base.toNat + 8 * s.params.unit
      decide (s.params.Legal ∧ s.mem.wf = true ∧ s.slabTainted = false ∧ s.raced = []) &&
        decide (1 ≤ b.toNat ∧ b.toNat ≤ 2 ^ 29 - 1 ∧ unitsFor s.params b.toNat < 512 ∧ h + 16 ≤ 2 ^ 64) &&
        decide (s.prefList = [0] ∧ takes s 0 (unitsFor s.params b.toNat) = some 8) &&
        decide (∀ i : Nat, i < 16 → inRegions (aroundWindows s) (h + i) = false) && s.port.isEmpty) = true ∧
    Requests .slabAlloc (fromWindow 1) 1 ∧
    Requests (.slabRealloc true) { slabA with arg0 := 0, arg1 := 1 } 1 :=
  ⟨by decide +kernel, .inl ⟨rfl, by decide +kernel⟩, .inr ⟨true, rfl, by decide +kernel, by decide +kernel⟩⟩

/-- Two windows in PREF, the first without free units. -/
def twoWindows : State :=
  (({ slabStart 100 with prefList := [0, 1] } : State).setSlot 0
    { live := true, base := 0x40000, used := setBits 0 0 2048, free := 0, resume := 2048, list := .pref }).setSlot 1
    { live := true, base := 0x50000, used := 0, free := 2048, resume := 0, list := .pref }

theorem witness_SlabAllocFromWindow :
    SlabTrusted twoWindows ∧ Requests .slabAlloc twoWindows 100 ∧ unitsFor twoWindows.params 100 < 512 ∧
    FirstThatTakes twoWindows (unitsFor twoWindows.params 100) [0] 1 0 ∧
    (twoWindows.slot 1).base.toNat + 0 * twoWindows.params.unit = 0x50000 ∧ Ordinary twoWindows 0x50000 16 ∧
    ClearOfStructures twoWindows 0x50000 16 :=
  ⟨by unfold SlabTrusted; decide +kernel, .inl ⟨rfl, by decide +kernel⟩, by decide +kernel,
    ⟨⟨[], by decide +kernel⟩, by unfold PassedOver; decide +kernel, by decide +kernel, by decide +kernel⟩,
    by decide +kernel, ordinary_of_no_ranges (by decide +kernel) _ _, clearOfStructures_of_empty (by decide +kernel) _ _⟩

/-- `n` live windows, full, at addresses of their own. -/
def manyWindows (n : Nat) : State :=
  { slabStart 8160 with
    slots := Vector.ofFn fun i : Fin 255 => if i.val < n then
      { live := true, base := BitVec.ofNat 64 (0x1000000 * (i.val + 1)), used := setBits 0 0 2048, free := 0,
        resume := 2048, list := .full } else Slot.empty
    fullList := List.range n }

theorem witness_SlabAllocNewWindow_edges :
    [(0, slabStart 1), (31, manyWindows 31)].all (fun x =>
      decide (x.2.params.Legal ∧ x.2.mem.wf = true ∧ x.2.slabTainted = false ∧ x.2.raced = []) &&
        decide (1 ≤ x.2.arg0.toNat ∧ unitsFor x.2.params x.2.arg0.toNat < 512 ∧ x.2.prefList = []) &&
        decide (x.1 < x.2.params.nwMax ∧ (x.2.slot x.1).live = false ∧ ∀ j, j < x.1 → (x.2.slot j).live = true) &&
        decide (x.2.allocAnswers = some 0x10000 :: [some 0x20000] ∧ answerOk x.2 (2048 * x.2.params.unit) 0x10000 = true) &&
        decide (∀ i : Nat, i < 16 → inRegions (aroundWindows x.2) (0x10000 + i) = false) && x.2.port.isEmpty) = true := by
  decide +kernel

theorem witness_SlabAllocNewWindow :
    SlabTrusted (slabStart 1) ∧ Requests .slabAlloc (slabStart 1) 1 ∧ unitsFor (slabStart 1).params 1 < 512 ∧
    NoWindowTakes (slabStart 1) (unitsFor (slabStart 1).params 1) ∧ LowestDead (slabStart 1) 0 ∧
    NextAnswer (slabStart 1) (2048 * (slabStart 1).params.unit) 0x10000 [some 0x20000] ∧
    Ordinary (slabStart 1) 0x10000 16 ∧ ClearOfStructures (slabStart 1) 0x10000 16 :=
  ⟨by unfold SlabTrusted; decide +kernel, .inl ⟨rfl, by decide +kernel⟩, by decide +kernel,
    by unfold NoWindowTakes PassedOver; decide +kernel, by unfold LowestDead; decide +kernel,
    by unfold NextAnswer; decide +kernel, ordinary_of_no_ranges rfl _ _,
    clearOfStructures_of_empty (by decide +kernel) _ _⟩

theorem witness_SlabAllocLarge :
    SlabTrusted (slabStart 8161) ∧ Requests .slabAlloc (slabStart 8161) 8161 ∧
    512 ≤ unitsFor (slabStart 8161).params 8161 ∧
    NextAnswer (slabStart 8161) (unitsFor (slabStart 8161).params 8161 * (slabStart 8161).params.unit) 0x10000
      [some 0x20000] ∧
    Ordinary (slabStart 8161) 0x10000 16 ∧ ClearOfStructures (slabStart 8161) 0x10000 16 :=
  ⟨by unfold SlabTrusted; decide +kernel, .inl ⟨rfl, by decide +kernel⟩, by decide +kernel,
    by unfold NextAnswer; decide +kernel, ordinary_of_no_ranges rfl _ _, clearOfStructures_of_empty (by decide +kernel) _ _⟩

theorem witness_SlabAllocLarge_edges :
    [(8161 : Word), 0x1FFFFFFF].all (fun b =>
      let s := slabStart b
      decide (s.params.Legal ∧ s.mem.wf = true ∧ s.slabTainted = false ∧ s.raced = []) &&
        decide (1 ≤ b.toNat ∧ b.toNat ≤ 2 ^ 29 - 1 ∧ 512 ≤ unitsFor s.params b.toNat) &&
        decide (s.allocAnswers = some 0x10000 :: [some 0x20000]) &&
        answerOk s (unitsFor s.params b.toNat * s.params.unit) 0x10000 &&
        decide (∀ i : Nat, i < 16 → inRegions (aroundWindows s) (0x10000 + i) = false) && s.port.isEmpty) = true := by
  decide +kernel

theorem witness_SlabAllocFails_requests :
    (slabStart 0).params.Legal ∧ Requests .slabAlloc (slabStart 0) 0 ∧
    Requests .slabAlloc (slabStart 0x20000000) (2 ^ 29) :=
  ⟨by decide, .inl ⟨rfl, by decide⟩, .inl ⟨rfl, by decide⟩⟩

theorem witness_SlabAllocFails_host :
    NextAnswerFails { slabStart 8161 with allocAnswers := [none] } 8192 [] ∧
    NextAnswerFails { slabStart 1 with allocAnswers := [some 8] } 32768 [] ∧ LowestDead (slabStart 1) 0 ∧
    NoWindowTakes (slabStart 1) 2 ∧ 512 ≤ unitsFor Params.default 8161 ∧ unitsFor Params.default 8160 < 512 :=
  ⟨.inl rfl, .inr ⟨8, rfl, by decide +kernel⟩, by unfold LowestDead; decide +kernel,
    by unfold NoWindowTakes PassedOver; decide +kernel, by decide, by decide⟩

theorem witness_SlabAllocFails_slots :
    (∀ j, j < (manyWindows 32).params.nwMax → ((manyWindows 32).slot j).live = true) ∧
    NoWindowTakes (manyWindows 32) 511 ∧ Requests .slabAlloc (manyWindows 32) 8160 :=
  ⟨by decide +kernel, by unfold NoWindowTakes PassedOver; decide +kernel, .inl ⟨rfl, by decide⟩⟩

theorem witness_PostMigrates :
    fullWindow.params.Legal ∧ SlabInvariant fullWindow ∧ ([] ++ [0]).Nodup ∧
    (∀ x ∈ [] ++ [0], x < fullWindow.params.nwMax) ∧ PassedOver fullWindow 2 0 :=
  ⟨by decide +kernel, slabInvariant_fullWindow, by decide, by decide +kernel, by unfold PassedOver; decide +kernel⟩

theorem witness_PostMigrates_again : ¬ PassedOver slabA 2040 0 := by unfold PassedOver; decide +kernel

/-- A state from which the region of example (a) can be freed. -/
def freeA : State := { slabA with arg0 := 0x10010 }

/-- A state from which a large region can be freed. -/
def freeLarge : State := { after (slabStart 8161) 0x30000000 with arg0 := 0x10010 }

theorem headerReadable_of_no_ranges {s : State} {h : Nat} (hp : s.port = []) (h0 : s.arg0 ≠ 0)
    (hu : s.arg0.toNat % s.params.unit = 0) (he : s.arg0.toNat = h + s.params.unit)
    (hc : aroundWindows s = [(0, 0), (0, 0), (0, 0)]) : HeaderReadable s h :=
  ⟨h0, hu, he, ordinary_of_no_ranges hp _ _, clearOfStructures_of_empty hc _ _⟩

/-- The region of example (a) with another header. -/
def headed (win u freed : Nat) : State := { freeA with mem := Memory.writeList [] 0x10000 (headerBytes win u freed) }

theorem freeA_plain : freeA.port = [] ∧ freeA.arg0 = 0x10010 ∧ freeA.params.unit = 16 ∧ freeA.winCount = 0 ∧
    freeA.winFirstElem = 0 ∧ freeA.descBase = 0 ∧ freeA.sumBase = 0 ∧ freeA.sumStride = 0 ∧ freeA.recBase = 0 ∧
    freeA.recCap = 0 := by decide +kernel

theorem headerReadable_headed (win u freed : Nat) : HeaderReadable (headed win u freed) 0x10000 := by
  obtain ⟨h1, h2, h3, h4, h5, h6, h7, h8, h9, h10⟩ := freeA_plain
  exact headerReadable_of_no_ranges (by simp [headed, h1]) (by simp [headed, h2]) (by simp [headed, h2, h3])
    (by simp [headed, h2, h3])
    (by simp [headed, aroundWindows, descRegion, sumRegion, scratchRegion, originalRegions, h4, h5, h6, h7, h8, h9, h10])

theorem witness_CheckPointer :
    (freeA.params.Legal ∧ freeA.mem.wf = true ∧ freeA.raced = [] ∧ freeA.arg0 ≠ 0) ∧
    [({ freeA with arg0 := 0x10018 } : State), { freeA with arg0 := 8 }].all (fun s =>
      decide (s.arg0.toNat % s.params.unit ≠ 0)) = true ∧
    [(1, 8, 1), (1, 8, 2), (0, 511, 0), (0, 512, 0), (33, 8, 0), (32, 8, 0), (1, 1, 0), (1, 2049, 0), (1, 9, 0),
        (1, 8, 0)].map (fun x =>
      let s := headed x.1 x.2.1 x.2.2
      (decide (s.mem.wf = true ∧ s.raced = [] ∧ leAt s.mem 0x10000 8 = x.1 ∧ leAt s.mem 0x10008 4 = x.2.1 ∧
        (s.mem.read 0x1000C).toNat = x.2.2), headerSays s 0x10000)) =
    [(true, .error .doubleFree), (true, .error .badFree), (true, .error .badFree), (true, .ok (.large 0x10000 512)),
      (true, .error .badFree), (true, .error .badFree), (true, .error .badFree), (true, .error .badFree),
      (true, .error .badFree), (true, .ok (.slab 0 0 0x10000 8))] := by decide +kernel

/-- R362: a header below its window's base, and one that is not a whole number of units above it. -/
theorem witness_CheckPointer_place :
    [0x20000, 0x0FFF8].map (fun b =>
      let s := (headed 1 8 0).setSlot 0 { (headed 1 8 0).slot 0 with base := BitVec.ofNat 64 b }
      (decide (0x10000 < b ∨ (0x10000 - b) % s.params.unit ≠ 0), headerSays s 0x10000)) =
    [(true, .error .badFree), (true, .error .badFree)] := by decide +kernel

theorem witness_SlabFreeResult :
    State.reset.params.Legal ∧ State.reset.mem.wf = true ∧ State.reset.raced = [] ∧ State.reset.arg0 = 0 := by
  decide +kernel

theorem witness_SlabFreeResult_slab :
    freeA.params.Legal ∧ freeA.mem.wf = true ∧ freeA.raced = [] ∧ HeaderReadable freeA 0x10000 ∧
    headerSays freeA 0x10000 = .ok (.slab 0 0 0x10000 8) := by
  unfold HeaderReadable Ordinary ClearOfStructures headerSays
  decide +kernel

theorem witness_SlabFreeResult_large :
    HeaderReadable freeLarge 0x10000 ∧ headerSays freeLarge 0x10000 = .ok (.large 0x10000 512) := by
  unfold HeaderReadable Ordinary ClearOfStructures headerSays
  decide +kernel

theorem witness_ReleaseRunEffect :
    (manyWindows 32).params.Legal ∧ 31 < (manyWindows 32).params.nwMax ∧ 1536 + 512 ≤ 2048 ∧
    (((manyWindows 32).slot 31).list = .full ∧ 512 ≤ ((manyWindows 32).slot 31).free + 512) ∧
    ¬ (((manyWindows 32).slot 31).list = .full ∧ 512 ≤ ((manyWindows 32).slot 31).free + 511) := by decide +kernel

/-- A state from which the region of example (a) can grow in place. -/
def growA : State := { freeA with arg1 := 8144 }

theorem witness_SlabReallocInPlace :
    SlabTrusted growA ∧ HeaderReadable growA 0x10000 ∧ 1 ≤ growA.arg1.toNat ∧ growA.arg1.toNat ≤ 2 ^ 29 - 1 ∧
    headerSays growA 0x10000 = .ok (.slab 0 0 0x10000 8) ∧ 8 < unitsFor growA.params growA.arg1.toNat ∧
    RoomAfter growA 0 0 8 (unitsFor growA.params growA.arg1.toNat) :=
  ⟨by unfold SlabTrusted; decide +kernel,
    headerReadable_of_no_ranges (by decide +kernel) (by decide +kernel) (by decide +kernel) (by decide +kernel)
      (by decide +kernel),
    by decide +kernel, by decide +kernel, by decide +kernel, by decide +kernel, by unfold RoomAfter; decide +kernel⟩

theorem witness_SlabReallocInPlace_keeps :
    unitsFor Params.default 112 ≤ (Allocation.slab 0 0 0x10000 8).units ∧ 8 < unitsFor Params.default 113 := by decide

/-- A state from which the region of example (a) can be moved to a large allocation. -/
def moveA : State := { freeA with arg1 := 8161 }

theorem witness_SlabReallocToLarge :
    SlabTrusted moveA ∧ HeaderReadable moveA 0x10000 ∧ 1 ≤ moveA.arg1.toNat ∧ moveA.arg1.toNat ≤ 2 ^ 29 - 1 ∧
    headerSays moveA 0x10000 = .ok (.slab 0 0 0x10000 8) ∧ 512 ≤ unitsFor moveA.params moveA.arg1.toNat ∧
    8 < unitsFor moveA.params moveA.arg1.toNat ∧
    NextAnswer moveA (unitsFor moveA.params moveA.arg1.toNat * moveA.params.unit) 0x20000 [] ∧ moveA.port = [] ∧
    blocksOwn moveA (.slab 0 0 0x10000 8) = true ∧
    ClearOfStructures moveA 0x20000 (unitsFor moveA.params moveA.arg1.toNat * moveA.params.unit) ∧
    (moveA.slot 0).base.toNat + 2048 * moveA.params.unit ≤ 2 ^ 64 ∧
    NextAnswerFails { moveA with allocAnswers := [none] } 8192 [] :=
  ⟨by unfold SlabTrusted; decide +kernel,
    headerReadable_of_no_ranges (by decide +kernel) (by decide +kernel) (by decide +kernel) (by decide +kernel)
      (by decide +kernel),
    by decide +kernel, by decide +kernel, by decide +kernel, by decide +kernel, by decide +kernel,
    by unfold NextAnswer; decide +kernel, by decide +kernel, by decide +kernel,
    clearOfStructures_of_empty (by decide +kernel) _ _, by decide +kernel, .inl rfl⟩

/-- A state from which a large region can grow. -/
def moveLarge : State := { freeLarge with arg1 := 8177 }

theorem witness_SlabReallocToLarge_large :
    SlabTrusted moveLarge ∧ HeaderReadable moveLarge 0x10000 ∧
    headerSays moveLarge 0x10000 = .ok (.large 0x10000 512) ∧ unitsFor moveLarge.params moveLarge.arg1.toNat = 513 ∧
    NextAnswer moveLarge (513 * moveLarge.params.unit) 0x20000 [] ∧ moveLarge.port = [] ∧
    blocksOwn moveLarge (.large 0x10000 512) = true ∧ ClearOfStructures moveLarge 0x20000 (513 * moveLarge.params.unit) ∧
    (0x10000, 512 * moveLarge.params.unit) ∈ moveLarge.largeLive :=
  ⟨by unfold SlabTrusted; decide +kernel,
    headerReadable_of_no_ranges (by decide +kernel) (by decide +kernel) (by decide +kernel) (by decide +kernel)
      (by decide +kernel),
    by decide +kernel, by decide +kernel, by unfold NextAnswer; decide +kernel, by decide +kernel, by decide +kernel,
    clearOfStructures_of_empty (by decide +kernel) _ _, by decide +kernel⟩

/-- R367, R372: a large region that grows moves, and goes to HostFree. -/
theorem test_slab_realloc_large :
    let t := after moveLarge 0x32000000
    t.res0 = 0x20010 ∧ bytes t 0x20008 2 = [1, 2] ∧ bytes t 0x1000C 1 = [1] ∧ t.hostFrees = [0x10000] ∧
    t.largeLive = [(0x20000, 8208)] := by decide +kernel

/-- Example (a) with a region behind it, asked to grow to 14 units; with no gap left in the window if `full`. -/
def behindA (full : Bool) : State :=
  let s := { after (fromWindow 1) 0x30000000 with arg0 := 0x10010, arg1 := 200 }
  s.setSlot 0 { s.slot 0 with resume := if full then 2048 else (s.slot 0).resume }

/-- The same with every other slot live. -/
def behindAll : State :=
  { behindA true with slots := Vector.ofFn fun i : Fin 255 => if i.val = 0 then (behindA true).slot 0 else
      { live := true, base := BitVec.ofNat 64 (0x1000000 * (i.val + 1)), used := setBits 0 0 2048, free := 0,
        resume := 2048, list := .full } }

theorem witness_SlabReallocMovesSmall :
    [behindA false, behindA true, behindAll].all (fun s =>
      decide (s.params.Legal ∧ s.mem.wf = true ∧ s.slabTainted = false ∧ s.raced = []) &&
        decide (s.arg0 ≠ 0 ∧ s.arg0.toNat % s.params.unit = 0 ∧ s.arg0.toNat = 0x10000 + s.params.unit) &&
        decide (aroundWindows s = [(0, 0), (0, 0), (0, 0)]) && decide (unitsFor s.params s.arg1.toNat = 14) &&
        decide (headerSays s 0x10000 = .ok (.slab 0 0 0x10000 8) ∧ (s.slot 0).used.getLsbD 8 = true ∧ s.port = []) &&
        decide (s.handed.contains s.arg0 = true ∧ (s.slot 0).base.toNat + 2048 * s.params.unit ≤ 2 ^ 64)) = true ∧
    (takes (behindA false) 0 14 = some 10 ∧ (behindA false).prefList = [0]) ∧
    (NoWindowTakes (behindA true) 14 ∧ LowestDead (behindA true) 1 ∧
      NextAnswer (behindA true) (2048 * (behindA true).params.unit) 0x20000 []) ∧
    NoWindowTakes behindAll 14 ∧ (∀ j, j < behindAll.params.nwMax → (behindAll.slot j).live = true) ∧
    NextAnswerFails { behindA true with allocAnswers := [none] } 32768 [] :=
  ⟨by decide +kernel, by decide +kernel, by unfold NoWindowTakes PassedOver LowestDead NextAnswer; decide +kernel,
    by unfold NoWindowTakes PassedOver; decide +kernel, by decide +kernel, .inl rfl⟩

/-- R367: a slab region moves inside its window, or to a new one. -/
theorem test_slab_realloc_small :
    [behindA false, behindA true].map (fun s =>
      let t := after { s with mem := s.mem.write 0x10010 0xAB } 0x32000100
      (t.res0, bytes t t.res0.toNat 1, bytes t 0x1000C 1, (t.slot 0).free, (t.slot 0).resume)) =
    [(0x100B0, [0xAB], [1], 2032, 0), (0x20010, [0xAB], [1], 2046, 0)] := by decide +kernel

theorem witness_SlabWinfoResult :
    (slabStart 32).arg0.toNat ≥ (slabStart 32).params.nwMax ∧
    ((slabStart 31).arg0.toNat < (slabStart 31).params.nwMax ∧ ((slabStart 31).slot 31).live = false) ∧
    ((fromWindow 0).arg0.toNat < (fromWindow 0).params.nwMax ∧ ((fromWindow 0).slot 0).live = true ∧
      (fromWindow 0).slabTainted = false) := by
  decide +kernel

theorem witness_SumsResetResult :
    State.reset.params.Legal ∧
    (let s := { State.reset with arg0 := 16384, winCount := 16384 }
     s.arg0.toNat ≤ s.winCount.toNat ∧ s.arg0.toNat ≤ s.params.elemMax) ∧
    (let s := { State.reset with arg0 := 16385, winCount := 16385 }
     s.arg0.toNat > s.winCount.toNat ∨ s.arg0.toNat > s.params.elemMax) := by decide

/-- A window of three originals whose sum buffers hold 16 bytes each, the sums reset at 0. -/
def twSmall (a : Word) : State := { twSums 3 a with sumStride := 16 }

theorem witness_SumsGetFolds :
    SumsTrusted (twSmall 3) ∧ OriginalsFit (twSmall 3) ∧ SumsApart (twSmall 3) ∧ (2#2 : BitVec 2).toNat < 3 ∧
    (twSmall 3).sumsValid = true ∧ (twSmall 3).arg0.toNat ≤ (twSmall 3).winCount.toNat ∧
    (twSmall 3).winCount.toNat ≤ 2 ^ 30 ∧ ((twSmall 3).sum 2 2).se.toInt ≤ (twSmall 3).arg0.toNat ∧
    0 ≤ ((twSmall 3).sum 2 2).ne.toInt ∧ ((twSmall 3).sum 2 2).sl.toNat ≤ (twSmall 3).sumStride.toNat := by
  unfold SumsTrusted TableTrusted OriginalsFit SumsApart
  decide +kernel

/-- The first original to fold: longer than its sum buffer, or past the end of the data space. -/
def twStuck (wraps : Bool) : State :=
  if wraps then { twSmall 1 with mem := Memory.writeList [] 0x1000 (leBytes 8 0xFFFFFFFFFFFFFFFF ++ leBytes 4 2) }
  else { twSmall 1 with mem := Memory.writeList [] 0x1000 (leBytes 8 0x2000 ++ leBytes 4 17) }

theorem witness_SumsGetStops :
    (tw 0).sumsValid = false ∧ ((twSums 3 4).sumsValid = true ∧ (twSums 3 4).arg0.toNat > (twSums 3 4).winCount.toNat) ∧
    (let s := { twSums 3 3 with sumBase := 0xFFFFFFFFFFFFFFF0 }
     s.sumBase.toNat + 24 * s.sumStride.toNat > 2 ^ 64) ∧
    ∀ w : Bool,
      let s := twStuck w
      (s.arg0.toNat ≤ s.winCount.toNat ∧ (s.sum 0 0).se.toInt ≤ s.arg0.toNat ∧
        ¬ s.sumBase.toNat + 24 * s.sumStride.toNat > 2 ^ 64 ∧ 0 ≤ (s.sum 0 0).ne.toInt ∧
        (s.sum 0 0).ne.toInt < s.arg0.toNat ∧ s.winCount.toNat ≤ 2 ^ 30 ∧ SumsTrusted s ∧ SumsApart s) ∧
      (if w then 0 < (descAt s (s.sum 0 0).ne.toInt).2 ∧ (descAt s (s.sum 0 0).ne.toInt).2 ≤ s.sumStride.toNat ∧
          (descAt s (s.sum 0 0).ne.toInt).1 + (descAt s (s.sum 0 0).ne.toInt).2 > 2 ^ 64
        else (descAt s (s.sum 0 0).ne.toInt).2 > s.sumStride.toNat) := by
  unfold SumsTrusted TableTrusted SumsApart
  decide +kernel

theorem witness_SumsGetStops_end :
    let s := (twSums 3 1).setSum 0 0 { ne := 8, sl := 0, se := 2 }
    s.sumsValid = true ∧ (s.arg0.toNat : Int) < (s.sum 0 0).se.toInt := by decide +kernel

theorem witness_WinShiftResult :
    (let s := { tw 0 with winFirstElem := 1 }
     s.winFirstElem.toNat > s.winCount.toNat) ∧
    (let s := { tw 0 with winFirstElem := 8, winCount := 8, arg0 := 16 }
     s.winFirstElem.toNat ≤ s.winCount.toNat ∧ s.arg0.toNat > s.winFirstElem.toNat) ∧
    (let s := { tw 0 with winFirstElem := 8, winCount := 8, arg0 := 8 }
     s.winFirstElem.toNat ≤ s.winCount.toNat ∧ s.arg0.toNat % 8 = 0 ∧ s.arg0.toNat ≤ s.winFirstElem.toNat ∧
      s.sumsValid = false) ∧
    (let s := sumsResetTo { tw 0 with winFirstElem := 8, winCount := 8, arg0 := 8 } 8
     s.arg0.toNat ≤ s.winFirstElem.toNat ∧ s.sumsValid = true ∧ s.sumBase.toNat + 24 * s.sumStride.toNat ≤ 2 ^ 64 ∧
      s.winCount.toNat ≤ 2 ^ 30 ∧ -2 ^ 30 ≤ s.sumStartElem.toInt ∧ s.mem.wf = true ∧ SumsTrusted s ∧
      ∀ l, l < 8 → ∀ k, k < 3 → s.winCount.toNat ≤ (s.sum l k).ne.toInt) ∧
    (let s := sumsResetTo { tw 0 with sumBase := 0xFFFFFFFFFFFFFFF0 } 0
     s.sumsValid = true ∧ s.sumBase.toNat + 24 * s.sumStride.toNat > 2 ^ 64) := by
  unfold SumsTrusted TableTrusted
  decide +kernel

/-- R120, R601: the host can reclaim a large allocation that a reset has made the block forget, and no other. -/
theorem test_reclaim :
    let s := after (slabStart 8161) 0x30000000
    s.largeLive = [(0x10000, 8192)] ∧ (reclaimRegion s 0x10000).largeLive = [(0x10000, 8192)] ∧
    (reclaimRegion s.resetBlock 0x10000).largeLive = [] := by decide +kernel

/-- The test window TW of 9 elements with sum buffers of 16 bytes, its first 8 elements to be evicted. -/
def twEvict : State := { twSums 9 8 with sumStride := 16, winFirstElem := 8 }

theorem witness_WinShiftFolds :
    SumsTrusted twEvict ∧ rewrittenEarly twEvict twEvict.arg0.toNat = false ∧ OriginalsFit twEvict ∧
    SumsApart twEvict ∧ SumsInBuffers twEvict ∧ twEvict.sumsValid = true ∧
    twEvict.winFirstElem.toNat ≤ twEvict.winCount.toNat ∧ twEvict.arg0.toNat % 8 = 0 ∧
    twEvict.arg0.toNat ≤ twEvict.winFirstElem.toNat ∧ twEvict.winCount.toNat ≤ 2 ^ 30 ∧
    -2 ^ 30 ≤ twEvict.sumStartElem.toInt := by
  unfold SumsTrusted TableTrusted OriginalsFit SumsApart SumsInBuffers
  decide +kernel

theorem witness_WinShiftFrame :
    let s := { tw 0 with winFirstElem := 8, winCount := 8, arg0 := 8 }
    s.mem.wf = true ∧ ∃ t, exec .winShift s = .next t ∧ t.result = 0x00#8 :=
  ⟨by decide +kernel, _, exec_eq _ _, by decide +kernel⟩

/-- R622: after a WIN_SHIFT the block tells a table that the host has rewritten from one that it has not. -/
theorem test_table_rewrite :
    let t := after { tw 9 with winFirstElem := 8, arg0 := 8 } 0x42000000
    (recheckTable t).tableTainted = true ∧
    (recheckTable { t with mem := t.mem.writeList 0x1000 (leBytes 8 0x2800 ++ leBytes 4 4) }).tableTainted = false := by
  decide +kernel

/-- The state after the host has stored a descriptor. -/
def storeDesc (s : State) (e addr n : Nat) : State :=
  match step { s with inbox := [.memStore (BitVec.ofNat 64 (0x1000 + 16 * e)) (leBytes 8 addr ++ leBytes 4 n)] } with
  | .next t => t
  | _ => s

/-- R622: a table rewritten before its WIN_SHIFT, by the host's stores or by GF_MUL_MEM, is told from one in which the host has
given an element another original or has emptied descriptors. -/
theorem test_table_early :
    let s := { tw 9 with winFirstElem := 8, arg0 := 8 }
    let shifted := fun (t : State) => (after { t with arg0 := 8 } 0x42000000).tableTainted
    shifted (storeDesc s 0 0x2800 4) = true ∧
    shifted (after { s with arg0 := 0x1000, arg1 := 0x1080, arg2 := 16 } 0x12010000) = true ∧
    shifted (storeDesc s 0 0x2000 4) = false ∧ shifted (storeDesc s 0 0x2200 4) = false ∧
    shifted (storeDesc (storeDesc s 0 0x2000 0) 8 0x2800 0) = false := by decide +kernel

/-- R622: an early rewrite is seen across a WIN_SHIFT by 0; a buffer of the element's own with the bytes of the higher original is
none. -/
theorem test_table_early_kept :
    let s := { tw 9 with winFirstElem := 8 }
    let shifted := fun (d : Word) (t : State) => after { t with arg0 := d } 0x42000000
    (shifted 8 (shifted 0 (storeDesc s 0 0x2800 4))).tableTainted = true ∧
    (let t := { s with mem := s.mem.writeList 0x6000 (bytesAt s.mem 0x2800 4) }
     bytesAt t.mem 0x6000 4 = bytesAt t.mem 0x2800 4 ∧ (shifted 8 (storeDesc t 0 0x6000 4)).tableTainted = false) := by
  decide +kernel

/-- R622: a descriptor that the host empties after it has rewritten it leaves the table as the host may have it. -/
theorem test_table_emptied :
    let t := after { tw 9 with winFirstElem := 8, arg0 := 8 } 0x42000000
    (recheckTable (storeDesc (storeDesc t 0 0x2800 4) 0 0x2800 0)).tableTainted = false ∧
    (recheckTable (storeDesc t 0 0x2000 3)).tableTainted = true := by decide +kernel

/-- R423: a fold that meets too long an original leaves what the sum held before. -/
theorem test_sum_overflow :
    let s := (twSums 10 10).setSum 1 0 { ne := 9, sl := 3, se := 2 }
    let t := after { s with
      mem := (s.mem.writeList 0x8300 [0x11, 0x12, 0x13]).writeList 0x1098 (leBytes 4 0x101) } 0x41000100
    t.error = ErrorBit.sumOverflow.mask ∧ t.disabled = true ∧ bytes t 0x8300 3 = [0x11, 0x12, 0x13] ∧
    (t.sum 1 0).ne = 9 := by decide +kernel

theorem witness_CauchyElemResult :
    State.reset.params.Legal ∧ FieldOk State.reset.params ∧ (63#8 : Byte).toNat < State.reset.params.maxCauchyRows ∧
    (191#8 : Byte).toNat < State.reset.params.maxCauchyCols ∧ (64#8 : Byte).toNat ≥ State.reset.params.maxCauchyRows ∧
    (192#8 : Byte).toNat ≥ State.reset.params.maxCauchyCols :=
  ⟨by decide, fieldOk_default, by decide⟩

theorem witness_RowEncodeChecks :
    State.reset.params.Legal ∧
    (let s := { State.reset with winFirstElem := 1 }
     s.winFirstElem.toNat > s.winCount.toNat) ∧
    (let s := { State.reset with winCount := 16385 }
     s.winCount.toNat > s.params.elemMax) ∧
    (State.reset.winFirstElem.toNat ≤ State.reset.winCount.toNat ∧
      State.reset.winCount.toNat - State.reset.winFirstElem.toNat = 0) ∧
    (let s := { tw 0 with winCount := 2, winLongest := 0x40000001 }
     2 ≤ s.winCount.toNat - s.winFirstElem.toNat ∧ s.winLongest.toNat > 2 ^ 30) ∧
    (let s := { tw 0 with winCount := 2, recCap := 11 }
     s.winCount.toNat ≤ s.params.cauchyThreshold ∧ s.recCap.toNat < s.winLongest.toNat + 8) ∧
    (let s := { tw 0 with winCount := 65, recCap := 39 }
     s.winCount.toNat > s.params.cauchyThreshold ∧ s.recCap.toNat < 2 * align16 s.winLongest.toNat + 8) ∧
    (let s := { tw 0 with winCount := 65, recCap := 40, recBase := 0xFFFFFFFFFFFFFFE0 }
     s.recBase.toNat + (2 * align16 s.winLongest.toNat + 8) > 2 ^ 64) ∧
    (let s := { tw 0 with winCount := 65, recCap := 40, sumBase := 0xFFFFFFFFFFFFE810 }
     s.sumBase.toNat + 24 * s.sumStride.toNat > 2 ^ 64) := by decide +kernel

theorem witness_RowSingle :
    WindowHolds (tw 1) 1 ∧ TableTrusted (tw 1) ∧ Ordinary (tw 1) (descAddr (tw 1) (tw 1).winFirstElem.toNat) 12 ∧
    (descAt (tw 1) (tw 1).winFirstElem.toNat).1 + (descAt (tw 1) (tw 1).winFirstElem.toNat).2 ≤ 2 ^ 64 := by
  refine ⟨by unfold WindowHolds; decide +kernel, by unfold TableTrusted; decide +kernel, ordinary_of_no_ranges rfl _ _,
    by decide +kernel⟩

theorem witness_RowSingle_wraps :
    let s := { tw 1 with mem := Memory.writeList [] 0x1000 (leBytes 8 0xFFFFFFFFFFFFFFFF ++ leBytes 4 2) }
    WindowHolds s 1 ∧ (descAt s s.winFirstElem.toNat).1 + (descAt s s.winFirstElem.toNat).2 > 2 ^ 64 := by
  unfold WindowHolds
  decide +kernel

/-- A window of CAUCHY_THRESHOLD elements, a parity row due or not. -/
def twCauchy (scheduled : Bool) : State :=
  { tw 2 with params := { Params.default with cauchyThreshold := 2 }, npcValid := scheduled, nextParityColumn := 2 }

theorem witness_RowCauchyRegime :
    ∀ scheduled : Bool,
      let s := twCauchy scheduled
      (WindowHolds s 2 ∧ WindowReadable s ∧ s.params.Legal ∧ 2 ≤ s.params.cauchyThreshold ∧
        s.winLongest.toNat ≤ 2 ^ 30 ∧ ScratchApart s s.winLongest.toNat) ∧
      ((s.npcValid = false ∨ ((s.winColumnStart.toNat + s.winFirstElem.toNat) % 2 ^ 22 + 2 ^ 22 -
        s.nextParityColumn.toNat) % 2 ^ 22 ≤ 2 ^ 21) ↔ scheduled = false) := by
  unfold WindowHolds WindowReadable TableTrusted ScratchApart
  decide +kernel

/-- The Siamese test configuration TC-S with sum buffers of 16 bytes, the sums valid or not. -/
def twSiamese (valid : Bool) : State :=
  { twSmall 0 with
    params := { Params.default with cauchyThreshold := 2, pairAddRate := 2, rowPeriod := 4 }
    sumsValid := valid }

theorem witness_RowSiamese :
    ∀ valid : Bool,
      let s := twSiamese valid
      (WindowHolds s 3 ∧ SumsTrusted s ∧ OriginalsFit s ∧ SumsApart s ∧ s.params.Legal ∧ s.params.cauchyThreshold < 3 ∧
        s.winLongest.toNat ≤ 2 ^ 30 ∧ ScratchApart s (2 * align16 s.winLongest.toNat)) ∧
      (s.sumsValid = false ∨ (s.winCount.toNat : Int) - s.sumStartElem.toInt ≤ 0 ∨
        (s.winCount.toNat : Int) - s.sumStartElem.toInt > s.params.sumResetThreshold ∨
        ∃ l, l < 8 ∧ ∃ k, k < 3 ∧ (s.winCount.toNat : Int) < (s.sum l k).se.toInt) = (valid = false) ∧
      SumsInBuffers s := by
  intro valid
  refine ⟨?_, ?_, ?_⟩
  · unfold WindowHolds SumsTrusted TableTrusted OriginalsFit SumsApart ScratchApart
    revert valid
    decide +kernel
  · revert valid
    simp only [eq_iff_iff]
    decide +kernel
  · unfold SumsInBuffers
    revert valid
    decide +kernel

/-- The window of three, after the host has lowered WIN_COUNT to it from below the SE of a sum. -/
def twLowered : State :=
  let s := (twSiamese true).setSum 0 0 { ne := 8, sl := 0, se := 6 }
  match step { s with winCount := 6, inbox := [.csrStore (s.params.csrBase + 0x090) 8 3] } with
  | .next t => t
  | _ => s

/-- R493's fourth condition in a state that the host's own store leads to, which taints the old sums (R625). -/
theorem witness_RowSiamese_lowered :
    (WindowHolds twLowered 3 ∧ twLowered.mem.wf = true ∧ twLowered.port = [] ∧ TableTrusted twLowered ∧
      OriginalsFit twLowered ∧ SumsApart twLowered ∧ twLowered.params.Legal ∧ twLowered.params.cauchyThreshold < 3 ∧
      twLowered.winLongest.toNat ≤ 2 ^ 30 ∧ ScratchApart twLowered (2 * align16 twLowered.winLongest.toNat)) ∧
    twLowered.sumsValid = true ∧ (twLowered.winCount.toNat : Int) < (twLowered.sum 0 0).se.toInt ∧
    twLowered.sumsTainted = true := by
  unfold WindowHolds TableTrusted OriginalsFit SumsApart ScratchApart
  decide +kernel

/-- The reset counters that R493 starts stale sums with. -/
theorem witness_RowSiamese_stale :
    let s := twSiamese false
    ∀ l, l < 8 → ∀ k, k < 3 → (resetCtr s.winFirstElem.toNat l).sl = 0 ∧
      (resetCtr s.winFirstElem.toNat l).se = s.winFirstElem ∧
      (resetCtr s.winFirstElem.toNat l).ne.toInt = s.winFirstElem.toNat + ((l : Int) - s.winFirstElem.toNat) % 8 := by
  decide +kernel

theorem witness_BusErrors_slab :
    (let s := { slabStart 8161 with port := [⟨0x1000F, 1, .writeError⟩] }
     s.params.Legal ∧ s.mem.wf = true ∧ 512 ≤ unitsFor s.params 8161 ∧
      NextAnswer s (unitsFor s.params 8161 * s.params.unit) 0x10000 [some 0x20000] ∧
      portHits s.port ((0x10000 + 15) % 2 ^ 64) [.writeError, .anyError] = true) ∧
    (let s := { freeA with port := [⟨0x1000C, 1, .readError⟩] }
     s.mem.wf = true ∧ s.arg0 ≠ 0 ∧ s.arg0.toNat % s.params.unit = 0 ∧ s.arg0.toNat = 0x10000 + s.params.unit ∧
      portHits s.port ((0x10000 + 12) % 2 ^ 64) [.readError, .anyError] = true) := by
  unfold NextAnswer
  decide +kernel

theorem witness_BusErrors_sums :
    let s := { twSmall 3 with port := [⟨0x1000, 1, .readError⟩] }
    s.params.Legal ∧ s.mem.wf = true ∧ s.sumsValid = true ∧ s.arg0.toNat ≤ s.winCount.toNat ∧
    (s.sum 0 0).se.toInt ≤ s.arg0.toNat ∧ (s.sum 0 0).ne.toInt < s.arg0.toNat ∧
    s.sumBase.toNat + 24 * s.sumStride.toNat ≤ 2 ^ 64 ∧
    portHits s.port ((descAddr s (s.sum 0 0).ne.toInt + 0) % 2 ^ 64) [.readError, .anyError] = true := by decide +kernel

theorem witness_BusErrors_rows :
    (let s := { tw 1 with port := [⟨0x100B, 1, .anyError⟩] }
     WindowHolds s 1 ∧
      portHits s.port ((descAddr s s.winFirstElem.toNat + 11) % 2 ^ 64) [.readError, .anyError] = true) ∧
    (let s := { twCauchy true with port := [⟨0xC003, 1, .writeError⟩, ⟨0x101B, 1, .readError⟩] }
     WindowHolds s 2 ∧ 2 ≤ s.params.cauchyThreshold ∧ s.params.Legal ∧ s.mem.wf = true ∧
      s.winLongest.toNat ≤ 2 ^ 30 ∧ s.winLongest.toNat + 8 ≤ s.recCap.toNat ∧
      s.recBase.toNat + s.winLongest.toNat + 8 ≤ 2 ^ 64 ∧
      portHits s.port ((s.recBase.toNat + 3) % 2 ^ 64) [.writeError, .anyError] = true ∧
      portHits s.port ((descAddr s 1 + 11) % 2 ^ 64) [.readError, .anyError] = true) := by
  unfold WindowHolds
  decide +kernel

end Sys2Proof.Tests
end

section
/-! SUPPORT. Adding originals of the window into the row's scratch over plain memory, and the rows of R492. -/

namespace Sys2Proof.Machine

/-! ## Reading memory after a byte loop -/

/-- Outside the written range a byte loop leaves every byte. -/
theorem Rewritten.read_outside {m m' : Memory} {dst n a : Nat} {value : Nat → Byte} (h : Rewritten m m' dst n value)
    (ha : ¬ (dst ≤ a ∧ a < dst + n)) : m'.read a = m.read a := by rw [h.2, if_neg ha]

theorem Rewritten.read_inside {m m' : Memory} {dst n i : Nat} {value : Nat → Byte} (h : Rewritten m m' dst n value)
    (hi : i < n) : m'.read (dst + i) = value i := by
  rw [h.2, if_pos (by omega), Nat.add_sub_cancel_left]

/-- A memory is itself with any range read back. -/
theorem Rewritten.refl {m : Memory} {dst n : Nat} (hm : m.wf = true) : Rewritten m m dst n (fun i => m.read (dst + i)) := by
  refine ⟨hm, fun a => ?_⟩
  by_cases ha : dst ≤ a ∧ a < dst + n
  · simp [ha, Nat.add_sub_cancel' ha.1]
  · rw [if_neg ha]

/-- A second loop over the same range, whose values may depend on what the first one wrote. -/
theorem Rewritten.trans {m m' m'' : Memory} {dst n : Nat} {f g h : Nat → Byte} (h1 : Rewritten m m' dst n f)
    (h2 : Rewritten m' m'' dst n g) (hg : ∀ i, i < n → g i = h i) : Rewritten m m'' dst n h := by
  refine ⟨h2.1, fun a => ?_⟩
  rw [h2.2]
  by_cases ha : dst ≤ a ∧ a < dst + n
  · rw [if_pos ha, if_pos ha, hg _ (by omega)]
  · rw [if_neg ha, if_neg ha, h1.read_outside ha]

/-- A loop over the first `k` bytes of a range, seen as one over the whole range that keeps the rest. -/
theorem Rewritten.widen {m m' : Memory} {dst k n : Nat} {f g : Nat → Byte} (h : Rewritten m m' dst k f) (hk : k ≤ n)
    (hf : ∀ i, i < k → g i = f i) (hm : ∀ i, k ≤ i → i < n → g i = m.read (dst + i)) :
    Rewritten m m' dst n g := by
  refine ⟨h.1, fun a => ?_⟩
  rw [h.2]
  by_cases hk' : dst ≤ a ∧ a < dst + k
  · rw [if_pos hk', if_pos (by omega), hf _ (by omega)]
  · rw [if_neg hk']
    by_cases hn : dst ≤ a ∧ a < dst + n
    · rw [if_pos hn, hm _ (by omega) (by omega), Nat.add_sub_cancel' hn.1]
    · rw [if_neg hn]

/-- Two memories with the same `n` bytes hold the same number there. -/
theorem leAt_congr {m m' : Memory} {a n : Nat}
    (h : ∀ i, i < n → m'.read ((a + i) % Config.addrSpace) = m.read ((a + i) % Config.addrSpace)) :
    leAt m' a n = leAt m a n := by
  induction n generalizing a with
  | zero => rfl
  | succ n ih =>
    have h0 : m'.read (a % Config.addrSpace) = m.read (a % Config.addrSpace) := h 0 (by omega)
    rw [leAt, leAt, h0, ih fun i hi => by rw [Nat.add_assoc, Nat.add_comm 1 i]; exact h (i + 1) (by omega)]

/-! ## Runs over plain memory -/

/-- Every byte of the data space is ordinary memory and closed for the run, and the host has kept the table. -/
structure PlainRun (r : Run) : Prop where
  quiet : Quiet r
  wf : r.st.mem.wf = true
  kept : r.st.tableTainted = false
  closed : ∀ a, a < Config.addrSpace → PlainAt r.st.port a ∧ r.area a = false

/-- Such a run stays one when only memory changes. -/
theorem PlainRun.step {r r' : Run} {m : Memory} (p : PlainRun r) (h : MemStep r r' m) (hm : m.wf = true) :
    PlainRun r' where
  quiet := h.quiet p.quiet
  wf := by rw [h.mem]; exact hm
  kept := by rw [h.st]; exact p.kept
  closed := by rw [h.port, h.area]; exact p.closed

theorem PlainRun.closed_range {r : Run} {a n : Nat} (p : PlainRun r) (h : a + n ≤ Config.addrSpace) : Closed r a n :=
  fun i hi => p.closed (a + i) (by omega)

/-! ## Elements apart from the scratch -/

/-- The original of element `e` ends inside the data space, and neither it nor the descriptor shares a byte with the `n` bytes
from `dst`. -/
structure ElementApart (s : State) (dst n : Nat) (e : Int) : Prop where
  descriptor : ∀ i, i < 12 →
    ¬ (dst ≤ (descAddr s e + i) % Config.addrSpace ∧ (descAddr s e + i) % Config.addrSpace < dst + n)
  ends : (descAt s e).1 + (descAt s e).2 ≤ Config.addrSpace
  original : ∀ i, i < (descAt s e).2 → ¬ (dst ≤ (descAt s e).1 + i ∧ (descAt s e).1 + i < dst + n)

section Rewriting

variable {r r' : Run} {m : Memory} {dst n : Nat} {value : Nat → Byte} {e : Int}

/-- Writing apart from an element's descriptor leaves what it describes. -/
theorem ElementApart.descAt_step (h : ElementApart r.st dst n e) (hs : MemStep r r' m)
    (hm : Rewritten r.st.mem m dst n value) : descAt r'.st e = descAt r.st e := by
  have haddr : leAt m (descAddr r.st e) 8 = leAt r.st.mem (descAddr r.st e) 8 :=
    leAt_congr fun i hi => hm.read_outside (h.descriptor i (by omega))
  have hlen : leAt m (descAddr r.st e + 8) 4 = leAt r.st.mem (descAddr r.st e + 8) 4 :=
    leAt_congr fun i hi => by
      rw [Nat.add_assoc]
      exact hm.read_outside (h.descriptor (8 + i) (by omega))
  rw [hs.st]
  exact Prod.ext haddr hlen

/-- It leaves the bytes of the original as well. -/
theorem ElementApart.read_original {b : Nat} (h : ElementApart r.st dst n e) (hm : Rewritten r.st.mem m dst n value)
    (hb : b < (descAt r.st e).2) : m.read ((descAt r.st e).1 + b) = r.st.mem.read ((descAt r.st e).1 + b) :=
  hm.read_outside (h.original b hb)

/-- An element apart from the scratch stays so when the scratch is written. -/
theorem ElementApart.step (h : ElementApart r.st dst n e) (hs : MemStep r r' m) (hm : Rewritten r.st.mem m dst n value) :
    ElementApart r'.st dst n e where
  descriptor := by rw [hs.st]; exact h.descriptor
  ends := by rw [h.descAt_step hs hm]; exact h.ends
  original := by rw [h.descAt_step hs hm]; exact h.original

/-- The sum over elements apart from the scratch is the same when the scratch is written. -/
theorem windowByte_step {g : Nat → Byte → Byte} {b k e : Nat} (hs : MemStep r r' m)
    (hm : Rewritten r.st.mem m dst n value) (h : ∀ j, j < k → ElementApart r.st dst n ((e + j : Nat) : Int)) :
    windowByte r'.st g b k e = windowByte r.st g b k e := by
  induction k generalizing e with
  | zero => rfl
  | succ k ih =>
    have he : ElementApart r.st dst n (e : Int) := h 0 (by omega)
    have hrest : windowByte r'.st g b k (e + 1) = windowByte r.st g b k (e + 1) :=
      ih fun j hj => by rw [Nat.add_assoc, Nat.add_comm 1 j]; exact h (j + 1) (by omega)
    rw [windowByte, windowByte, hrest, he.descAt_step hs hm, hs.mem]
    by_cases hb : b < (descAt r.st e).2
    · rw [if_pos hb, if_pos hb, he.read_original hm hb]
    · rw [if_neg hb, if_neg hb]

end Rewriting

/-! ## Adding originals into the scratch (spec R483, R492) -/

/-- A row's descriptor whose original ends inside the data space (spec R424). -/
theorem rowDesc_step {r : Run} {e : Nat} (p : PlainRun r) (he : (descAt r.st e).1 + (descAt r.st e).2 ≤ Config.addrSpace) :
    ∃ r', rowDesc e r = .ok { addr := (descAt r.st e).1, len := (descAt r.st e).2, isOpen := false } r' ∧
      MemStep r r' r.st.mem := by
  obtain ⟨r', hr, hs⟩ := readDesc_step (e := e) p.quiet p.kept fun i _ => p.closed _ (mod_addrSpace_lt _)
  have hw : wraps (descAt r.st e).1 (descAt r.st e).2 = false := decide_eq_false (by omega)
  refine ⟨r', ?_, hs⟩
  rw [rowDesc, bind_run_ok hr, hw, bind_run_ok (fatalIf_false _ _)]
  rfl

/-- The bytes of an original and those of the scratch that it is added to do not overlap (spec R221). -/
theorem ElementApart.no_overlap {s : State} {dst n k : Nat} {e : Int} (h : ElementApart s dst n e)
    (hk : k ≤ min (descAt s e).2 n) :
    dst = (descAt s e).1 ∨ (descAt s e).1 + k ≤ dst ∨ dst + k ≤ (descAt s e).1 := by
  by_contra hov
  rcases Nat.le_total (descAt s e).1 dst with hle | hle
  · exact h.original (dst - (descAt s e).1) (by omega) (by omega)
  · exact h.original 0 (by omega) (by omega)

/-- Adding `f` of element `e`'s original to the scratch: the bytes past the original stay. -/
theorem addOriginal_rewrites {r : Run} {dst lp e : Nat} {f : Byte → Byte} (p : PlainRun r)
    (hd : dst + lp ≤ Config.addrSpace) (ha : ElementApart r.st dst lp e) :
    ∃ r' m', addOriginal dst lp e f r = .ok () r' ∧ MemStep r r' m' ∧
      Rewritten r.st.mem m' dst lp (fun b => r.st.mem.read (dst + b) ^^^
        if b < (descAt r.st e).2 then f (r.st.mem.read ((descAt r.st e).1 + b)) else 0) := by
  have hends := ha.ends
  obtain ⟨r1, hr1, hs1⟩ := rowDesc_step p hends
  have p1 : PlainRun r1 := p.step hs1 p.wf
  obtain ⟨r2, m2, hr2, hs2, hm2⟩ := accumulate_rewrites (f := f) p1.quiet p1.wf (by omega) (by omega)
    (ha.no_overlap le_rfl) (p1.closed_range (by omega)) (p1.closed_range (by omega))
  rw [hs1.mem] at hm2
  refine ⟨r2, m2, ?_, by simpa using hs1.trans hs2, hm2.widen (Nat.min_le_right _ _) (fun i hi => ?_) (fun i hi hn => ?_)⟩
  · rw [addOriginal, bind_run_ok hr1, bind_run_ok hr2]
    rfl
  · rw [if_pos (by omega)]
  · simp [show ¬ i < (descAt r.st e).2 by omega]

/-- Adding `g e` of the originals of `n` elements in a row to the scratch (spec R492). -/
def addOriginals (dst lp first : Nat) (g : Nat → Byte → Byte) (n i : Nat) : Cmd Unit :=
  forRange (fun i => addOriginal dst lp (first + i) (g (first + i))) n i

theorem parityData_eq (dst lp first n : Nat) : parityData dst lp first n = addOriginals dst lp first (fun _ x => x) n 0 := rfl

theorem cauchyData_eq (s : State) (dst lp first n r : Nat) :
    cauchyData s dst lp first n r =
      addOriginals dst lp first (fun e => gfMul s.params (cauchyElement s.params r (cauchyColumn s e))) n 0 := rfl

/-- The loop adds to each byte of the scratch the sum over the elements, as memory held them before it: it changes neither a
descriptor nor an original. -/
theorem addOriginals_rewrites {dst lp first n i : Nat} {g : Nat → Byte → Byte} {r : Run} (p : PlainRun r)
    (hd : dst + lp ≤ Config.addrSpace) (ha : ∀ j, j < n → ElementApart r.st dst lp ((first + i + j : Nat) : Int)) :
    ∃ r' m', addOriginals dst lp first g n i r = .ok () r' ∧ MemStep r r' m' ∧
      Rewritten r.st.mem m' dst lp (fun b => r.st.mem.read (dst + b) ^^^ windowByte r.st g b n (first + i)) := by
  induction n generalizing i r with
  | zero =>
    have hsame := Rewritten.refl (dst := dst) (n := lp) p.wf
    exact ⟨r, r.st.mem, rfl, MemStep.refl r, hsame.trans hsame fun b _ => by simp [windowByte]⟩
  | succ n ih =>
    have he : ElementApart r.st dst lp ((first + i : Nat) : Int) := ha 0 (by omega)
    have hrest : ∀ j, j < n → ElementApart r.st dst lp ((first + i + 1 + j : Nat) : Int) := fun j hj => by
      rw [Nat.add_assoc _ 1 j, Nat.add_comm 1 j]
      exact ha (j + 1) (by omega)
    obtain ⟨r1, m1, hr1, hs1, hm1⟩ := addOriginal_rewrites (f := g (first + i)) p hd he
    obtain ⟨r2, m2, hr2, hs2, hm2⟩ := ih (i := i + 1) (p.step hs1 hm1.1) fun j hj => (hrest j hj).step hs1 hm1
    rw [hs1.mem] at hm2
    refine ⟨r2, m2, ?_, hs1.trans hs2, hm1.trans hm2 fun b hb => ?_⟩
    · rw [addOriginals, forRange_succ]
      exact (bind_run_ok hr1).trans hr2
    · rw [hm1.read_inside hb, ← Nat.add_assoc, windowByte_step hs1 hm1 hrest, windowByte, BitVec.xor_assoc]

/-- Clearing the scratch and adding the originals leaves their sum in it (spec R492). -/
theorem clear_addOriginals {dst lp first n : Nat} {r : Run} (g : Nat → Byte → Byte) (p : PlainRun r)
    (hd : dst + lp ≤ Config.addrSpace) (ha : ∀ j, j < n → ElementApart r.st dst lp ((first + j : Nat) : Int)) :
    ∃ r1 r2 m, memZero dst lp r = .ok () r1 ∧ addOriginals dst lp first g n 0 r1 = .ok () r2 ∧ MemStep r r2 m ∧
      Rewritten r.st.mem m dst lp (fun b => windowByte r.st g b n first) := by
  obtain ⟨r1, m1, hr1, hs1, hm1⟩ := memZero_rewrites p.quiet p.wf hd (p.closed_range hd)
  obtain ⟨r2, m2, hr2, hs2, hm2⟩ := addOriginals_rewrites (g := g) (i := 0) (p.step hs1 hm1.1) hd fun j hj =>
    (ha j hj).step hs1 hm1
  rw [hs1.mem] at hm2
  refine ⟨r1, r2, m2, hr1, hr2, hs1.trans hs2, hm1.trans hm2 fun b hb => ?_⟩
  simp [hm1.read_inside hb, windowByte_step hs1 hm1 ha]

/-! ## Columns and the schedule of parity rows (spec R17, R18, R482, R484) -/

theorem column_toNat (s : State) (e : Nat) : (column s e).toNat = (s.winColumnStart.toNat + e) % 2 ^ 22 := by
  rw [column, ← Nat.cast_add, BitVec.ofInt_natCast, BitVec.toNat_ofNat]

theorem cauchyColumn_eq (s : State) (e : Nat) :
    cauchyColumn s e = (s.winColumnStart.toNat + e) % 2 ^ 22 % s.params.maxCauchyCols := by
  rw [cauchyColumn, column_toNat]

/-- A signed column difference is not negative when it is at most half way round (spec R17). -/
theorem sdelta_nonneg_iff {c n : Nat} (hn : n < 2 ^ 22) :
    0 ≤ sdelta ((c : Int) - n) ↔ (c + 2 ^ 22 - n) % 2 ^ 22 ≤ 2 ^ 21 := by
  have hv : ((c : Int) - n) % (Config.columnSpace : Int) = ((c + 2 ^ 22 - n) % 2 ^ 22 : Nat) := by
    simp only [Config.columnSpace]
    omega
  simp only [sdelta, hv]
  split <;> omega

theorem parityDue_iff (s : State) (cs : Column) :
    parityDue s cs = true ↔
      s.npcValid = false ∨ (cs.toNat + 2 ^ 22 - s.nextParityColumn.toNat) % 2 ^ 22 ≤ 2 ^ 21 := by
  rw [← sdelta_nonneg_iff s.nextParityColumn.isLt]
  simp [parityDue]

/-! ## Structures around the scratch (spec R626) -/

/-- A range inside the data space does not run over its top. -/
theorem inRegion_iff {x : Region} {a : Nat} (hx : x.1 + x.2 ≤ Config.addrSpace) (ha : a < Config.addrSpace) :
    inRegion x a = true ↔ x.1 ≤ a ∧ a < x.1 + x.2 := by
  simp only [inRegion, decide_eq_true_eq, Config.addrSpace] at *
  omega

theorem descAt_mem_originalRegions {s : State} {n e j : Nat} (hj : j < n) :
    descAt s ((e + j : Nat) : Int) ∈ originalRegions s n e := by
  induction n generalizing e j with
  | zero => omega
  | succ n ih =>
    cases j with
    | zero => exact List.mem_cons_self ..
    | succ j =>
      rw [← Nat.add_assoc, Nat.add_right_comm]
      exact List.mem_cons_of_mem _ (ih (by omega))

/-- No byte of the scratch lies in a structure around it that ends inside the data space. -/
theorem ScratchApart.outside {s : State} {n a : Nat} {x : Region} (h : ScratchApart s n) (hx : x ∈ aroundScratch s)
    (hend : x.1 + x.2 ≤ Config.addrSpace) (ha : x.1 ≤ a ∧ a < x.1 + x.2) :
    ¬ (s.recBase.toNat ≤ a ∧ a < s.recBase.toNat + n) := by
  obtain ⟨-, hroom, hfree⟩ := h
  intro hin
  have hb := hfree (a - s.recBase.toNat) (by omega)
  rw [Nat.add_sub_cancel' hin.1, inRegions, List.any_eq_false] at hb
  exact hb x hx ((inRegion_iff hend (by omega)).2 ha)

theorem descAddr_eq {s : State} {e : Nat} (h : s.descBase.toNat + 16 * e < Config.addrSpace) :
    descAddr s e = s.descBase.toNat + 16 * e := by
  simp only [descAddr, Config.addrSpace] at *
  omega

/-- The scratch of a readable window shares no byte with an element's descriptor or original. -/
theorem ScratchApart.element {s : State} {n e : Nat} (h : ScratchApart s n) (hw : WindowReadable s)
    (hfirst : s.winFirstElem.toNat ≤ e) (hcount : e < s.winCount.toNat) : ElementApart s s.recBase.toNat n e := by
  obtain ⟨-, -, -, htable, horiginals⟩ := hw
  have hends : (descAt s e).1 + (descAt s e).2 ≤ Config.addrSpace := horiginals e hcount hfirst
  have hbound : s.descBase.toNat + 16 * e + 12 < Config.addrSpace := by
    simp only [Config.addrSpace]
    omega
  have haddr : descAddr s e = s.descBase.toNat + 16 * e := descAddr_eq (by omega)
  have hmem : descAt s e ∈ aroundScratch s := by
    have := descAt_mem_originalRegions (s := s) (e := 0) hcount
    rw [Nat.zero_add] at this
    simp [aroundScratch, this]
  refine ⟨fun i hi => ?_, hends, fun i hi => h.outside hmem hends ⟨by omega, by omega⟩⟩
  rw [haddr, Nat.mod_eq_of_lt (by omega)]
  exact h.outside (x := descRegion s) (List.mem_cons_self ..) htable
    ⟨by simp only [descRegion]; omega, by simp only [descRegion]; omega⟩

/-! ## The row's run up to its sum -/

/-- A table that the host has kept is only noted as checked (spec R622). -/
theorem recheckTable_of_trusted {s : State} (h : TableTrusted s) : recheckTable s = { s with pending := [] } := by
  obtain ⟨-, hkept, howed⟩ := h
  have hany : (s.pending.any fun x => decide (x.orig.elem < s.winCount.toNat) && !fulfilled s x) = false := by
    simpa using howed
  simp only [recheckTable, hkept, hany]
  rfl

/-- Checking the table leaves what the descriptors and the originals hold. -/
theorem windowByte_recheckTable (s : State) (g : Nat → Byte → Byte) (b n e : Nat) :
    windowByte (recheckTable s) g b n e = windowByte s g b n e := by
  induction n generalizing e with
  | zero => rfl
  | succ n ih => rw [windowByte, windowByte, ih]; rfl

theorem originalRegions_recheckTable (s : State) (n e : Nat) :
    originalRegions (recheckTable s) n e = originalRegions s n e := by
  induction n generalizing e with
  | zero => rfl
  | succ n ih => rw [originalRegions, originalRegions, ih]; rfl

theorem ScratchApart.recheckTable {s : State} {n : Nat} (h : ScratchApart s n) : ScratchApart (recheckTable s) n := by
  obtain ⟨hcap, hroom, hfree⟩ := h
  refine ⟨hcap, hroom, fun b hb => ?_⟩
  rw [aroundScratch, originalRegions_recheckTable]
  exact hfree b hb

theorem ElementApart.recheckTable {s : State} {dst n : Nat} {e : Int} (h : ElementApart s dst n e) :
    ElementApart (recheckTable s) dst n e := ⟨h.descriptor, h.ends, h.original⟩

/-- A scratch that shares no byte with another structure has no open byte over a table that the host has kept. -/
theorem rowArea_apart {s : State} {n a : Nat} (h : ScratchApart s n) (ha : a < Config.addrSpace) :
    rowArea s false n a = false := by
  obtain ⟨-, hroom, hfree⟩ := h
  rw [rowArea, Bool.false_or, Bool.and_eq_false_iff, or_iff_not_imp_left, Bool.not_eq_false,
    inRegion_iff (by simp only [Config.addrSpace]; omega) ha]
  intro hin
  have hb := hfree (a - s.recBase.toNat) (by omega)
  rwa [Nat.add_sub_cancel' hin.1] at hb

/-- The run of a parity or Cauchy row before its first access (spec R492). -/
def rowRun (s : State) : Run :=
  { Run.start (recheckTable s) with area := rowArea (recheckTable s) (recheckTable s).tableTainted s.winLongest.toNat }

/-- Over a readable window with its scratch apart, such a row's run is over plain memory. -/
theorem rowRun_plain {s : State} (hw : WindowReadable s) (ha : ScratchApart s s.winLongest.toNat) : PlainRun (rowRun s) := by
  obtain ⟨hwf, hport, htable, -, -⟩ := hw
  have hkept : (recheckTable s).tableTainted = false := by
    rw [recheckTable_of_trusted htable]
    exact htable.2.1
  refine ⟨⟨htable.1, rfl⟩, hwf, hkept, fun a hlt => ⟨?_, ?_⟩⟩
  · simp [rowRun, PlainAt, hport]
  · rw [rowRun, hkept]
    exact rowArea_apart ha.recheckTable hlt

/-- The scratch of such a row gets the sum over the window, and nothing else changes but the record of the table. -/
theorem rowRun_sum {s : State} {u : Nat} (g : Nat → Byte → Byte) (hu : WindowHolds s u) (hw : WindowReadable s)
    (ha : ScratchApart s s.winLongest.toNat) :
    ∃ r1 r2 m, memZero s.recBase.toNat s.winLongest.toNat (rowRun s) = .ok () r1 ∧
      addOriginals s.recBase.toNat s.winLongest.toNat s.winFirstElem.toNat g u 0 r1 = .ok () r2 ∧
      r2.st = { s with pending := [], mem := m } ∧
      WritesOnly s.mem m s.recBase.toNat s.winLongest.toNat (fun b => windowByte s g b u s.winFirstElem.toNat) := by
  obtain ⟨hcount, -⟩ := hu
  have hroom : s.recBase.toNat + s.winLongest.toNat ≤ Config.addrSpace := by
    obtain ⟨-, hroom, -⟩ := ha
    simp only [Config.addrSpace]
    omega
  have helements : ∀ j, j < u → ElementApart (rowRun s).st s.recBase.toNat s.winLongest.toNat
      ((s.winFirstElem.toNat + j : Nat) : Int) := fun j hj =>
    (ha.element hw (by omega) (by omega)).recheckTable
  obtain ⟨r1, r2, m, hr1, hr2, hs, hm⟩ := clear_addOriginals g (rowRun_plain hw ha) hroom helements
  obtain ⟨-, -, htable, -, -⟩ := hw
  refine ⟨r1, r2, m, hr1, hr2, ?_, hm.1, fun a => ?_⟩
  · rw [hs.st]
    exact congrArg (fun t : State => { t with mem := m }) (recheckTable_of_trusted htable)
  · rw [hm.2]
    simp only [rowRun, start_st, windowByte_recheckTable, recheckTable_mem]

/-! ## The two rows (spec R489, R492) -/

theorem withScratch_ok {base n : Nat} {body : Cmd Unit} {r r' : Run} (h : body r = .ok () r') :
    withScratch base n body r = .ok () r' := by
  rw [withScratch, h]

/-- With a parity row due, the row is the sum of the originals as they are. -/
theorem cauchyBranch_parity {s : State} {u : Nat} (hu : WindowHolds s u) (hw : WindowReadable s)
    (ha : ScratchApart s s.winLongest.toNat) (hdue : parityDue s (column s s.winFirstElem.toNat) = true) :
    ∃ r m, WritesOnly s.mem m s.recBase.toNat s.winLongest.toNat
        (fun b => windowByte s (fun _ x => x) b u s.winFirstElem.toNat) ∧
      cauchyBranch (Run.start s) = .ok () r ∧
      r.st = rowResult s.recBase.toNat s.winLongest.toNat 1 0 (column s s.winFirstElem.toNat).toNat u u { s with
        mem := m
        pending := []
        nextParityColumn := BitVec.ofNat 22 ((column s s.winFirstElem.toNat).toNat + u)
        npcValid := true } := by
  obtain ⟨r1, r2, m, hr1, hr2, hst, hm⟩ := rowRun_sum (fun _ x => x) hu hw ha
  obtain rfl : u = s.winCount.toNat - s.winFirstElem.toNat := by
    obtain ⟨hcount, -⟩ := hu
    omega
  rw [← parityData_eq] at hr2
  refine ⟨_, m, hm, (bind_run_ok (modifyState_run _ _)).trans <| (bind_run_ok (getState_run _)).trans <|
    (bind_run_ok (setArea_run _ _)).trans <| withScratch_ok <| (bind_run_ok hr1).trans <|
    (congrFun (if_pos hdue) r1).trans <| (bind_run_ok hr2).trans rfl, ?_⟩
  simp only [hst]
  rfl

/-- Else the row is the sum of the originals times the row's Cauchy elements, and the row counter goes on. -/
theorem cauchyBranch_cauchy {s : State} {u : Nat} (hu : WindowHolds s u) (hw : WindowReadable s)
    (ha : ScratchApart s s.winLongest.toNat) (hdue : ¬ parityDue s (column s s.winFirstElem.toNat) = true) :
    ∃ r m, WritesOnly s.mem m s.recBase.toNat s.winLongest.toNat
        (fun b => windowByte s
          (fun e => gfMul s.params (cauchyElement s.params s.nextCauchyRow.toNat (cauchyColumn s e))) b u
          s.winFirstElem.toNat) ∧
      cauchyBranch (Run.start s) = .ok () r ∧
      r.st = rowResult s.recBase.toNat s.winLongest.toNat 2 (s.nextCauchyRow.toNat + 1)
        (column s s.winFirstElem.toNat).toNat u u { s with
          mem := m
          pending := []
          nextCauchyRow := BitVec.ofNat 16 ((s.nextCauchyRow.toNat + 1) % s.params.maxCauchyRows) } := by
  obtain ⟨r1, r2, m, hr1, hr2, hst, hm⟩ :=
    rowRun_sum (fun e => gfMul s.params (cauchyElement s.params s.nextCauchyRow.toNat (cauchyColumn s e))) hu hw ha
  obtain rfl : u = s.winCount.toNat - s.winFirstElem.toNat := by
    obtain ⟨hcount, -⟩ := hu
    omega
  have hdata : cauchyData (recheckTable s) s.recBase.toNat s.winLongest.toNat s.winFirstElem.toNat
      (s.winCount.toNat - s.winFirstElem.toNat) s.nextCauchyRow.toNat r1 = .ok () r2 := by
    rw [cauchyData_eq]
    exact hr2
  refine ⟨_, m, hm, (bind_run_ok (modifyState_run _ _)).trans <| (bind_run_ok (getState_run _)).trans <|
    (bind_run_ok (setArea_run _ _)).trans <| withScratch_ok <| (bind_run_ok hr1).trans <|
    (congrFun (if_neg hdue) r1).trans <| (bind_run_ok hdata).trans rfl, ?_⟩
  simp only [hst]
  rfl

/-- A check whose condition is not met lets the command go on. -/
theorem rejectIf_unmet {c : Prop} [Decidable c] (h : ¬ c) (e : ErrorBit) (r : Run) : rejectIf (decide c) e r = .ok () r := by
  rw [decide_eq_false h, rejectIf_false]

/-- ROW_ENCODE of a window of 2 to CAUCHY_THRESHOLD elements whose scratch has room passes every check (spec R495). -/
theorem rowEncodeBody_cauchyBranch {s : State} {u : Nat} (t : Tables) (hu : WindowHolds s u) (hlegal : s.params.Legal)
    (h2 : 2 ≤ u) (hthreshold : u ≤ s.params.cauchyThreshold) (hlp : s.winLongest.toNat ≤ 2 ^ 30)
    (ha : ScratchApart s s.winLongest.toNat) : rowEncodeBody t (Run.start s) = cauchyBranch (Run.start s) := by
  obtain ⟨hcount, hmax⟩ := hu
  obtain ⟨hcap, hroom, -⟩ := ha
  obtain ⟨-, -, -, -, -, -, -, -, -, -, -, -, -, -, hgf, -, -, hfooter, -⟩ := hlegal
  have hwindow : ¬ (s.winFirstElem.toNat > s.winCount.toNat ∨ s.winCount.toNat > s.params.elemMax) := by omega
  have hempty : ¬ s.winCount.toNat - s.winFirstElem.toNat = 0 := by omega
  have hsingle : ¬ s.winCount.toNat - s.winFirstElem.toNat = 1 := by omega
  have hlongest : ¬ s.winLongest.toNat > s.params.maxGfLen := by omega
  have hcauchy : s.winCount.toNat - s.winFirstElem.toNat ≤ s.params.cauchyThreshold := by omega
  have hscratch : ¬ s.recCap.toNat < s.winLongest.toNat + s.params.footerMax := by omega
  have hwraps : ¬ s.recBase.toNat + (s.winLongest.toNat + s.params.footerMax) > Config.addrSpace := by
    simp only [Config.addrSpace]
    omega
  calc rowEncodeBody t (Run.start s)
    _ = _ := (bind_run_ok (getState_run _)).trans (bind_run_ok (rejectIf_unmet hwindow _ _))
    _ = _ := (congrFun (if_neg hempty) _).trans (congrFun (if_neg hsingle) _)
    _ = _ := (bind_run_ok (rejectIf_unmet hlongest _ _)).trans (congrFun (if_pos hcauchy) _)
    _ = cauchyBranch (Run.start s) :=
      (bind_run_ok (rejectIf_unmet hscratch _ _)).trans (bind_run_ok (rejectIf_unmet hwraps _ _))

/-- The result registers as R489 lays them out. -/
theorem rowResult_eq (a : Word) (n kind row cs k l : Nat) (s : State) :
    rowResult a.toNat n kind row cs k l s = { s with
      res0 := a
      res1 := BitVec.ofNat 64 (n + kind * 2 ^ 32)
      res2 := BitVec.ofNat 64 (row + cs * 2 ^ 32)
      res3 := BitVec.ofNat 64 (k + l * 2 ^ 32) } := by
  rw [rowResult, State.setRes, BitVec.ofNat_toNat, BitVec.setWidth_eq, Nat.mul_comm _ kind, Nat.mul_comm _ cs,
    Nat.mul_comm _ l]

/-- Settles O58: the loop over the window changes only scratch bytes, so every round adds an original as it was at the start. -/
theorem rowCauchyRegime : Obligations.RowCauchyRegime := by
  intro s u hu hw hlegal h2 hthreshold hlp ha first lp columnOf r due element
  have hexec : ∀ run, cauchyBranch (Run.start s) = .ok () run → exec .rowEncode s = .next (run.st.finish .success) :=
    fun run hrun => by
      rw [exec_eq, commandBody, conclude_ok ((rowEncodeBody_cauchyBranch _ hu hlegal h2 hthreshold hlp ha).trans hrun)]
  have hcolumn : (column s first).toNat = columnOf first := column_toNat s first
  have hdue : parityDue s (column s first) = true ↔ due := by rw [parityDue_iff, hcolumn]
  have helement : ∀ e, cauchyElement s.params s.nextCauchyRow.toNat (cauchyColumn s e) = element e := fun e => by
    rw [cauchyElement, cauchyColumn_eq]
  constructor
  · intro h
    obtain ⟨run, m, hm, hrun, hst⟩ := cauchyBranch_parity hu hw ha (hdue.2 h)
    refine ⟨m, hm, ?_⟩
    rw [hexec run hrun, hst, hcolumn, rowResult_eq, Nat.zero_add]
  · intro h
    obtain ⟨run, m, hm, hrun, hst⟩ := cauchyBranch_cauchy hu hw ha (fun hp => h (hdue.1 hp))
    simp only [helement] at hm
    refine ⟨m, hm, ?_⟩
    rw [hexec run hrun, hst, hcolumn, rowResult_eq]

end Sys2Proof.Machine
end

section
/-! SUPPORT. What a command's pseudocode can leave of the state: the parts it does not write, the ends it can come to, and
that it does not look at the bitsets. One lemma per operation; the commands' frames follow from them. -/

namespace Sys2Proof.Machine

/-! ## Frames -/

/-- The ERROR bits of the block's fatal ends (spec R565). -/
def fatalBits : List ErrorBit := [.hostAllocFail, .slotExhausted, .sumOverflow, .busError]

/-- A fatal stop has one of the block's fatal causes. -/
def Stop.Allowed (x : Stop) : Prop := ∀ e, x = .fatal e → e ∈ fatalBits

/-- The view `k` of a state does not show what `e` erases. -/
def Ignores {τ : Type} (e : State → State) (k : State → τ) : Prop := ∀ s, k (e s) = k s

/-- How a run from state `s` ends: where it goes on, `g ∘ p` of the state is as it was, and where it stops, `p` is, and the
stop is one of the block's. -/
def EndsFramed (p g : State → State) (s : State) {α : Type} : EStateM.Result Stop Run α → Prop
  | .ok _ r => g (p r.st) = g (p s)
  | .error x r => p r.st = p s ∧ x.Allowed

/-- The command leaves the part `p` of the state, of which a command that goes on may change what `g` erases. -/
def Frame (p g : State → State) {α : Type} (c : Cmd α) : Prop := ∀ r, EndsFramed p g r.st (c r)

section Frame

variable {p g k : State → State} {α β : Type}

theorem frame_pure (a : α) : Frame p g (pure a : Cmd α) := fun _ => rfl

theorem frame_stop {x : Stop} (hx : x.Allowed) : Frame p g (stop x : Cmd α) := fun _ => ⟨rfl, hx⟩

theorem frame_bind {x : Cmd α} {f : α → Cmd β} (hx : Frame p id x) (hf : ∀ a, Frame p g (f a)) :
    Frame p g (x >>= f) := by
  intro r
  have h1 := hx r
  cases hr : x r with
  | error e r1 =>
    rw [hr] at h1
    rw [bind_run_error hr]
    exact h1
  | ok a r1 =>
    rw [hr] at h1
    have h2 := hf a r1
    rw [bind_run_ok hr]
    cases hr2 : f a r1 with
    | ok b r2 =>
      rw [hr2] at h2
      exact Eq.trans h2 (congrArg g h1)
    | error e r2 =>
      rw [hr2] at h2
      exact ⟨h2.1.trans h1, h2.2⟩

theorem frame_withState {f : State → Cmd β} (hf : ∀ s, Frame p g (f s)) : Frame p g (getState >>= f) := fun r => hf r.st r

theorem frame_modify {f : State → State} (hf : ∀ s, g (p (f s)) = g (p s)) : Frame p g (modifyState f) := fun r => hf r.st

theorem frame_ite {c : Prop} [Decidable c] {x y : Cmd α} (hx : Frame p g x) (hy : Frame p g y) :
    Frame p g (if c then x else y) := by
  split
  · exact hx
  · exact hy

theorem allowed_reject (e : ErrorBit) : (Stop.reject e).Allowed := nofun
theorem allowed_portError : Stop.portError.Allowed := nofun
theorem allowed_needMoreData : Stop.needMoreData.Allowed := nofun

theorem allowed_fatal {e : ErrorBit} (he : e ∈ fatalBits) : (Stop.fatal e).Allowed := by
  rintro _ ⟨⟩
  exact he

theorem frame_rejectIf (c : Bool) (e : ErrorBit) : Frame p g (rejectIf c e) :=
  frame_ite (frame_stop (allowed_reject e)) (frame_pure ())

/-- A frame of a part is a frame of whatever shows no more than that part. -/
theorem Frame.coarsen {c : Cmd α} (h : Frame p id c) (hk : Ignores p k) : Frame k id c := by
  intro r
  have hc := h r
  cases hr : c r with
  | ok a r1 =>
    rw [hr] at hc
    exact (hk _).symm.trans ((congrArg k hc).trans (hk _))
  | error e r1 =>
    rw [hr] at hc
    exact ⟨(hk _).symm.trans ((congrArg k hc.1).trans (hk _)), hc.2⟩

end Frame

/-! ## Commands that do not look at the bitsets -/

/-- The contents of the bitset bank (spec R61). -/
abbrev Bitsets := Vector (BitVec Config.bitsetWidth) Config.maxBitsets

/-- The state with other bitsets. -/
def State.withBitsets (s : State) (v : Bitsets) : State := { s with bitsets := v }

/-- The run with other bitsets. -/
def Run.withBitsets (r : Run) (v : Bitsets) : Run := { r with st := r.st.withBitsets v }

/-- The end of a run with other bitsets. -/
def resultWithBitsets (v : Bitsets) {α : Type} : EStateM.Result Stop Run α → EStateM.Result Stop Run α
  | .ok a r => .ok a (r.withBitsets v)
  | .error x r => .error x (r.withBitsets v)

/-- With other bitsets the command does the same to all else, and leaves those bitsets. -/
def Blind {α : Type} (c : Cmd α) : Prop := ∀ v r, c (r.withBitsets v) = resultWithBitsets v (c r)

section Blind

variable {α β : Type}

theorem blind_pure (a : α) : Blind (pure a : Cmd α) := fun _ _ => rfl

theorem blind_stop (x : Stop) : Blind (stop x : Cmd α) := fun _ _ => rfl

theorem blind_bind {x : Cmd α} {f : α → Cmd β} (hx : Blind x) (hf : ∀ a, Blind (f a)) : Blind (x >>= f) := by
  intro v r
  rw [bind_run, bind_run, hx v r]
  rcases x r with ⟨a, r1⟩ | ⟨e, r1⟩
  · exact hf a v r1
  · rfl

theorem blind_withState {f : State → Cmd β} (hf : ∀ s, Blind (f s)) (hb : ∀ s v, f (s.withBitsets v) = f s) :
    Blind (getState >>= f) := fun v r => (congrFun (hb r.st v) _).trans (hf r.st v r)

theorem blind_modify {f : State → State} (hb : ∀ s v, f (s.withBitsets v) = (f s).withBitsets v) :
    Blind (modifyState f) := fun v r =>
  congrArg (fun s => (EStateM.Result.ok () { r with st := s } : EStateM.Result Stop Run Unit)) (hb r.st v)

theorem blind_ite {c : Prop} [Decidable c] {x y : Cmd α} (hx : Blind x) (hy : Blind y) : Blind (if c then x else y) := by
  split
  · exact hx
  · exact hy

end Blind

/-! ## Both at once -/

/-- The command leaves the part `p` of the state but for what `g` erases at its end, and does not look at the bitsets. -/
structure Confined (p g : State → State) {α : Type} (c : Cmd α) : Prop where
  frame : Frame p g c
  blind : Blind c

section Confined

variable {p g k : State → State} {α β : Type}

theorem confined_pure (a : α) : Confined p g (pure a : Cmd α) := ⟨frame_pure a, blind_pure a⟩

theorem confined_stop {x : Stop} (hx : x.Allowed) : Confined p g (stop x : Cmd α) := ⟨frame_stop hx, blind_stop x⟩

theorem confined_bind {x : Cmd α} {f : α → Cmd β} (hx : Confined p id x) (hf : ∀ a, Confined p g (f a)) :
    Confined p g (x >>= f) := ⟨frame_bind hx.frame fun a => (hf a).frame, blind_bind hx.blind fun a => (hf a).blind⟩

theorem confined_withState {f : State → Cmd β} (hf : ∀ s, Confined p g (f s)) (hb : ∀ s v, f (s.withBitsets v) = f s) :
    Confined p g (getState >>= f) := ⟨frame_withState fun s => (hf s).frame, blind_withState (fun s => (hf s).blind) hb⟩

theorem confined_modify {f : State → State} (hf : ∀ s, g (p (f s)) = g (p s))
    (hb : ∀ s v, f (s.withBitsets v) = (f s).withBitsets v) : Confined p g (modifyState f) :=
  ⟨frame_modify hf, blind_modify hb⟩

theorem confined_ite {c : Prop} [Decidable c] {x y : Cmd α} (hx : Confined p g x) (hy : Confined p g y) :
    Confined p g (if c then x else y) := ⟨frame_ite hx.frame hy.frame, blind_ite hx.blind hy.blind⟩

theorem confined_rejectIf (c : Bool) (e : ErrorBit) : Confined p g (rejectIf c e) :=
  confined_ite (confined_stop (allowed_reject e)) (confined_pure ())

/-- A branch on something of the run that is not a bitset. -/
theorem confined_branch {b : Run → Prop} [DecidablePred b] {x y : Cmd α} (hb : ∀ v r, b (r.withBitsets v) ↔ b r)
    (hx : Confined p g x) (hy : Confined p g y) : Confined p g (fun r => if b r then x r else y r) := by
  constructor
  · intro r
    by_cases h : b r
    · simpa only [if_pos h] using hx.frame r
    · simpa only [if_neg h] using hy.frame r
  · intro v r
    by_cases h : b r
    · simpa only [if_pos h, if_pos ((hb v r).2 h)] using hx.blind v r
    · simpa only [if_neg h, if_neg (fun h' => h ((hb v r).1 h'))] using hy.blind v r

theorem confined_fatalIf (c : Bool) {e : ErrorBit} (he : e ∈ fatalBits) : Confined p g (fatalIf c e) :=
  confined_branch (fun _ _ => Iff.rfl) (confined_stop (allowed_fatal he)) (confined_pure ())

theorem confined_forRange {f : Nat → Cmd Unit} (hf : ∀ i, Confined p id (f i)) (n i : Nat) :
    Confined p id (forRange f n i) := by
  induction n generalizing i with
  | zero => exact confined_pure ()
  | succ n ih => exact confined_bind (hf i) fun _ => ih (i + 1)

theorem Confined.coarsen {c : Cmd α} (h : Confined p id c) (hk : Ignores p k) : Confined k id c :=
  ⟨h.frame.coarsen hk, h.blind⟩

theorem confined_setArea (area : Nat → Bool) : Confined p g (setArea area) := ⟨fun _ => rfl, fun _ _ => rfl⟩

theorem confined_markOpen (a : Nat) : Confined p g (markOpen a) := ⟨fun _ => rfl, fun _ _ => rfl⟩

theorem confined_anyOpen (a n : Nat) : Confined p g (anyOpen a n) := ⟨fun _ => rfl, fun _ _ => rfl⟩

end Confined

/-! ## The memory operations write the data memory and draw free values -/

/-- The state but for the data memory and the count of free values. -/
def memErased (s : State) : State := { s with mem := [], draws := 0 }

theorem Ignores.mem {τ : Type} {k : State → τ} (h : Ignores memErased k) (s : State) (m : Memory) (d : Nat) :
    k { s with mem := m, draws := d } = k s := (h _).symm.trans (h s)

section Memory

variable {p : State → State}

theorem confined_drawByte (hp : Ignores memErased p) : Confined p id drawByte :=
  ⟨fun r => hp.mem r.st r.st.mem _, fun _ _ => rfl⟩

theorem confined_drawWord (hp : Ignores memErased p) : Confined p id drawWord :=
  ⟨fun r => hp.mem r.st r.st.mem _, fun _ _ => rfl⟩

theorem confined_s32Value (hp : Ignores memErased p) (x : Int) : Confined p id (s32Value x) :=
  confined_branch (fun _ _ => Iff.rfl) (confined_pure _) ⟨fun r => hp.mem r.st r.st.mem _, fun _ _ => rfl⟩

theorem confined_storeByte (hp : Ignores memErased p) (a : Nat) (v : Byte) : Confined p id (storeByte a v) :=
  ⟨fun r => hp.mem r.st _ r.st.draws, fun _ _ => rfl⟩

theorem confined_memRead8 (hp : Ignores memErased p) (a : Nat) : Confined p id (memRead8 a) :=
  confined_branch (fun _ _ => Iff.rfl) (confined_stop allowed_portError) <|
    confined_branch (fun _ _ => Iff.rfl)
      (x := fun r => drawByte { r with reads := a % Config.addrSpace :: r.reads })
      ⟨fun r => hp.mem r.st r.st.mem _, fun _ _ => rfl⟩ ⟨fun _ => rfl, fun _ _ => rfl⟩

theorem confined_memWrite8 (hp : Ignores memErased p) (a : Nat) (v : Byte) : Confined p id (memWrite8 a v) :=
  confined_branch (fun _ _ => Iff.rfl) (confined_stop allowed_portError) <|
    confined_branch (fun _ _ => Iff.rfl)
      (confined_bind (confined_drawByte hp) fun w => confined_storeByte hp (a % Config.addrSpace) w)
      (y := fun r => storeByte (a % Config.addrSpace) v { r with opens := r.opens.filter (· != a % Config.addrSpace) })
      ⟨fun r => hp.mem r.st _ r.st.draws, fun _ _ => rfl⟩

theorem confined_memRead (hp : Ignores memErased p) (a n : Nat) : Confined p id (memRead a n) := by
  induction n generalizing a with
  | zero => exact confined_pure _
  | succ n ih => exact confined_bind (confined_memRead8 hp a) fun _ => confined_bind (ih (a + 1)) fun _ => confined_pure _

theorem confined_memWrite (hp : Ignores memErased p) (a : Nat) (vs : List Byte) : Confined p id (memWrite a vs) := by
  induction vs generalizing a with
  | nil => exact confined_pure _
  | cons v vs ih => exact confined_bind (confined_memWrite8 hp a v) fun _ => ih (a + 1)

theorem confined_memPut (hp : Ignores memErased p) (isOpen : Bool) (a : Nat) (v : Byte) :
    Confined p id (memPut isOpen a v) :=
  confined_ite
    (confined_bind (confined_drawByte hp) fun w => confined_bind (confined_memWrite8 hp a w) fun _ => confined_markOpen a)
    (confined_memWrite8 hp a v)

theorem confined_memZero (hp : Ignores memErased p) (a n : Nat) : Confined p id (memZero a n) :=
  confined_forRange (fun i => confined_memWrite8 hp (a + i) 0) n 0

theorem confined_memLoosen (hp : Ignores memErased p) (a n : Nat) : Confined p id (memLoosen a n) :=
  confined_forRange (fun i => confined_memPut hp true (a + i) 0) n 0

theorem confined_leaveOpen (hp : Ignores memErased p) (a n : Nat) : Confined p id (leaveOpen a n) :=
  confined_forRange (fun _ => confined_bind (confined_drawByte hp) fun v => confined_storeByte hp _ v) n 0

theorem confined_accumulate (hp : Ignores memErased p) (dst src : Nat) (f : Byte → Byte) (n : Nat) :
    Confined p id (accumulate dst src f n) :=
  confined_forRange (fun _ => confined_bind (confined_memRead8 hp _) fun _ => confined_bind (confined_memRead8 hp _) fun _ =>
    confined_bind (confined_anyOpen _ 1) fun _ => confined_bind (confined_anyOpen _ 1) fun _ => confined_memPut hp _ _ _) n 0

theorem confined_mapBytes (hp : Ignores memErased p) (dst src : Nat) (f : Byte → Byte) (n : Nat) :
    Confined p id (mapBytes dst src f n) :=
  confined_forRange (fun _ => confined_bind (confined_memRead8 hp _) fun _ =>
    confined_bind (confined_anyOpen _ 1) fun _ => confined_memPut hp _ _ _) n 0

theorem confined_readDesc (hp : Ignores memErased p) (e : Int) : Confined p id (readDesc e) :=
  confined_withState (fun _ => confined_bind (confined_memRead hp _ 8) fun _ => confined_bind (confined_memRead hp _ 4) fun _ =>
    confined_bind (confined_anyOpen _ 12) fun _ => confined_ite
      (confined_bind (confined_drawWord hp) fun _ => confined_bind (confined_drawWord hp) fun _ => confined_pure _)
      (confined_pure _)) fun _ _ => rfl

end Memory

end Sys2Proof.Machine
end

section
/-! SUPPORT. What each command can write, and that only the bitset commands look at the bitsets (spec R36 to R55, R61). -/

namespace Sys2Proof.Machine

/-! ## What the groups of commands write -/

/-- What the result registers hold is left out of account. -/
def noResults (s : State) : State := s.setRes 0 0 0 0

/-- The state but for the data memory, the lane sums, the model's records of the table, and the bitsets. -/
def laneErased (s : State) : State :=
  { s with
    mem := []
    draws := 0
    bitsets := State.reset.bitsets
    sumsValid := false
    sumStartElem := 0
    sums := State.reset.sums
    folded := []
    sumsTainted := false
    pending := []
    replaced := []
    copied := []
    tableTainted := false }

/-- Besides, but for the place of the window. -/
def windowErased (s : State) : State := laneErased { s with winColumnStart := 0, winFirstElem := 0, winCount := 0 }

/-- Besides, but for the row counters. -/
def rowErased (s : State) : State :=
  laneErased { s with nextRow := 0, nextCauchyRow := 0, nextParityColumn := 0, npcValid := false }

/-- The state but for the data memory, what the block has of the host allocator, and the records of what it has handed out. -/
def allocErased (s : State) : State :=
  { s with
    mem := []
    draws := 0
    allocAnswers := []
    largeLive := []
    hostFrees := []
    handed := []
    slabTainted := false }

/-- Besides, but for the windows. -/
def slabErased (s : State) : State :=
  allocErased { s with slots := State.reset.slots, prefList := [], fullList := [], windowsLive := [] }

/-- A command that changes the slab windows (spec R370 to R372). -/
def isSlabCommand : Instr → Bool
  | .slabAlloc | .slabFree | .slabRealloc _ => true
  | _ => false

/-- The state but for what the command may write before its end, its results left out of account. -/
def commandErased : Instr → State → State
  | .slabAlloc | .slabFree | .slabRealloc _ => slabErased
  | .slabWinfo => allocErased
  | .winShift => windowErased
  | .rowEncode => rowErased
  | _ => laneErased

theorem lane_ignores_mem : Ignores memErased laneErased := fun _ => rfl
theorem row_ignores_mem : Ignores memErased rowErased := fun _ => rfl
theorem alloc_ignores_mem : Ignores memErased allocErased := fun _ => rfl
theorem slab_ignores_alloc : Ignores allocErased slabErased := fun _ => rfl
theorem window_ignores_lane : Ignores laneErased windowErased := fun _ => rfl
theorem row_ignores_lane : Ignores laneErased rowErased := fun _ => rfl
theorem commandErased_ignores_mem (i : Instr) : Ignores memErased (commandErased i) := fun _ => by cases i <;> rfl

/-- A command that leaves the part, results included, leaves it whatever its end may change. -/
theorem Confined.weaken {p g : State → State} {α : Type} {c : Cmd α} (h : Confined p id c) : Confined p g c := by
  refine ⟨fun r => ?_, h.blind⟩
  have hc := h.frame r
  cases hr : c r with
  | ok a r1 =>
    rw [hr] at hc
    exact congrArg g hc
  | error x r1 =>
    rw [hr] at hc
    exact hc

/-! ## The GF(256) unit -/

theorem confined_resultByte (v : Byte) : Confined laneErased noResults (resultByte v) :=
  confined_modify (fun _ => rfl) fun _ _ => rfl

theorem confined_resultNat (n : Nat) : Confined laneErased noResults (resultNat n) :=
  confined_modify (fun _ => rfl) fun _ _ => rfl

theorem confined_resultField (f : Params → Byte) : Confined laneErased noResults (resultField f) :=
  confined_withState (fun s => confined_resultByte (f s.params)) fun _ _ => rfl

theorem confined_gfLogBody (a : Byte) : Confined laneErased noResults (gfLogBody a) :=
  confined_bind (confined_rejectIf _ _) fun _ => confined_withState (fun _ => confined_resultNat _) fun _ _ => rfl

/-- A scalar command that rejects a zero divisor. -/
theorem confined_divides (c : Bool) (f : Params → Byte) :
    Confined laneErased noResults (do rejectIf c .zeroDivisor; resultField f) :=
  confined_bind (confined_rejectIf _ _) fun _ => confined_resultField f

/-- A vector command does what its loop does, and notes what that changes of the table. -/
theorem confined_gfVector {loop : Params → (dst src n : Nat) → Cmd Unit}
    (h : ∀ p dst src n, Confined laneErased id (loop p dst src n)) : Confined laneErased id (gfVector loop) :=
  confined_withState (fun _ => confined_bind (confined_rejectIf _ _) fun _ => confined_ite (confined_pure ()) <|
    confined_bind (confined_rejectIf _ _) fun _ => confined_bind (confined_rejectIf _ _) fun _ =>
      confined_bind (h _ _ _ _) fun _ => confined_modify (fun _ => rfl) fun _ _ => rfl) fun _ _ => rfl

theorem confined_gfAddLoop (p : Params) (dst src n : Nat) : Confined laneErased id (gfAddLoop p dst src n) :=
  confined_accumulate lane_ignores_mem dst src _ n

theorem confined_gfMuladdLoop (c : Byte) (p : Params) (dst src n : Nat) :
    Confined laneErased id (gfMuladdLoop c p dst src n) :=
  confined_ite (confined_pure ()) (confined_accumulate lane_ignores_mem dst src _ n)

theorem confined_gfMulLoop (c : Byte) (p : Params) (dst src n : Nat) : Confined laneErased id (gfMulLoop c p dst src n) :=
  confined_ite (confined_memZero lane_ignores_mem dst n) (confined_mapBytes lane_ignores_mem dst src _ n)

theorem confined_gfDivLoop (c : Byte) (p : Params) (dst src n : Nat) : Confined laneErased id (gfDivLoop c p dst src n) :=
  confined_mapBytes lane_ignores_mem dst src _ n

theorem confined_gfDivMemBody (c : Byte) : Confined laneErased id (gfDivMemBody c) :=
  confined_bind (confined_rejectIf _ _) fun _ => confined_gfVector (confined_gfDivLoop c)

/-! ## The bitset engine: it looks at the bitsets, so it has a frame only -/

theorem frame_bitsetCheck (b : BitVec 4) : Frame laneErased id (bitsetCheck b) :=
  frame_withState fun _ => frame_rejectIf _ _

theorem frame_bitsetIndex (b : BitVec 4) : Frame laneErased id (bitsetIndex b) :=
  frame_bind (frame_bitsetCheck b) fun _ => frame_withState fun _ => frame_bind (frame_rejectIf _ _) fun _ => frame_pure _

theorem frame_bitsetRange (b : BitVec 4) : Frame laneErased id (bitsetRange b) :=
  frame_bind (frame_bitsetCheck b) fun _ => frame_withState fun _ => frame_bind (frame_rejectIf _ _) fun _ => frame_pure _

theorem frame_bitsetAt (b : BitVec 4) (f : BitVec Config.bitsetWidth → Nat → BitVec Config.bitsetWidth) :
    Frame laneErased noResults (bitsetAt b f) :=
  frame_bind (frame_bitsetIndex b) fun _ => frame_modify fun _ => rfl

theorem frame_bitsetOver (b : BitVec 4) (f : BitVec Config.bitsetWidth → Nat → Nat → BitVec Config.bitsetWidth) :
    Frame laneErased noResults (bitsetOver b f) :=
  frame_bind (frame_bitsetRange b) fun _ => frame_modify fun _ => rfl

theorem frame_bitsetAsk (b : BitVec 4) (f : BitVec Config.bitsetWidth → Nat → Nat → Nat) :
    Frame laneErased noResults (bitsetAsk b f) :=
  frame_bind (frame_bitsetRange b) fun _ => frame_withState fun _ => (confined_resultNat _).frame

theorem frame_bsCheckBody (b : BitVec 4) : Frame laneErased noResults (bsCheckBody b) :=
  frame_bind (frame_bitsetIndex b) fun _ => frame_withState fun _ => (confined_resultNat _).frame

theorem frame_bsFfcBody (b : BitVec 4) : Frame laneErased noResults (bsFfcBody b) :=
  frame_bind (frame_bitsetCheck b) fun _ => frame_withState fun _ => frame_bind (frame_rejectIf _ _) fun _ =>
    (confined_resultNat _).frame

/-! ## What does not depend on the bitsets -/

@[simp] theorem slot_withBitsets (s : State) (v : Bitsets) (i : Nat) : (s.withBitsets v).slot i = s.slot i := rfl

theorem originalRegions_withBitsets (s : State) (v : Bitsets) (n e : Nat) :
    originalRegions (s.withBitsets v) n e = originalRegions s n e := by
  induction n generalizing e with
  | zero => rfl
  | succ n ih => exact congrArg (descAt s e :: ·) (ih (e + 1))

theorem aroundSums_withBitsets (s : State) (v : Bitsets) : aroundSums (s.withBitsets v) = aroundSums s :=
  congrArg (descRegion s :: scratchRegion s :: windowRegions s ++ ·) (originalRegions_withBitsets s v _ _)

theorem aroundScratch_withBitsets (s : State) (v : Bitsets) : aroundScratch (s.withBitsets v) = aroundScratch s :=
  congrArg (descRegion s :: sumRegion s :: windowRegions s ++ ·) (originalRegions_withBitsets s v _ _)

theorem aroundWindows_withBitsets (s : State) (v : Bitsets) : aroundWindows (s.withBitsets v) = aroundWindows s :=
  congrArg (descRegion s :: sumRegion s :: scratchRegion s :: ·) (originalRegions_withBitsets s v _ _)

theorem sumsArea_withBitsets (s : State) (v : Bitsets) : sumsArea (s.withBitsets v) = sumsArea s :=
  funext fun a => congrArg (fun rs => inRegion (sumRegion s) a && (sumsLoose s || inRegions rs a)) (aroundSums_withBitsets s v)

theorem rowArea_withBitsets (s : State) (v : Bitsets) : rowArea (s.withBitsets v) = rowArea s :=
  funext fun loose => funext fun n => funext fun a =>
    congrArg (fun rs => inRegion (s.recBase.toNat, n) a && (loose || inRegions rs a)) (aroundScratch_withBitsets s v)

theorem slabArea_withBitsets (s : State) (v : Bitsets) : slabArea (s.withBitsets v) = slabArea s :=
  funext fun addr => funext fun n => funext fun a =>
    congrArg (fun rs => inRegion (addr, n) a && inRegions (windowRegions s) a && inRegions rs a)
      (aroundWindows_withBitsets s v)

theorem lowestDead_withBitsets (s : State) (v : Bitsets) (n i : Nat) :
    lowestDead (s.withBitsets v) n i = lowestDead s n i := by
  induction n generalizing i with
  | zero => rfl
  | succ n ih => exact congrArg (fun x => if (s.slot i).live = true then x else some i) (ih (i + 1))

theorem walkPref_withBitsets (s : State) (v : Bitsets) (u : Nat) (left scanned : List Nat) :
    walkPref (s.withBitsets v) u left scanned = walkPref s u left scanned := by
  induction left generalizing scanned with
  | nil => rfl
  | cons w left ih =>
    have htakes : takes (s.withBitsets v) w u = takes s w u := rfl
    rw [walkPref, walkPref, htakes, ih]

theorem withBitsets_ite {c : Prop} [Decidable c] (a b : State) (v : Bitsets) :
    (if c then a else b).withBitsets v = if c then a.withBitsets v else b.withBitsets v := by
  split <;> rfl

theorem migrate_withBitsets (s : State) (v : Bitsets) (x : Nat) :
    migrate (s.withBitsets v) x = (migrate s x).withBitsets v :=
  Eq.symm (withBitsets_ite _ _ v)

theorem foldl_migrate_withBitsets (s : State) (v : Bitsets) (l : List Nat) :
    l.foldl migrate (s.withBitsets v) = (l.foldl migrate s).withBitsets v := by
  induction l generalizing s with
  | nil => rfl
  | cons x l ih => rw [List.foldl_cons, List.foldl_cons, migrate_withBitsets, ih]

theorem post_withBitsets (s : State) (v : Bitsets) (w u : Nat) (scanned : List Nat) :
    post (s.withBitsets v) w u scanned = (post s w u scanned).withBitsets v :=
  (congrArg (fun t => if (takes s w u).isSome then s.withBitsets v else t)
    (foldl_migrate_withBitsets s v (scanned ++ [w]))).trans (withBitsets_ite _ _ v).symm

theorem promote_withBitsets (s : State) (v : Bitsets) (x : Nat) :
    promote (s.withBitsets v) x = (promote s x).withBitsets v :=
  Eq.symm (withBitsets_ite _ _ v)

theorem releaseRun_withBitsets (s : State) (v : Bitsets) (slot st u : Nat) :
    releaseRun (s.withBitsets v) slot st u = (releaseRun s slot st u).withBitsets v := by
  unfold releaseRun
  exact promote_withBitsets (s.setSlot slot _) v slot

theorem noteFolded_withBitsets (e : Int) (a n : Nat) (s : State) (v : Bitsets) :
    noteFolded e a n (s.withBitsets v) = (noteFolded e a n s).withBitsets v :=
  Eq.symm (withBitsets_ite _ _ v)

theorem openRange_withBitsets (n a : Nat) (s : State) (v : Bitsets) :
    openRange n a (s.withBitsets v) = (openRange n a s).withBitsets v := by
  induction n generalizing a s with
  | zero => rfl
  | succ n ih => exact ih (a + 1) (openByte s a)

theorem openList_withBitsets (l : List Nat) (s : State) (v : Bitsets) :
    openList l (s.withBitsets v) = (openList l s).withBitsets v := by
  induction l generalizing s with
  | nil => rfl
  | cons a l ih => exact ih (openByte s a)

theorem portLoss_withBitsets (final : Memory) (l : List Nat) (s : State) (v : Bitsets) :
    portLoss final l (s.withBitsets v) = (portLoss final l s).withBitsets v := by
  induction l generalizing s with
  | nil => rfl
  | cons a l ih =>
    exact ih { s with
      mem := s.mem.write a (if Config.freeFlag s.draws then final.read a else Config.freeByte (s.draws + 1))
      draws := s.draws + 2 }

/-! ## What opening bytes leaves -/

section Opening

variable {τ : Type} {k : State → τ}

theorem Ignores.openByte (h : Ignores memErased k) (s : State) (a : Nat) : k (openByte s a) = k s := h.mem s _ _

theorem Ignores.openRange (h : Ignores memErased k) (n a : Nat) (s : State) : k (openRange n a s) = k s := by
  induction n generalizing a s with
  | zero => rfl
  | succ n ih => exact (ih (a + 1) _).trans (h.openByte s a)

theorem Ignores.openList (h : Ignores memErased k) (l : List Nat) (s : State) : k (openList l s) = k s := by
  induction l generalizing s with
  | nil => rfl
  | cons a l ih => exact (ih _).trans (h.openByte s a)

theorem Ignores.cutOff (h : Ignores memErased k) (w r : Run) : k (cutOff w r) = k r.st :=
  (h.openList _ _).trans (h.mem r.st r.st.mem _)

theorem Ignores.portLoss (h : Ignores memErased k) (final : Memory) (l : List Nat) (s : State) :
    k (portLoss final l s) = k s := by
  induction l generalizing s with
  | nil => rfl
  | cons a l ih => exact (ih _).trans (h.mem s _ _)

end Opening

/-! ## The slab allocator: what leaves the windows -/

theorem confined_hostAlloc (size : Nat) : Confined allocErased id (hostAlloc size) := by
  refine confined_withState (fun s => ?_) fun _ _ => rfl
  cases s.allocAnswers with
  | nil => exact confined_bind (confined_modify (fun _ => rfl) fun _ _ => rfl) fun _ => confined_pure _
  | cons answer rest => exact confined_bind (confined_modify (fun _ => rfl) fun _ _ => rfl) fun _ => confined_pure _

theorem confined_hostAllocOrFail (size : Nat) : Confined allocErased id (hostAllocOrFail size) := by
  refine confined_bind (confined_hostAlloc size) fun answer => ?_
  cases answer with
  | none => exact confined_stop (allowed_fatal (by decide))
  | some r => exact confined_pure r

theorem confined_hostFree (h : Nat) : Confined allocErased id (hostFree h) := confined_modify (fun _ => rfl) fun _ _ => rfl

theorem confined_handOut (p : Word) : Confined allocErased id (handOut p) := confined_modify (fun _ => rfl) fun _ _ => rfl

theorem confined_takeBack (p : Word) : Confined allocErased id (takeBack p) := confined_modify (fun _ => rfl) fun _ _ => rfl

theorem confined_allocatorResult (v : Word) : Confined allocErased id (allocatorResult v) :=
  confined_withState (fun _ => confined_ite (confined_drawWord alloc_ignores_mem) (confined_pure v)) fun _ _ => rfl

theorem confined_allocatorCount (n : Nat) : Confined allocErased id (allocatorCount n) :=
  confined_withState (fun _ => confined_ite
    (confined_bind (confined_drawWord alloc_ignores_mem) fun _ => confined_pure _) (confined_pure _)) fun _ _ => rfl

theorem confined_requestCheck (b : Nat) : Confined allocErased id (requestCheck b) :=
  confined_withState (fun _ => confined_bind (confined_rejectIf _ _) fun _ => confined_rejectIf _ _) fun _ _ => rfl

theorem confined_slabWrite (addr : Nat) (bytes : List Byte) : Confined allocErased id (slabWrite addr bytes) :=
  confined_withState
    (fun _ => confined_bind (confined_setArea _) fun _ => confined_memWrite alloc_ignores_mem addr bytes)
    fun s v => by rw [slabArea_withBitsets]

theorem confined_allocLarge (u : Nat) : Confined allocErased id (allocLarge u) :=
  confined_withState
    (fun _ => confined_bind (confined_hostAllocOrFail _) fun _ =>
      confined_bind (confined_modify (fun _ => rfl) fun _ _ => rfl) fun _ => confined_bind (confined_slabWrite _ _) fun _ =>
        confined_bind (confined_handOut _) fun _ => confined_pure _) fun _ _ => rfl

theorem confined_checkPointer (ptr : Nat) : Confined allocErased id (checkPointer ptr) := by
  refine confined_withState (fun s => ?_) fun s v => by rw [slabArea_withBitsets]; rfl
  refine confined_bind (confined_rejectIf _ _) fun _ => confined_bind (confined_setArea _) fun _ =>
    confined_bind (confined_memRead alloc_ignores_mem _ 8) fun win =>
      confined_bind (confined_memRead alloc_ignores_mem _ 4) fun u =>
        confined_bind (confined_memRead8 alloc_ignores_mem _) fun f => ?_
  cases classify s (ptr - s.params.unit) (leValue win) (leValue u) f.toNat with
  | ok r => exact confined_pure r
  | error e => exact confined_stop (allowed_reject e)

theorem confined_copyPayload (h ptr p n : Nat) : Confined allocErased id (copyPayload h ptr p n) :=
  confined_withState
    (fun _ => confined_bind (confined_setArea _) fun _ => confined_bind (confined_anyOpen h 13) fun _ =>
      confined_bind (confined_setArea _) fun _ => confined_bind (confined_memRead alloc_ignores_mem ptr n) fun _ =>
        confined_bind (confined_memWrite alloc_ignores_mem p _) fun _ =>
          confined_ite (confined_memLoosen alloc_ignores_mem p n) (confined_pure ()))
    fun s v => by rw [slabArea_withBitsets]

/-- What leaves the windows leaves what does not show them. -/
theorem Confined.slab {α : Type} {c : Cmd α} (h : Confined allocErased id c) : Confined slabErased id c :=
  h.coarsen slab_ignores_alloc

/-! ## The slab allocator: what changes the windows -/

theorem confined_carve (slot st u : Nat) : Confined slabErased id (carve slot st u) :=
  confined_withState
    (fun _ => confined_bind (confined_modify (fun _ => rfl) fun _ _ => rfl) fun _ =>
      confined_bind (confined_slabWrite _ _).slab fun _ => confined_bind (confined_handOut _).slab fun _ => confined_pure _)
    fun _ _ => rfl

theorem migrate_slabErased (s : State) (x : Nat) : slabErased (migrate s x) = slabErased s := by
  simp only [migrate]
  split <;> rfl

theorem foldl_migrate_slabErased (s : State) (l : List Nat) : slabErased (l.foldl migrate s) = slabErased s := by
  induction l generalizing s with
  | nil => rfl
  | cons x l ih => exact (ih _).trans (migrate_slabErased s x)

theorem confined_post (w u : Nat) (scanned : List Nat) : Confined slabErased id (modifyState fun s => post s w u scanned) := by
  refine confined_modify (fun s => ?_) fun s v => post_withBitsets s v w u scanned
  simp only [post]
  split
  · rfl
  · exact foldl_migrate_slabErased s _

theorem confined_newWindow : Confined slabErased id newWindow := by
  refine confined_withState (fun s => ?_) fun s v => by rw [lowestDead_withBitsets]; rfl
  cases lowestDead s s.params.nwMax 0 with
  | none => exact confined_stop (allowed_fatal (by decide))
  | some i =>
    exact confined_bind (confined_hostAllocOrFail _).slab fun _ =>
      confined_bind (confined_modify (fun _ => rfl) fun _ _ => rfl) fun _ => confined_pure i

theorem confined_carvePost (w st u : Nat) (scanned : List Nat) :
    Confined slabErased id (do let p ← carve w st u; modifyState fun s => post s w u scanned; pure p) :=
  confined_bind (confined_carve w st u) fun _ => confined_bind (confined_post w u scanned) fun _ => confined_pure _

theorem confined_allocSmall (u : Nat) : Confined slabErased id (allocSmall u) := by
  refine confined_withState (fun s => ?_) fun s v => by rw [walkPref_withBitsets]; rfl
  obtain ⟨_ | ⟨w, st⟩, scanned⟩ := walkPref s u s.prefList []
  · exact confined_bind confined_newWindow fun w => confined_carvePost w 0 u scanned
  · exact confined_carvePost w st u scanned

theorem confined_alloc (b : Nat) : Confined slabErased id (alloc b) :=
  confined_withState (fun _ => confined_ite (confined_allocLarge _).slab (confined_allocSmall _)) fun _ _ => rfl

theorem promote_slabErased (s : State) (x : Nat) : slabErased (promote s x) = slabErased s := by
  simp only [promote]
  split <;> rfl

theorem releaseRun_slabErased (s : State) (slot st u : Nat) : slabErased (releaseRun s slot st u) = slabErased s :=
  promote_slabErased _ slot

theorem confined_doFree (r : Allocation) : Confined slabErased id (doFree r) := by
  refine confined_withState (fun s => confined_bind (confined_modify (fun _ => rfl) fun _ _ => rfl) fun _ => ?_)
    fun _ _ => by cases r <;> rfl
  cases r with
  | large h u =>
    exact confined_bind (confined_slabWrite _ _).slab fun _ => confined_bind (confined_takeBack _).slab fun _ =>
      (confined_hostFree h).slab
  | slab slot st h u =>
    exact confined_bind (confined_slabWrite _ _).slab fun _ => confined_bind (confined_takeBack _).slab fun _ =>
      confined_modify (fun s => releaseRun_slabErased s slot st u) fun s v => releaseRun_withBitsets s v slot st u

theorem confined_grow (slot st h u u2 : Nat) : Confined slabErased id (grow slot st h u u2) :=
  confined_withState
    (fun _ => confined_bind (confined_modify (fun _ => rfl) fun _ _ => rfl) fun _ =>
      confined_bind (confined_slabWrite _ _).slab fun _ => confined_bind (confined_post slot u2 []) fun _ => confined_pure _)
    fun _ _ => rfl

theorem confined_moveRegion (old : Allocation) (ptr b : Nat) (copy : Bool) :
    Confined slabErased id (moveRegion old ptr b copy) := by
  refine confined_withState (fun s => confined_bind (confined_alloc b) fun p => ?_) fun _ _ => rfl
  have hfree : Confined slabErased id (do doFree old; pure p) :=
    confined_bind (confined_doFree old) fun _ => confined_pure p
  exact confined_ite (confined_bind (confined_copyPayload _ _ _ _).slab fun _ => hfree) hfree

theorem confined_enlarge (r : Allocation) (ptr b u2 : Nat) (copy : Bool) :
    Confined slabErased id (enlarge r ptr b u2 copy) := by
  refine confined_withState (fun s => ?_) fun _ _ => rfl
  cases r with
  | large h u => exact confined_moveRegion _ ptr b copy
  | slab slot st h u =>
    cases canGrow s u2 (.slab slot st h u) with
    | true => exact confined_grow slot st h u u2
    | false => exact confined_moveRegion _ ptr b copy

theorem confined_resultPointer (p : Word) : Confined slabErased noResults (resultPointer p) :=
  confined_bind (confined_allocatorResult p).slab fun _ => confined_modify (fun _ => rfl) fun _ _ => rfl

theorem confined_allocChecked (b : Nat) : Confined slabErased noResults (allocChecked b) :=
  confined_bind (confined_requestCheck b).slab fun _ => confined_bind (confined_alloc b) fun p => confined_resultPointer p

theorem confined_slabAllocBody : Confined slabErased noResults slabAllocBody :=
  confined_withState (fun _ => confined_allocChecked _) fun _ _ => rfl

theorem confined_slabFreeBody : Confined slabErased noResults slabFreeBody :=
  confined_withState (fun _ => confined_ite (confined_pure ()) <|
    confined_bind (confined_checkPointer _).slab fun r => (confined_doFree r).weaken) fun _ _ => rfl

theorem confined_slabReallocBody (copy : Bool) : Confined slabErased noResults (slabReallocBody copy) :=
  confined_withState (fun _ => confined_ite (confined_allocChecked _) <|
    confined_bind (confined_requestCheck _).slab fun _ => confined_bind (confined_checkPointer _).slab fun r =>
      confined_ite (confined_resultPointer _) <|
        confined_bind (confined_enlarge r _ _ _ copy) fun p => confined_resultPointer p) fun _ _ => rfl

theorem confined_slabWinfoBody : Confined allocErased noResults slabWinfoBody :=
  confined_withState (fun _ => confined_bind (confined_rejectIf _ _) fun _ => confined_ite
    (confined_bind (confined_allocatorResult _) fun _ => confined_bind (confined_allocatorCount _) fun _ =>
      confined_bind (confined_allocatorCount _) fun _ => confined_bind (confined_allocatorResult _) fun _ =>
        confined_modify (fun _ => rfl) fun _ _ => rfl)
    (confined_modify (fun _ => rfl) fun _ _ => rfl)) fun _ _ => rfl

/-! ## The lane sums -/

theorem confined_setNe (l k : Nat) (x : Int) : Confined laneErased id (setNe l k x) :=
  confined_bind (confined_s32Value lane_ignores_mem x) fun _ => confined_modify (fun _ => rfl) fun _ _ => rfl

theorem confined_setSe (l k : Nat) (x : Int) : Confined laneErased id (setSe l k x) :=
  confined_bind (confined_s32Value lane_ignores_mem x) fun _ => confined_modify (fun _ => rfl) fun _ _ => rfl

theorem confined_growSum (l k n : Nat) : Confined laneErased id (growSum l k n) :=
  confined_withState (fun _ => confined_ite
    (confined_bind (confined_memZero lane_ignores_mem _ _) fun _ => confined_modify (fun _ => rfl) fun _ _ => rfl)
    (confined_pure ())) fun _ _ => rfl

theorem confined_leaveSum (l k : Nat) : Confined laneErased id (leaveSum l k) :=
  confined_withState (fun _ => confined_ite
    (confined_bind (confined_drawWord lane_ignores_mem) fun _ =>
      confined_bind (confined_modify (fun _ => rfl) fun _ _ => rfl) fun _ => confined_leaveOpen lane_ignores_mem _ _)
    (confined_leaveOpen lane_ignores_mem _ _)) fun _ _ => rfl

theorem confined_foldOriginal (t : Tables) (l k : Nat) (e : Int) (d : Desc) :
    Confined laneErased id (foldOriginal t l k e d) :=
  confined_withState (fun _ => confined_bind (confined_growSum l k d.len) fun _ =>
    confined_bind (confined_accumulate lane_ignores_mem _ _ _ _) fun _ =>
      confined_withState (fun _ => confined_ite (confined_memLoosen lane_ignores_mem _ _) (confined_pure ()))
        fun _ _ => rfl) fun _ _ => rfl

theorem noteFolded_laneErased (e : Int) (a n : Nat) (s : State) : laneErased (noteFolded e a n s) = laneErased s := by
  simp only [noteFolded]
  split <;> rfl

theorem confined_foldFitting (t : Tables) (l k : Nat) (e : Int) (d : Desc) :
    Confined laneErased id (foldFitting t l k e d) := by
  have hnote : Confined laneErased id (do modifyState (noteFolded e d.addr d.len); setNe l k (e + 8)) :=
    confined_bind (confined_modify (fun s => noteFolded_laneErased e _ _ s) fun s v => noteFolded_withBitsets e _ _ s v)
      fun _ => confined_setNe l k _
  exact confined_ite
    (confined_bind (confined_fatalIf _ (by decide)) fun _ => confined_ite
      (confined_withState (fun _ => confined_bind (confined_leaveOpen lane_ignores_mem _ _) fun _ => hnote) fun _ _ => rfl)
      (confined_bind (confined_foldOriginal t l k e d) fun _ => hnote))
    hnote

theorem confined_foldElement (t : Tables) (l k : Nat) (e : Int) : Confined laneErased id (foldElement t l k e) :=
  confined_bind (confined_readDesc lane_ignores_mem e) fun d =>
    confined_withState (fun _ => confined_bind (confined_fatalIf _ (by decide)) fun _ => confined_ite (confined_pure _) <|
      confined_bind (confined_foldFitting t l k e d) fun _ => confined_pure _) fun _ _ => rfl

theorem confined_foldLoop (t : Tables) (l k rounds : Nat) (e : Int) : Confined laneErased id (foldLoop t l k rounds e) := by
  induction rounds generalizing e with
  | zero => exact confined_pure ()
  | succ rounds ih =>
    exact confined_bind (confined_foldElement t l k e) fun _ => confined_ite (ih (e + 8)) (confined_pure ())

theorem confined_fold (t : Tables) (l k : Nat) (stop : Int) : Confined laneErased id (fold t l k stop) :=
  confined_withState (fun _ => confined_bind (confined_foldLoop t l k _ _) fun _ =>
    confined_withState (fun _ => confined_setSe l k _) fun _ _ => rfl) fun _ _ => rfl

theorem confined_beginSums : Confined laneErased id beginSums :=
  confined_bind (confined_modify (fun _ => rfl) fun _ _ => rfl) fun _ =>
    confined_withState (fun _ => confined_setArea _) fun s v => by rw [sumsArea_withBitsets]

theorem confined_forSums {f : (l k : Nat) → Cmd Unit} (hf : ∀ l k, Confined laneErased id (f l k)) :
    Confined laneErased id (forSums f) := confined_forRange (fun _ => hf _ _) _ 0

theorem confined_sumsResetBody : Confined laneErased id sumsResetBody :=
  confined_withState (fun _ => confined_bind (confined_rejectIf _ _) fun _ =>
    confined_modify (fun _ => rfl) fun _ _ => rfl) fun _ _ => rfl

theorem confined_sumsGetBody (t : Tables) (k : BitVec 2) (lane : BitVec 3) :
    Confined laneErased noResults (sumsGetBody t k lane) :=
  confined_withState (fun _ => confined_bind (confined_rejectIf _ _) fun _ => confined_bind (confined_rejectIf _ _) fun _ =>
    confined_bind (confined_rejectIf _ _) fun _ => confined_bind (confined_rejectIf _ _) fun _ =>
    confined_bind (confined_rejectIf _ _) fun _ => confined_bind confined_beginSums fun _ =>
    confined_bind (confined_fold t _ _ _) fun _ => confined_bind (confined_leaveSum _ _) fun _ =>
    confined_modify (fun _ => rfl) fun _ _ => rfl) fun _ _ => rfl

theorem confined_shiftSum (delta l k : Nat) : Confined laneErased id (shiftSum delta l k) :=
  confined_withState (fun _ => confined_bind (confined_setNe l k _) fun _ => confined_setSe l k _) fun _ _ => rfl

theorem confined_shiftSums (t : Tables) (delta : Nat) (early : Bool) : Confined laneErased id (shiftSums t delta early) :=
  confined_withState (fun _ => confined_bind (confined_rejectIf _ _) fun _ => confined_bind confined_beginSums fun _ =>
    confined_bind (confined_forSums fun l k => confined_fold t l k _) fun _ =>
    confined_bind (confined_modify (fun _ => rfl) fun _ _ => rfl) fun _ =>
    confined_bind (confined_forSums confined_leaveSum) fun _ =>
    confined_bind (confined_forSums (confined_shiftSum delta)) fun _ =>
    confined_bind (confined_s32Value lane_ignores_mem _) fun _ => confined_modify (fun _ => rfl) fun _ _ => rfl) fun _ _ => rfl

theorem confined_winShiftBody (t : Tables) : Confined windowErased id (winShiftBody t) := by
  refine confined_withState (fun s => confined_bind (confined_rejectIf _ _) fun _ =>
    confined_bind (confined_rejectIf _ _) fun _ => ?_) fun _ _ => rfl
  have hshift : Confined windowErased id (modifyState fun s' =>
      shiftWindow (noteEarly (rewrittenEarly s s.arg0.toNat) s') s.arg0.toNat) :=
    confined_modify (fun _ => rfl) fun _ _ => rfl
  exact confined_ite
    (confined_bind ((confined_shiftSums t _ _).coarsen window_ignores_lane) fun _ => hshift)
    (confined_bind (confined_modify (fun _ => rfl) fun _ _ => rfl) fun _ => hshift)

/-! ## Rows -/

section Rows

variable {p : State → State}

theorem confined_rowDesc (hp : Ignores memErased p) (e : Nat) : Confined p id (rowDesc e) :=
  confined_bind (confined_readDesc hp e) fun d => confined_bind (confined_fatalIf _ (by decide)) fun _ => confined_pure d

theorem confined_addOriginal (hp : Ignores memErased p) (dst lp e : Nat) (f : Byte → Byte) :
    Confined p id (addOriginal dst lp e f) :=
  confined_bind (confined_rowDesc hp e) fun _ => confined_bind (confined_accumulate hp _ _ _ _) fun _ =>
    confined_ite (confined_memLoosen hp dst lp) (confined_pure ())

theorem confined_parityData (hp : Ignores memErased p) (dst lp first count : Nat) :
    Confined p id (parityData dst lp first count) := confined_forRange (fun _ => confined_addOriginal hp _ _ _ _) count 0

theorem confined_cauchyData (hp : Ignores memErased p) (s : State) (dst lp first count r : Nat) :
    Confined p id (cauchyData s dst lp first count r) :=
  confined_forRange (fun _ => confined_addOriginal hp _ _ _ _) count 0

theorem confined_lightPairs (hp : Ignores memErased p) (r q lp first u pairs : Nat) (g : Pcg) :
    Confined p id (lightPairs r q lp first u pairs g) := by
  induction pairs generalizing g with
  | zero => exact confined_pure ()
  | succ pairs ih =>
    exact confined_bind (confined_addOriginal hp _ _ _ _) fun _ => confined_bind (confined_addOriginal hp _ _ _ _) fun _ =>
      ih g.advance.advance

end Rows

/-- A fatal cause inside a row opens scratch bytes and nothing else. -/
theorem confined_withScratch {p g : State → State} (hp : Ignores memErased p) (base n : Nat) {body : Cmd Unit}
    (h : Confined p g body) : Confined p g (withScratch base n body) := by
  constructor
  · intro r
    have hbody := h.frame r
    unfold withScratch
    cases hr : body r with
    | ok a r1 =>
      rw [hr] at hbody
      exact hbody
    | error x r1 =>
      rw [hr] at hbody
      cases x with
      | fatal e => exact ⟨(hp.openRange n base r1.st).trans hbody.1, hbody.2⟩
      | _ => exact hbody
  · intro v r
    unfold withScratch
    rw [h.blind v r]
    cases body r with
    | ok a r1 => rfl
    | error x r1 =>
      cases x with
      | fatal e =>
        exact congrArg (fun s => (EStateM.Result.error (.fatal e) { r1 with st := s } : EStateM.Result Stop Run Unit))
          (openRange_withBitsets n base r1.st v)
      | _ => rfl

theorem confined_singleRow : Confined rowErased noResults singleRow :=
  confined_bind (confined_modify (fun _ => rfl) fun _ _ => rfl) fun _ => confined_withState
    (fun _ => confined_bind (confined_rowDesc row_ignores_mem _) fun _ => confined_modify (fun _ => rfl) fun _ _ => rfl)
    fun _ _ => rfl

theorem confined_cauchyBranch : Confined rowErased noResults cauchyBranch := by
  refine confined_bind (confined_modify (fun _ => rfl) fun _ _ => rfl) fun _ => confined_withState (fun s =>
    confined_bind (confined_setArea _) fun _ => confined_withScratch row_ignores_mem _ _ ?_)
    fun s v => by rw [rowArea_withBitsets]; rfl
  exact confined_bind (confined_memZero row_ignores_mem _ _) fun _ => confined_ite
    (confined_bind (confined_parityData row_ignores_mem _ _ _ _) fun _ =>
      confined_bind (confined_modify (fun _ => rfl) fun _ _ => rfl) fun _ => confined_modify (fun _ => rfl) fun _ _ => rfl)
    (confined_bind (confined_cauchyData row_ignores_mem s _ _ _ _ _) fun _ =>
      confined_bind (confined_modify (fun _ => rfl) fun _ _ => rfl) fun _ => confined_modify (fun _ => rfl) fun _ _ => rfl)

theorem confined_denseSum (t : Tables) (op : BitVec 6) (r p lp count l k : Nat) :
    Confined laneErased id (denseSum t op r p lp count l k) := by
  refine confined_ite (confined_bind (confined_fold t l k count) fun _ => confined_withState (fun s => ?_) fun _ _ => rfl)
    (confined_pure ())
  have hp : Confined laneErased id (if op.getLsbD (k + 3) then
      accumulate p (sumAddr s l k) (fun x => x) (min (s.sum l k).sl.toNat lp) else pure ()) :=
    confined_ite (confined_accumulate lane_ignores_mem _ _ _ _) (confined_pure ())
  exact confined_ite (confined_bind (confined_accumulate lane_ignores_mem _ _ _ _) fun _ => hp) hp

theorem confined_siameseData (t : Tables) (row : BitVec 32) (r p lp first count : Nat) :
    Confined laneErased id (siameseData t row r p lp first count) :=
  confined_withState (fun _ => confined_bind (confined_forSums fun l k => confined_denseSum t _ r p lp count l k) fun _ =>
    confined_bind (confined_lightPairs lane_ignores_mem r p lp first _ _ _) fun _ =>
      confined_accumulate lane_ignores_mem r p _ lp) fun _ _ => rfl

/-- The reset of the sums before a Siamese row, or the check of the folded originals (spec R493, R624). -/
theorem confined_refreshSums (first : Nat) :
    Confined laneErased id (modifyState fun s => if sumsStale s then sumsResetTo s first else recheckFolded s) := by
  refine confined_modify (fun s => ?_) fun s v => Eq.symm (withBitsets_ite _ _ v)
  split <;> rfl

theorem confined_siameseRow (t : Tables) : Confined rowErased id (siameseRow t) :=
  confined_withState (fun _ => confined_bind (confined_modify (fun _ => rfl) fun _ _ => rfl) fun _ =>
    confined_bind ((confined_refreshSums _).coarsen row_ignores_lane) fun _ =>
    confined_bind (confined_modify (fun _ => rfl) fun _ _ => rfl) fun _ =>
    confined_withState (fun _ => confined_bind (confined_setArea _) fun _ => confined_withScratch row_ignores_mem _ _ <|
      confined_bind (confined_memZero row_ignores_mem _ _) fun _ =>
        (confined_siameseData t _ _ _ _ _ _).coarsen row_ignores_lane)
      fun s v => by rw [sumsArea_withBitsets, rowArea_withBitsets]; rfl) fun _ _ => rfl

theorem confined_siameseBranch (t : Tables) : Confined rowErased noResults (siameseBranch t) :=
  confined_withState (fun _ => confined_bind (confined_siameseRow t) fun _ =>
    confined_bind ((confined_forSums confined_leaveSum).coarsen row_ignores_lane) fun _ =>
    confined_bind (confined_leaveOpen row_ignores_mem _ _) fun _ => confined_modify (fun _ => rfl) fun _ _ => rfl) fun _ _ => rfl

theorem confined_rowEncodeBody (t : Tables) : Confined rowErased noResults (rowEncodeBody t) := by
  refine confined_withState (fun s => confined_bind (confined_rejectIf _ _) fun _ => confined_ite
    (confined_stop allowed_needMoreData) (confined_ite ?_ ?_)) fun _ _ => rfl
  · exact confined_singleRow
  · exact confined_bind (confined_rejectIf _ _) fun _ => confined_ite
      (confined_bind (confined_rejectIf _ _) fun _ => confined_bind (confined_rejectIf _ _) fun _ => confined_cauchyBranch)
      (confined_bind (confined_rejectIf _ _) fun _ => confined_bind (confined_rejectIf _ _) fun _ =>
        confined_bind (confined_rejectIf _ _) fun _ => confined_siameseBranch t)

theorem confined_cauchyElemBody (r y : Byte) : Confined laneErased noResults (cauchyElemBody r y) :=
  confined_withState (fun _ => confined_bind (confined_rejectIf _ _) fun _ => confined_resultByte _) fun _ _ => rfl

end Sys2Proof.Machine
end

section
/-! SUPPORT. What a command leaves and how it ends: `exec` seen through any view that does not show what the command writes.
The statements of the outcomes (spec R564, R565, R37), of the command frame (R36 to R55) and of the bitsets (R61). -/

namespace Sys2Proof.Machine

/-! ## Every command's frame -/

theorem commandBody_confined {i : Instr} (h : isBitsetCommand i = false) :
    Confined (commandErased i) noResults (commandBody i) := by
  cases i with
  | nop => exact confined_pure ()
  | gfAddMem => exact (confined_gfVector confined_gfAddLoop).weaken
  | gfMuladdMem c => exact (confined_gfVector (confined_gfMuladdLoop c)).weaken
  | gfMulMem c => exact (confined_gfVector (confined_gfMulLoop c)).weaken
  | gfDivMem c => exact (confined_gfDivMemBody c).weaken
  | gfMul a b => exact confined_resultField fun p => gfMul p a b
  | gfDiv a b => exact confined_divides _ _
  | gfSqr a => exact confined_resultField fun p => gfSqr p a
  | gfInv a => exact confined_divides _ _
  | gfLog a => exact confined_gfLogBody a
  | gfExp j => exact confined_resultField fun p => gfExp p (j.toNat % 255)
  | gfNibtab c hi j => exact confined_resultField fun p => if hi then nibHi p c j else nibLo p c j
  | bsSet b | bsClear b | bsCheck b | bsSetRange b | bsClearRange b | bsPopcount b | bsFfc b | bsFfs b => cases h
  | slabAlloc => exact confined_slabAllocBody
  | slabFree => exact confined_slabFreeBody
  | slabRealloc copy => exact confined_slabReallocBody copy
  | slabWinfo => exact confined_slabWinfoBody
  | sumsReset => exact confined_sumsResetBody.weaken
  | sumsGet k lane => exact confined_sumsGetBody Config.tables k lane
  | winShift => exact (confined_winShiftBody Config.tables).weaken
  | rowEncode => exact confined_rowEncodeBody Config.tables
  | cauchyElem r y => exact confined_cauchyElemBody r y

theorem commandBody_frame (i : Instr) : Frame (commandErased i) noResults (commandBody i) := by
  cases i with
  | bsSet b => exact frame_bitsetAt b fun v i => setBits v i (i + 1)
  | bsClear b => exact frame_bitsetAt b fun v i => clearBits v i (i + 1)
  | bsCheck b => exact frame_bsCheckBody b
  | bsSetRange b => exact frame_bitsetOver b _
  | bsClearRange b => exact frame_bitsetOver b _
  | bsPopcount b => exact frame_bitsetAsk b _
  | bsFfc b => exact frame_bsFfcBody b
  | bsFfs b => exact frame_bitsetAsk b _
  | _ => exact (commandBody_confined rfl).frame

/-! ## How a command ends -/

/-- Every command ends with Success, in a state that its frame allows; or it changes nothing but the fields of its end; or it
is fatal, with one of the four causes, and its results are as before (spec R561 to R565). -/
theorem exec_ends {i : Instr} {s t : State} (h : exec i s = .next t) :
    (∃ u, noResults (commandErased i u) = noResults (commandErased i s) ∧ t = u.finish .success) ∨
    (∃ e, t = s.reject .invalidInput e) ∨
    t = s.finish .needMoreData ∨
    ∃ u, ∃ e ∈ fatalBits, commandErased i u = commandErased i s ∧ t = u.fatal e := by
  rw [exec_eq] at h
  obtain rfl : conclude (commandBody i) s = t := Host.Outcome.next.inj h
  have hframe := commandBody_frame i (Run.start s)
  have hmem := commandErased_ignores_mem i
  rcases conclude_cases (commandBody i) s with ⟨r, hr, ht⟩ | ⟨e, r, hr, ht⟩ | ⟨r, hr, ht⟩ | ⟨e, r, hr, ht⟩ | ⟨r, hr, ht⟩ <;>
    rw [hr] at hframe
  · exact .inl ⟨r.st, hframe, ht⟩
  · exact .inr (.inl ⟨e, ht⟩)
  · exact .inr (.inr (.inl ht))
  · obtain ⟨hst, hx⟩ := hframe
    exact .inr (.inr (.inr ⟨_, e, hx e rfl, (hmem.cutOff _ r).trans hst, ht⟩))
  · obtain ⟨hst, -⟩ := hframe
    exact .inr (.inr (.inr ⟨_, .busError, by decide,
      (hmem.portLoss _ _ _).trans ((hmem.mem r.st r.st.mem _).trans hst), ht⟩))

/-- The state but for the fields that the end of a command sets, and the results. -/
def endErased (s : State) : State :=
  { noResults s with
    busy := false, irqPending := false, result := 0, lastOpcode := 0, raced := [], error := 0, disabled := false }

section Ends

variable {τ : Type} {k : State → τ}

theorem Ignores.finish (h : Ignores endErased k) (s : State) (c : ResultCode) : k (s.finish c) = k s :=
  (h _).symm.trans (h s)

theorem Ignores.reject (h : Ignores endErased k) (s : State) (c : ResultCode) (e : ErrorBit) : k (s.reject c e) = k s :=
  (h _).symm.trans (h s)

theorem Ignores.fatal (h : Ignores endErased k) (s : State) (e : ErrorBit) : k (s.fatal e) = k s :=
  (h _).symm.trans (h s)

theorem Ignores.noResults (h : Ignores endErased k) (s : State) : k (noResults s) = k s := (h _).symm.trans (h s)

end Ends

/-- A command leaves whatever neither its body nor its end writes. -/
theorem exec_leaves {τ : Type} (k : State → τ) {i : Instr} {s t : State} (hend : Ignores endErased k)
    (hbody : Ignores (commandErased i) k) (h : exec i s = .next t) : k t = k s := by
  rcases exec_ends h with ⟨u, hu, rfl⟩ | ⟨e, rfl⟩ | rfl | ⟨u, e, -, hu, rfl⟩
  · calc k (u.finish .success) = k (noResults (commandErased i u)) := by rw [hend.finish, hend.noResults, hbody]
      _ = k s := by rw [hu, hend.noResults, hbody]
  · exact hend.reject s _ e
  · exact hend.finish s _
  · calc k (u.fatal e) = k (commandErased i u) := by rw [hend.fatal, hbody]
      _ = k s := by rw [hu, hbody]

/-- A view that shows nothing of what the command's group writes. -/
theorem Ignores.command {τ : Type} {k : State → τ} {i : Instr} (hlane : Ignores laneErased k) (halloc : Ignores allocErased k)
    (hwindow : i = .winShift → Ignores windowErased k) (hrow : i = .rowEncode → Ignores rowErased k)
    (hslab : isSlabCommand i = true → Ignores slabErased k) : Ignores (commandErased i) k := by
  cases i with
  | winShift => exact hwindow rfl
  | rowEncode => exact hrow rfl
  | slabAlloc | slabFree | slabRealloc copy => exact hslab rfl
  | slabWinfo => exact halloc
  | _ => exact hlane

/-- The ERROR and DISABLED registers, which no command writes before its end. -/
def errorSide (s : State) : BitVec 15 × Bool := (s.error, s.disabled)

/-- The result registers. -/
def resultSide (s : State) : Word × Word × Word × Word := (s.res0, s.res1, s.res2, s.res3)

@[simp] theorem code_success : ResultCode.success.code = 0x00#8 := rfl
@[simp] theorem code_invalidInput : ResultCode.invalidInput.code = 0xFF#8 := rfl
@[simp] theorem code_needMoreData : ResultCode.needMoreData.code = 0xFE#8 := rfl
@[simp] theorem code_disabled : ResultCode.disabled.code = 0xFB#8 := rfl

/-- Settles O9: a command's body leaves ERROR and DISABLED, and its results too where it stops, so the way it ends decides. -/
theorem outcomesSetErrors : Obligations.OutcomesSetErrors := by
  intro i s t h
  have herror : Ignores (commandErased i) errorSide :=
    Ignores.command (fun _ => rfl) (fun _ => rfl) (fun _ _ => rfl) (fun _ _ => rfl) (fun _ _ => rfl)
  have hresult : Ignores (commandErased i) resultSide :=
    Ignores.command (fun _ => rfl) (fun _ => rfl) (fun _ _ => rfl) (fun _ _ => rfl) (fun _ _ => rfl)
  rcases exec_ends h with ⟨u, hu, rfl⟩ | ⟨e, rfl⟩ | rfl | ⟨u, e, he, hu, rfl⟩
  · have hside : errorSide u = errorSide s :=
      (herror u).symm.trans ((congrArg errorSide hu).trans (herror s))
    obtain ⟨hbits, hdisabled⟩ := Prod.ext_iff.1 hside
    exact ⟨fun _ => hbits, by simp, by simp, fun _ => hdisabled, by simp⟩
  · exact ⟨by simp, fun _ => ⟨e, rfl⟩, by simp, fun _ => rfl, fun _ => ⟨rfl, rfl, rfl, rfl⟩⟩
  · exact ⟨fun _ => rfl, by simp, by simp, fun _ => rfl, fun _ => ⟨rfl, rfl, rfl, rfl⟩⟩
  · have hside : errorSide u = errorSide s :=
      (herror u).symm.trans ((congrArg errorSide hu).trans (herror s))
    have hres : resultSide u = resultSide s :=
      (hresult u).symm.trans ((congrArg resultSide hu).trans (hresult s))
    obtain ⟨hbits, -⟩ := Prod.ext_iff.1 hside
    exact ⟨by simp, by simp, fun _ => ⟨rfl, e, he, congrArg (· ||| e.mask) hbits⟩, by simp,
      fun _ => by simpa [resultSide] using hres⟩

/-! ## The command frame (spec R36 to R55) -/

/-- The operand registers. -/
def operandSide (s : State) : Word × Word × Word × Word := (s.arg0, s.arg1, s.arg2, s.arg3)

/-- What belongs to the build, the platform and the host. -/
def hostSide (s : State) : Params × Bool × CmdWord × List PortRange × List HostAction × Nat :=
  (s.params, s.irqEn, s.cmd, s.port, s.inbox, s.hostDraws)

/-- The configuration registers that no command writes. -/
def configSide (s : State) : BitVec 32 × Word × Word × BitVec 32 × Word × BitVec 32 :=
  (s.winLongest, s.descBase, s.sumBase, s.sumStride, s.recBase, s.recCap)

/-- The place of the window. -/
def windowSide (s : State) : Column × BitVec 32 × BitVec 32 := (s.winColumnStart, s.winFirstElem, s.winCount)

/-- The row counters. -/
def rowSide (s : State) : BitVec 32 × BitVec 16 × Column × Bool :=
  (s.nextRow, s.nextCauchyRow, s.nextParityColumn, s.npcValid)

variable {i : Instr} {s t : State}

theorem exec_operandSide (h : exec i s = .next t) : operandSide t = operandSide s :=
  exec_leaves operandSide (fun _ => rfl)
    (Ignores.command (fun _ => rfl) (fun _ => rfl) (fun _ _ => rfl) (fun _ _ => rfl) (fun _ _ => rfl)) h

theorem exec_hostSide (h : exec i s = .next t) : hostSide t = hostSide s :=
  exec_leaves hostSide (fun _ => rfl)
    (Ignores.command (fun _ => rfl) (fun _ => rfl) (fun _ _ => rfl) (fun _ _ => rfl) (fun _ _ => rfl)) h

theorem exec_configSide (h : exec i s = .next t) : configSide t = configSide s :=
  exec_leaves configSide (fun _ => rfl)
    (Ignores.command (fun _ => rfl) (fun _ => rfl) (fun _ _ => rfl) (fun _ _ => rfl) (fun _ _ => rfl)) h

theorem exec_windowSide (hi : i ≠ .winShift) (h : exec i s = .next t) : windowSide t = windowSide s :=
  exec_leaves windowSide (fun _ => rfl)
    (Ignores.command (fun _ => rfl) (fun _ => rfl) (fun h => absurd h hi) (fun _ _ => rfl) (fun _ _ => rfl)) h

theorem exec_rowSide (hi : i ≠ .rowEncode) (h : exec i s = .next t) : rowSide t = rowSide s :=
  exec_leaves rowSide (fun _ => rfl)
    (Ignores.command (fun _ => rfl) (fun _ => rfl) (fun _ _ => rfl) (fun h => absurd h hi) (fun _ _ => rfl)) h

theorem exec_params (h : exec i s = .next t) : t.params = s.params := (Prod.ext_iff.1 (exec_hostSide h)).1

/-- Settles O10, group by group of the registers. -/
theorem commandFrame : Obligations.CommandFrame := by
  intro i s t h
  refine ⟨?_, ?_, ?_, fun hi => ?_, fun hi => ?_⟩
  · simpa [operandSide] using exec_operandSide h
  · simpa [hostSide] using exec_hostSide h
  · simpa [configSide] using exec_configSide h
  · simpa [windowSide] using exec_windowSide hi h
  · simpa [rowSide] using exec_rowSide hi h

/-! ## The bitsets (spec R61) -/

theorem wouldRun_withBitsets {body : Cmd Unit} (h : Blind body) (s : State) (v : Bitsets) :
    wouldRun body (s.withBitsets v) = (wouldRun body s).withBitsets v := by
  have hrun := h v { Run.start { s with port := s.port.filter (fun p => p.kind == .device) } with skip := true }
  unfold wouldRun
  cases hr : body { Run.start { s with port := s.port.filter (fun p => p.kind == .device) } with skip := true } with
  | ok a r =>
    rw [hr] at hrun
    exact congrArg (fun x => match x with | .ok _ r => r | .error _ r => r) hrun
  | error x r =>
    rw [hr] at hrun
    exact congrArg (fun x => match x with | .ok _ r => r | .error _ r => r) hrun

theorem cutOff_withBitsets (w r : Run) (v : Bitsets) :
    cutOff (w.withBitsets v) (r.withBitsets v) = (cutOff w r).withBitsets v :=
  openList_withBitsets _ { r.st with draws := max r.st.draws w.st.draws } v

/-- A command that does not look at the bitsets ends, from a state with other bitsets, in the same state with those. -/
theorem conclude_withBitsets {body : Cmd Unit} (h : Blind body) (s : State) (v : Bitsets) :
    conclude body (s.withBitsets v) = (conclude body s).withBitsets v := by
  have hrun : body (Run.start (s.withBitsets v)) = resultWithBitsets v (body (Run.start s)) := h v (Run.start s)
  rcases conclude_cases body s with ⟨r, hr, ht⟩ | ⟨e, r, hr, ht⟩ | ⟨r, hr, ht⟩ | ⟨e, r, hr, ht⟩ | ⟨r, hr, ht⟩ <;>
    rw [hr] at hrun <;> rw [ht]
  · exact conclude_ok hrun
  · exact conclude_reject hrun
  · exact conclude_needMoreData hrun
  · rw [conclude_fatal hrun, wouldRun_withBitsets h]
    exact congrArg (·.fatal e) (cutOff_withBitsets _ r v)
  · rw [conclude_portError hrun, wouldRun_withBitsets h]
    have hloss := portLoss_withBitsets (wouldRun body s).st.mem (wouldRun body s).writes
      { r.st with draws := max r.st.draws (wouldRun body s).st.draws } v
    exact congrArg (·.fatal .busError) hloss

theorem exec_withBitsets (hi : isBitsetCommand i = false) (h : exec i s = .next t) (v : Bitsets) :
    exec i (s.withBitsets v) = .next (t.withBitsets v) := by
  rw [exec_eq] at h ⊢
  rw [conclude_withBitsets (commandBody_confined hi).blind, Host.Outcome.next.inj h]

/-- Giving a state its own bitsets changes nothing, so a command that does not look at them leaves them. -/
theorem exec_bitsets (hi : isBitsetCommand i = false) (h : exec i s = .next t) : t.bitsets = s.bitsets := by
  have hown : exec i s = .next (t.withBitsets s.bitsets) := exec_withBitsets hi h s.bitsets
  have ht : t = t.withBitsets s.bitsets := Host.Outcome.next.inj (h.symm.trans hown)
  exact (congrArg State.bitsets ht).trans rfl

theorem reset_bit (b j : Nat) : State.reset.bit b j = false := by
  have hbank : State.reset.bitset b = 0 := by
    simp only [State.bitset, State.reset]
    by_cases hb : b < Config.maxBitsets <;> simp [hb]
  rw [State.bit, hbank]
  exact BitVec.getLsbD_zero

/-- Settles O25: the pseudocode of the other commands commutes with a change of the bitsets. -/
theorem bitsetIsolation : Obligations.BitsetIsolation :=
  ⟨fun _ _ _ v hi h => ⟨exec_bitsets hi h, exec_withBitsets hi h v⟩, reset_bit⟩

end Sys2Proof.Machine
end

section
/-! SUPPORT. All that a step can come to, and how a property that every command and every action of the host keeps is kept by
every step. -/

namespace Sys2Proof.Machine

/-! ## From frames to properties -/

/-- A command that leaves a part keeps what depends on that part alone. -/
theorem Frame.keeps {p : State → State} {Q : State → Prop} {α : Type} {c : Cmd α} (h : Frame p id c) (hQ : Ignores p Q) :
    Keeps (fun r => Q r.st) c := by
  intro r hr
  have hc := h r
  have same : ∀ {s : State}, p s = p r.st → Q s := fun {s} hs => by
    rw [← hQ s, hs, hQ]
    exact hr
  exact ⟨fun a r' h' => by rw [h'] at hc; exact same hc, fun x r' h' => by rw [h'] at hc; exact same hc.1⟩

/-- The check of a command's condition: what comes after it may use that the condition is not met. -/
theorem keeps_rejectIf_bind {P : Run → Prop} {α : Type} {c : Prop} [Decidable c] {e : ErrorBit} {f : Unit → Cmd α}
    (h : ¬ c → ∀ u, Keeps P (f u)) : Keeps P (rejectIf (decide c) e >>= f) := by
  intro r hr
  by_cases hc : c
  · rw [decide_eq_true hc, bind_run_error (rejectIf_true e r)]
    exact keeps_stop (α := α) (.reject e) r hr
  · rw [decide_eq_false hc, bind_run_ok (rejectIf_false e r)]
    exact h hc () r hr

/-- What a command's body keeps, its end keeps too, if it is no matter of the data memory and the fields of the end. -/
theorem conclude_keeps {Q : State → Prop} (hmem : Ignores memErased Q) (hend : Ignores endErased Q) {body : Cmd Unit}
    (h : Keeps (fun r => Q r.st) body) {s : State} (hs : Q s) : Q (conclude body s) := by
  obtain ⟨hok, herror⟩ := h (Run.start s) hs
  rcases conclude_cases body s with ⟨r, hr, ht⟩ | ⟨e, r, hr, ht⟩ | ⟨r, hr, ht⟩ | ⟨e, r, hr, ht⟩ | ⟨r, hr, ht⟩ <;> rw [ht]
  · exact (hend.finish r.st _).mpr (hok _ _ hr)
  · exact (hend.reject s _ e).mpr hs
  · exact (hend.finish s _).mpr hs
  · exact (hend.fatal _ e).mpr ((hmem.cutOff _ r).mpr (herror _ _ hr))
  · exact (hend.fatal _ _).mpr ((hmem.portLoss _ _ _).mpr ((hmem.mem r.st r.st.mem _).mpr (herror _ _ hr)))

/-- A fatal cause inside a row opens scratch bytes. -/
theorem keeps_withScratch {Q : State → Prop} (hmem : Ignores memErased Q) (base n : Nat) {body : Cmd Unit}
    (h : Keeps (fun r => Q r.st) body) : Keeps (fun r => Q r.st) (withScratch base n body) := by
  intro r hr
  obtain ⟨hok, herror⟩ := h r hr
  cases hb : body r with
  | ok a r1 =>
    rw [withScratch_ok hb]
    exact keeps_pure (P := fun r => Q r.st) a r1 (hok _ _ hb)
  | error x r1 =>
    have h1 : Q r1.st := herror _ _ hb
    rw [withScratch, hb]
    cases x with
    | fatal e =>
      exact keeps_stop (P := fun r => Q r.st) (.fatal e) { r1 with st := openRange n base r1.st }
        ((hmem.openRange n base r1.st).mpr h1)
    | _ => exact keeps_stop (P := fun r => Q r.st) _ r1 h1

/-! ## The host's side -/

/-- The state but for the data memory, the flags and records that an action of the host may change besides the registers it
stores to, and the inbox. -/
def hostErased (s : State) : State :=
  { s with
    mem := []
    draws := 0
    busy := false
    cmd := 0
    irqPending := false
    result := 0
    lastOpcode := 0
    irqEn := false
    error := 0
    sumsTainted := false
    pending := []
    replaced := []
    copied := []
    raced := []
    hostDraws := 0
    inbox := []
    hostRead := 0 }

theorem hostMemStore_hostErased (s : State) (a : Nat) (bytes : List Byte) :
    hostErased (hostMemStore s a bytes) = hostErased s := by
  induction bytes generalizing s a with
  | nil => rfl
  | cons v vs ih =>
    refine (ih _ _).trans ?_
    simp only [hostStoreByte]
    split <;> rfl

/-- Reset leaves the block as reset leaves it, the parameters as they were, from whatever a running command had come to. -/
theorem resetNow_eq (s : State) : ∃ u : State, u.params = s.params ∧ resetNow s = u.resetBlock := by
  unfold resetNow
  split
  · refine ⟨_, ?_, rfl⟩
    exact Ignores.openList (k := State.params) (fun _ => rfl) (runningCommand s).writes
      { s with draws := max s.draws (runningCommand s).st.draws }
  · exact ⟨s, rfl, rfl⟩

theorem some_ite_cases {c : Prop} [Decidable c] {a x : State} {b : Option State} (h : (if c then some a else b) = some x) :
    (c ∧ x = a) ∨ b = some x := by
  by_cases hc : c
  · rw [if_pos hc] at h
    exact .inl ⟨hc, (Option.some.inj h).symm⟩
  · rw [if_neg hc] at h
    exact .inr h

/-- The registers that a store can write, each with the value that its rule allows (spec R36, R40 to R52). -/
theorem configStore_cases {s s' : State} {offset : Nat} {v : Word} (h : configStore s offset v = some s') :
    (offset = 0x028 ∧ s' = { s with arg0 := v }) ∨
    (offset = 0x030 ∧ s' = { s with arg1 := v }) ∨
    (offset = 0x038 ∧ s' = { s with arg2 := v }) ∨
    (offset = 0x040 ∧ s' = { s with arg3 := v }) ∨
    (offset = 0x080 ∧ s' = { s with winColumnStart := v.setWidth 22 &&& 0x3FFFF8#22 }) ∨
    (offset = 0x088 ∧ s' = { s with winFirstElem := v.setWidth 32 }) ∨
    (offset = 0x090 ∧ s' = { s with winCount := v.setWidth 32 }) ∨
    (offset = 0x098 ∧ s' = { s with winLongest := v.setWidth 32 }) ∨
    (offset = 0x0A0 ∧ s' = { s with descBase := alignedBase v }) ∨
    (offset = 0x0A8 ∧ s' = { s with sumBase := alignedBase v }) ∨
    (offset = 0x0B0 ∧ s' = { s with sumStride := v.setWidth 32 &&& 0xFFFFFFF0#32 }) ∨
    (offset = 0x0B8 ∧ s' = { s with recBase := alignedBase v }) ∨
    (offset = 0x0C0 ∧ s' = { s with recCap := v.setWidth 32 }) ∨
    (offset = 0x0C8 ∧ s' = { s with nextRow := BitVec.ofNat 32 (v.toNat % 2 ^ 32 % s.params.rowPeriod) }) ∨
    (offset = 0x0D0 ∧ s' = { s with nextCauchyRow := BitVec.ofNat 16 (v.toNat % 2 ^ 16 % s.params.maxCauchyRows) }) ∨
    (offset = 0x0D8 ∧ s' = { s with nextParityColumn := v.setWidth 22, npcValid := v.getLsbD 32 }) := by
  unfold configStore at h
  iterate 15 refine (some_ite_cases h).imp_right fun h => ?_
  exact (some_ite_cases h).resolve_right nofun

/-- The state but for the registers that a store can write. -/
def configErased (s : State) : State :=
  { s with
    arg0 := 0, arg1 := 0, arg2 := 0, arg3 := 0
    winColumnStart := 0, winFirstElem := 0, winCount := 0, winLongest := 0
    descBase := 0, sumBase := 0, sumStride := 0, recBase := 0, recCap := 0
    nextRow := 0, nextCauchyRow := 0, nextParityColumn := 0, npcValid := false }

theorem configStore_leaves {τ : Type} {k : State → τ} (hk : Ignores configErased k) {s s' : State} {offset : Nat} {v : Word}
    (h : configStore s offset v = some s') : k s' = k s := by
  have herased : configErased s' = configErased s := by
    rcases configStore_cases h with ⟨-, rfl⟩ | ⟨-, rfl⟩ | ⟨-, rfl⟩ | ⟨-, rfl⟩ | ⟨-, rfl⟩ | ⟨-, rfl⟩ | ⟨-, rfl⟩ | ⟨-, rfl⟩ |
      ⟨-, rfl⟩ | ⟨-, rfl⟩ | ⟨-, rfl⟩ | ⟨-, rfl⟩ | ⟨-, rfl⟩ | ⟨-, rfl⟩ | ⟨-, rfl⟩ | ⟨-, rfl⟩ <;> rfl
  exact (hk s').symm.trans ((congrArg k herased).trans (hk s))

/-- All that a store to the CSR window can do. -/
theorem csrStoreEffect_cases (s : State) (offset : Nat) (v : Word) :
    hostErased (csrStoreEffect s offset v) = hostErased s ∨ csrStoreEffect s offset v = resetNow s ∨
    ∃ s', configStore s offset v = some s' ∧ hostErased (csrStoreEffect s offset v) = hostErased s' := by
  unfold csrStoreEffect
  split
  · exact .inl rfl
  · split
    · unfold controlStore
      split
      · exact .inr (.inl rfl)
      · exact .inl rfl
    · split
      · exact .inl rfl
      · split
        · split <;> exact .inl rfl
        · cases hc : configStore s offset v with
          | none => exact .inl rfl
          | some s' =>
            by_cases hb : s.busy = true
            · simp only [hb, if_true]
              exact .inl rfl
            · simp only [hb]
              exact .inr (.inr ⟨s', rfl, rfl⟩)

/-- All that a step can come to, from the state `s₀` that the inbox leaves: a command, a reset, a store to an operand,
configuration or row-counter register, a reclaimed region, or nothing but flags, records and bytes of the data memory. -/
theorem step_ends {s t : State} (h : step s = .next t) : ∃ s₀, hostErased s₀ = hostErased s ∧
    (hostErased t = hostErased s₀ ∨ (∃ i, exec i s₀ = .next t) ∨ (∃ u : State, u.params = s₀.params ∧ t = u.resetBlock) ∨
      (∃ offset v s', configStore s₀ offset v = some s' ∧ hostErased t = hostErased s') ∨
      ∃ addr, t = reclaimRegion s₀ addr) := by
  have run : ∀ s₀, runCommand s₀ = .next t → hostErased t = hostErased s₀ ∨ ∃ i, exec i s₀ = .next t := by
    intro s₀ hrun
    rcases runCommand_cases s₀ with ⟨-, hr⟩ | ⟨-, -, hr⟩ | ⟨-, -, hr⟩ | ⟨i, -, -, hr⟩ <;> rw [hr] at hrun
    · exact .inl (by cases hrun; rfl)
    · exact .inl (by cases hrun; rfl)
    · exact .inl (by cases hrun; rfl)
    · exact .inr ⟨i, (exec_eq i s₀).trans hrun⟩
  rcases step_cases s with ⟨a, rest, -, hs⟩ | ⟨-, -, hs⟩ | ⟨-, -, hs⟩ <;> rw [hs] at h
  · refine ⟨{ s with inbox := rest }, rfl, ?_⟩
    cases a with
    | csrStore addr width v =>
      cases h
      unfold csrStore
      split
      · split
        · rcases csrStoreEffect_cases { s with inbox := rest } _ v with he | he | ⟨s', hc, he⟩
          · exact .inl he
          · obtain ⟨u, hu, hr⟩ := resetNow_eq { s with inbox := rest }
            exact .inr (.inr (.inl ⟨u, hu, he.trans hr⟩))
          · exact .inr (.inr (.inr (.inl ⟨_, v, s', hc, he⟩)))
        · exact .inl rfl
      · exact .inl rfl
    | csrLoad addr width =>
      cases h
      exact .inl rfl
    | memStore addr bytes =>
      cases h
      exact .inl (hostMemStore_hostErased { s with inbox := rest } _ bytes)
    | memLoad addr =>
      cases h
      exact .inl rfl
    | letRun =>
      simp only [hostAct] at h
      split at h
      · rcases run _ h with he | hi
        · exact .inl he
        · exact .inr (.inl hi)
      · cases h
        exact .inl rfl
    | platformReset =>
      cases h
      exact .inr (.inr (.inl (resetNow_eq { s with inbox := rest })))
    | reclaim addr =>
      cases h
      exact .inr (.inr (.inr (.inr ⟨_, rfl⟩)))
  · rcases run s h with he | hi
    · exact ⟨s, rfl, .inl he⟩
    · exact ⟨s, rfl, .inr (.inl hi)⟩
  · cases h
    exact ⟨s, rfl, .inl rfl⟩

/-- A property of the registers and the internal state that every command, every store to a register, a reset and a reclaim
keep is kept by every step. -/
theorem step_keeps {Q : State → Prop} (hQ : Ignores hostErased Q) (hexec : ∀ {i s t}, exec i s = .next t → Q s → Q t)
    (hreset : ∀ {s u : State}, u.params = s.params → Q s → Q u.resetBlock)
    (hconfig : ∀ {s s' offset v}, configStore s offset v = some s' → Q s → Q s')
    (hreclaim : ∀ {s} addr, Q s → Q (reclaimRegion s addr)) {s t : State} (h : step s = .next t) (hs : Q s) : Q t := by
  have same : ∀ {u u' : State}, hostErased u' = hostErased u → Q u → Q u' := fun {u u'} he hu => by
    rw [← hQ u', he, hQ]
    exact hu
  obtain ⟨s₀, h₀, hend⟩ := step_ends h
  have hs₀ : Q s₀ := same h₀ hs
  rcases hend with he | ⟨i, hi⟩ | ⟨u, hu, rfl⟩ | ⟨offset, v, s', hc, he⟩ | ⟨addr, rfl⟩
  · exact same he hs₀
  · exact hexec hi hs₀
  · exact hreset hu hs₀
  · exact same he (hconfig hc hs₀)
  · exact hreclaim addr hs₀

end Sys2Proof.Machine
end

section
/-! SUPPORT. Every step keeps the WARL registers and the row counters legal (spec R40, R44 to R47, R50, R51). -/

namespace Sys2Proof.Machine

/-- A build with at least one row in each of its row counters' ranges, and row counters inside them (spec R11, R50, R51). -/
def RowCountersLegal (s : State) : Prop :=
  s.params.Legal ∧ s.nextRow.toNat < s.params.rowPeriod ∧ s.nextCauchyRow.toNat < s.params.maxCauchyRows

/-- WIN_COLUMN_START is a multiple of 8 (spec R40). -/
def ColumnAligned (s : State) : Prop := s.winColumnStart.toNat % 8 = 0

/-! ## Taking a number modulo a bound keeps a register below it -/

theorem ofNat_mod_lt {w : Nat} (n : Nat) {b : Nat} (hb : 1 ≤ b) : (BitVec.ofNat w (n % b)).toNat < b := by
  rw [BitVec.toNat_ofNat]
  exact lt_of_le_of_lt (Nat.mod_le _ _) (Nat.mod_lt _ hb)

theorem rowPeriod_pos {p : Params} (h : p.Legal) : 1 ≤ p.rowPeriod := by
  obtain ⟨-, -, -, -, -, -, -, -, -, ⟨hperiod, -⟩, -⟩ := h
  exact hperiod

theorem maxCauchyRows_pos {p : Params} (h : p.Legal) : 1 ≤ p.maxCauchyRows := by
  obtain ⟨-, -, -, hrows, -⟩ := h
  exact hrows

/-- The next value of NEXT_ROW (spec R50, R493). -/
theorem RowCountersLegal.advanceRow {s : State} (h : RowCountersLegal s) (n : Nat) :
    RowCountersLegal { s with nextRow := BitVec.ofNat 32 (n % s.params.rowPeriod) } := by
  obtain ⟨hlegal, -, hcauchy⟩ := h
  exact ⟨hlegal, ofNat_mod_lt n (rowPeriod_pos hlegal), hcauchy⟩

/-- The next value of NEXT_CAUCHY_ROW (spec R51, R492). -/
theorem RowCountersLegal.advanceCauchyRow {s : State} (h : RowCountersLegal s) (n : Nat) :
    RowCountersLegal { s with nextCauchyRow := BitVec.ofNat 16 (n % s.params.maxCauchyRows) } := by
  obtain ⟨hlegal, hrow, -⟩ := h
  exact ⟨hlegal, hrow, ofNat_mod_lt n (maxCauchyRows_pos hlegal)⟩

/-! ## WIN_SHIFT keeps the column start a multiple of 8 (spec R432) -/

theorem ColumnAligned.shiftWindow {s : State} (h : ColumnAligned s) {delta : Nat} (hd : delta % 8 = 0) :
    ColumnAligned (shiftWindow s delta) := by
  unfold ColumnAligned at h ⊢
  simp only [Machine.shiftWindow, BitVec.toNat_ofNat]
  omega

theorem winShiftBody_keeps_aligned (t : Tables) : Keeps (fun r => ColumnAligned r.st) (winShiftBody t) := by
  refine keeps_withState fun r _ => keeps_bind (keeps_rejectIf _ _) fun _ => keeps_rejectIf_bind fun hdelta _ => ?_
  have hshift : Keeps (fun r => ColumnAligned r.st) (modifyState fun s' =>
      shiftWindow (noteEarly (rewrittenEarly r.st r.st.arg0.toNat) s') r.st.arg0.toNat) :=
    keeps_modifyState fun r' h => ColumnAligned.shiftWindow (s := noteEarly _ r'.st) h (by omega)
  exact keeps_ite
    (fun _ => keeps_bind ((confined_shiftSums t _ _).frame.keeps fun _ => rfl) fun _ => hshift)
    (fun _ => keeps_bind (keeps_modifyState fun _ h => h) fun _ => hshift)

/-! ## ROW_ENCODE keeps the row counters in range (spec R492, R493) -/

theorem singleRow_keeps_counters : Keeps (fun r => RowCountersLegal r.st) singleRow :=
  keeps_bind (keeps_modifyState fun _ h => h) fun _ => keeps_withState fun _ _ =>
    keeps_bind ((confined_rowDesc lane_ignores_mem _).frame.keeps fun _ => rfl) fun _ => keeps_modifyState fun _ h => h

/-- What the row's bytes are made of leaves the counters. -/
theorem Confined.keeps_counters {α : Type} {c : Cmd α} (h : Confined laneErased id c) :
    Keeps (fun r => RowCountersLegal r.st) c := h.frame.keeps fun _ => rfl

theorem cauchyBranch_keeps_counters : Keeps (fun r => RowCountersLegal r.st) cauchyBranch := by
  refine keeps_bind (keeps_modifyState fun _ h => h) fun _ => keeps_withState fun r _ =>
    keeps_bind (confined_setArea _).keeps_counters fun _ => keeps_withScratch (fun _ => rfl) _ _ <|
    keeps_bind (confined_memZero lane_ignores_mem _ _).keeps_counters fun _ => keeps_ite (fun _ => ?_) (fun _ => ?_)
  · exact keeps_bind (confined_parityData lane_ignores_mem _ _ _ _).keeps_counters fun _ =>
      keeps_bind (keeps_modifyState fun _ h => h) fun _ => keeps_modifyState fun _ h => h
  · exact keeps_bind (confined_cauchyData lane_ignores_mem r.st _ _ _ _ _).keeps_counters fun _ =>
      keeps_bind (keeps_modifyState fun _ h => h.advanceCauchyRow _) fun _ => keeps_modifyState fun _ h => h

theorem siameseRow_keeps_counters (t : Tables) : Keeps (fun r => RowCountersLegal r.st) (siameseRow t) :=
  keeps_withState fun _ _ => keeps_bind (keeps_modifyState fun _ h => h) fun _ =>
    keeps_bind (confined_refreshSums _).keeps_counters fun _ =>
    keeps_bind (keeps_modifyState fun _ h => h.advanceRow _) fun _ => keeps_withState fun _ _ =>
    keeps_bind (confined_setArea _).keeps_counters fun _ => keeps_withScratch (fun _ => rfl) _ _ <|
    keeps_bind (confined_memZero lane_ignores_mem _ _).keeps_counters fun _ =>
      (confined_siameseData t _ _ _ _ _ _).keeps_counters

theorem siameseBranch_keeps_counters (t : Tables) : Keeps (fun r => RowCountersLegal r.st) (siameseBranch t) :=
  keeps_withState fun _ _ => keeps_bind (siameseRow_keeps_counters t) fun _ =>
    keeps_bind (confined_forSums confined_leaveSum).keeps_counters fun _ =>
    keeps_bind (confined_leaveOpen lane_ignores_mem _ _).keeps_counters fun _ => keeps_modifyState fun _ h => h

theorem rowEncodeBody_keeps_counters (t : Tables) : Keeps (fun r => RowCountersLegal r.st) (rowEncodeBody t) :=
  keeps_withState fun _ _ => keeps_bind (keeps_rejectIf _ _) fun _ => keeps_ite (fun _ => keeps_stop _) fun _ =>
    keeps_ite (fun _ => singleRow_keeps_counters) fun _ => keeps_bind (keeps_rejectIf _ _) fun _ => keeps_ite
      (fun _ => keeps_bind (keeps_rejectIf _ _) fun _ => keeps_bind (keeps_rejectIf _ _) fun _ =>
        cauchyBranch_keeps_counters)
      (fun _ => keeps_bind (keeps_rejectIf _ _) fun _ => keeps_bind (keeps_rejectIf _ _) fun _ =>
        keeps_bind (keeps_rejectIf _ _) fun _ => siameseBranch_keeps_counters t)

/-! ## Every step -/

/-- What RegistersLegal is about, with legal parameters. -/
theorem registersLegal_iff {s : State} (h : s.params.Legal) : RegistersLegal s ↔
    ColumnAligned s ∧ (s.descBase.toNat % 16 = 0 ∧ s.sumBase.toNat % 16 = 0 ∧ s.sumStride.toNat % 16 = 0 ∧
      s.recBase.toNat % 16 = 0) ∧ RowCountersLegal s := by
  unfold RegistersLegal ColumnAligned RowCountersLegal
  tauto

variable {i : Instr} {s t : State}

theorem exec_keeps_aligned (h : exec i s = .next t) (hs : ColumnAligned s) : ColumnAligned t := by
  by_cases hi : i = .winShift
  · subst hi
    rw [exec_eq] at h
    cases h
    exact conclude_keeps (fun _ => rfl) (fun _ => rfl) (winShiftBody_keeps_aligned _) hs
  · obtain ⟨hcolumn, -⟩ := Prod.ext_iff.1 (exec_windowSide hi h)
    rw [ColumnAligned, show t.winColumnStart = s.winColumnStart from hcolumn]
    exact hs

theorem exec_keeps_counters (h : exec i s = .next t) (hs : RowCountersLegal s) : RowCountersLegal t := by
  by_cases hi : i = .rowEncode
  · subst hi
    rw [exec_eq] at h
    cases h
    exact conclude_keeps (fun _ => rfl) (fun _ => rfl) (rowEncodeBody_keeps_counters _) hs
  · have hrow := exec_rowSide hi h
    simp only [rowSide, Prod.mk.injEq] at hrow
    obtain ⟨hnext, hcauchy, -⟩ := hrow
    rw [RowCountersLegal, exec_params h, hnext, hcauchy]
    exact hs

theorem exec_keeps_registersLegal (h : exec i s = .next t) (hlegal : s.params.Legal) (hs : RegistersLegal s) :
    RegistersLegal t := by
  have hconfig := exec_configSide h
  simp only [configSide, Prod.mk.injEq] at hconfig
  obtain ⟨-, hdesc, hsum, hstride, hrec, -⟩ := hconfig
  obtain ⟨hcolumn, hbases, hcounters⟩ := (registersLegal_iff hlegal).1 hs
  rw [registersLegal_iff (by rwa [exec_params h]), hdesc, hsum, hstride, hrec]
  exact ⟨exec_keeps_aligned h hcolumn, hbases, exec_keeps_counters h hcounters⟩

/-- A mask whose low `k` bits are 0 leaves a multiple of `2 ^ k`. -/
theorem toNat_and_mod_eq_zero {w k : Nat} (x m : BitVec w) (h : m.toNat % 2 ^ k = 0) : (x &&& m).toNat % 2 ^ k = 0 := by
  rw [BitVec.toNat_and, Nat.and_mod_two_pow, h, Nat.and_zero]

/-- A base register takes a multiple of 16 (spec R44, R45, R47). -/
theorem alignedBase_mod (v : Word) : (alignedBase v).toNat % 16 = 0 := toNat_and_mod_eq_zero (k := 4) v _ rfl

/-- Reset puts every register at 0, which is legal for every legal build (spec R68). -/
theorem resetBlock_registersLegal {u : State} (h : u.params.Legal) : RegistersLegal u.resetBlock :=
  ⟨rfl, rfl, rfl, rfl, rfl, rowPeriod_pos h, maxCauchyRows_pos h⟩

/-- A store to a register leaves a value that its rule allows (spec R40 to R52). -/
theorem configStore_keeps_registersLegal {s' : State} {offset : Nat} {v : Word}
    (h : configStore s offset v = some s') (hlegal : s.params.Legal) (hs : RegistersLegal s) : RegistersLegal s' := by
  have ⟨hcolumn, hdesc, hsum, hstride, hrec, hrow, hcauchy⟩ := hs
  rcases configStore_cases h with ⟨-, rfl⟩ | ⟨-, rfl⟩ | ⟨-, rfl⟩ | ⟨-, rfl⟩ | ⟨-, rfl⟩ | ⟨-, rfl⟩ | ⟨-, rfl⟩ | ⟨-, rfl⟩ |
    ⟨-, rfl⟩ | ⟨-, rfl⟩ | ⟨-, rfl⟩ | ⟨-, rfl⟩ | ⟨-, rfl⟩ | ⟨-, rfl⟩ | ⟨-, rfl⟩ | ⟨-, rfl⟩
  · exact hs
  · exact hs
  · exact hs
  · exact hs
  · exact ⟨toNat_and_mod_eq_zero (k := 3) _ _ rfl, hdesc, hsum, hstride, hrec, hrow, hcauchy⟩
  · exact hs
  · exact hs
  · exact hs
  · exact ⟨hcolumn, alignedBase_mod v, hsum, hstride, hrec, hrow, hcauchy⟩
  · exact ⟨hcolumn, hdesc, alignedBase_mod v, hstride, hrec, hrow, hcauchy⟩
  · exact ⟨hcolumn, hdesc, hsum, toNat_and_mod_eq_zero (k := 4) _ _ rfl, hrec, hrow, hcauchy⟩
  · exact ⟨hcolumn, hdesc, hsum, hstride, alignedBase_mod v, hrow, hcauchy⟩
  · exact hs
  · exact ⟨hcolumn, hdesc, hsum, hstride, hrec, ofNat_mod_lt _ (rowPeriod_pos hlegal), hcauchy⟩
  · exact ⟨hcolumn, hdesc, hsum, hstride, hrec, hrow, ofNat_mod_lt _ (maxCauchyRows_pos hlegal)⟩
  · exact hs

/-- Settles O22: every command and every store keeps the registers legal, and reset makes them so. -/
theorem stepKeepsRegistersLegal : Obligations.StepKeepsRegistersLegal := by
  intro s t hlegal hs h
  have ⟨hparams, _, hregisters⟩ : t.params = s.params ∧ s.params.Legal ∧ RegistersLegal t := by
    refine step_keeps (Q := fun u => u.params = s.params ∧ s.params.Legal ∧ RegistersLegal u) (fun _ => rfl) ?_ ?_ ?_ ?_ h
      ⟨rfl, hlegal, hs⟩
    · rintro i u u' hi ⟨hp, -, hu⟩
      exact ⟨(exec_params hi).trans hp, hlegal, exec_keeps_registersLegal hi (by rwa [hp]) hu⟩
    · rintro u u' hu ⟨hp, -, -⟩
      exact ⟨hu.trans hp, hlegal, resetBlock_registersLegal (by rwa [hu, hp])⟩
    · rintro u u' offset v hc ⟨hp, -, hu⟩
      have hp' : u'.params = u.params := configStore_leaves (fun _ => rfl) hc
      exact ⟨hp'.trans hp, hlegal, configStore_keeps_registersLegal hc (by rwa [hp]) hu⟩
    · rintro u addr hu
      unfold reclaimRegion
      split <;> exact hu
  exact ⟨hparams, hregisters⟩

end Sys2Proof.Machine
end

section
/-! SUPPORT. Every step keeps the slab allocator's invariant, and every live window in the host's books (spec R63, R353, R354,
R601). -/

namespace Sys2Proof.Machine

/-! ## Counting the units of a window -/

section Counting

variable {w : Nat} {b : BitVec w} {a n N : Nat}

/-- Counting below, inside and above a run. -/
theorem popcountRange_split (b : BitVec w) (h : a + n ≤ N) :
    popcountRange b 0 N = countSet b a 0 + countSet b n a + countSet b (N - (a + n)) (a + n) := by
  conv_lhs => rw [popcountRange, Nat.sub_zero, show N = a + n + (N - (a + n)) by omega]
  rw [countSet_add, countSet_add, Nat.zero_add, Nat.zero_add]

/-- Setting the bits of a free run counts them in. -/
theorem popcountRange_setBits (hclear : ∀ i, a ≤ i → i < a + n → b.getLsbD i = false) (h : a + n ≤ N) (hN : N ≤ w) :
    popcountRange (setBits b a (a + n)) 0 N = popcountRange b 0 N + n := by
  have hlow : countSet (setBits b a (a + n)) a 0 = countSet b a 0 :=
    countSet_congr fun i _ hi => by simp [getLsbD_setBits, show ¬ a ≤ i by omega]
  have hrun : countSet (setBits b a (a + n)) n a = n :=
    countSet_eq_all.2 fun i h1 h2 => by simp [getLsbD_setBits, h1, h2, show i < w by omega]
  have hhigh : countSet (setBits b a (a + n)) (N - (a + n)) (a + n) = countSet b (N - (a + n)) (a + n) :=
    countSet_congr fun i hi _ => by simp [getLsbD_setBits, show ¬ i < a + n by omega]
  rw [popcountRange_split _ h, popcountRange_split b h, hlow, hrun, hhigh, countSet_eq_zero.2 hclear]
  omega

/-- Clearing the bits of an allocated run counts them out. -/
theorem popcountRange_clearBits (hset : ∀ i, a ≤ i → i < a + n → b.getLsbD i = true) (h : a + n ≤ N) :
    popcountRange (clearBits b a (a + n)) 0 N + n = popcountRange b 0 N := by
  have hlow : countSet (clearBits b a (a + n)) a 0 = countSet b a 0 :=
    countSet_congr fun i _ hi => by simp [getLsbD_clearBits, show ¬ a ≤ i by omega]
  have hrun : countSet (clearBits b a (a + n)) n a = 0 :=
    countSet_eq_zero.2 fun i h1 h2 => by simp [getLsbD_clearBits, h1, h2]
  have hhigh : countSet (clearBits b a (a + n)) (N - (a + n)) (a + n) = countSet b (N - (a + n)) (a + n) :=
    countSet_congr fun i hi _ => by simp [getLsbD_clearBits, show ¬ i < a + n by omega]
  rw [popcountRange_split _ h, popcountRange_split b h, hlow, hrun, hhigh, countSet_eq_all.2 hset]
  omega

theorem popcountRange_zero (N : Nat) : popcountRange (0 : BitVec w) 0 N = 0 :=
  countSet_eq_zero.2 fun _ _ _ => BitVec.getLsbD_zero

end Counting

/-- `u` units from `st` are free and end inside the window. -/
def GapAt (p : Params) (w : Slot) (st u : Nat) : Prop :=
  st + u ≤ p.maxUnits ∧ ∀ i, st ≤ i → i < st + u → w.used.getLsbD i = false

/-- `u` units from `st` are allocated and end inside the window. -/
def RunAt (p : Params) (w : Slot) (st u : Nat) : Prop :=
  st + u ≤ p.maxUnits ∧ ∀ i, st ≤ i → i < st + u → w.used.getLsbD i = true

/-- The slot of a window that `new_window` has got at `r` (spec R359). -/
def freshWindow (p : Params) (r : Word) : Slot :=
  { live := true, base := r, used := 0, free := p.maxUnits, resume := 0, list := .pref }

theorem maxUnits_eq {p : Params} (h : p.Legal) : p.maxUnits = 2048 := by
  obtain ⟨-, -, -, -, -, -, -, -, -, -, -, -, -, -, -, hmax, -⟩ := h
  exact hmax

theorem nwMax_le {p : Params} (h : p.Legal) : p.nwMax ≤ Config.maxSlots := by
  obtain ⟨-, -, -, -, -, -, -, -, -, -, -, -, hnw, -⟩ := h
  exact Nat.lt_succ_iff.1 hnw

section Window

variable {p : Params} {w : Slot} {st u : Nat}

/-- A gap of a live window is no larger than its free count. -/
theorem WindowCountsAgree.gap_le (h : WindowCountsAgree p w) (hl : w.live = true) (hp : p.Legal) (hg : GapAt p w st u) :
    u ≤ w.free := by
  obtain ⟨hcount, -⟩ := h hl
  obtain ⟨hend, hclear⟩ := hg
  have hset := popcountRange_setBits hclear hend (by rw [maxUnits_eq hp]; decide)
  have hle : popcountRange (setBits w.used st (st + u)) 0 p.maxUnits ≤ p.maxUnits := countSet_le _ _ _
  omega

/-- Allocating a gap keeps the counts in agreement (spec R357, R366). -/
theorem WindowCountsAgree.take (h : WindowCountsAgree p w) (hl : w.live = true) (hp : p.Legal) (hg : GapAt p w st u)
    {resume : Nat} (hr : resume ≤ p.maxUnits) :
    WindowCountsAgree p { w with used := setBits w.used st (st + u), free := w.free - u, resume := resume } := by
  have hle := h.gap_le hl hp hg
  obtain ⟨hcount, -⟩ := h hl
  obtain ⟨hend, hclear⟩ := hg
  have hset := popcountRange_setBits hclear hend (by rw [maxUnits_eq hp]; decide)
  exact fun _ => ⟨by simp only; omega, hr⟩

/-- Releasing an allocated run keeps the counts in agreement (spec R363). -/
theorem WindowCountsAgree.give (h : WindowCountsAgree p w) (hl : w.live = true) (ha : RunAt p w st u)
    {resume : Nat} (hr : resume ≤ p.maxUnits) :
    WindowCountsAgree p { w with used := clearBits w.used st (st + u), free := w.free + u, resume := resume } := by
  obtain ⟨hcount, -⟩ := h hl
  obtain ⟨hend, hset⟩ := ha
  have hclear := popcountRange_clearBits hset hend
  exact fun _ => ⟨by simp only; omega, hr⟩

/-- A window without an allocated unit. -/
theorem windowCountsAgree_fresh {base : Word} : WindowCountsAgree p (freshWindow p base) := fun _ =>
  ⟨by simp only [freshWindow, popcountRange_zero, Nat.zero_add], Nat.zero_le _⟩

end Window

/-- What `find_gap` answers is a gap (spec R356). -/
theorem gapScan_gap {units u fuel start st : Nat} {used : BitVec Config.unitWidth}
    (h : gapScan units used u fuel start = some st) :
    st + u ≤ units ∧ ∀ i, st ≤ i → i < st + u → used.getLsbD i = false := by
  induction fuel generalizing start with
  | zero => cases h
  | succ fuel ih =>
    simp only [gapScan] at h
    split at h
    · cases h
    · split at h
      · rename_i hroom hend
        obtain rfl := Option.some.inj h
        refine ⟨by omega, fun i h1 h2 => ?_⟩
        have hne := findBit_before used true _ _ i h1 (by rw [← ffsBits, hend]; exact h2)
        simpa using hne
      · exact ih h

theorem findGap_gap {p : Params} {w : Slot} {u st : Nat} (h : findGap p.maxUnits w u = some st) : GapAt p w st u :=
  gapScan_gap h

/-! ## The slots and their lists -/

/-- The list holds exactly the live slots that name it, each once (spec R63, R353). -/
def ListHolds (s : State) (l : List Nat) (k : SlabList) : Prop :=
  l.Nodup ∧ ∀ i, i ∈ l ↔ i < s.params.nwMax ∧ (s.slot i).live = true ∧ (s.slot i).list = k

theorem listsAgree_iff (s : State) : ListsAgree s ↔ ListHolds s s.prefList .pref ∧ ListHolds s s.fullList .full := by
  unfold ListsAgree ListHolds
  tauto

theorem mem_windowRegions {s : State} (hp : s.params.Legal) {x : Region} : x ∈ windowRegions s ↔
    ∃ i, i < s.params.nwMax ∧ (s.slot i).live = true ∧ x = ((s.slot i).base.toNat, windowBytes s.params) := by
  have hnw := nwMax_le hp
  have hslot : ∀ i, (h : i < Config.maxSlots) → s.slot i = s.slots[i] := fun i h => by simp [State.slot, h]
  simp only [windowRegions, List.mem_map, List.mem_filter, List.mem_take_iff_getElem, Vector.getElem_toList,
    Vector.length_toList]
  constructor
  · rintro ⟨w, ⟨⟨i, hi, rfl⟩, hl⟩, rfl⟩
    have hi' : i < Config.maxSlots := by omega
    exact ⟨i, by omega, by rwa [hslot i hi'], by rw [hslot i hi']⟩
  · rintro ⟨i, hi, hl, rfl⟩
    have hi' : i < Config.maxSlots := by omega
    exact ⟨s.slot i, ⟨⟨i, by omega, (hslot i hi').symm⟩, hl⟩, rfl⟩

/-- A slot that holds a window (spec R62). -/
def LiveSlot (s : State) (i : Nat) : Prop := i < s.params.nwMax ∧ (s.slot i).live = true

/-- Legal parameters and the allocator's invariant. -/
def SlabOk (s : State) : Prop := s.params.Legal ∧ SlabInvariant s

/-- The invariant, slot by slot. -/
theorem slabOk_iff (s : State) : SlabOk s ↔ s.params.Legal ∧
    (∀ i, i < s.params.nwMax → WindowCountsAgree s.params (s.slot i)) ∧
    (ListHolds s s.prefList .pref ∧ ListHolds s s.fullList .full) ∧
    ∀ i, LiveSlot s i → ((s.slot i).base.toNat, windowBytes s.params) ∈ s.windowsLive := by
  unfold SlabOk SlabInvariant
  rw [listsAgree_iff]
  refine and_congr_right fun hp => and_congr_right fun _ => and_congr_right fun _ => ?_
  unfold WindowsInBooks
  constructor
  · exact fun h i hi => h _ ((mem_windowRegions hp).2 ⟨i, hi.1, hi.2, rfl⟩)
  · rintro h x hx
    obtain ⟨i, hi, hl, rfl⟩ := (mem_windowRegions hp).1 hx
    exact h i ⟨hi, hl⟩

section Slots

variable {s : State} {x : Nat} {w : Slot}

theorem SlabOk.counts (h : SlabOk s) {i : Nat} (hi : i < s.params.nwMax) : WindowCountsAgree s.params (s.slot i) :=
  h.2.1 i hi

theorem SlabOk.live_of_pref (h : SlabOk s) {i : Nat} (hi : i ∈ s.prefList) : LiveSlot s i := by
  obtain ⟨-, -, ⟨⟨-, hmem⟩, -⟩, -⟩ := (slabOk_iff s).1 h
  obtain ⟨hlt, hl, -⟩ := (hmem i).1 hi
  exact ⟨hlt, hl⟩

theorem slot_setSlot (hp : s.params.Legal) (hx : x < s.params.nwMax) (i : Nat) :
    (s.setSlot x w).slot i = if i = x then w else s.slot i :=
  s.slot_setSlot i x w (lt_of_lt_of_le hx (nwMax_le hp))

/-- A slot changes: the list holds what it must when it holds that slot as the slot says, and the others as before. -/
theorem ListHolds.setSlot {l l' : List Nat} {k : SlabList} (h : ListHolds s l k) (hp : s.params.Legal)
    (hx : x < s.params.nwMax) (hnodup : l'.Nodup) (hother : ∀ i, i ≠ x → (i ∈ l' ↔ i ∈ l))
    (hself : x ∈ l' ↔ w.live = true ∧ w.list = k) : ListHolds (s.setSlot x w) l' k := by
  refine ⟨hnodup, fun i => ?_⟩
  rw [slot_setSlot hp hx]
  by_cases hi : i = x
  · subst hi
    rw [if_pos rfl, hself]
    exact ⟨fun h => ⟨hx, h⟩, fun h => h.2⟩
  · rw [if_neg hi, hother i hi]
    exact h.2 i

/-- One slot, the lists and the books change. -/
theorem SlabOk.update {p f : List Nat} {books : List (Nat × Nat)} (h : SlabOk s) (hx : x < s.params.nwMax)
    (hcounts : WindowCountsAgree s.params w) (hpref : ListHolds (s.setSlot x w) p .pref)
    (hfull : ListHolds (s.setSlot x w) f .full) (hmono : ∀ y ∈ s.windowsLive, y ∈ books)
    (hbook : w.live = true → (w.base.toNat, windowBytes s.params) ∈ books) :
    SlabOk ((({ s with windowsLive := books } : State).setSlot x w).setLists p f) := by
  obtain ⟨hp, hall, -, hbooks⟩ := (slabOk_iff s).1 h
  have hslot : ∀ i, ((({ s with windowsLive := books } : State).setSlot x w).setLists p f).slot i =
      if i = x then w else s.slot i := slot_setSlot hp hx
  refine (slabOk_iff _).2 ⟨hp, fun i hi => ?_, ⟨hpref, hfull⟩, fun i hi => ?_⟩
  · rw [hslot]
    split
    · exact hcounts
    · exact hall i hi
  · obtain ⟨hlt, hl⟩ := hi
    rw [hslot] at hl ⊢
    split at hl
    · rename_i hix
      rw [if_pos hix]
      exact hbook hl
    · rename_i hix
      rw [if_neg hix]
      exact hmono _ (hbooks i ⟨hlt, hl⟩)

/-- The units of a live window change. -/
theorem SlabOk.setUnits (h : SlabOk s) (hx : LiveSlot s x) (hl : w.live = (s.slot x).live) (hb : w.base = (s.slot x).base)
    (hk : w.list = (s.slot x).list) (hcounts : WindowCountsAgree s.params w) : SlabOk (s.setSlot x w) := by
  obtain ⟨hp, -, ⟨hpref, hfull⟩, hbooks⟩ := (slabOk_iff s).1 h
  obtain ⟨hlt, hlive⟩ := hx
  have same : ∀ {l : List Nat} {k : SlabList}, ListHolds s l k → ListHolds (s.setSlot x w) l k := fun {l k} hlk =>
    hlk.setSlot hp hlt hlk.1 (fun _ _ => Iff.rfl) (by rw [hl, hk, hlk.2 x]; exact ⟨fun h => h.2, fun h => ⟨hlt, h⟩⟩)
  exact h.update hlt hcounts (same hpref) (same hfull) (fun _ hy => hy) fun _ => by
    rw [hb]
    exact hbooks x ⟨hlt, hlive⟩

end Slots

section Lists

variable {s : State} {x : Nat} {l : List Nat} {k k' : SlabList}

/-- A slot leaves the list it is in. -/
theorem ListHolds.leave (h : ListHolds s l k) (hp : s.params.Legal) (hx : LiveSlot s x) (hk : k' ≠ k) :
    ListHolds (s.setSlot x { s.slot x with list := k' }) (l.erase x) k := by
  refine h.setSlot hp hx.1 (h.1.erase x) (fun i hi => ?_) ?_
  · rw [h.1.mem_erase_iff]
    exact ⟨fun h => h.2, fun h => ⟨hi, h⟩⟩
  · simp [h.1.mem_erase_iff, hk]

/-- A slot joins the list it is not in, at its tail. -/
theorem ListHolds.join (h : ListHolds s l k') (hp : s.params.Legal) (hx : LiveSlot s x) (hk : (s.slot x).list ≠ k') :
    ListHolds (s.setSlot x { s.slot x with list := k' }) (l ++ [x]) k' := by
  have hnot : x ∉ l := fun hm => hk ((h.2 x).1 hm).2.2
  refine h.setSlot hp hx.1 (List.nodup_append.2 ⟨h.1, List.nodup_singleton x, fun a ha b hb => ?_⟩) (fun i hi => ?_) ?_
  · rw [List.mem_singleton.1 hb]
    exact fun hab => hnot (hab ▸ ha)
  · simp [hi]
  · simp [hx.2]

end Lists

/-- A live window goes from PREF to the tail of FULL (spec R360). -/
theorem SlabOk.moveToFull {s : State} {x : Nat} (h : SlabOk s) (hx : LiveSlot s x) (hk : (s.slot x).list = .pref) :
    SlabOk ((s.setSlot x { s.slot x with list := .full }).setLists (s.prefList.erase x) (s.fullList ++ [x])) := by
  obtain ⟨hp, hall, ⟨hpref, hfull⟩, hbooks⟩ := (slabOk_iff s).1 h
  exact h.update hx.1 (hall x hx.1) (hpref.leave hp hx nofun) (hfull.join hp hx (by rw [hk]; exact nofun))
    (fun _ hy => hy) fun _ => hbooks x hx

/-- A live window goes from FULL to the tail of PREF (spec R364). -/
theorem SlabOk.moveToPref {s : State} {x : Nat} (h : SlabOk s) (hx : LiveSlot s x) (hk : (s.slot x).list = .full) :
    SlabOk ((s.setSlot x { s.slot x with list := .pref }).setLists (s.prefList ++ [x]) (s.fullList.erase x)) := by
  obtain ⟨hp, hall, ⟨hpref, hfull⟩, hbooks⟩ := (slabOk_iff s).1 h
  exact h.update hx.1 (hall x hx.1) (hpref.join hp hx (by rw [hk]; exact nofun)) (hfull.leave hp hx nofun)
    (fun _ hy => hy) fun _ => hbooks x hx

/-! ## What the allocator's steps leave of the windows -/

/-- The invariant holds, and every window that was live is live, with at least the units allocated that were. -/
def Grown (s₀ s : State) : Prop :=
  SlabOk s ∧ s.params = s₀.params ∧ ∀ i, LiveSlot s₀ i → LiveSlot s i ∧
    ∀ j, (s₀.slot i).used.getLsbD j = true → (s.slot i).used.getLsbD j = true

theorem SlabOk.grown {s : State} (h : SlabOk s) : Grown s s := ⟨h, rfl, fun _ hi => ⟨hi, fun _ hj => hj⟩⟩

theorem Grown.trans {s₀ s₁ s₂ : State} (h : Grown s₀ s₁) (h' : Grown s₁ s₂) : Grown s₀ s₂ := by
  obtain ⟨-, hp, hlive⟩ := h
  obtain ⟨hok, hp', hlive'⟩ := h'
  refine ⟨hok, hp'.trans hp, fun i hi => ?_⟩
  obtain ⟨h1, hbits⟩ := hlive i hi
  obtain ⟨h2, hbits'⟩ := hlive' i h1
  exact ⟨h2, fun j hj => hbits' j (hbits j hj)⟩

section Steps

variable {s : State} {x st u : Nat}

/-- A slot changes into one that is live with at least the units allocated. -/
theorem LiveSlot.setSlot_grows {w : Slot} (hp : s.params.Legal) (hx : x < s.params.nwMax) (hl : w.live = true)
    (hbits : (s.slot x).live = true → ∀ j, (s.slot x).used.getLsbD j = true → w.used.getLsbD j = true) (i : Nat)
    (hi : LiveSlot s i) : LiveSlot (s.setSlot x w) i ∧
      ∀ j, (s.slot i).used.getLsbD j = true → ((s.setSlot x w).slot i).used.getLsbD j = true := by
  obtain ⟨hlt, hlive⟩ := hi
  unfold LiveSlot
  rw [slot_setSlot hp hx]
  split
  · rename_i hix
    subst hix
    exact ⟨⟨hlt, hl⟩, hbits hlive⟩
  · exact ⟨⟨hlt, hlive⟩, fun _ hj => hj⟩

/-- Allocating a gap of a live window (spec R357, R366). -/
theorem SlabOk.take (h : SlabOk s) (hx : LiveSlot s x) (hg : GapAt s.params (s.slot x) st u) {resume : Nat}
    (hr : resume ≤ s.params.maxUnits) :
    Grown s (s.setSlot x { s.slot x with
      used := setBits (s.slot x).used st (st + u), free := (s.slot x).free - u, resume := resume }) :=
  ⟨h.setUnits hx rfl rfl rfl ((h.counts hx.1).take hx.2 h.1 hg hr), rfl,
    LiveSlot.setSlot_grows h.1 hx.1 hx.2 fun _ j hj => by rw [getLsbD_setBits, hj, Bool.true_or]⟩

theorem migrate_grows (h : SlabOk s) (hx : LiveSlot s x) : Grown s (migrate s x) := by
  unfold migrate
  simp only
  split
  · rename_i hc
    exact ⟨h.moveToFull hx hc.1, rfl, LiveSlot.setSlot_grows h.1 hx.1 hx.2 fun _ _ hj => hj⟩
  · exact h.grown

theorem foldl_migrate_grows {l : List Nat} (h : SlabOk s) (hl : ∀ x ∈ l, LiveSlot s x) : Grown s (l.foldl migrate s) := by
  induction l generalizing s with
  | nil => exact h.grown
  | cons x l ih =>
    have hstep := migrate_grows h (hl x (List.mem_cons_self ..))
    have ⟨hok, _, hlive⟩ := hstep
    exact hstep.trans (ih hok fun y hy => (hlive y (hl y (List.mem_cons_of_mem _ hy))).1)

/-- `post` moves windows of the walk that are live (spec R360). -/
theorem post_grows {scanned : List Nat} (h : SlabOk s) (hx : LiveSlot s x) (hl : ∀ y ∈ scanned, LiveSlot s y) :
    Grown s (post s x u scanned) := by
  unfold post
  split
  · exact h.grown
  · refine foldl_migrate_grows h fun y hy => ?_
    rcases List.mem_append.1 hy with hy | hy
    · exact hl y hy
    · rwa [List.mem_singleton.1 hy]

theorem promote_keeps (h : SlabOk s) (hx : LiveSlot s x) : SlabOk (promote s x) := by
  unfold promote
  simp only
  split
  · rename_i hc
    exact h.moveToPref hx hc.1
  · exact h

/-- Releasing an allocated run of a live window (spec R363). -/
theorem releaseRun_keeps (h : SlabOk s) (hx : LiveSlot s x) (ha : RunAt s.params (s.slot x) st u) :
    SlabOk (releaseRun s x st u) := by
  obtain ⟨-, hresume⟩ := h.counts hx.1 hx.2
  have hr : (if st < (s.slot x).resume then st else (s.slot x).resume) ≤ s.params.maxUnits := by
    have hend := ha.1
    split <;> omega
  have hcounts := (h.counts hx.1).give hx.2 ha hr
  refine promote_keeps (h.setUnits hx rfl rfl rfl hcounts) ⟨hx.1, ?_⟩
  rw [slot_setSlot h.1 hx.1, if_pos rfl]
  exact hx.2

/-- What `new_window` makes of the state with slot `i` and the host's answer `r` (spec R359, R120). -/
def withWindow (s : State) (i : Nat) (r : Word) : State :=
  (({ s with windowsLive := (r.toNat, windowBytes s.params) :: s.windowsLive } : State).setSlot i
    (freshWindow s.params r)).setLists (i :: s.prefList) s.fullList

theorem withWindow_slot (hp : s.params.Legal) (hx : x < s.params.nwMax) (r : Word) :
    (withWindow s x r).slot x = freshWindow s.params r := (slot_setSlot hp hx x).trans (if_pos rfl)

/-- A new window in a slot that is not live keeps the invariant. -/
theorem withWindow_grows (h : SlabOk s) (hx : x < s.params.nwMax) (hdead : (s.slot x).live = false) (r : Word) :
    Grown s (withWindow s x r) := by
  obtain ⟨hp, -, ⟨hpref, hfull⟩, -⟩ := (slabOk_iff s).1 h
  have hnot : ∀ {l : List Nat} {k : SlabList}, ListHolds s l k → x ∉ l := fun {l k} hlk hm => by
    obtain ⟨-, hl, -⟩ := (hlk.2 x).1 hm
    rw [hdead] at hl
    cases hl
  have hpref' : ListHolds (s.setSlot x (freshWindow s.params r)) (x :: s.prefList) .pref :=
    hpref.setSlot hp hx (List.nodup_cons.2 ⟨hnot hpref, hpref.1⟩) (fun i hi => by simp [hi]) (by simp [freshWindow])
  have hfull' : ListHolds (s.setSlot x (freshWindow s.params r)) s.fullList .full :=
    hfull.setSlot hp hx hfull.1 (fun _ _ => Iff.rfl) (by simp [hnot hfull, freshWindow])
  refine ⟨h.update hx windowCountsAgree_fresh hpref' hfull' (fun _ hy => List.mem_cons_of_mem _ hy)
    fun _ => List.mem_cons_self .., rfl, ?_⟩
  exact LiveSlot.setSlot_grows hp hx rfl fun hl => by
    rw [hdead] at hl
    cases hl

end Steps

end Sys2Proof.Machine
end

section
/-! SUPPORT. The slab allocator's pseudocode step by step: each operation leaves the invariant, also where the command stops in
the middle (spec R354). -/

namespace Sys2Proof.Machine

/-! ## From one condition to another -/

/-- From a state with `P` the command goes on in one with `Q`, or stops in one with the allocator's invariant. -/
def Leads (P : State → Prop) {α : Type} (c : Cmd α) (Q : α → State → Prop) : Prop :=
  ∀ r, P r.st → (∀ a r', c r = .ok a r' → Q a r'.st) ∧ (∀ x r', c r = .error x r' → SlabOk r'.st)

section Leads

variable {α β : Type} {P : State → Prop} {Q : α → State → Prop}

theorem leads_pure {a : α} (h : ∀ s, P s → Q a s) : Leads P (pure a) Q := by
  intro r hr
  refine ⟨fun b r' he => ?_, fun x r' he => by cases he⟩
  cases he
  exact h r.st hr

theorem leads_stop {x : Stop} (h : ∀ s, P s → SlabOk s) : Leads P (stop x) Q := by
  intro r hr
  refine ⟨fun b r' he => (by cases he), fun x r' he => ?_⟩
  cases he
  exact h r.st hr

theorem leads_bind {x : Cmd β} {f : β → Cmd α} {R : β → State → Prop} (hx : Leads P x R) (hf : ∀ b, Leads (R b) (f b) Q) :
    Leads P (x >>= f) Q := by
  intro r hr
  obtain ⟨hok, herror⟩ := hx r hr
  cases h : x r with
  | ok b r1 =>
    rw [bind_run_ok h]
    exact hf b r1 (hok b r1 h)
  | error e r1 =>
    rw [bind_run_error h]
    exact leads_stop (P := SlabOk) (fun _ hs => hs) r1 (herror e r1 h)

/-- A weaker condition before, a stronger one after. -/
theorem Leads.imp {P' : State → Prop} {Q' : α → State → Prop} {c : Cmd α} (h : Leads P c Q) (hP : ∀ s, P' s → P s)
    (hQ : ∀ a s, Q a s → Q' a s) : Leads P' c Q' := fun r hr => by
  obtain ⟨hok, herror⟩ := h r (hP _ hr)
  exact ⟨fun a r' ha => hQ a _ (hok a r' ha), herror⟩

/-- A command is run from each state that meets its condition. -/
theorem leads_pointwise {c : Cmd α} (h : ∀ s, P s → Leads (· = s) c Q) : Leads P c Q := fun r hr => h r.st hr r rfl

theorem leads_withState {f : State → Cmd α} (h : ∀ s, P s → Leads (· = s) (f s) Q) : Leads P (getState >>= f) Q :=
  fun r hr => h r.st hr r rfl

theorem leads_modify {f : State → State} {Q : Unit → State → Prop} (h : ∀ s, P s → Q () (f s)) :
    Leads P (modifyState f) Q := by
  intro r hr
  refine ⟨fun b r' he => ?_, fun x r' he => by cases he⟩
  cases he
  exact h r.st hr

theorem leads_ite {c : Prop} [Decidable c] {x y : Cmd α} (hx : c → Leads P x Q) (hy : ¬ c → Leads P y Q) :
    Leads P (if c then x else y) Q := by
  split
  · exact hx ‹_›
  · exact hy ‹_›

/-- A command that leaves the windows keeps what is said of them. -/
theorem Confined.leads {c : Cmd α} (h : Confined allocErased id c) (hP : Ignores allocErased P)
    (hok : ∀ s, P s → SlabOk s) : Leads P c (fun _ => P) := fun r hr => by
  obtain ⟨hgo, hstop⟩ := h.frame.keeps hP r hr
  exact ⟨hgo, fun x r' hx => hok _ (hstop x r' hx)⟩

/-- A command that leads from the invariant to itself keeps it. -/
theorem Leads.keeps {c : Cmd α} (h : Leads SlabOk c fun _ => SlabOk) : Keeps (fun r => SlabOk r.st) c := h

end Leads

theorem Grown.ok {s₀ s : State} (h : Grown s₀ s) : SlabOk s := h.1

/-! ## Allocation (spec R357 to R361) -/

section Alloc

variable {s : State} {x st u : Nat}

/-- `carve` of a gap, in a live window. -/
theorem leads_carve (h : SlabOk s) (hx : LiveSlot s x) (hg : GapAt s.params (s.slot x) st u) :
    Leads (· = s) (carve x st u) (fun _ => Grown s) := by
  refine leads_withState fun s' hs' => ?_
  subst hs'
  refine leads_bind (leads_modify (Q := fun _ => Grown s') fun s'' hs'' => ?_) fun _ =>
    leads_bind ((confined_slabWrite _ _).leads (fun _ => rfl) fun _ => Grown.ok) fun _ =>
      leads_bind ((confined_handOut _).leads (fun _ => rfl) fun _ => Grown.ok) fun _ => leads_pure fun _ hs => hs
  subst hs''
  exact h.take hx hg hg.1

/-- `carve` and `post` after a walk over live windows. -/
theorem leads_carvePost {scanned : List Nat} (h : SlabOk s) (hx : LiveSlot s x) (hg : GapAt s.params (s.slot x) st u)
    (hl : ∀ y ∈ scanned, LiveSlot s y) :
    Leads (· = s) (do let p ← carve x st u; modifyState fun s => post s x u scanned; pure p) (fun _ => Grown s) := by
  refine leads_bind (leads_carve h hx hg) fun p => leads_bind (leads_modify (Q := fun _ => Grown s) fun s' hs' => ?_) fun _ =>
    leads_pure fun _ hs => hs
  have ⟨hok, _, hlive⟩ := hs'
  exact hs'.trans (post_grows hok (hlive x hx).1 fun y hy => (hlive y (hl y hy)).1)

theorem lowestDead_some {n i j : Nat} (h : lowestDead s n i = some j) : j < i + n ∧ (s.slot j).live = false := by
  induction n generalizing i with
  | zero => cases h
  | succ n ih =>
    simp only [lowestDead] at h
    split at h
    · obtain ⟨hlt, hdead⟩ := ih h
      exact ⟨by omega, hdead⟩
    · rename_i hdead
      obtain rfl := Option.some.inj h
      exact ⟨by omega, by simpa using hdead⟩

/-- The walk passes over windows of the list, and answers one of them with a gap (spec R361). -/
theorem walkPref_spec (s : State) (u : Nat) (left scanned : List Nat) :
    (∀ y ∈ (walkPref s u left scanned).2, y ∈ scanned ∨ y ∈ left) ∧
    ∀ w st, (walkPref s u left scanned).1 = some (w, st) → w ∈ left ∧ takes s w u = some st := by
  induction left generalizing scanned with
  | nil => exact ⟨fun y hy => .inl hy, nofun⟩
  | cons x left ih =>
    rw [walkPref]
    cases ht : takes s x u with
    | some st =>
      refine ⟨fun y hy => .inl hy, fun w st' h => ?_⟩
      cases h
      exact ⟨List.mem_cons_self .., ht⟩
    | none =>
      obtain ⟨hscanned, hfound⟩ := ih (scanned ++ [x])
      refine ⟨fun y hy => ?_, fun w st h => ?_⟩
      · rcases hscanned y hy with hy | hy
        · rcases List.mem_append.1 hy with hy | hy
          · exact .inl hy
          · exact .inr (by rw [List.mem_singleton.1 hy]; exact List.mem_cons_self ..)
        · exact .inr (List.mem_cons_of_mem _ hy)
      · obtain ⟨hw, htakes⟩ := hfound w st h
        exact ⟨List.mem_cons_of_mem _ hw, htakes⟩

theorem takes_gap (h : takes s x u = some st) : GapAt s.params (s.slot x) st u := by
  unfold takes at h
  split at h
  · exact findGap_gap h
  · cases h

/-- A live slot whose window has no allocated unit. -/
def FreshSlot (s : State) (i : Nat) : Prop := LiveSlot s i ∧ (s.slot i).used = 0

theorem FreshSlot.gap (h : FreshSlot s x) (hu : u ≤ s.params.maxUnits) : GapAt s.params (s.slot x) 0 u :=
  ⟨by omega, fun _ _ _ => by rw [h.2]; exact BitVec.getLsbD_zero⟩

theorem leads_newWindow (h : SlabOk s) : Leads (· = s) newWindow (fun i s' => Grown s s' ∧ FreshSlot s' i) := by
  refine leads_withState fun s' hs' => ?_
  subst hs'
  cases hd : lowestDead s' s'.params.nwMax 0 with
  | none => exact leads_stop fun _ hs => hs ▸ h
  | some i =>
    obtain ⟨hlt, hdead⟩ := lowestDead_some hd
    have hask : Leads (· = s') (hostAllocOrFail (windowBytes s'.params))
        (fun _ s => Grown s' s ∧ i < s.params.nwMax ∧ (s.slot i).live = false) := by
      refine ((confined_hostAllocOrFail _).leads (fun _ => rfl) fun _ hs => hs.1.ok).imp (fun s hs => ?_) fun _ _ hs => hs
      rw [hs]
      exact ⟨h.grown, by omega, hdead⟩
    refine leads_bind hask fun a =>
      leads_bind (leads_modify (f := fun s => withWindow s i a) (Q := fun _ s => Grown s' s ∧ FreshSlot s i) fun s hs => ?_)
        fun _ => leads_pure fun _ hs => hs
    obtain ⟨hgrown, hi, hfree⟩ := hs
    have hslot := withWindow_slot hgrown.ok.1 hi a
    exact ⟨hgrown.trans (withWindow_grows hgrown.ok hi hfree a), ⟨hi, by rw [hslot]; rfl⟩, by rw [hslot]; rfl⟩

theorem leads_allocSmall (h : SlabOk s) (hu : u ≤ s.params.maxUnits) : Leads (· = s) (allocSmall u) (fun _ => Grown s) := by
  refine leads_withState fun s' hs' => ?_
  subst hs'
  obtain ⟨hscanned, hfound⟩ := walkPref_spec s' u s'.prefList []
  have hlive : ∀ y ∈ (walkPref s' u s'.prefList []).2, LiveSlot s' y := fun y hy =>
    h.live_of_pref ((hscanned y hy).resolve_left List.not_mem_nil)
  rcases hw : walkPref s' u s'.prefList [] with ⟨_ | ⟨w, st⟩, scanned⟩ <;> rw [hw] at hfound hlive
  · refine leads_bind (leads_newWindow h) fun w => leads_pointwise fun s₁ hs₁ => ?_
    have ⟨hgrown, hfresh⟩ := hs₁
    have ⟨hok, hp, hkeep⟩ := hgrown
    exact (leads_carvePost hok hfresh.1 (hfresh.gap (by rwa [hp])) fun y hy => (hkeep y (hlive y hy)).1).imp
      (fun _ hs => hs) fun _ _ hs => hgrown.trans hs
  · obtain ⟨hmem, htakes⟩ := hfound w st rfl
    exact leads_carvePost h (h.live_of_pref hmem) (takes_gap htakes) hlive

theorem leads_alloc (h : SlabOk s) (b : Nat) : Leads (· = s) (alloc b) (fun _ => Grown s) := by
  refine leads_withState fun s' hs' => ?_
  subst hs'
  refine leads_ite (fun _ => ?_) fun hsmall => leads_allocSmall h ?_
  · exact ((confined_allocLarge _).leads (fun _ => rfl) fun _ => Grown.ok).imp (fun _ hs => hs ▸ h.grown) fun _ _ hs => hs
  · simp only [Params.largeUnits] at hsmall
    omega

end Alloc

/-! ## Free and reallocation (spec R362 to R367) -/

/-- The region names a run of allocated units of a live window, or none of a window (spec R362). -/
def Held (s : State) : Allocation → Prop
  | .large _ _ => True
  | .slab slot st _ u => LiveSlot s slot ∧ RunAt s.params (s.slot slot) st u

/-- Growing windows keep what is held. -/
theorem Held.grown {s₀ s : State} {r : Allocation} (h : Held s₀ r) (hg : Grown s₀ s) : Held s r := by
  cases r with
  | large h u => trivial
  | slab slot st h u =>
    obtain ⟨hx, hend, hbits⟩ := h
    obtain ⟨-, hp, hkeep⟩ := hg
    obtain ⟨hx', hbits'⟩ := hkeep slot hx
    exact ⟨hx', by rwa [hp], fun i h1 h2 => hbits' i (hbits i h1 h2)⟩

/-- A header that passes the checks names allocated units (spec R362). -/
theorem classify_held {s : State} {h win u freed : Nat} {r : Allocation} (hr : classify s h win u freed = .ok r) :
    Held s r := by
  unfold classify at hr
  simp only at hr
  split_ifs at hr with h1 h2 h3 h4 h5 h6 h7 h8
  · cases hr
    trivial
  · cases hr
    obtain ⟨hlt, hl⟩ := not_or.1 h5
    refine ⟨⟨by omega, by simpa using hl⟩, by omega, ?_⟩
    have hle := countSet_le (s.slot (win - 1)).used u ((h - (s.slot (win - 1)).base.toNat) / s.params.unit)
    rw [popcountRange, Nat.add_sub_cancel_left] at h8
    exact countSet_eq_all.1 (by omega)

theorem leads_checkPointer (ptr : Nat) : Leads SlabOk (checkPointer ptr) (fun r s => SlabOk s ∧ Held s r) := by
  refine leads_withState fun s hs => ?_
  have reads : ∀ {α : Type} {c : Cmd α}, Confined allocErased id c →
      Leads (fun s' => SlabOk s' ∧ ∀ r, Held s r → Held s' r) c fun _ s' => SlabOk s' ∧ ∀ r, Held s r → Held s' r :=
    fun hc => hc.leads (fun _ => rfl) fun _ hs' => hs'.1
  refine Leads.imp (P := fun s' => SlabOk s' ∧ ∀ r, Held s r → Held s' r) ?_
    (fun s' hs' => by rw [hs']; exact ⟨hs, fun _ hr => hr⟩) fun _ _ hq => hq
  refine leads_bind (reads (confined_rejectIf _ _)) fun _ => leads_bind (reads (confined_setArea _)) fun _ =>
    leads_bind (reads (confined_memRead alloc_ignores_mem _ _)) fun win =>
    leads_bind (reads (confined_memRead alloc_ignores_mem _ _)) fun u =>
    leads_bind (reads (confined_memRead8 alloc_ignores_mem _)) fun f => ?_
  cases hr : classify s (ptr - s.params.unit) (leValue win) (leValue u) f.toNat with
  | ok r => exact leads_pure fun _ hs' => ⟨hs'.1, hs'.2 r (classify_held hr)⟩
  | error e => exact leads_stop fun _ hs' => hs'.1

theorem leads_doFree (r : Allocation) : Leads (fun s => SlabOk s ∧ Held s r) (doFree r) (fun _ => SlabOk) := by
  have leaves : ∀ {α : Type} {c : Cmd α}, Confined allocErased id c →
      Leads (fun s => SlabOk s ∧ Held s r) c fun _ s => SlabOk s ∧ Held s r :=
    fun hc => hc.leads (fun _ => by cases r <;> rfl) fun _ hs => hs.1
  refine leads_withState fun s hs => Leads.imp (P := fun s => SlabOk s ∧ Held s r) ?_ (fun _ hs' => hs' ▸ hs) fun _ _ hq => hq
  refine leads_bind (leaves (confined_modify (fun _ => rfl) fun _ _ => rfl)) fun _ => ?_
  cases r with
  | large h u =>
    exact leads_bind (leaves (confined_slabWrite _ _)) fun _ => leads_bind (leaves (confined_takeBack _)) fun _ =>
      (leaves (confined_hostFree h)).imp (fun _ hs => hs) fun _ _ hs => hs.1
  | slab slot st h u =>
    refine leads_bind (leaves (confined_slabWrite _ _)) fun _ => leads_bind (leaves (confined_takeBack _)) fun _ =>
      leads_modify fun s hs => ?_
    obtain ⟨hok, hx, hrun⟩ := hs
    exact releaseRun_keeps hok hx hrun

section Grow

variable {s : State} {slot st h u u2 : Nat}

theorem canGrow_gap (hu : u < u2) (hg : canGrow s u2 (.slab slot st h u) = true) :
    GapAt s.params (s.slot slot) (st + u) (u2 - u) := by
  simp only [canGrow, Bool.and_eq_true, decide_eq_true_eq, beq_iff_eq] at hg
  obtain ⟨⟨-, hend⟩, hcount⟩ := hg
  rw [popcountRange, show st + u2 - (st + u) = u2 - u by omega] at hcount
  exact ⟨by omega, countSet_eq_zero.1 hcount⟩

theorem leads_grow (hok : SlabOk s) (hx : LiveSlot s slot) (hu : u < u2) (hg : canGrow s u2 (.slab slot st h u) = true) :
    Leads (· = s) (grow slot st h u u2) (fun _ => SlabOk) := by
  refine leads_withState fun s' hs' => ?_
  subst hs'
  have hgap := canGrow_gap hu hg
  obtain ⟨-, hresume⟩ := hok.counts hx.1 hx.2
  have hend : st + u + (u2 - u) = st + u2 := by omega
  have hgrown := hok.take hx hgap (resume := if st + u ≤ (s'.slot slot).resume ∧ (s'.slot slot).resume < st + u2 then st + u2
    else (s'.slot slot).resume) (by have := hgap.1; split <;> omega)
  rw [hend] at hgrown
  refine leads_bind (leads_modify (Q := fun _ => Grown s') fun s hs => ?_) fun _ =>
    leads_bind ((confined_slabWrite _ _).leads (fun _ => rfl) fun _ => Grown.ok) fun _ =>
      leads_bind (leads_modify (Q := fun _ => SlabOk) fun s hs => ?_) fun _ => leads_pure fun _ hs => hs
  · subst hs
    exact hgrown
  · obtain ⟨hok', -, hkeep⟩ := hs
    exact (post_grows hok' (hkeep slot hx).1 fun _ hy => absurd hy List.not_mem_nil).ok

end Grow

theorem leads_moveRegion (old : Allocation) (ptr b : Nat) (copy : Bool) :
    Leads (fun s => SlabOk s ∧ Held s old) (moveRegion old ptr b copy) (fun _ => SlabOk) := by
  refine leads_withState fun s hs => leads_bind (leads_alloc hs.1 b) fun p => ?_
  have hfree : Leads (Grown s) (do doFree old; pure p) (fun _ => SlabOk) :=
    leads_bind ((leads_doFree old).imp (fun s' hg => ⟨hg.ok, hs.2.grown hg⟩) fun _ _ hq => hq) fun _ =>
      leads_pure fun _ hs => hs
  exact leads_ite
    (fun _ => leads_bind ((confined_copyPayload _ _ _ _).leads (fun _ => rfl) fun _ => Grown.ok) fun _ => hfree)
    (fun _ => hfree)

theorem leads_enlarge (r : Allocation) (ptr b : Nat) {u2 : Nat} (copy : Bool) (hu : r.units < u2) :
    Leads (fun s => SlabOk s ∧ Held s r) (enlarge r ptr b u2 copy) (fun _ => SlabOk) := by
  refine leads_withState fun s hs => ?_
  have hmove : Leads (· = s) (moveRegion r ptr b copy) (fun _ => SlabOk) :=
    (leads_moveRegion r ptr b copy).imp (fun _ hs' => hs' ▸ hs) fun _ _ hq => hq
  cases r with
  | large h u => exact hmove
  | slab slot st h u =>
    cases hg : canGrow s u2 (.slab slot st h u) with
    | true => exact leads_grow hs.1 hs.2.1 hu hg
    | false => exact hmove

/-! ## The commands (spec R370 to R372) -/

theorem leads_resultPointer (p : Word) : Leads SlabOk (resultPointer p) (fun _ => SlabOk) :=
  leads_bind ((confined_allocatorResult p).leads (fun _ => rfl) fun _ h => h) fun _ => leads_modify fun _ h => h

theorem leads_requestCheck (b : Nat) : Leads SlabOk (requestCheck b) (fun _ => SlabOk) :=
  (confined_requestCheck b).leads (fun _ => rfl) fun _ h => h

theorem leads_allocChecked (b : Nat) : Leads SlabOk (allocChecked b) (fun _ => SlabOk) :=
  leads_bind (leads_requestCheck b) fun _ =>
    leads_bind (leads_pointwise fun _ h => (leads_alloc h b).imp (fun _ hs => hs) fun _ _ => Grown.ok) fun p =>
      leads_resultPointer p

/-- A command that starts by looking at its operands. -/
theorem leads_operands {f : State → Cmd Unit} (h : ∀ s, Leads SlabOk (f s) fun _ => SlabOk) :
    Leads SlabOk (getState >>= f) fun _ => SlabOk := fun r hr => h r.st r hr

theorem leads_slabAllocBody : Leads SlabOk slabAllocBody (fun _ => SlabOk) :=
  leads_operands fun s => leads_allocChecked s.arg0.toNat

theorem leads_slabFreeBody : Leads SlabOk slabFreeBody (fun _ => SlabOk) :=
  leads_operands fun _ => leads_ite (fun _ => leads_pure fun _ h => h) fun _ =>
    leads_bind (leads_checkPointer _) fun r => leads_doFree r

theorem leads_slabReallocBody (copy : Bool) : Leads SlabOk (slabReallocBody copy) (fun _ => SlabOk) := by
  refine leads_operands fun s => leads_ite (fun _ => leads_allocChecked _) fun _ =>
    leads_bind (leads_requestCheck _) fun _ => leads_bind (leads_checkPointer _) fun r =>
      leads_ite (fun _ => ?_) fun hu => ?_
  · exact (leads_resultPointer s.arg0).imp (fun _ h => h.1) fun _ _ h => h
  · exact leads_bind (leads_enlarge r _ _ copy (by omega)) fun p => leads_resultPointer p

/-! ## Every step -/

theorem exec_keeps_slabOk {i : Instr} {s t : State} (h : exec i s = .next t) (hs : SlabOk s) : SlabOk t := by
  by_cases hi : isSlabCommand i = true
  · have hbody : Leads SlabOk (commandBody i) (fun _ => SlabOk) := by
      cases i with
      | slabAlloc => exact leads_slabAllocBody
      | slabFree => exact leads_slabFreeBody
      | slabRealloc copy => exact leads_slabReallocBody copy
      | _ => cases hi
    rw [exec_eq] at h
    cases h
    exact conclude_keeps (fun _ => rfl) (fun _ => rfl) hbody.keeps hs
  · have hleft := exec_leaves SlabOk (fun _ => rfl)
      (Ignores.command (fun _ => rfl) (fun _ => rfl) (fun _ _ => rfl) (fun _ _ => rfl) fun h => absurd h hi) h
    exact hleft.mpr hs

/-- Reset leaves no live window, and empty lists (spec R68). -/
theorem reset_slot (i : Nat) : State.reset.slot i = Slot.empty := by
  simp only [State.slot, State.reset]
  by_cases hi : i < Config.maxSlots <;> simp [hi]

theorem resetBlock_slabOk {u : State} (h : u.params.Legal) : SlabOk u.resetBlock := by
  have hslot : ∀ i, u.resetBlock.slot i = Slot.empty := reset_slot
  have hdead : ∀ i, ¬ (u.resetBlock.slot i).live = true := fun i hl => by
    rw [hslot] at hl
    cases hl
  have hempty : ∀ k, ListHolds u.resetBlock [] k := fun k =>
    ⟨List.nodup_nil, fun i => ⟨nofun, fun hi => absurd hi.2.1 (hdead i)⟩⟩
  exact (slabOk_iff _).2 ⟨h, fun i _ hl => absurd hl (hdead i), ⟨hempty _, hempty _⟩, fun i hi => absurd hi.2 (hdead i)⟩

/-- The host's books keep the windows that are live (spec R601). -/
theorem reclaimRegion_slabOk {s : State} (addr : Nat) (hs : SlabOk s) : SlabOk (reclaimRegion s addr) := by
  unfold reclaimRegion
  split
  · exact hs
  · obtain ⟨hp, hcounts, hlists, hbooks⟩ := hs
    refine ⟨hp, hcounts, hlists, fun x hx => List.mem_filter.2 ⟨hbooks x hx, ?_⟩⟩
    exact Bool.or_eq_true_iff.2 (.inr (List.contains_iff_mem.2 hx))

/-- Settles O23: each step of the allocator's pseudocode leads from the invariant to the invariant. -/
theorem stepKeepsSlabInvariant : Obligations.StepKeepsSlabInvariant := fun _ _ hlegal hs h =>
  (step_keeps (Q := SlabOk) (fun _ => rfl) exec_keeps_slabOk
    (fun hu hs => resetBlock_slabOk (by rw [hu]; exact hs.1))
    (fun hc hs => (configStore_leaves (k := SlabOk) (fun _ => rfl) hc).mpr hs)
    reclaimRegion_slabOk h ⟨hlegal, hs⟩).2

end Sys2Proof.Machine
end

section
/-! SUPPORT. The host's stores and loads of the CSR window (spec R30 to R55, R542 to R544), the start of a command (R540), and
reset (R600, R601). -/

namespace Sys2Proof.Machine

variable {s : State} {rest : List HostAction} {offset : Nat} {v : Word}

/-! ## A step that takes the next action of the host -/

/-- The state once the first action has been taken out of the inbox. -/
def State.withInbox (s : State) (rest : List HostAction) : State := { s with inbox := rest }

theorem step_inbox {a : HostAction} (h : s.inbox = a :: rest) : step s = hostAct (s.withInbox rest) a := by
  simp [step, advance, h, State.withInbox]

/-- An offset inside the window (spec R30). -/
theorem csrOffset_add (s : State) (h : offset < 0x200) : csrOffset s (s.params.csrBase + offset) = some offset := by
  rw [csrOffset, if_pos ⟨Nat.le_add_right _ _, Nat.add_lt_add_left h _⟩, Nat.add_sub_cancel_left]

theorem csrAccessOk_iff {width : Nat} : csrAccessOk offset width = true ↔ width = 8 ∧ offset % 8 = 0 := by
  rw [csrAccessOk, decide_eq_true_iff]

/-- An aligned 64-bit store to the window (spec R30, R544). -/
theorem csrStore_aligned (s : State) (hlt : offset < 0x200) (h8 : offset % 8 = 0) (v : Word) :
    csrStore s (s.params.csrBase + offset) 8 v = csrStoreEffect s offset v := by
  rw [csrStore, csrOffset_add s hlt]
  exact if_pos (csrAccessOk_iff.2 ⟨rfl, h8⟩)

theorem step_csrStore (h : s.inbox = .csrStore (s.params.csrBase + offset) 8 v :: rest) (hlt : offset < 0x200)
    (h8 : offset % 8 = 0) : step s = .next (csrStoreEffect (s.withInbox rest) offset v) := by
  rw [step_inbox h, ← csrStore_aligned (s.withInbox rest) hlt h8]
  rfl

/-! ## What a store does, register by register -/

theorem csrStoreEffect_control (s : State) (h : v.getLsbD 1 = false) :
    csrStoreEffect s 0x010 v = { s with irqEn := v.getLsbD 0 } := by
  have hkept : ¬ v.getLsbD 1 = true := by rw [h]; decide
  exact if_neg hkept

theorem csrStoreEffect_softReset (s : State) (h : v.getLsbD 1 = true) : csrStoreEffect s 0x010 v = resetNow s := if_pos h

theorem csrStoreEffect_cmd (h : s.busy = false) (v : Word) : csrStoreEffect s 0x020 v = startCommand s (v.setWidth 32) := by
  have hidle : ¬ s.busy = true := by simp [h]
  exact if_neg hidle

/-- The offsets of the operand, configuration and row-counter registers (spec R36, R40 to R52). -/
def configOffsets : List Nat :=
  [0x028, 0x030, 0x038, 0x040, 0x080, 0x088, 0x090, 0x098, 0x0A0, 0x0A8, 0x0B0, 0x0B8, 0x0C0, 0x0C8, 0x0D0, 0x0D8]

theorem configStore_offset {s' : State} (h : configStore s offset v = some s') : offset ∈ configOffsets := by
  rcases configStore_cases h with ⟨rfl, -⟩ | ⟨rfl, -⟩ | ⟨rfl, -⟩ | ⟨rfl, -⟩ | ⟨rfl, -⟩ | ⟨rfl, -⟩ | ⟨rfl, -⟩ | ⟨rfl, -⟩ |
    ⟨rfl, -⟩ | ⟨rfl, -⟩ | ⟨rfl, -⟩ | ⟨rfl, -⟩ | ⟨rfl, -⟩ | ⟨rfl, -⟩ | ⟨rfl, -⟩ | ⟨rfl, -⟩ <;> decide

/-- The store of an offset that has no register a store writes, and is none of STATUS, CONTROL, ERROR and CMD. -/
theorem csrStoreEffect_none (h : offset ∉ [0x008, 0x010, 0x018, 0x020]) (hc : configStore s offset v = none) :
    csrStoreEffect s offset v = s := by
  simp only [List.mem_cons, List.not_mem_nil, or_false, not_or] at h
  obtain ⟨h1, h2, h3, h4⟩ := h
  simp only [csrStoreEffect, if_neg h1, if_neg h2, if_neg h3, if_neg h4, hc]

/-- The store of an operand, configuration or row-counter register. -/
theorem csrStoreEffect_some {s' : State} (hc : configStore s offset v = some s') : csrStoreEffect s offset v =
    if s.busy then s.raise .writeWhileBusy else noteCount (noteTable s (noteSums s s')) := by
  have h : offset ∉ [0x008, 0x010, 0x018, 0x020] := by
    have ho := configStore_offset hc
    simp only [configOffsets, List.mem_cons, List.not_mem_nil, or_false] at ho ⊢
    omega
  simp only [List.mem_cons, List.not_mem_nil, or_false, not_or] at h
  obtain ⟨h1, h2, h3, h4⟩ := h
  simp only [csrStoreEffect, if_neg h1, if_neg h2, if_neg h3, if_neg h4, hc]

/-- A store to an offset without a register, or to a register that no store writes. -/
theorem csrStoreEffect_ignored (s : State) (v : Word) (h : 0x120 ≤ offset ∨ offset ∈ [0x000, 0x048, 0x050, 0x058, 0x060, 0x068,
    0x070, 0x078, 0x0E0, 0x0E8, 0x0F0, 0x0F8, 0x100, 0x108, 0x110, 0x118]) : csrStoreEffect s offset v = s := by
  simp only [List.mem_cons, List.not_mem_nil, or_false] at h
  cases hc : configStore s offset v with
  | none => exact csrStoreEffect_none (by simp; omega) hc
  | some s' =>
    have ho := configStore_offset hc
    simp only [configOffsets, List.mem_cons, List.not_mem_nil, or_false] at ho
    omega

/-! ## Starting a command (spec R35, R540) -/

theorem step_letRun (h : s.inbox = .letRun :: rest) (hb : s.busy = true) : step s = runCommand (s.withInbox rest) := by
  rw [step_inbox h]
  exact if_pos hb

theorem step_end (h : s.inbox = []) (hb : s.busy = true) : step s = runCommand s := by
  simp [step, advance, h, hb]

theorem decode_of_decodeTableWord {nbits w : Nat} {i : Instr} (h : decodeTableWord nbits w = some i) :
    decode (BitVec.ofNat 32 (w % 2 ^ nbits)) = .ok i := by
  rw [decodeTableWord] at h
  cases hw : decode (BitVec.ofNat 32 (w % 2 ^ nbits)) with
  | ok j =>
    rw [hw] at h
    exact congrArg Except.ok (Option.some.inj h)
  | error e =>
    rw [hw] at h
    cases h

/-- Settles O6. -/
theorem stepRunsCommand : Obligations.StepRunsCommand := by
  refine ⟨fun s v rest hb h => ?_, fun s i hb hd hi => ⟨fun h => ?_, fun rest h => ?_⟩, fun s nbits w i hd hi => ?_⟩
  · rw [step_csrStore h (by decide) (by decide), csrStoreEffect_cmd (s := s.withInbox rest) hb]
    rfl
  · rw [step_end h hb, runCommand_ok hd hi]
  · rw [step_letRun h hb, runCommand_ok (s := s.withInbox rest) hd hi]
    rfl
  · rw [step_letRun (s := s.withFetchWord nbits w) rfl rfl]
    exact runCommand_ok hd (decode_of_decodeTableWord hi)

/-! ## Reset (spec R600, R601) -/

theorem resetNow_idle (h : s.busy = false) : resetNow s = s.resetBlock := by
  rw [resetNow, if_neg (by simp [h])]

/-- Settles O18: both sources come to the same reset. -/
theorem resetWhileIdle : Obligations.ResetWhileIdle := by
  rintro s rest hb (h | ⟨v, hv, h⟩)
  · rw [step_inbox h, hostAct, resetNow_idle (s := s.withInbox rest) hb]
    rfl
  · rw [step_csrStore h (by decide) (by decide), csrStoreEffect_softReset _ hv, resetNow_idle (s := s.withInbox rest) hb]
    rfl

/-! ## Stores that are ignored (spec R30, R544) -/

/-- Settles O15: the address is outside the window, or the access has no width or alignment of the window's, or no register
takes it. -/
theorem csrStoresIgnored : Obligations.CsrStoresIgnored := by
  intro s addr width v rest h hout
  have hignored : csrStore (s.withInbox rest) addr width v = s.withInbox rest := by
    by_cases hrange : s.params.csrBase ≤ addr ∧ addr < s.params.csrBase + 0x200
    · have hoffset : csrOffset (s.withInbox rest) addr = some (addr - s.params.csrBase) := if_pos hrange
      rw [csrStore, hoffset]
      by_cases hok : csrAccessOk (addr - s.params.csrBase) width = true
      · obtain ⟨hwidth, halign⟩ := csrAccessOk_iff.1 hok
        refine (if_pos hok).trans (csrStoreEffect_ignored _ v ?_)
        rcases hout with hlow | hhigh | hw | h8 | hmem
        · omega
        · exact .inl (by omega)
        · exact absurd hwidth hw
        · exact absurd halign h8
        · exact .inr hmem
      · exact if_neg hok
    · have hoffset : csrOffset (s.withInbox rest) addr = none := if_neg hrange
      rw [csrStore, hoffset]
  rw [step_inbox h, hostAct, hignored]
  rfl

/-! ## Loads (spec R30, R543, R544) -/

/-- The window's map (spec R30): every register with its offset. -/
def csrMap (s : State) : List (Nat × Word) :=
  [(0x000, idWord), (0x008, statusWord s), (0x010, controlWord s), (0x018, errorWord s), (0x020, 0),
    (0x028, s.arg0), (0x030, s.arg1), (0x038, s.arg2), (0x040, s.arg3),
    (0x048, s.res0), (0x050, s.res1), (0x058, s.res2), (0x060, s.res3),
    (0x080, s.winColumnStart.setWidth 64), (0x088, s.winFirstElem.setWidth 64), (0x090, s.winCount.setWidth 64),
    (0x098, s.winLongest.setWidth 64), (0x0A0, s.descBase), (0x0A8, s.sumBase), (0x0B0, s.sumStride.setWidth 64),
    (0x0B8, s.recBase), (0x0C0, s.recCap.setWidth 64), (0x0C8, s.nextRow.setWidth 64),
    (0x0D0, s.nextCauchyRow.setWidth 64), (0x0D8, nextParityWord s), (0x0E0, sumStateWord s),
    (0x100, param0Word s), (0x108, param1Word s), (0x110, param2Word s), (0x118, param3Word s)]

/-- The value at an offset in a map of offsets, 0 where it has none. -/
def valueAt (offset : Nat) : List (Nat × Word) → Word
  | [] => 0
  | (o, x) :: l => if offset = o then x else valueAt offset l

theorem csrValue_eq (s : State) (offset : Nat) : csrValue s offset = valueAt offset (csrMap s) := rfl

theorem valueAt_eq_zero {l : List (Nat × Word)} (h : ∀ x ∈ l, x.1 = offset → x.2 = 0) : valueAt offset l = 0 := by
  induction l with
  | nil => rfl
  | cons x l ih =>
    unfold valueAt
    split
    · rename_i ho
      exact h x (List.mem_cons_self ..) ho.symm
    · exact ih fun y hy => h y (List.mem_cons_of_mem _ hy)

/-- The offsets of the map but for CMD, which reads 0 (spec R35). -/
def readableOffsets : List Nat :=
  [0x000, 0x008, 0x010, 0x018, 0x028, 0x030, 0x038, 0x040, 0x048, 0x050, 0x058, 0x060, 0x080, 0x088, 0x090, 0x098, 0x0A0,
    0x0A8, 0x0B0, 0x0B8, 0x0C0, 0x0C8, 0x0D0, 0x0D8, 0x0E0, 0x100, 0x108, 0x110, 0x118]

/-- CMD is the one register of the map that is not read. -/
theorem csrMap_unread (s : State) : (csrMap s).filter (fun x => decide (x.1 ∉ readableOffsets)) = [(0x020, 0)] := rfl

theorem csrMap_offsets (s : State) (x : Nat × Word) (hx : x ∈ csrMap s) (h : x.1 ∉ readableOffsets) : x.2 = 0 := by
  have hmem : x ∈ (csrMap s).filter (fun x => decide (x.1 ∉ readableOffsets)) := List.mem_filter.2 ⟨hx, decide_eq_true h⟩
  rw [csrMap_unread, List.mem_singleton] at hmem
  rw [hmem]

theorem csrValue_unmapped (s : State) (h : 0x120 ≤ offset ∨ offset ∈ [0x020, 0x068, 0x070, 0x078, 0x0E8, 0x0F0, 0x0F8]) :
    csrValue s offset = 0 := by
  have hunread : offset ∉ readableOffsets := by
    simp only [readableOffsets, List.mem_cons, List.not_mem_nil, or_false] at h ⊢
    omega
  rw [csrValue_eq]
  exact valueAt_eq_zero fun x hx ho => csrMap_offsets s x hx (ho ▸ hunread)

/-- The registers of R543 have offsets of the map. -/
theorem readsEither_mapped (h : readsEither offset = true) :
    ¬ (0x120 ≤ offset ∨ offset ∈ [0x020, 0x068, 0x070, 0x078, 0x0E8, 0x0F0, 0x0F8]) := by
  simp only [readsEither, List.contains_iff_mem, List.mem_cons, List.not_mem_nil, or_false] at h ⊢
  omega

theorem csrLoadValue_refused (s : State) {width : Nat} (h : width ≠ 8 ∨ offset % 8 ≠ 0) : csrLoadValue s offset width = 0 := by
  have hrefused : ¬ csrAccessOk offset width = true := fun hok => by
    obtain ⟨hw, h8⟩ := csrAccessOk_iff.1 hok
    omega
  exact if_neg hrefused

/-- What an aligned 64-bit load returns (spec R30, R543). -/
theorem csrLoadValue_ok (s : State) (h8 : offset % 8 = 0) : csrLoadValue s offset 8 = csrValue s offset ∨
    (s.busy = true ∧ readsEither offset = true ∧ csrLoadValue s offset 8 = csrValue (afterCommand s) offset) := by
  rw [csrLoadValue, if_pos (csrAccessOk_iff.2 ⟨rfl, h8⟩)]
  by_cases he : (s.busy && readsEither offset) = true
  · obtain ⟨hb, hr⟩ := Bool.and_eq_true_iff.1 he
    rw [if_pos he]
    by_cases hf : Config.hostFlag s.hostDraws = true
    · exact .inl (if_pos hf)
    · exact .inr ⟨hb, hr, if_neg hf⟩
  · exact .inl (if_neg he)

/-- No command stops the machine, so there is a state that it ends in. -/
theorem runCommand_afterCommand (s : State) : runCommand s = .next (afterCommand s) := by
  rcases runCommand_cases s with ⟨-, hr⟩ | ⟨-, -, hr⟩ | ⟨-, -, hr⟩ | ⟨i, -, -, hr⟩ <;> rw [afterCommand, hr]

/-- Settles O16. -/
theorem csrLoads : Obligations.CsrLoads := by
  intro s offset width rest h
  refine ⟨csrLoad (s.withInbox rest) (s.params.csrBase + offset) width, step_inbox h, rfl, fun hlt => ?_⟩
  have hread : (csrLoad (s.withInbox rest) (s.params.csrBase + offset) width).hostRead =
      csrLoadValue (s.withInbox rest) offset width := by
    have hoffset : csrOffset (s.withInbox rest) (s.params.csrBase + offset) = some offset := csrOffset_add _ hlt
    rw [csrLoad, hoffset]
  rw [hread]
  refine ⟨fun hzero => ?_, fun hw h8 hb => ?_, fun hw h8 hb => ?_⟩
  · by_cases hok : width ≠ 8 ∨ offset % 8 ≠ 0
    · exact csrLoadValue_refused _ hok
    · obtain ⟨hw, h8⟩ := not_or.1 hok
      have hunmapped : 0x120 ≤ offset ∨ offset ∈ [0x020, 0x068, 0x070, 0x078, 0x0E8, 0x0F0, 0x0F8] :=
        (or_assoc.2 hzero).resolve_left hok
      rw [not_not.1 hw]
      rcases csrLoadValue_ok (s.withInbox rest) (not_not.1 h8) with hv | ⟨-, hr, -⟩
      · rw [hv, csrValue_unmapped _ hunmapped]
      · exact absurd hunmapped (readsEither_mapped hr)
  · subst hw
    rcases csrLoadValue_ok (s.withInbox rest) h8 with hv | ⟨hbusy, -, -⟩
    · exact hv
    · rw [show (s.withInbox rest).busy = s.busy from rfl, hb] at hbusy
      cases hbusy
  · subst hw
    rcases csrLoadValue_ok (s.withInbox rest) h8 with hv | ⟨-, hr, hv⟩
    · exact .inl hv
    · exact .inr ⟨List.contains_iff_mem.1 hr, _, runCommand_afterCommand _, hv⟩

end Sys2Proof.Machine
end

section
/-! SUPPORT. The value that a store of the host leaves in a register of the CSR window (spec R36, R40 to R52). -/

namespace Sys2Proof.Machine

variable {s s' : State} {rest : List HostAction} {offset : Nat} {v : Word}

/-! ## One register of the window's map -/

/-- A map of offsets with another value at one offset. -/
def setAt (offset : Nat) (x : Word) (l : List (Nat × Word)) : List (Nat × Word) :=
  l.map fun e => if e.1 = offset then (offset, x) else e

theorem valueAt_setAt_of_ne {o : Nat} (h : o ≠ offset) (x : Word) (l : List (Nat × Word)) :
    valueAt o (setAt offset x l) = valueAt o l := by
  induction l with
  | nil => rfl
  | cons e l ih =>
    by_cases he : e.1 = offset
    · have hne : o ≠ e.1 := he ▸ h
      simpa [setAt, valueAt, he, h, hne] using ih
    · simpa [setAt, valueAt, he] using congrArg (fun y => if o = e.1 then e.2 else y) ih

theorem valueAt_setAt_self {l : List (Nat × Word)} (h : offset ∈ l.map Prod.fst) (x : Word) :
    valueAt offset (setAt offset x l) = x := by
  induction l with
  | nil => cases h
  | cons e l ih =>
    by_cases he : e.1 = offset
    · simp [setAt, valueAt, he]
    · have hl : offset ∈ l.map Prod.fst := (List.mem_cons.1 h).resolve_left (Ne.symm he)
      simpa [setAt, valueAt, he, Ne.symm he] using ih hl

/-! ## The rules of the registers as masks and moduli -/

theorem setWidth_and_setWidth {w : Nat} (v : Word) (m : BitVec w) :
    (v.setWidth w &&& m).setWidth 64 = v &&& m.setWidth 64 := by
  ext i hi
  simp only [BitVec.getElem_setWidth, BitVec.getLsbD_and, BitVec.getLsbD_setWidth, BitVec.getElem_and]
  by_cases hw : i < w
  · simp [hw, BitVec.getLsbD_eq_getElem hi]
  · simp [hw, BitVec.getLsbD_of_ge m i (by omega)]

/-- A register of `w` bits keeps the low `w` bits of the store. -/
theorem setWidth_setWidth_eq_and (w : Nat) (v : Word) :
    (v.setWidth w).setWidth 64 = v &&& (BitVec.allOnes w).setWidth 64 := by
  rw [← setWidth_and_setWidth v (BitVec.allOnes w), BitVec.and_allOnes]

theorem setWidth_ofNat_of_lt {w n : Nat} (h : n < 2 ^ w) : (BitVec.ofNat w n).setWidth 64 = BitVec.ofNat 64 n := by
  apply BitVec.eq_of_toNat_eq
  rw [BitVec.toNat_setWidth, BitVec.toNat_ofNat, BitVec.toNat_ofNat, Nat.mod_eq_of_lt h]

/-- NEXT_PARITY keeps its column field and its valid bit (spec R52). -/
theorem nextParity_eq_and (v : Word) :
    (0#31 ++ BitVec.ofBool (v.getLsbD 32) ++ 0#10 ++ v.setWidth 22 : Word) = v &&& 0x1003FFFFF#64 := by
  have hmask : ∀ j : Fin 64, (0x1003FFFFF#64)[j.val] = decide (j.val < 22 ∨ j.val = 32) := by decide
  ext i hi
  have hbit := hmask ⟨i, hi⟩
  simp only [BitVec.getElem_append, BitVec.getElem_and, BitVec.getElem_setWidth, BitVec.getElem_zero, hbit]
  by_cases h22 : i < 22
  · simp [h22, BitVec.getLsbD_eq_getElem hi]
  · by_cases h32 : i = 32
    · subst h32
      simp [BitVec.getLsbD_eq_getElem]
    · by_cases h10 : i - 22 < 10
      · simp [h22, h10, h32]
      · have h1 : ¬ i - 22 - 10 < 1 := by omega
        simp [h22, h10, h1, h32]

/-- What a store leaves in a register: the bits that its rule drops at 0, the row counters modulo their bounds (spec R36, R40
to R52). -/
def readBack (p : Params) (offset : Nat) (v : Word) : Word :=
  if offset = 0x080 then v &&& 0x3FFFF8#64
  else if offset ∈ [0x088, 0x090, 0x098, 0x0C0] then v &&& 0xFFFFFFFF#64
  else if offset ∈ [0x0A0, 0x0A8, 0x0B8] then v &&& 0xFFFFFFFFFFFFFFF0#64
  else if offset = 0x0B0 then v &&& 0xFFFFFFF0#64
  else if offset = 0x0C8 then BitVec.ofNat 64 (v.toNat % 2 ^ 32 % p.rowPeriod)
  else if offset = 0x0D0 then BitVec.ofNat 64 (v.toNat % 2 ^ 16 % p.maxCauchyRows)
  else if offset = 0x0D8 then v &&& 0x1003FFFFF#64
  else v

/-- A store to a register sets the one value of the map that it names. -/
theorem configStore_csrMap (h : configStore s offset v = some s') :
    csrMap s' = setAt offset (readBack s.params offset v) (csrMap s) := by
  rcases configStore_cases h with ⟨rfl, rfl⟩ | ⟨rfl, rfl⟩ | ⟨rfl, rfl⟩ | ⟨rfl, rfl⟩ | ⟨rfl, rfl⟩ | ⟨rfl, rfl⟩ | ⟨rfl, rfl⟩ |
    ⟨rfl, rfl⟩ | ⟨rfl, rfl⟩ | ⟨rfl, rfl⟩ | ⟨rfl, rfl⟩ | ⟨rfl, rfl⟩ | ⟨rfl, rfl⟩ | ⟨rfl, rfl⟩ | ⟨rfl, rfl⟩ | ⟨rfl, rfl⟩
  · rfl
  · rfl
  · rfl
  · rfl
  · exact congrArg (setAt 0x080 · (csrMap s)) (setWidth_and_setWidth v 0x3FFFF8#22)
  · exact congrArg (setAt 0x088 · (csrMap s)) (setWidth_setWidth_eq_and 32 v)
  · exact congrArg (setAt 0x090 · (csrMap s)) (setWidth_setWidth_eq_and 32 v)
  · exact congrArg (setAt 0x098 · (csrMap s)) (setWidth_setWidth_eq_and 32 v)
  · rfl
  · rfl
  · exact congrArg (setAt 0x0B0 · (csrMap s)) (setWidth_and_setWidth v 0xFFFFFFF0#32)
  · rfl
  · exact congrArg (setAt 0x0C0 · (csrMap s)) (setWidth_setWidth_eq_and 32 v)
  · exact congrArg (setAt 0x0C8 · (csrMap s)) (setWidth_ofNat_of_lt (w := 32)
      ((Nat.mod_le _ _).trans_lt (Nat.mod_lt _ (by decide))))
  · exact congrArg (setAt 0x0D0 · (csrMap s)) (setWidth_ofNat_of_lt (w := 16)
      ((Nat.mod_le _ _).trans_lt (Nat.mod_lt _ (by decide))))
  · exact congrArg (setAt 0x0D8 · (csrMap s)) (nextParity_eq_and v)

theorem configStore_isSome (s : State) (v : Word) (h : offset ∈ configOffsets) : ∃ s', configStore s offset v = some s' := by
  simp only [configOffsets, List.mem_cons, List.not_mem_nil, or_false] at h
  rcases h with rfl | rfl | rfl | rfl | rfl | rfl | rfl | rfl | rfl | rfl | rfl | rfl | rfl | rfl | rfl | rfl <;>
    exact ⟨_, rfl⟩

theorem configOffsets_aligned (h : offset ∈ configOffsets) : offset < 0x200 ∧ offset % 8 = 0 := by
  simp only [configOffsets, List.mem_cons, List.not_mem_nil, or_false] at h
  omega

theorem configOffsets_mapped (s : State) (h : offset ∈ configOffsets) : offset ∈ (csrMap s).map Prod.fst := by
  have hsub : configOffsets ⊆ (csrMap s).map Prod.fst := by
    simp only [configOffsets, csrMap, List.map_cons, List.map_nil]
    decide
  exact hsub h

/-- The records of a store to a register are no registers, and the store leaves the data memory. -/
theorem step_configStore (hb : s.busy = false) (h : s.inbox = .csrStore (s.params.csrBase + offset) 8 v :: rest)
    (ho : offset ∈ configOffsets) : ∃ t, step s = .next t ∧ csrMap t = setAt offset (readBack s.params offset v) (csrMap s) ∧
      t.mem = s.mem := by
  obtain ⟨s', hc⟩ := configStore_isSome (s.withInbox rest) v ho
  obtain ⟨hlt, h8⟩ := configOffsets_aligned ho
  have hidle : ¬ (s.withInbox rest).busy = true := by
    rw [show (s.withInbox rest).busy = s.busy from rfl, hb]
    decide
  have hmap : csrMap s' = setAt offset (readBack s.params offset v) (csrMap s) :=
    configStore_csrMap (s := s.withInbox rest) hc
  have hmem : s'.mem = s.mem := configStore_leaves (s := s.withInbox rest) (k := State.mem) (fun _ => rfl) hc
  refine ⟨_, step_csrStore h hlt h8, ?_⟩
  rw [csrStoreEffect_some hc, if_neg hidle]
  exact ⟨hmap, hmem⟩

/-- Settles O13. -/
theorem csrStoreReadBack : Obligations.CsrStoreReadBack := by
  intro s offset v rest hb h
  refine ⟨fun ho => ?_, fun ho hkept => ?_, fun ho => ?_⟩
  · obtain ⟨t, hstep, hmap, hmem⟩ := step_configStore hb h ho
    refine ⟨t, hstep, fun o hne => ?_, hmem, ?_⟩
    · rw [csrValue_eq, csrValue_eq, hmap, valueAt_setAt_of_ne hne]
    · rw [csrValue_eq, hmap, valueAt_setAt_self (configOffsets_mapped s ho), readBack]
  · subst ho
    rw [step_csrStore h (by decide) (by decide), csrStoreEffect_control _ hkept]
    rfl
  · subst ho
    rw [step_csrStore h (by decide) (by decide)]
    rfl

end Sys2Proof.Machine
end

section
/-! SUPPORT. The reset state (spec R31, R55, R68). -/

namespace Sys2Proof.Machine

/-- The registers that do not read 0 after reset. -/
def constantOffsets : List Nat := [0x000, 0x100, 0x108, 0x110, 0x118]

theorem csrMap_reset : ∀ x ∈ csrMap State.reset, x.1 ∉ constantOffsets → x.2 = 0 := by decide

theorem csrValue_reset_of_notMem {offset : Nat} (h : offset ∉ constantOffsets) : csrValue State.reset offset = 0#64 := by
  rw [csrValue_eq]
  exact valueAt_eq_zero fun x hx ho => csrMap_reset x hx (ho ▸ h)

theorem csrValue_reset (offset : Nat) : csrValue State.reset offset =
    if offset = 0x000 then 0x0000000153434F52#64
    else if offset = 0x100 then 0x0800080004100308#64
    else if offset = 0x108 then 0x001000C000400040#64
    else if offset = 0x110 then 0x0000010000002000#64
    else if offset = 0x118 then 0x000040002002011D#64
    else 0#64 := by
  by_cases h : offset ∈ constantOffsets
  · simp only [constantOffsets, List.mem_cons, List.not_mem_nil, or_false] at h
    rcases h with rfl | rfl | rfl | rfl | rfl <;> decide
  · rw [csrValue_reset_of_notMem h]
    simp only [constantOffsets, List.mem_cons, List.not_mem_nil, or_false, not_or] at h
    obtain ⟨h0, h1, h2, h3, h4⟩ := h
    rw [if_neg h0, if_neg h1, if_neg h2, if_neg h3, if_neg h4]

theorem reset_sum (l k : Nat) : State.reset.sum l k = { ne := 0, sl := 0, se := 0 } := by
  have hsums : State.reset.sums = Vector.replicate 24 { ne := 0, sl := 0, se := 0 } := rfl
  rw [State.sum, hsums, Vector.getElem?_replicate]
  split <;> rfl

theorem reset_params_legal : State.reset.params.Legal := by decide

/-- Settles O20. -/
theorem resetState : Obligations.ResetState :=
  ⟨csrValue_reset, reset_bit, fun i => by rw [reset_slot]; rfl, rfl, rfl, reset_sum, rfl, reset_params_legal,
    fieldOk_default, resetBlock_registersLegal (u := State.reset) reset_params_legal,
    (resetBlock_slabOk (u := State.reset) reset_params_legal).2, nofun⟩

end Sys2Proof.Machine
end

section
/-! SUPPORT. Which bytes a command writes: the memory stays canonical, and outside the bytes that the command may write it stays
as it was (spec R101, R104). One lemma per operation; for a whole command's footprint the set of bytes is a parameter. -/

namespace Sys2Proof.Machine

/-! ## A run that has written inside a set of bytes -/

/-- What no command writes before its end: the operands, the registers that place the block's structures, and the parameters. -/
def fixedSide (s : State) :
    (Word × Word × Word × Word) × (BitVec 32 × Word × Word × BitVec 32 × Word × BitVec 32) × Params :=
  (operandSide s, configSide s, s.params)

/-- From state `s₀` the run has written bytes that `W` holds of, and no others; the memory is canonical, and what places the
block's structures is as it was. -/
structure Contained (s₀ : State) (W : Nat → Prop) (r : Run) : Prop where
  wf : r.st.mem.wf = true
  writes : ∀ a ∈ r.writes, a < Config.addrSpace ∧ W a
  outside : ∀ a, ¬ W a → r.st.mem.read a = s₀.mem.read a
  fixed : fixedSide r.st = fixedSide s₀

/-- The set of all bytes: no bound on what is written. -/
def Anywhere (_ : Nat) : Prop := True

/-- The memory, and what no command writes. -/
def memorySide (s : State) :
    Memory × (Word × Word × Word × Word) × (BitVec 32 × Word × Word × BitVec 32 × Word × BitVec 32) × Params :=
  (s.mem, fixedSide s)

section Contained

variable {s₀ : State} {W : Nat → Prop} {r r' : Run} {α β : Type}

theorem Contained.of_same (h : Contained s₀ W r) (hs : memorySide r'.st = memorySide r.st) (hw : r'.writes = r.writes) :
    Contained s₀ W r' := by
  obtain ⟨hmem, hfixed⟩ := Prod.ext_iff.1 hs
  have hmem : r'.st.mem = r.st.mem := hmem
  exact ⟨by rw [hmem]; exact h.wf, by rw [hw]; exact h.writes, by rw [hmem]; exact h.outside, hfixed.trans h.fixed⟩

/-- Storing one of the bytes. -/
theorem Contained.store {a : Nat} (h : Contained s₀ W r) (ha : a < Config.addrSpace) (hW : W a) (v : Byte) :
    Contained s₀ W { r with st := { r.st with mem := r.st.mem.write a v }, writes := a :: r.writes } := by
  refine ⟨Memory.wf_write h.wf ha, fun x hx => ?_, fun x hx => ?_, h.fixed⟩
  · rcases List.mem_cons.1 hx with rfl | hx
    · exact ⟨ha, hW⟩
    · exact h.writes x hx
  · have hne : x ≠ a := fun he => hx (by rwa [he])
    rw [Memory.read_write h.wf, if_neg hne]
    exact h.outside x hx

theorem Contained.operands (h : Contained s₀ W r) : operandSide r.st = operandSide s₀ := congrArg (·.1) h.fixed

theorem Contained.config (h : Contained s₀ W r) : configSide r.st = configSide s₀ := congrArg (·.2.1) h.fixed

theorem Contained.params (h : Contained s₀ W r) : r.st.params = s₀.params := congrArg (·.2.2) h.fixed

theorem Contained.sumStride (h : Contained s₀ W r) : r.st.sumStride = s₀.sumStride := congrArg (·.2.2.2.1) h.config

theorem Contained.sumAddr (h : Contained s₀ W r) (l k : Nat) : sumAddr r.st l k = sumAddr s₀ l k := by
  have hbase : r.st.sumBase = s₀.sumBase := congrArg (·.2.2.1) h.config
  rw [Machine.sumAddr, hbase, h.sumStride, Machine.sumAddr]

/-- The scratch is where it was, and rows are as long. -/
theorem Contained.scratch (h : Contained s₀ W r) : r.st.recBase = s₀.recBase ∧ r.st.winLongest = s₀.winLongest :=
  ⟨congrArg (·.2.2.2.2.1) h.config, congrArg (·.1) h.config⟩

theorem contained_start {s : State} (hwf : s.mem.wf = true) : Contained s W (Run.start s) :=
  ⟨hwf, fun _ ha => absurd ha List.not_mem_nil, fun _ _ => rfl, rfl⟩

/-- The run that the command would make is contained if the command keeps to the set. -/
theorem contained_wouldRun {s : State} {body : Cmd Unit} (h : Keeps (Contained s W) body) (hwf : s.mem.wf = true) :
    Contained s W (wouldRun body s) := by
  have hrun := h { Run.start { s with port := s.port.filter (fun p => p.kind == .device) } with skip := true }
    ((contained_start hwf).of_same rfl rfl)
  unfold wouldRun
  split
  · exact hrun.1 _ _ ‹_›
  · exact hrun.2 _ _ ‹_›

/-! ## Composing commands -/

/-- What comes after a command may use that the command has given its answer from a run with the property. -/
theorem keeps_bind_of {P : Run → Prop} {x : Cmd α} {f : α → Cmd β} (hx : Keeps P x)
    (hf : ∀ a r r', P r → x r = .ok a r' → Keeps P (f a)) : Keeps P (x >>= f) := by
  intro r h
  obtain ⟨hok, herror⟩ := hx r h
  cases hr : x r with
  | ok a r1 =>
    rw [bind_run_ok hr]
    exact hf a r r1 h hr r1 (hok a r1 hr)
  | error e r1 =>
    rw [bind_run_error hr]
    exact keeps_stop (α := β) e r1 (herror e r1 hr)

theorem bind_ok {x : Cmd α} {f : α → Cmd β} {b : β} (h : (x >>= f) r = .ok b r') :
    ∃ a r1, x r = .ok a r1 ∧ f a r1 = .ok b r' := by
  cases hx : x r with
  | ok a r1 => exact ⟨a, r1, rfl, (bind_run_ok hx).symm.trans h⟩
  | error e r1 =>
    rw [bind_run_error hx] at h
    cases h

theorem keeps_forRange_lt {P : Run → Prop} {f : Nat → Cmd Unit} {n i : Nat}
    (hf : ∀ j, i ≤ j → j < i + n → Keeps P (f j)) : Keeps P (forRange f n i) := by
  induction n generalizing i with
  | zero => exact keeps_pure ()
  | succ n ih => exact keeps_bind (hf i (by omega) (by omega)) fun _ => ih fun j h1 h2 => hf j (by omega) (by omega)

/-- A change of the state that leaves the memory and the places of the structures. -/
theorem contained_modify {f : State → State} (hf : ∀ s, memorySide (f s) = memorySide s) :
    Keeps (Contained s₀ W) (modifyState f) := keeps_modifyState fun r h => h.of_same (hf r.st) rfl

/-! ## The memory operations -/

theorem contained_drawByte : Keeps (Contained s₀ W) drawByte := fun _ h => keeps_pure _ _ (h.of_same rfl rfl)

theorem contained_drawWord : Keeps (Contained s₀ W) drawWord := fun _ h => keeps_pure _ _ (h.of_same rfl rfl)

theorem contained_s32Value (x : Int) : Keeps (Contained s₀ W) (s32Value x) := by
  intro r h
  unfold s32Value
  split
  · exact keeps_pure _ r h
  · exact keeps_pure _ _ (h.of_same rfl rfl)

theorem contained_setArea (f : Nat → Bool) : Keeps (Contained s₀ W) (setArea f) :=
  fun _ h => keeps_pure () _ (h.of_same rfl rfl)

theorem contained_markOpen (a : Nat) : Keeps (Contained s₀ W) (markOpen a) :=
  fun _ h => keeps_pure () _ (h.of_same rfl rfl)

theorem contained_memRead8 (a : Nat) : Keeps (Contained s₀ W) (memRead8 a) := by
  intro r h
  have hread : Contained s₀ W { r with reads := a % Config.addrSpace :: r.reads } := h.of_same rfl rfl
  simp only [memRead8]
  split
  · exact keeps_stop _ r h
  · split
    · exact contained_drawByte _ hread
    · exact keeps_pure _ _ hread

theorem contained_memRead (a n : Nat) : Keeps (Contained s₀ W) (memRead a n) := by
  induction n generalizing a with
  | zero => exact keeps_pure _
  | succ n ih => exact keeps_bind (contained_memRead8 a) fun _ => keeps_bind (ih (a + 1)) fun _ => keeps_pure _

theorem contained_readDesc (e : Int) : Keeps (Contained s₀ W) (readDesc e) :=
  keeps_withState fun _ _ => keeps_bind (contained_memRead _ 8) fun _ => keeps_bind (contained_memRead _ 4) fun _ =>
    keeps_bind (keeps_anyOpen _ 12) fun _ => keeps_ite
      (fun _ => keeps_bind contained_drawWord fun _ => keeps_bind contained_drawWord fun _ => keeps_pure _)
      (fun _ => keeps_pure _)

theorem contained_storeByte {a : Nat} (hW : W (a % Config.addrSpace)) (v : Byte) :
    Keeps (Contained s₀ W) (storeByte (a % Config.addrSpace) v) :=
  fun _ h => keeps_pure () _ (h.store (mod_addrSpace_lt a) hW v)

theorem contained_memWrite8 {a : Nat} (hW : W (a % Config.addrSpace)) (v : Byte) :
    Keeps (Contained s₀ W) (memWrite8 a v) := by
  intro r h
  simp only [memWrite8]
  split
  · exact keeps_stop _ r h
  · split
    · exact keeps_bind contained_drawByte (fun w => contained_storeByte hW w) r h
    · exact contained_storeByte hW v _ (h.of_same rfl rfl)

theorem contained_memPut {a : Nat} (hW : W (a % Config.addrSpace)) (isOpen : Bool) (v : Byte) :
    Keeps (Contained s₀ W) (memPut isOpen a v) := by
  cases isOpen with
  | false => exact contained_memWrite8 hW v
  | true =>
    exact keeps_bind contained_drawByte fun w => keeps_bind (contained_memWrite8 hW w) fun _ => contained_markOpen a

/-- The set holds the `n` bytes from `a`. -/
def Covers (W : Nat → Prop) (a n : Nat) : Prop := ∀ i, i < n → W ((a + i) % Config.addrSpace)

theorem covers_anywhere (a n : Nat) : Covers Anywhere a n := fun _ _ => trivial

theorem Covers.sub {a b n k : Nat} (h : Covers W a n) (hb : b + k ≤ n) : Covers W (a + b) k := fun i hi => by
  rw [Nat.add_assoc]
  exact h (b + i) (by omega)

theorem Covers.take {a n k : Nat} (h : Covers W a n) (hk : k ≤ n) : Covers W a k := fun i hi => h i (by omega)

/-- A range inside the data space as the set of bytes. -/
theorem covers_range {a n : Nat} (h : a + n ≤ Config.addrSpace) : Covers (fun x => a ≤ x ∧ x < a + n) a n := fun i hi => by
  rw [Nat.mod_eq_of_lt (by omega)]
  exact ⟨by omega, by omega⟩

theorem contained_memWrite {a : Nat} {vs : List Byte} (hW : Covers W a vs.length) :
    Keeps (Contained s₀ W) (memWrite a vs) := by
  induction vs generalizing a with
  | nil => exact keeps_pure _
  | cons v vs ih =>
    refine keeps_bind (contained_memWrite8 ?_ v) fun _ => ih (hW.sub ?_)
    · exact hW 0 (Nat.succ_pos _)
    · exact le_of_eq (Nat.add_comm 1 _)

/-- The byte loops write `n` bytes from `a`. -/
theorem contained_rounds {a n : Nat} {f : Nat → Cmd Unit} (hW : Covers W a n)
    (hf : ∀ i, W ((a + i) % Config.addrSpace) → Keeps (Contained s₀ W) (f i)) : Keeps (Contained s₀ W) (forRange f n 0) :=
  keeps_forRange_lt fun j _ hj => hf j (hW j (by omega))

theorem contained_memZero {a n : Nat} (hW : Covers W a n) : Keeps (Contained s₀ W) (memZero a n) :=
  contained_rounds hW fun _ hi => contained_memWrite8 hi 0

theorem contained_memLoosen {a n : Nat} (hW : Covers W a n) : Keeps (Contained s₀ W) (memLoosen a n) :=
  contained_rounds hW fun _ hi => contained_memPut hi true 0

theorem contained_leaveOpen {a n : Nat} (hW : Covers W a n) : Keeps (Contained s₀ W) (leaveOpen a n) :=
  contained_rounds hW fun _ hi => keeps_bind contained_drawByte fun v => contained_storeByte hi v

theorem contained_accumulate {dst n : Nat} (hW : Covers W dst n) (src : Nat) (f : Byte → Byte) :
    Keeps (Contained s₀ W) (accumulate dst src f n) :=
  contained_rounds hW fun _ hi => keeps_bind (contained_memRead8 _) fun _ => keeps_bind (contained_memRead8 _) fun _ =>
    keeps_bind (keeps_anyOpen _ 1) fun _ => keeps_bind (keeps_anyOpen _ 1) fun _ => contained_memPut hi _ _

theorem contained_mapBytes {dst n : Nat} (hW : Covers W dst n) (src : Nat) (f : Byte → Byte) :
    Keeps (Contained s₀ W) (mapBytes dst src f n) :=
  contained_rounds hW fun _ hi => keeps_bind (contained_memRead8 _) fun _ =>
    keeps_bind (keeps_anyOpen _ 1) fun _ => contained_memPut hi _ _

/-- Opening a range of the bytes. -/
theorem Contained.openRange {a n : Nat} (h : Contained s₀ W r) (hW : Covers W a n) :
    Contained s₀ W { r with st := openRange n a r.st } := by
  refine ⟨openRange_wf n a h.wf, h.writes, fun x hx => ?_, ?_⟩
  · rw [← h.outside x hx]
    exact openRange_read h.wf fun i hi he => hx (he ▸ hW i hi)
  · exact (Ignores.openRange (k := fixedSide) (fun _ => rfl) n a r.st).trans h.fixed

/-- A fatal cause inside a row opens scratch bytes. -/
theorem contained_withScratch {base n : Nat} {body : Cmd Unit} (hW : Covers W base n)
    (h : Keeps (Contained s₀ W) body) : Keeps (Contained s₀ W) (withScratch base n body) := by
  intro r hr
  obtain ⟨hok, herror⟩ := h r hr
  cases hb : body r with
  | ok a r1 =>
    rw [withScratch_ok hb]
    exact keeps_pure a r1 (hok _ _ hb)
  | error x r1 =>
    have h1 : Contained s₀ W r1 := herror _ _ hb
    rw [withScratch, hb]
    cases x with
    | fatal e => exact keeps_stop (α := Unit) (.fatal e) _ (h1.openRange hW)
    | _ => exact keeps_stop (α := Unit) _ r1 h1

/-! ## The scalar and vector commands and the bitset engine -/

theorem contained_resultField (f : Params → Byte) : Keeps (Contained s₀ W) (resultField f) :=
  keeps_withState fun _ _ => contained_modify fun _ => rfl

/-- A scalar command that rejects a zero divisor. -/
theorem contained_divides (c : Bool) (f : Params → Byte) :
    Keeps (Contained s₀ W) (do rejectIf c .zeroDivisor; resultField f) :=
  keeps_bind (keeps_rejectIf _ _) fun _ => contained_resultField f

theorem contained_gfLogBody (a : Byte) : Keeps (Contained s₀ W) (gfLogBody a) :=
  keeps_bind (keeps_rejectIf _ _) fun _ => keeps_withState fun _ _ => contained_modify fun _ => rfl

theorem contained_gfAddLoop {dst n : Nat} (hW : Covers W dst n) (p : Params) (src : Nat) :
    Keeps (Contained s₀ W) (gfAddLoop p dst src n) := contained_accumulate hW src _

theorem contained_gfMuladdLoop {dst n : Nat} (hW : Covers W dst n) (c : Byte) (p : Params) (src : Nat) :
    Keeps (Contained s₀ W) (gfMuladdLoop c p dst src n) :=
  keeps_ite (fun _ => keeps_pure ()) fun _ => contained_accumulate hW src _

theorem contained_gfMulLoop {dst n : Nat} (hW : Covers W dst n) (c : Byte) (p : Params) (src : Nat) :
    Keeps (Contained s₀ W) (gfMulLoop c p dst src n) :=
  keeps_ite (fun _ => contained_memZero hW) fun _ => contained_mapBytes hW src _

theorem contained_gfDivLoop {dst n : Nat} (hW : Covers W dst n) (c : Byte) (p : Params) (src : Nat) :
    Keeps (Contained s₀ W) (gfDivLoop c p dst src n) := contained_mapBytes hW src _

/-- A vector command writes what its loop writes. -/
theorem contained_gfVector {loop : Params → (dst src n : Nat) → Cmd Unit}
    (h : ∀ p, Keeps (Contained s₀ W) (loop p s₀.arg0.toNat s₀.arg1.toNat s₀.arg2.toNat)) :
    Keeps (Contained s₀ W) (gfVector loop) := by
  refine keeps_withState fun r hr => ?_
  have h0 : r.st.arg0 = s₀.arg0 := congrArg (·.1) hr.operands
  have h1 : r.st.arg1 = s₀.arg1 := congrArg (·.2.1) hr.operands
  have h2 : r.st.arg2 = s₀.arg2 := congrArg (·.2.2.1) hr.operands
  rw [h0, h1, h2]
  exact keeps_bind (keeps_rejectIf _ _) fun _ => keeps_ite (fun _ => keeps_pure ()) fun _ =>
    keeps_bind (keeps_rejectIf _ _) fun _ => keeps_bind (keeps_rejectIf _ _) fun _ =>
      keeps_bind (h _) fun _ => contained_modify fun _ => rfl

/-- The vector commands write only `dst` (spec R220). -/
theorem contained_gfAddMemBody (hW : Covers W s₀.arg0.toNat s₀.arg2.toNat) : Keeps (Contained s₀ W) gfAddMemBody :=
  contained_gfVector fun p => contained_gfAddLoop hW p _

theorem contained_gfMuladdMemBody (hW : Covers W s₀.arg0.toNat s₀.arg2.toNat) (c : Byte) :
    Keeps (Contained s₀ W) (gfMuladdMemBody c) := contained_gfVector fun p => contained_gfMuladdLoop hW c p _

theorem contained_gfMulMemBody (hW : Covers W s₀.arg0.toNat s₀.arg2.toNat) (c : Byte) :
    Keeps (Contained s₀ W) (gfMulMemBody c) := contained_gfVector fun p => contained_gfMulLoop hW c p _

theorem contained_gfDivMemBody (hW : Covers W s₀.arg0.toNat s₀.arg2.toNat) (c : Byte) :
    Keeps (Contained s₀ W) (gfDivMemBody c) :=
  keeps_bind (keeps_rejectIf _ _) fun _ => contained_gfVector fun p => contained_gfDivLoop hW c p _

theorem contained_bitsetCheck (b : BitVec 4) : Keeps (Contained s₀ W) (bitsetCheck b) :=
  keeps_withState fun _ _ => keeps_rejectIf _ _

theorem contained_bitsetIndex (b : BitVec 4) : Keeps (Contained s₀ W) (bitsetIndex b) :=
  keeps_bind (contained_bitsetCheck b) fun _ => keeps_withState fun _ _ => keeps_bind (keeps_rejectIf _ _) fun _ =>
    keeps_pure _

theorem contained_bitsetRange (b : BitVec 4) : Keeps (Contained s₀ W) (bitsetRange b) :=
  keeps_bind (contained_bitsetCheck b) fun _ => keeps_withState fun _ _ => keeps_bind (keeps_rejectIf _ _) fun _ =>
    keeps_pure _

theorem contained_bitsetAt (b : BitVec 4) (f : BitVec Config.bitsetWidth → Nat → BitVec Config.bitsetWidth) :
    Keeps (Contained s₀ W) (bitsetAt b f) :=
  keeps_bind (contained_bitsetIndex b) fun _ => contained_modify fun _ => rfl

theorem contained_bitsetOver (b : BitVec 4) (f : BitVec Config.bitsetWidth → Nat → Nat → BitVec Config.bitsetWidth) :
    Keeps (Contained s₀ W) (bitsetOver b f) :=
  keeps_bind (contained_bitsetRange b) fun _ => contained_modify fun _ => rfl

theorem contained_bitsetAsk (b : BitVec 4) (f : BitVec Config.bitsetWidth → Nat → Nat → Nat) :
    Keeps (Contained s₀ W) (bitsetAsk b f) :=
  keeps_bind (contained_bitsetRange b) fun _ => keeps_withState fun _ _ => contained_modify fun _ => rfl

theorem contained_bsCheckBody (b : BitVec 4) : Keeps (Contained s₀ W) (bsCheckBody b) :=
  keeps_bind (contained_bitsetIndex b) fun _ => keeps_withState fun _ _ => contained_modify fun _ => rfl

theorem contained_bsFfcBody (b : BitVec 4) : Keeps (Contained s₀ W) (bsFfcBody b) :=
  keeps_bind (contained_bitsetCheck b) fun _ => keeps_withState fun _ _ => keeps_bind (keeps_rejectIf _ _) fun _ =>
    contained_modify fun _ => rfl

/-! ## The slab allocator -/

theorem contained_hostAlloc (size : Nat) : Keeps (Contained s₀ W) (hostAlloc size) := by
  refine keeps_withState fun r _ => ?_
  cases r.st.allocAnswers with
  | nil => exact keeps_bind (contained_modify fun _ => rfl) fun _ => keeps_pure _
  | cons answer rest => exact keeps_bind (contained_modify fun _ => rfl) fun _ => keeps_pure _

theorem contained_hostAllocOrFail (size : Nat) : Keeps (Contained s₀ W) (hostAllocOrFail size) := by
  refine keeps_bind (contained_hostAlloc size) fun answer => ?_
  cases answer with
  | none => exact keeps_stop _
  | some r => exact keeps_pure r

theorem contained_allocatorResult (v : Word) : Keeps (Contained s₀ W) (allocatorResult v) :=
  keeps_withState fun _ _ => keeps_ite (fun _ => contained_drawWord) fun _ => keeps_pure v

theorem contained_allocatorCount (n : Nat) : Keeps (Contained s₀ W) (allocatorCount n) :=
  keeps_withState fun _ _ => keeps_ite (fun _ => keeps_bind contained_drawWord fun _ => keeps_pure _) fun _ => keeps_pure _

theorem contained_requestCheck (b : Nat) : Keeps (Contained s₀ W) (requestCheck b) :=
  keeps_withState fun _ _ => keeps_bind (keeps_rejectIf _ _) fun _ => keeps_rejectIf _ _

theorem contained_slabWrite {addr : Nat} {bytes : List Byte} (hW : Covers W addr bytes.length) :
    Keeps (Contained s₀ W) (slabWrite addr bytes) :=
  keeps_withState fun _ _ => keeps_bind (contained_setArea _) fun _ => contained_memWrite hW

theorem contained_carve (slot st u : Nat) : Keeps (Contained s₀ Anywhere) (carve slot st u) :=
  keeps_withState fun _ _ => keeps_bind (contained_modify fun _ => rfl) fun _ =>
    keeps_bind (contained_slabWrite (covers_anywhere _ _)) fun _ => keeps_bind (contained_modify fun _ => rfl) fun _ =>
      keeps_pure _

theorem migrate_memorySide (s : State) (x : Nat) : memorySide (migrate s x) = memorySide s := by
  simp only [migrate]
  split <;> rfl

theorem foldl_migrate_memorySide (s : State) (l : List Nat) : memorySide (l.foldl migrate s) = memorySide s := by
  induction l generalizing s with
  | nil => rfl
  | cons x l ih => exact (ih _).trans (migrate_memorySide s x)

theorem contained_post (w u : Nat) (scanned : List Nat) :
    Keeps (Contained s₀ W) (modifyState fun s => post s w u scanned) := by
  refine contained_modify fun s => ?_
  simp only [post]
  split
  · rfl
  · exact foldl_migrate_memorySide s _

theorem contained_newWindow : Keeps (Contained s₀ W) newWindow := by
  refine keeps_withState fun r _ => ?_
  cases lowestDead r.st r.st.params.nwMax 0 with
  | none => exact keeps_stop _
  | some i =>
    exact keeps_bind (contained_hostAllocOrFail _) fun _ => keeps_bind (contained_modify fun _ => rfl) fun _ => keeps_pure i

theorem contained_carvePost (w st u : Nat) (scanned : List Nat) : Keeps (Contained s₀ Anywhere)
    (do let p ← carve w st u; modifyState fun s => post s w u scanned; pure p) :=
  keeps_bind (contained_carve w st u) fun _ => keeps_bind (contained_post w u scanned) fun _ => keeps_pure _

theorem contained_allocSmall (u : Nat) : Keeps (Contained s₀ Anywhere) (allocSmall u) := by
  refine keeps_withState fun r _ => ?_
  obtain ⟨_ | ⟨w, st⟩, scanned⟩ := walkPref r.st u r.st.prefList []
  · exact keeps_bind contained_newWindow fun w => contained_carvePost w 0 u scanned
  · exact contained_carvePost w st u scanned

theorem contained_allocLarge (u : Nat) : Keeps (Contained s₀ Anywhere) (allocLarge u) :=
  keeps_withState fun _ _ => keeps_bind (contained_hostAllocOrFail _) fun _ => keeps_bind (contained_modify fun _ => rfl)
    fun _ => keeps_bind (contained_slabWrite (covers_anywhere _ _)) fun _ => keeps_bind (contained_modify fun _ => rfl)
    fun _ => keeps_pure _

theorem contained_alloc (b : Nat) : Keeps (Contained s₀ Anywhere) (alloc b) :=
  keeps_withState fun _ _ => keeps_ite (fun _ => contained_allocLarge _) fun _ => contained_allocSmall _

theorem contained_checkPointer (ptr : Nat) : Keeps (Contained s₀ W) (checkPointer ptr) := by
  refine keeps_withState fun s _ => keeps_bind (keeps_rejectIf _ _) fun _ => keeps_bind (contained_setArea _) fun _ =>
    keeps_bind (contained_memRead _ 8) fun win => keeps_bind (contained_memRead _ 4) fun u =>
      keeps_bind (contained_memRead8 _) fun f => ?_
  cases classify s.st (ptr - s.st.params.unit) (leValue win) (leValue u) f.toNat with
  | ok r => exact keeps_pure r
  | error e => exact keeps_stop _

/-- Where the region's header is. -/
def Allocation.header : Allocation → Nat
  | .large h _ => h
  | .slab _ _ h _ => h

theorem promote_memorySide (s : State) (x : Nat) : memorySide (promote s x) = memorySide s := by
  simp only [promote]
  split <;> rfl

theorem releaseRun_memorySide (s : State) (slot st u : Nat) : memorySide (releaseRun s slot st u) = memorySide s :=
  promote_memorySide _ slot

/-- Freeing a region writes the freed flag of its header. -/
theorem contained_doFree {x : Allocation} (hW : Covers W (x.header + 12) 1) : Keeps (Contained s₀ W) (doFree x) := by
  refine keeps_withState fun _ _ => keeps_bind (contained_modify fun _ => rfl) fun _ => ?_
  cases x with
  | large h u =>
    exact keeps_bind (contained_slabWrite hW) fun _ => keeps_bind (contained_modify fun _ => rfl) fun _ =>
      contained_modify fun _ => rfl
  | slab slot st h u =>
    exact keeps_bind (contained_slabWrite hW) fun _ => keeps_bind (contained_modify fun _ => rfl) fun _ =>
      contained_modify fun s => releaseRun_memorySide s slot st u

theorem contained_grow (slot st h u u2 : Nat) : Keeps (Contained s₀ Anywhere) (grow slot st h u u2) :=
  keeps_withState fun _ _ => keeps_bind (contained_modify fun _ => rfl) fun _ =>
    keeps_bind (contained_slabWrite (covers_anywhere _ _)) fun _ => keeps_bind (contained_post slot u2 []) fun _ =>
      keeps_pure _

theorem contained_copyPayload (h ptr p n : Nat) : Keeps (Contained s₀ Anywhere) (copyPayload h ptr p n) :=
  keeps_withState fun _ _ => keeps_bind (contained_setArea _) fun _ => keeps_bind (keeps_anyOpen h 13) fun _ =>
    keeps_bind (contained_setArea _) fun _ => keeps_bind (contained_memRead ptr n) fun _ =>
      keeps_bind (contained_memWrite (covers_anywhere _ _)) fun _ =>
        keeps_ite (fun _ => contained_memLoosen (covers_anywhere _ _)) fun _ => keeps_pure ()

theorem contained_moveRegion (old : Allocation) (ptr b : Nat) (copy : Bool) :
    Keeps (Contained s₀ Anywhere) (moveRegion old ptr b copy) := by
  refine keeps_withState fun _ _ => keeps_bind (contained_alloc b) fun p => ?_
  have hfree : Keeps (Contained s₀ Anywhere) (do doFree old; pure p) :=
    keeps_bind (contained_doFree (covers_anywhere _ _)) fun _ => keeps_pure p
  exact keeps_ite (fun _ => keeps_bind (contained_copyPayload _ _ _ _) fun _ => hfree) fun _ => hfree

theorem contained_enlarge (x : Allocation) (ptr b u2 : Nat) (copy : Bool) :
    Keeps (Contained s₀ Anywhere) (enlarge x ptr b u2 copy) := by
  refine keeps_withState fun r _ => ?_
  cases x with
  | large h u => exact contained_moveRegion _ ptr b copy
  | slab slot st h u =>
    cases canGrow r.st u2 (.slab slot st h u) with
    | true => exact contained_grow slot st h u u2
    | false => exact contained_moveRegion _ ptr b copy

theorem contained_resultPointer (p : Word) : Keeps (Contained s₀ W) (resultPointer p) :=
  keeps_bind (contained_allocatorResult p) fun _ => contained_modify fun _ => rfl

theorem contained_allocChecked (b : Nat) : Keeps (Contained s₀ Anywhere) (allocChecked b) :=
  keeps_bind (contained_requestCheck b) fun _ => keeps_bind (contained_alloc b) fun p => contained_resultPointer p

theorem classify_header {s : State} {h win u freed : Nat} {x : Allocation} (hx : classify s h win u freed = .ok x) :
    x.header = h := by
  unfold classify at hx
  simp only at hx
  split_ifs at hx <;> cases hx <;> rfl

/-- The region that passes the checks has its header a unit below the pointer (spec R362). -/
theorem checkPointer_header {ptr : Nat} {x : Allocation} (h : checkPointer ptr r = .ok x r') :
    x.header = ptr - r.st.params.unit := by
  obtain ⟨s, r1, hs, h⟩ := bind_ok h
  cases hs
  obtain ⟨-, r2, -, h⟩ := bind_ok h
  obtain ⟨-, r3, -, h⟩ := bind_ok h
  obtain ⟨win, r4, -, h⟩ := bind_ok h
  obtain ⟨u, r5, -, h⟩ := bind_ok h
  obtain ⟨f, r6, -, h⟩ := bind_ok h
  cases hc : classify r.st (ptr - r.st.params.unit) (leValue win) (leValue u) f.toNat with
  | ok y =>
    rw [hc] at h
    cases h
    exact classify_header hc
  | error e =>
    rw [hc] at h
    cases h

/-- SLAB_FREE writes only the freed flag of the header a unit below its pointer (spec R363). -/
theorem contained_slabFreeBody (hW : Covers W (s₀.arg0.toNat - s₀.params.unit + 12) 1) :
    Keeps (Contained s₀ W) slabFreeBody := by
  refine keeps_withState fun r hr => keeps_ite (fun _ => keeps_pure ()) fun _ =>
    keeps_bind_of (contained_checkPointer _) fun x r1 r2 h1 hx => contained_doFree ?_
  have h0 : r.st.arg0 = s₀.arg0 := congrArg (·.1) hr.operands
  rw [checkPointer_header hx, h1.params, h0]
  exact hW

theorem contained_slabReallocBody (copy : Bool) : Keeps (Contained s₀ Anywhere) (slabReallocBody copy) :=
  keeps_withState fun _ _ => keeps_ite (fun _ => contained_allocChecked _) fun _ =>
    keeps_bind (contained_requestCheck _) fun _ => keeps_bind (contained_checkPointer _) fun x =>
      keeps_ite (fun _ => contained_resultPointer _) fun _ =>
        keeps_bind (contained_enlarge x _ _ _ copy) fun p => contained_resultPointer p

theorem contained_slabWinfoBody : Keeps (Contained s₀ W) slabWinfoBody :=
  keeps_withState fun _ _ => keeps_bind (keeps_rejectIf _ _) fun _ => keeps_ite
    (fun _ => keeps_bind (contained_allocatorResult _) fun _ => keeps_bind (contained_allocatorCount _) fun _ =>
      keeps_bind (contained_allocatorCount _) fun _ => keeps_bind (contained_allocatorResult _) fun _ =>
        contained_modify fun _ => rfl)
    (fun _ => contained_modify fun _ => rfl)

/-! ## The lane sums -/

theorem contained_setNe (l k : Nat) (x : Int) : Keeps (Contained s₀ W) (setNe l k x) :=
  keeps_bind (contained_s32Value x) fun _ => contained_modify fun _ => rfl

theorem contained_setSe (l k : Nat) (x : Int) : Keeps (Contained s₀ W) (setSe l k x) :=
  keeps_bind (contained_s32Value x) fun _ => contained_modify fun _ => rfl

/-- The set holds the buffer of sum (l, k) (spec R112). -/
def CoversSum (W : Nat → Prop) (s : State) (l k : Nat) : Prop := Covers W (Machine.sumAddr s l k) s.sumStride.toNat

theorem contained_growSum {l k n : Nat} (hW : CoversSum W s₀ l k) (hn : n ≤ s₀.sumStride.toNat) :
    Keeps (Contained s₀ W) (growSum l k n) := by
  refine keeps_withState fun r hr => keeps_ite (fun hgrow => ?_) fun _ => keeps_pure ()
  rw [hr.sumAddr]
  exact keeps_bind (contained_memZero (hW.sub (by omega))) fun _ => contained_modify fun _ => rfl

theorem contained_leaveSum {l k : Nat} (hW : CoversSum W s₀ l k) : Keeps (Contained s₀ W) (leaveSum l k) := by
  refine keeps_withState fun r hr => ?_
  rw [hr.sumAddr, hr.sumStride]
  refine keeps_ite (fun _ => ?_) fun _ => ?_
  · exact keeps_bind contained_drawWord fun _ => keeps_bind (contained_modify fun _ => rfl) fun _ => contained_leaveOpen hW
  · by_cases hsl : (r.st.sum l k).sl.toNat ≤ s₀.sumStride.toNat
    · exact contained_leaveOpen (hW.sub (by omega))
    · rw [Nat.sub_eq_zero_of_le (by omega)]
      exact keeps_pure ()

theorem contained_foldOriginal {l k : Nat} {d : Desc} (hW : CoversSum W s₀ l k) (hd : d.len ≤ s₀.sumStride.toNat)
    (t : Tables) (e : Int) : Keeps (Contained s₀ W) (foldOriginal t l k e d) := by
  refine keeps_withState fun r hr => keeps_bind (contained_growSum hW hd) fun _ => ?_
  rw [hr.sumAddr]
  refine keeps_bind (contained_accumulate (hW.take hd) _ _) fun _ => keeps_withState fun r' hr' => ?_
  rw [hr'.sumStride, hr'.sumAddr]
  exact keeps_ite (fun _ => contained_memLoosen (hW.take (Nat.min_le_right _ _))) fun _ => keeps_pure ()

theorem noteFolded_memorySide (e : Int) (a n : Nat) (s : State) : memorySide (noteFolded e a n s) = memorySide s := by
  simp only [noteFolded]
  split <;> rfl

theorem contained_foldFitting {l k : Nat} {d : Desc} (hW : CoversSum W s₀ l k) (hd : d.len ≤ s₀.sumStride.toNat)
    (t : Tables) (e : Int) : Keeps (Contained s₀ W) (foldFitting t l k e d) := by
  have hnote : Keeps (Contained s₀ W) (do modifyState (noteFolded e d.addr d.len); setNe l k (e + 8)) :=
    keeps_bind (contained_modify fun s => noteFolded_memorySide e _ _ s) fun _ => contained_setNe l k _
  refine keeps_ite (fun _ => keeps_bind (keeps_fatalIf _ _) fun _ => keeps_ite (fun _ => ?_) fun _ => ?_) fun _ => hnote
  · refine keeps_withState fun r hr => ?_
    rw [hr.sumAddr]
    exact keeps_bind (contained_leaveOpen (hW.take hd)) fun _ => hnote
  · exact keeps_bind (contained_foldOriginal hW hd t e) fun _ => hnote

theorem contained_foldElement {l k : Nat} (hW : CoversSum W s₀ l k) (t : Tables) (e : Int) :
    Keeps (Contained s₀ W) (foldElement t l k e) := by
  refine keeps_bind (contained_readDesc e) fun d => keeps_withState fun r hr => keeps_bind (keeps_fatalIf _ _) fun _ => ?_
  rw [hr.sumStride]
  refine keeps_ite (fun _ => keeps_pure _) fun hfits => ?_
  exact keeps_bind (contained_foldFitting hW (by simpa using hfits) t e) fun _ => keeps_pure _

theorem contained_foldLoop {l k : Nat} (hW : CoversSum W s₀ l k) (t : Tables) (rounds : Nat) (e : Int) :
    Keeps (Contained s₀ W) (foldLoop t l k rounds e) := by
  induction rounds generalizing e with
  | zero => exact keeps_pure ()
  | succ rounds ih =>
    exact keeps_bind (contained_foldElement hW t e) fun _ => keeps_ite (fun _ => ih (e + 8)) fun _ => keeps_pure ()

theorem contained_fold {l k : Nat} (hW : CoversSum W s₀ l k) (t : Tables) (stop : Int) :
    Keeps (Contained s₀ W) (fold t l k stop) :=
  keeps_withState fun _ _ => keeps_bind (contained_foldLoop hW t _ _) fun _ => keeps_withState fun _ _ =>
    contained_setSe l k _

theorem contained_beginSums : Keeps (Contained s₀ W) beginSums :=
  keeps_bind (contained_modify fun _ => rfl) fun _ => keeps_withState fun _ _ => contained_setArea _

theorem contained_sumsResetBody : Keeps (Contained s₀ W) sumsResetBody :=
  keeps_withState fun _ _ => keeps_bind (keeps_rejectIf _ _) fun _ => contained_modify fun _ => rfl

/-- SUMS_GET writes only the buffer of its sum (spec R431). -/
theorem contained_sumsGetBody {k : BitVec 2} {lane : BitVec 3} (hW : CoversSum W s₀ lane.toNat k.toNat) (t : Tables) :
    Keeps (Contained s₀ W) (sumsGetBody t k lane) :=
  keeps_withState fun _ _ => keeps_bind (keeps_rejectIf _ _) fun _ => keeps_bind (keeps_rejectIf _ _) fun _ =>
    keeps_bind (keeps_rejectIf _ _) fun _ => keeps_bind (keeps_rejectIf _ _) fun _ =>
    keeps_bind (keeps_rejectIf _ _) fun _ => keeps_bind contained_beginSums fun _ =>
    keeps_bind (contained_fold hW t _) fun _ => keeps_bind (contained_leaveSum hW) fun _ => contained_modify fun _ => rfl

theorem contained_forSums {f : (l k : Nat) → Cmd Unit} (hf : ∀ l k, Keeps (Contained s₀ W) (f l k)) :
    Keeps (Contained s₀ W) (forSums f) := keeps_forRange (fun _ => hf _ _) _ 0

theorem coversSum_anywhere (s : State) (l k : Nat) : CoversSum Anywhere s l k := covers_anywhere _ _

theorem contained_shiftSum (delta l k : Nat) : Keeps (Contained s₀ W) (shiftSum delta l k) :=
  keeps_withState fun _ _ => keeps_bind (contained_setNe l k _) fun _ => contained_setSe l k _

theorem contained_shiftSums (t : Tables) (delta : Nat) (early : Bool) :
    Keeps (Contained s₀ Anywhere) (shiftSums t delta early) :=
  keeps_withState fun _ _ => keeps_bind (keeps_rejectIf _ _) fun _ => keeps_bind contained_beginSums fun _ =>
    keeps_bind (contained_forSums fun l k => contained_fold (coversSum_anywhere _ l k) t _) fun _ =>
    keeps_bind (contained_modify fun _ => rfl) fun _ =>
    keeps_bind (contained_forSums fun l k => contained_leaveSum (coversSum_anywhere _ l k)) fun _ =>
    keeps_bind (contained_forSums (contained_shiftSum delta)) fun _ =>
    keeps_bind (contained_s32Value _) fun _ => contained_modify fun _ => rfl

theorem contained_winShiftBody (t : Tables) : Keeps (Contained s₀ Anywhere) (winShiftBody t) := by
  refine keeps_withState fun r _ => keeps_bind (keeps_rejectIf _ _) fun _ => keeps_bind (keeps_rejectIf _ _) fun _ => ?_
  have hshift : Keeps (Contained s₀ Anywhere) (modifyState fun s' =>
      shiftWindow (noteEarly (rewrittenEarly r.st r.st.arg0.toNat) s') r.st.arg0.toNat) := contained_modify fun _ => rfl
  exact keeps_ite (fun _ => keeps_bind (contained_shiftSums t _ _) fun _ => hshift)
    (fun _ => keeps_bind (contained_modify fun _ => rfl) fun _ => hshift)

/-! ## Rows -/

theorem contained_rowDesc (e : Nat) : Keeps (Contained s₀ W) (rowDesc e) :=
  keeps_bind (contained_readDesc e) fun d => keeps_bind (keeps_fatalIf _ _) fun _ => keeps_pure d

theorem contained_addOriginal {dst lp : Nat} (hW : Covers W dst lp) (e : Nat) (f : Byte → Byte) :
    Keeps (Contained s₀ W) (addOriginal dst lp e f) :=
  keeps_bind (contained_rowDesc e) fun _ =>
    keeps_bind (contained_accumulate (hW.take (Nat.min_le_right _ _)) _ _) fun _ =>
      keeps_ite (fun _ => contained_memLoosen hW) fun _ => keeps_pure ()

theorem contained_addOriginals {dst lp : Nat} (hW : Covers W dst lp) (first : Nat) (g : Nat → Byte → Byte) (n i : Nat) :
    Keeps (Contained s₀ W) (addOriginals dst lp first g n i) :=
  keeps_forRange (fun _ => contained_addOriginal hW _ _) n i

theorem contained_singleRow : Keeps (Contained s₀ W) singleRow :=
  keeps_bind (contained_modify fun _ => rfl) fun _ => keeps_withState fun _ _ =>
    keeps_bind (contained_rowDesc _) fun _ => contained_modify fun _ => rfl

/-- A parity or Cauchy row writes only its scratch (spec R492). -/
theorem contained_cauchyBranch (hW : Covers W s₀.recBase.toNat s₀.winLongest.toNat) :
    Keeps (Contained s₀ W) cauchyBranch := by
  refine keeps_bind (contained_modify fun _ => rfl) fun _ => keeps_withState fun r hr => ?_
  obtain ⟨hbase, hlp⟩ := hr.scratch
  rw [hbase, hlp]
  refine keeps_bind (contained_setArea _) fun _ => contained_withScratch hW <| keeps_bind (contained_memZero hW) fun _ =>
    keeps_ite (fun _ => ?_) fun _ => ?_
  · exact keeps_bind (contained_addOriginals hW _ (fun _ x => x) _ 0) fun _ => keeps_bind (contained_modify fun _ => rfl)
      fun _ => contained_modify fun _ => rfl
  · exact keeps_bind (contained_addOriginals hW _
        (fun e => gfMul r.st.params (cauchyElement r.st.params _ (cauchyColumn r.st e))) _ 0) fun _ =>
      keeps_bind (contained_modify fun _ => rfl) fun _ => contained_modify fun _ => rfl

theorem contained_lightPairs (r p lp first u pairs : Nat) (g : Pcg) :
    Keeps (Contained s₀ Anywhere) (lightPairs r p lp first u pairs g) := by
  induction pairs generalizing g with
  | zero => exact keeps_pure ()
  | succ pairs ih =>
    exact keeps_bind (contained_addOriginal (covers_anywhere _ _) _ _) fun _ =>
      keeps_bind (contained_addOriginal (covers_anywhere _ _) _ _) fun _ => ih g.advance.advance

theorem contained_denseSum (t : Tables) (op : BitVec 6) (r p lp count l k : Nat) :
    Keeps (Contained s₀ Anywhere) (denseSum t op r p lp count l k) := by
  refine keeps_ite (fun _ => keeps_bind (contained_fold (coversSum_anywhere _ l k) t count) fun _ =>
    keeps_withState fun q _ => ?_) fun _ => keeps_pure ()
  have hp : Keeps (Contained s₀ Anywhere) (if op.getLsbD (k + 3) then
      accumulate p (Machine.sumAddr q.st l k) (fun x => x) (min (q.st.sum l k).sl.toNat lp) else pure ()) :=
    keeps_ite (fun _ => contained_accumulate (covers_anywhere _ _) _ _) fun _ => keeps_pure ()
  exact keeps_ite (fun _ => keeps_bind (contained_accumulate (covers_anywhere _ _) _ _) fun _ => hp) fun _ => hp

theorem contained_siameseData (t : Tables) (row : BitVec 32) (r p lp first count : Nat) :
    Keeps (Contained s₀ Anywhere) (siameseData t row r p lp first count) :=
  keeps_withState fun _ _ => keeps_bind (contained_forSums fun l k => contained_denseSum t _ r p lp count l k) fun _ =>
    keeps_bind (contained_lightPairs r p lp first _ _ _) fun _ => contained_accumulate (covers_anywhere _ _) _ _

theorem contained_siameseRow (t : Tables) : Keeps (Contained s₀ Anywhere) (siameseRow t) := by
  refine keeps_withState fun _ _ => keeps_bind (contained_modify fun _ => rfl) fun _ => keeps_bind ?_ fun _ =>
    keeps_bind (contained_modify fun _ => rfl) fun _ => keeps_withState fun _ _ => keeps_bind (contained_setArea _) fun _ =>
    contained_withScratch (covers_anywhere _ _) <| keeps_bind (contained_memZero (covers_anywhere _ _)) fun _ =>
      contained_siameseData t _ _ _ _ _ _
  refine contained_modify fun s => ?_
  split <;> rfl

theorem contained_siameseBranch (t : Tables) : Keeps (Contained s₀ Anywhere) (siameseBranch t) :=
  keeps_withState fun _ _ => keeps_bind (contained_siameseRow t) fun _ =>
    keeps_bind (contained_forSums fun l k => contained_leaveSum (coversSum_anywhere _ l k)) fun _ =>
    keeps_bind (contained_leaveOpen (covers_anywhere _ _)) fun _ => contained_modify fun _ => rfl

theorem contained_rowEncodeBody (t : Tables) : Keeps (Contained s₀ Anywhere) (rowEncodeBody t) := by
  refine keeps_withState fun s _ => keeps_bind (keeps_rejectIf _ _) fun _ => keeps_ite (fun _ => keeps_stop _) fun _ =>
    keeps_ite (fun _ => contained_singleRow) fun _ => keeps_bind (keeps_rejectIf _ _) fun _ =>
    keeps_ite (fun _ => ?_) fun _ => ?_
  · exact keeps_bind (keeps_rejectIf _ _) fun _ => keeps_bind (keeps_rejectIf _ _) fun _ =>
      contained_cauchyBranch (covers_anywhere _ _)
  · exact keeps_bind (keeps_rejectIf _ _) fun _ => keeps_bind (keeps_rejectIf _ _) fun _ =>
      keeps_bind (keeps_rejectIf _ _) fun _ => contained_siameseBranch t

theorem contained_cauchyElemBody (r y : Byte) : Keeps (Contained s₀ W) (cauchyElemBody r y) :=
  keeps_withState fun _ _ => keeps_bind (keeps_rejectIf _ _) fun _ => contained_modify fun _ => rfl

/-- Every command stores at addresses of the data space only. -/
theorem contained_commandBody (i : Instr) : Keeps (Contained s₀ Anywhere) (commandBody i) := by
  cases i with
  | nop => exact keeps_pure ()
  | gfAddMem => exact contained_gfAddMemBody (covers_anywhere _ _)
  | gfMuladdMem c => exact contained_gfMuladdMemBody (covers_anywhere _ _) c
  | gfMulMem c => exact contained_gfMulMemBody (covers_anywhere _ _) c
  | gfDivMem c => exact contained_gfDivMemBody (covers_anywhere _ _) c
  | gfMul a b => exact contained_resultField fun p => gfMul p a b
  | gfDiv a b => exact contained_divides _ _
  | gfSqr a => exact contained_resultField fun p => gfSqr p a
  | gfInv a => exact contained_divides _ _
  | gfLog a => exact contained_gfLogBody a
  | gfExp j => exact contained_resultField fun p => gfExp p (j.toNat % 255)
  | gfNibtab c hi j => exact contained_resultField fun p => if hi then nibHi p c j else nibLo p c j
  | bsSet b => exact contained_bitsetAt b fun v i => setBits v i (i + 1)
  | bsClear b => exact contained_bitsetAt b fun v i => clearBits v i (i + 1)
  | bsCheck b => exact contained_bsCheckBody b
  | bsSetRange b => exact contained_bitsetOver b _
  | bsClearRange b => exact contained_bitsetOver b _
  | bsPopcount b => exact contained_bitsetAsk b _
  | bsFfc b => exact contained_bsFfcBody b
  | bsFfs b => exact contained_bitsetAsk b _
  | slabAlloc => exact keeps_withState fun _ _ => contained_allocChecked _
  | slabFree => exact contained_slabFreeBody (covers_anywhere _ _)
  | slabRealloc copy => exact contained_slabReallocBody copy
  | slabWinfo => exact contained_slabWinfoBody
  | sumsReset => exact contained_sumsResetBody
  | sumsGet k lane => exact contained_sumsGetBody (coversSum_anywhere _ _ _) Config.tables
  | winShift => exact contained_winShiftBody Config.tables
  | rowEncode => exact contained_rowEncodeBody Config.tables
  | cauchyElem r y => exact contained_cauchyElemBody r y

end Contained

/-! ## Every step -/

/-- A command that stores inside the data space leaves a canonical memory, whatever its end (spec R101). -/
theorem conclude_wf {body : Cmd Unit} {s : State} (h : Keeps (Contained s Anywhere) body) (hwf : s.mem.wf = true) :
    (conclude body s).mem.wf = true := by
  obtain ⟨hok, herror⟩ := h (Run.start s) (contained_start hwf)
  rcases conclude_cases body s with ⟨r, hr, ht⟩ | ⟨e, r, hr, ht⟩ | ⟨r, hr, ht⟩ | ⟨e, r, hr, ht⟩ | ⟨r, hr, ht⟩ <;> rw [ht]
  · exact (hok _ _ hr).wf
  · exact hwf
  · exact hwf
  · exact cutOff_wf (herror _ _ hr).wf
  · exact portLoss_wf _ (fun a ha => ((contained_wouldRun h hwf).writes a ha).1) (herror _ _ hr).wf

theorem runCommand_wf {s t : State} (h : runCommand s = .next t) (hwf : s.mem.wf = true) : t.mem.wf = true := by
  rcases runCommand_cases s with ⟨-, hr⟩ | ⟨-, -, hr⟩ | ⟨-, -, hr⟩ | ⟨i, -, -, hr⟩ <;> rw [hr] at h <;> cases h
  · exact hwf
  · exact hwf
  · exact hwf
  · exact conclude_wf (contained_commandBody i) hwf

/-- A reset keeps the memory but for bytes that an abandoned command would have written. -/
theorem resetNow_wf {s : State} (hwf : s.mem.wf = true) : (resetNow s).mem.wf = true := by
  unfold resetNow
  split
  · exact openList_wf (s := { s with draws := max s.draws (runningCommand s).st.draws }) _ hwf
  · exact hwf

/-- A store to the CSR window leaves the memory, or is a reset. -/
theorem csrStoreEffect_mem (s : State) (offset : Nat) (v : Word) :
    (csrStoreEffect s offset v).mem = s.mem ∨ csrStoreEffect s offset v = resetNow s := by
  cases hc : configStore s offset v with
  | some s' =>
    have hmem : s'.mem = s.mem := configStore_leaves (k := State.mem) (fun _ => rfl) hc
    rw [csrStoreEffect_some hc]
    split
    · exact .inl rfl
    · exact .inl hmem
  | none =>
    by_cases hcontrol : offset = 0x010 ∧ v.getLsbD 1 = true
    · exact .inr (by rw [hcontrol.1, csrStoreEffect_softReset s hcontrol.2])
    · refine .inl ?_
      unfold csrStoreEffect controlStore
      simp only [hc]
      split_ifs with h1 h2 h3
      · rfl
      · exact absurd ⟨h2, h3⟩ hcontrol
      all_goals rfl

theorem csrStore_wf {s : State} (addr width : Nat) (v : Word) (hwf : s.mem.wf = true) :
    (csrStore s addr width v).mem.wf = true := by
  unfold csrStore
  split
  · split
    · rcases csrStoreEffect_mem s _ v with h | h
      · rw [h]
        exact hwf
      · rw [h]
        exact resetNow_wf hwf
    · exact hwf
  · exact hwf

theorem hostStoreByte_wf {s : State} {a : Nat} (ha : a < Config.addrSpace) (v : Byte) (hwf : s.mem.wf = true) :
    (hostStoreByte s a v).mem.wf = true := by
  unfold hostStoreByte
  split <;> exact Memory.wf_write hwf ha

theorem hostMemStore_wf {s : State} (a : Nat) (bytes : List Byte) (hwf : s.mem.wf = true) :
    (hostMemStore s a bytes).mem.wf = true := by
  induction bytes generalizing s a with
  | nil => exact hwf
  | cons v vs ih => exact ih (a + 1) (hostStoreByte_wf (mod_addrSpace_lt a) v hwf)

theorem hostAct_wf {s t : State} {a : HostAction} (h : hostAct s a = .next t) (hwf : s.mem.wf = true) :
    t.mem.wf = true := by
  cases a with
  | csrStore addr width v =>
    cases h
    exact csrStore_wf addr width v hwf
  | csrLoad addr width =>
    cases h
    exact hwf
  | memStore addr bytes =>
    cases h
    exact hostMemStore_wf addr.toNat bytes hwf
  | memLoad addr =>
    cases h
    exact hwf
  | letRun =>
    simp only [hostAct] at h
    split at h
    · exact runCommand_wf h hwf
    · cases h
      exact hwf
  | platformReset =>
    cases h
    exact resetNow_wf hwf
  | reclaim addr =>
    cases h
    unfold reclaimRegion
    split <;> exact hwf

/-- Settles O21: commands, resets and the host store at addresses of the data space only. -/
theorem stepKeepsMemoryCanonical : Obligations.StepKeepsMemoryCanonical := by
  intro s t hwf h
  rcases step_cases s with ⟨a, rest, -, hs⟩ | ⟨-, -, hs⟩ | ⟨-, -, hs⟩ <;> rw [hs] at h
  · exact hostAct_wf (s := s.withInbox rest) h hwf
  · exact runCommand_wf h hwf
  · cases h
    exact hwf

end Sys2Proof.Machine
end

section
/-! SUPPORT. The host's stores to and loads from the data memory (spec R100, R125, R126). -/

namespace Sys2Proof.Machine

variable {s : State} {rest : List HostAction} {addr : Word}

/-- A list of bytes stored inside the data space, and every other byte as it was. -/
theorem Memory.writeList_writesOnly {m : Memory} {a : Nat} {vs : List Byte} (hm : m.wf = true)
    (ha : a + vs.length ≤ Config.addrSpace) :
    WritesOnly m (m.writeList a vs) a vs.length (fun i => vs.getD i 0) := by
  refine ⟨Memory.wf_writeList hm, fun x => ?_⟩
  induction vs generalizing m a with
  | nil => rw [if_neg (by simp), Memory.writeList]
  | cons v vs ih =>
    have hlen : (v :: vs).length = vs.length + 1 := rfl
    have haddr : a % Config.addrSpace = a := Nat.mod_eq_of_lt (by omega)
    rw [Memory.writeList, haddr, ih (Memory.wf_write hm (by omega)) (by omega), Memory.read_write hm, hlen]
    by_cases hx : a + 1 ≤ x ∧ x < a + 1 + vs.length
    · rw [if_pos hx, if_pos (by omega), show x - a = x - (a + 1) + 1 by omega]
      exact List.getD_cons_succ.symm
    · rw [if_neg hx]
      by_cases hxa : x = a
      · rw [if_pos hxa, if_pos (by omega), hxa, Nat.sub_self]
        exact List.getD_cons_zero.symm
      · rw [if_neg hxa, if_neg (by omega)]

/-- A store of a byte that no running command uses (spec R100). -/
theorem hostStoreByte_unused {a : Nat} (h : usesByte s a = false) (v : Byte) :
    hostStoreByte s a v = { s with mem := s.mem.write a v } := by
  rw [hostStoreByte, if_neg (by simp [h])]

/-- Any store of a byte: a race leaves some other byte there, and is noted (spec R126). -/
theorem hostStoreByte_cases (s : State) (a : Nat) (v : Byte) :
    ∃ w r d, hostStoreByte s a v = { s with mem := s.mem.write a w, raced := r, hostDraws := d } := by
  unfold hostStoreByte
  split
  · exact ⟨_, _, _, rfl⟩
  · exact ⟨v, s.raced, s.hostDraws, rfl⟩

theorem usesByte_idle (h : s.busy = false) (a : Nat) : usesByte s a = false := by rw [usesByte, h, Bool.false_and]

/-- While no command runs, a store of the host is one of its bytes. -/
theorem hostMemStore_idle (h : s.busy = false) (a : Nat) (bytes : List Byte) :
    hostMemStore s a bytes = { s with mem := s.mem.writeList a bytes } := by
  induction bytes generalizing s a with
  | nil => rfl
  | cons v vs ih =>
    rw [hostMemStore, hostStoreByte_unused (usesByte_idle h _)]
    exact ih (s := { s with mem := s.mem.write (a % Config.addrSpace) v }) h (a + 1)

/-- A store of a byte that the running command does not use is one of that byte. -/
theorem hostMemStore_unused (h : usesByte s addr.toNat = false) (v : Byte) :
    hostMemStore s addr.toNat [v] = { s with mem := s.mem.writeList addr.toNat [v] } := by
  have haddr : addr.toNat % Config.addrSpace = addr.toNat := Nat.mod_eq_of_lt addr.isLt
  rw [hostMemStore, haddr, hostStoreByte_unused h, hostMemStore, Memory.writeList, haddr, Memory.writeList]

/-- In every case a store of the host changes no byte outside it, and of the state only the record of raced bytes and the
count of the host's free values. -/
theorem hostMemStore_frame {a : Nat} {bytes : List Byte} (hwf : s.mem.wf = true)
    (ha : a + bytes.length ≤ Config.addrSpace) :
    ∃ m r d, hostMemStore s a bytes = { s with mem := m, raced := r, hostDraws := d } ∧ m.wf = true ∧
      ∀ x, ¬ (a ≤ x ∧ x < a + bytes.length) → m.read x = s.mem.read x := by
  induction bytes generalizing s a with
  | nil => exact ⟨s.mem, s.raced, s.hostDraws, rfl, hwf, fun _ _ => rfl⟩
  | cons v vs ih =>
    have hlen : (v :: vs).length = vs.length + 1 := rfl
    have haddr : a % Config.addrSpace = a := Nat.mod_eq_of_lt (by omega)
    obtain ⟨w, r, d, hbyte⟩ := hostStoreByte_cases s a v
    have hwf' : (s.mem.write a w).wf = true := Memory.wf_write hwf (by omega)
    obtain ⟨m, r', d', hrest, hm, hout⟩ :=
      ih (s := { s with mem := s.mem.write a w, raced := r, hostDraws := d }) (a := a + 1) hwf' (by omega)
    refine ⟨m, r', d', by rw [hostMemStore, haddr, hbyte, hrest], hm, fun x hx => ?_⟩
    rw [hout x (by omega), Memory.read_write hwf, if_neg (by omega)]

/-- A note of the table writes three records of the model. -/
theorem noteTable_cases (before s : State) :
    ∃ rep cop owed, noteTable before s = { s with replaced := rep, copied := cop, pending := owed } := ⟨_, _, _, rfl⟩

theorem step_memStore {bytes : List Byte} (h : s.inbox = .memStore addr bytes :: rest) :
    step s = .next (noteTable (s.withInbox rest) (hostMemStore (s.withInbox rest) addr.toNat bytes)) := step_inbox h

theorem step_memLoad (h : s.inbox = .memLoad addr :: rest) :
    step s = .next (hostMemLoad (s.withInbox rest) addr.toNat) := step_inbox h

/-- A store that races with no command writes its bytes and nothing else. -/
theorem step_memStore_plain {bytes : List Byte} (hwf : s.mem.wf = true) (h : s.inbox = .memStore addr bytes :: rest)
    (hend : addr.toNat + bytes.length ≤ Config.addrSpace)
    (hplain : s.busy = false ∨ (bytes.length = 1 ∧ usesByte (s.withInbox rest) addr.toNat = false)) :
    ∃ m rep cop owed, step s = .next { s with inbox := rest, mem := m, replaced := rep, copied := cop, pending := owed } ∧
      WritesOnly s.mem m addr.toNat bytes.length (fun i => bytes.getD i 0) := by
  have hstore : hostMemStore (s.withInbox rest) addr.toNat bytes =
      { s with inbox := rest, mem := s.mem.writeList addr.toNat bytes } := by
    rcases hplain with hidle | ⟨hone, hunused⟩
    · exact hostMemStore_idle (s := s.withInbox rest) hidle _ _
    · obtain ⟨v, rfl⟩ := List.length_eq_one_iff.1 hone
      exact hostMemStore_unused hunused v
  obtain ⟨rep, cop, owed, hnote⟩ :=
    noteTable_cases (s.withInbox rest) { s with inbox := rest, mem := s.mem.writeList addr.toNat bytes }
  refine ⟨s.mem.writeList addr.toNat bytes, rep, cop, owed, ?_, Memory.writeList_writesOnly hwf hend⟩
  rw [step_memStore h, hstore, hnote]

/-- Settles O17. -/
theorem hostMemory : Obligations.HostMemory := by
  intro s addr rest hwf
  refine ⟨fun bytes h hend => ⟨step_memStore_plain hwf h hend, ?_⟩, fun h => ?_⟩
  · obtain ⟨m, r, d, hstore, hm, hout⟩ := hostMemStore_frame (s := s.withInbox rest) hwf hend
    obtain ⟨rep, cop, owed, hnote⟩ :=
      noteTable_cases (s.withInbox rest) { s.withInbox rest with mem := m, raced := r, hostDraws := d }
    refine ⟨m, r, rep, cop, owed, d, ?_, hm, hout⟩
    rw [step_memStore h, hstore, hnote]
    rfl
  · by_cases hraced : usesByte (s.withInbox rest) addr.toNat = true
    · refine ⟨Config.hostByte s.hostDraws, ?_, ?_⟩
      · rw [step_memLoad h, hostMemLoad, if_pos hraced]
        rfl
      · rintro (hidle | hunused)
        · exact absurd hraced (by simp [usesByte_idle (s := s.withInbox rest) hidle])
        · exact absurd hraced (Bool.eq_false_iff.1 hunused)
    · refine ⟨s.mem.read addr.toNat, ?_, fun _ => rfl⟩
      rw [step_memLoad h, hostMemLoad, if_neg hraced]
      rfl

end Sys2Proof.Machine
end

section
/-! SUPPORT. Commands that meet an access which the port answers with an error (spec R106): they end with a bus error, and until
then have changed nothing but the memory and the count of free values. The vector commands' case (R224). -/

namespace Sys2Proof.Machine

/-! ## Commands that access memory and nothing else -/

/-- From state `s` the run has ended with a bus error: the port's, or that of a buffer that wraps (spec R106, R424). Nothing but
memory and the count of free values has changed. -/
def BusEnd (s : State) {α : Type} (res : EStateM.Result Stop Run α) : Prop :=
  ∃ x r, res = .error x r ∧ (x = .portError ∨ x = .fatal .busError) ∧ memErased r.st = memErased s

/-- From state `s` the run goes on, and nothing but memory and the count of free values has changed. -/
def GoesOn (s : State) {α : Type} (res : EStateM.Result Stop Run α) : Prop :=
  ∃ a r, res = .ok a r ∧ memErased r.st = memErased s

/-- The command goes on or ends with a bus error. -/
def Accesses {α : Type} (c : Cmd α) : Prop := ∀ r, GoesOn r.st (c r) ∨ BusEnd r.st (c r)

/-- From every state with `K` the command ends with a bus error. -/
def Blocked (K : State → Prop) {α : Type} (c : Cmd α) : Prop := ∀ r, K r.st → BusEnd r.st (c r)

/-- A read of the byte is answered with an error (spec R106). -/
def BadRead (s : State) (a : Nat) : Prop := portHits s.port (a % Config.addrSpace) [.readError, .anyError] = true

/-- A write of the byte is answered with an error (spec R106). -/
def BadWrite (s : State) (a : Nat) : Prop := portHits s.port (a % Config.addrSpace) [.writeError, .anyError] = true

section Accesses

variable {K L : State → Prop} {α β : Type}

theorem BusEnd.of_erased {s s' : State} {res : EStateM.Result Stop Run α} (h : BusEnd s res)
    (hs : memErased s = memErased s') : BusEnd s' res := by
  obtain ⟨x, r, hr, hx, hst⟩ := h
  exact ⟨x, r, hr, hx, hst.trans hs⟩

theorem busEnd_bind {s : State} {x : Cmd α} {f : α → Cmd β} {r : Run} (h : BusEnd s (x r)) : BusEnd s ((x >>= f) r) := by
  obtain ⟨e, r', hr, hx, hst⟩ := h
  exact ⟨e, r', bind_run_error hr, hx, hst⟩

theorem accesses_goes {c : Cmd α} (h : ∀ r, GoesOn r.st (c r)) : Accesses c := fun r => .inl (h r)

theorem accesses_pure (a : α) : Accesses (pure a : Cmd α) := fun r => .inl ⟨a, r, rfl, rfl⟩

theorem accesses_portError : Accesses (stop .portError : Cmd α) := fun r => .inr ⟨.portError, r, rfl, .inl rfl, rfl⟩

theorem accesses_bind {x : Cmd α} {f : α → Cmd β} (hx : Accesses x) (hf : ∀ a, Accesses (f a)) : Accesses (x >>= f) := by
  intro r
  rcases hx r with ⟨a, r1, hr, hst⟩ | hbus
  · rw [bind_run_ok hr]
    rcases hf a r1 with ⟨b, r2, hr2, hst2⟩ | hbus
    · exact .inl ⟨b, r2, hr2, hst2.trans hst⟩
    · exact .inr (hbus.of_erased hst)
  · exact .inr (busEnd_bind hbus)

theorem accesses_ite {c : Prop} [Decidable c] {x y : Cmd α} (hx : Accesses x) (hy : Accesses y) :
    Accesses (if c then x else y) := by
  split
  · exact hx
  · exact hy

theorem accesses_withState {f : State → Cmd β} (hf : ∀ s, Accesses (f s)) : Accesses (getState >>= f) := fun r => hf r.st r

theorem accesses_forRange {f : Nat → Cmd Unit} (hf : ∀ i, Accesses (f i)) (n i : Nat) : Accesses (forRange f n i) := by
  induction n generalizing i with
  | zero => exact accesses_pure ()
  | succ n ih => exact accesses_bind (hf i) fun _ => ih (i + 1)

theorem blocked_or {c : Cmd α} (h : Blocked K c) (h' : Blocked L c) : Blocked (fun s => K s ∨ L s) c :=
  fun r hr => hr.elim (h r) (h' r)

theorem blocked_bind_left {x : Cmd α} (f : α → Cmd β) (hx : Blocked K x) : Blocked K (x >>= f) :=
  fun r hr => busEnd_bind (hx r hr)

/-- A command that is blocked after one that accesses memory. -/
theorem blocked_bind {x : Cmd α} {f : α → Cmd β} (hK : Ignores memErased K) (hx : Accesses x) (hf : ∀ a, Blocked K (f a)) :
    Blocked K (x >>= f) := by
  intro r hr
  rcases hx r with ⟨a, r1, hr1, hst⟩ | hbus
  · have hK1 : K r1.st := by rwa [← hK, hst, hK]
    rw [bind_run_ok hr1]
    exact (hf a r1 hK1).of_erased hst
  · exact busEnd_bind hbus

theorem blocked_withState {f : State → Cmd β} (hf : ∀ s, K s → Blocked K (f s)) : Blocked K (getState >>= f) :=
  fun r hr => hf r.st hr r hr

theorem blocked_ite {c : Prop} [Decidable c] {x y : Cmd α} (hx : c → Blocked K x) (hy : ¬ c → Blocked K y) :
    Blocked K (if c then x else y) := by
  split
  · exact hx ‹_›
  · exact hy ‹_›

/-- A loop one of whose rounds is blocked. -/
theorem blocked_forRange {f : Nat → Cmd Unit} {n i j : Nat} (hK : Ignores memErased K) (hf : ∀ i, Accesses (f i))
    (h1 : i ≤ j) (h2 : j < i + n) (hj : Blocked K (f j)) : Blocked K (forRange f n i) := by
  induction n generalizing i with
  | zero => omega
  | succ n ih =>
    by_cases hij : i = j
    · subst hij
      exact blocked_bind_left _ hj
    · exact blocked_bind hK (hf i) fun _ => ih (by omega) (by omega)

/-! ## The memory operations -/

theorem accesses_drawByte : Accesses drawByte := accesses_goes fun _ => ⟨_, _, rfl, rfl⟩
theorem accesses_drawWord : Accesses drawWord := accesses_goes fun _ => ⟨_, _, rfl, rfl⟩
theorem accesses_storeByte (a : Nat) (v : Byte) : Accesses (storeByte a v) := accesses_goes fun _ => ⟨_, _, rfl, rfl⟩
theorem accesses_markOpen (a : Nat) : Accesses (markOpen a) := accesses_goes fun _ => ⟨_, _, rfl, rfl⟩
theorem accesses_anyOpen (a n : Nat) : Accesses (anyOpen a n) := accesses_goes fun _ => ⟨_, _, rfl, rfl⟩
theorem accesses_setArea (f : Nat → Bool) : Accesses (setArea f) := accesses_goes fun _ => ⟨_, _, rfl, rfl⟩

theorem accesses_memRead8 (a : Nat) : Accesses (memRead8 a) := by
  intro r
  simp only [memRead8]
  split
  · exact accesses_portError r
  · split
    · exact .inl ⟨_, _, rfl, rfl⟩
    · exact .inl ⟨_, _, rfl, rfl⟩

theorem blocked_memRead8 (a : Nat) : Blocked (fun s => BadRead s a) (memRead8 a) :=
  fun r hr => ⟨.portError, r, if_pos hr, .inl rfl, rfl⟩

theorem accesses_memWrite8 (a : Nat) (v : Byte) : Accesses (memWrite8 a v) := by
  intro r
  simp only [memWrite8]
  split
  · exact accesses_portError r
  · split
    · exact accesses_bind accesses_drawByte (fun w => accesses_storeByte _ w) r
    · exact .inl ⟨_, _, rfl, rfl⟩

theorem blocked_memWrite8 (a : Nat) (v : Byte) : Blocked (fun s => BadWrite s a) (memWrite8 a v) :=
  fun r hr => ⟨.portError, r, if_pos hr, .inl rfl, rfl⟩

theorem badRead_ignores (a : Nat) : Ignores memErased fun s => BadRead s a := fun _ => rfl
theorem badWrite_ignores (a : Nat) : Ignores memErased fun s => BadWrite s a := fun _ => rfl

theorem accesses_memPut (isOpen : Bool) (a : Nat) (v : Byte) : Accesses (memPut isOpen a v) :=
  accesses_ite
    (accesses_bind accesses_drawByte fun w => accesses_bind (accesses_memWrite8 a w) fun _ => accesses_markOpen a)
    (accesses_memWrite8 a v)

theorem blocked_memPut (isOpen : Bool) (a : Nat) (v : Byte) : Blocked (fun s => BadWrite s a) (memPut isOpen a v) :=
  blocked_ite
    (fun _ => blocked_bind (badWrite_ignores a) accesses_drawByte fun w => blocked_bind_left _ (blocked_memWrite8 a w))
    (fun _ => blocked_memWrite8 a v)

theorem accesses_memRead (a n : Nat) : Accesses (memRead a n) := by
  induction n generalizing a with
  | zero => exact accesses_pure _
  | succ n ih => exact accesses_bind (accesses_memRead8 a) fun _ => accesses_bind (ih (a + 1)) fun _ => accesses_pure _

theorem blocked_memRead {a n j : Nat} (hj : j < n) : Blocked (fun s => BadRead s (a + j)) (memRead a n) := by
  induction n generalizing a j with
  | zero => omega
  | succ n ih =>
    cases j with
    | zero => exact blocked_bind_left _ (blocked_memRead8 a)
    | succ j =>
      have hrest : Blocked (fun s => BadRead s (a + 1 + j)) (memRead (a + 1) n) := ih (by omega)
      rw [Nat.add_assoc, Nat.add_comm 1 j] at hrest
      exact blocked_bind (badRead_ignores _) (accesses_memRead8 a) fun _ => blocked_bind_left _ hrest

theorem accesses_memZero (a n : Nat) : Accesses (memZero a n) := accesses_forRange (fun _ => accesses_memWrite8 _ 0) n 0

theorem accesses_memLoosen (a n : Nat) : Accesses (memLoosen a n) :=
  accesses_forRange (fun _ => accesses_memPut true _ 0) n 0

theorem blocked_memZero {a n j : Nat} (hj : j < n) : Blocked (fun s => BadWrite s (a + j)) (memZero a n) :=
  blocked_forRange (badWrite_ignores _) (fun _ => accesses_memWrite8 _ 0) (Nat.zero_le j) (by omega) (blocked_memWrite8 _ 0)

/-- One round of `accumulate`. -/
def accumulateAt (dst src : Nat) (f : Byte → Byte) (i : Nat) : Cmd Unit := do
  let d ← memRead8 (dst + i)
  let x ← memRead8 (src + i)
  let dOpen ← anyOpen (dst + i) 1
  let xOpen ← anyOpen (src + i) 1
  memPut (dOpen || xOpen) (dst + i) (d ^^^ f x)

/-- One round of `mapBytes`. -/
def mapByteAt (dst src : Nat) (f : Byte → Byte) (i : Nat) : Cmd Unit := do
  let x ← memRead8 (src + i)
  let xOpen ← anyOpen (src + i) 1
  memPut xOpen (dst + i) (f x)

theorem accesses_accumulateAt (dst src : Nat) (f : Byte → Byte) (i : Nat) : Accesses (accumulateAt dst src f i) :=
  accesses_bind (accesses_memRead8 _) fun _ => accesses_bind (accesses_memRead8 _) fun _ =>
    accesses_bind (accesses_anyOpen _ 1) fun _ => accesses_bind (accesses_anyOpen _ 1) fun _ => accesses_memPut _ _ _

theorem accesses_accumulate (dst src : Nat) (f : Byte → Byte) (n : Nat) : Accesses (accumulate dst src f n) :=
  accesses_forRange (accesses_accumulateAt dst src f) n 0

theorem accesses_mapByteAt (dst src : Nat) (f : Byte → Byte) (i : Nat) : Accesses (mapByteAt dst src f i) :=
  accesses_bind (accesses_memRead8 _) fun _ => accesses_bind (accesses_anyOpen _ 1) fun _ => accesses_memPut _ _ _

/-- A read of `dst` or `src`, or a write of `dst`, blocks `accumulate` (spec R225, R226). -/
theorem blocked_accumulate {dst src n j : Nat} (f : Byte → Byte) (hj : j < n) :
    Blocked (fun s => BadRead s (dst + j) ∨ BadRead s (src + j) ∨ BadWrite s (dst + j)) (accumulate dst src f n) := by
  refine blocked_forRange (fun _ => rfl) (accesses_accumulateAt dst src f) (Nat.zero_le j) (by omega) ?_
  refine blocked_or ?_ (blocked_or ?_ ?_)
  · exact blocked_bind_left _ (blocked_memRead8 _)
  · exact blocked_bind (badRead_ignores _) (accesses_memRead8 _) fun _ => blocked_bind_left _ (blocked_memRead8 _)
  · exact blocked_bind (badWrite_ignores _) (accesses_memRead8 _) fun _ =>
      blocked_bind (badWrite_ignores _) (accesses_memRead8 _) fun _ =>
      blocked_bind (badWrite_ignores _) (accesses_anyOpen _ 1) fun _ =>
      blocked_bind (badWrite_ignores _) (accesses_anyOpen _ 1) fun _ => blocked_memPut _ _ _

/-- A read of `src` or a write of `dst` blocks `mapBytes` (spec R227, R228). -/
theorem blocked_mapBytes {dst src n j : Nat} (f : Byte → Byte) (hj : j < n) :
    Blocked (fun s => BadRead s (src + j) ∨ BadWrite s (dst + j)) (mapBytes dst src f n) := by
  refine blocked_forRange (fun _ => rfl) (accesses_mapByteAt dst src f) (Nat.zero_le j) (by omega) (blocked_or ?_ ?_)
  · exact blocked_bind_left _ (blocked_memRead8 _)
  · exact blocked_bind (badWrite_ignores _) (accesses_memRead8 _) fun _ =>
      blocked_bind (badWrite_ignores _) (accesses_anyOpen _ 1) fun _ => blocked_memPut _ _ _

end Accesses

/-! ## The end of a command that met a bus error -/

/-- A state that differs in memory and the count of free values alone. -/
theorem eq_of_memErased {u t : State} (h : memErased u = memErased t) : u = { t with mem := u.mem, draws := u.draws } :=
  congrArg (fun s : State => { s with mem := u.mem, draws := u.draws }) h

/-- A bus error leaves the state as the run had left it but for bytes that the command would have written (spec R106, U7). -/
theorem conclude_busEnd {body : Cmd Unit} {s t : State} {W : Nat → Prop} (hend : BusEnd t (body (Run.start s)))
    (hbody : Keeps (Contained s W) body) (hwf : s.mem.wf = true) :
    ∃ m d, conclude body s = ({ t with mem := m, draws := d } : State).fatal .busError ∧ m.wf = true ∧
      ∀ a, ¬ W a → m.read a = s.mem.read a := by
  obtain ⟨x, r, hr, hx, hst⟩ := hend
  have hrun : Contained s W r := (hbody _ (contained_start hwf)).2 x r hr
  have hwould : Contained s W (wouldRun body s) := contained_wouldRun hbody hwf
  have ignores : Ignores memErased memErased := fun _ => rfl
  rcases hx with rfl | rfl
  · have hfinal := eq_of_memErased ((ignores.portLoss (wouldRun body s).st.mem (wouldRun body s).writes
      { r.st with draws := max r.st.draws (wouldRun body s).st.draws }).trans hst)
    refine ⟨_, _, (conclude_portError hr).trans (congrArg (·.fatal .busError) hfinal), ?_, fun a ha => ?_⟩
    · exact portLoss_wf _ (fun a ha => (hwould.writes a ha).1) hrun.wf
    · rw [← hrun.outside a ha]
      exact portLoss_read hrun.wf (fun a ha => (hwould.writes a ha).1) fun hin => ha (hwould.writes a hin).2
  · have hfinal := eq_of_memErased ((ignores.cutOff (wouldRun body s) r).trans hst)
    refine ⟨_, _, (conclude_fatal hr).trans (congrArg (·.fatal .busError) hfinal), cutOff_wf hrun.wf, fun a ha => ?_⟩
    rw [← hrun.outside a ha]
    refine cutOff_read hrun.wf fun b hb he => ha ?_
    obtain ⟨hlt, hW⟩ := hwould.writes b hb
    rwa [he, Nat.mod_eq_of_lt hlt]

/-- The run is in state `s` but for the port: so start the command's run and the run that no error ends. -/
def StartsFrom (s : State) (q : Run) : Prop := q.st = { s with port := q.st.port }

/-- What a command comes to depends only on what its body does from its state. -/
theorem conclude_congr {body body' : Cmd Unit} {s : State} (h : ∀ q, StartsFrom s q → body q = body' q) :
    conclude body s = conclude body' s := by
  have hrun : body (Run.start s) = body' (Run.start s) := h _ rfl
  have hwould : wouldRun body s = wouldRun body' s := by
    rw [wouldRun, wouldRun, h { Run.start { s with port := s.port.filter (fun p => p.kind == .device) } with skip := true } rfl]
  rw [conclude, conclude, hrun, hwould]

/-- A command that comes, from its state, to a body that keeps to a set of bytes and meets a bus error. -/
theorem exec_busEnd {i : Instr} {s t : State} {W : Nat → Prop} {body : Cmd Unit}
    (hrun : ∀ q, StartsFrom s q → commandBody i q = body q) (hend : BusEnd t (body (Run.start s)))
    (hbody : Keeps (Contained s W) body) (hwf : s.mem.wf = true) :
    ∃ m d, exec i s = .next (({ t with mem := m, draws := d } : State).fatal .busError) ∧ m.wf = true ∧
      ∀ a, ¬ W a → m.read a = s.mem.read a := by
  obtain ⟨m, d, h, hm, hout⟩ := conclude_busEnd hend hbody hwf
  exact ⟨m, d, by rw [exec_eq, conclude_congr hrun, h], hm, hout⟩

/-! ## The vector commands (spec R224) -/

section Vector

variable {s : State}

/-- Operands that pass the checks: the command comes to its loop (spec R222). -/
theorem gfVector_run {loop : Params → (dst src n : Nat) → Cmd Unit} (hs : GfBuffersOk s) (hn : 0 < s.arg2.toNat) :
    gfVector loop (Run.start s) = (do
      loop s.params s.arg0.toNat s.arg1.toNat s.arg2.toNat
      modifyState (noteTable s) : Cmd Unit) (Run.start s) := by
  obtain ⟨-, hmax, hdst, hsrc, hoverlap⟩ := hs
  have hlong : ¬ s.arg2.toNat > s.params.maxGfLen := by omega
  have hwraps : (wraps s.arg0.toNat s.arg2.toNat || wraps s.arg1.toNat s.arg2.toNat) = false := by
    rw [wraps, wraps, decide_eq_false (by simp only [Config.addrSpace]; omega),
      decide_eq_false (by simp only [Config.addrSpace]; omega), Bool.or_false]
  have hapart : partialOverlap s.arg0.toNat s.arg1.toNat s.arg2.toNat = false := decide_eq_false hoverlap
  calc gfVector loop (Run.start s)
    _ = _ := (bind_run_ok (getState_run _)).trans (bind_run_ok (rejectIf_unmet hlong _ _))
    _ = _ := congrFun (if_neg (by simp only [start_st]; omega)) _
    _ = _ := by
      simp only [start_st, hwraps, hapart]
      rfl

/-- A vector command whose loop is blocked. -/
theorem gfVector_busEnd {loop : Params → (dst src n : Nat) → Cmd Unit} (hs : GfBuffersOk s) (hn : 0 < s.arg2.toNat)
    (h : BusEnd s (loop s.params s.arg0.toNat s.arg1.toNat s.arg2.toNat (Run.start s))) :
    BusEnd s (gfVector loop (Run.start s)) := by
  rw [gfVector_run hs hn]
  exact busEnd_bind h

theorem gfDivMemBody_run {c : Byte} (hc : c ≠ 0) (r : Run) : gfDivMemBody c r = gfVector (gfDivLoop c) r :=
  bind_run_ok (by rw [beq_eq_false_iff_ne.2 hc, rejectIf_false])

/-- A vector command that keeps to `dst` and meets a bus error. -/
theorem exec_vector_busEnd {i : Instr} (hs : GfBuffersOk s) (hend : BusEnd s (commandBody i (Run.start s)))
    (hbody : ∀ W, Covers W s.arg0.toNat s.arg2.toNat → Keeps (Contained s W) (commandBody i)) :
    ∃ m d, exec i s = .next (({ s with mem := m, draws := d } : State).fatal .busError) ∧ m.wf = true ∧
      ∀ a, ¬ (s.arg0.toNat ≤ a ∧ a < s.arg0.toNat + s.arg2.toNat) → m.read a = s.mem.read a := by
  obtain ⟨hwf, -, hdst, -⟩ := hs
  exact exec_busEnd (fun _ _ => rfl) hend (hbody _ (covers_range hdst)) hwf

variable {j : Nat}

/-- The addresses of the buffers are inside the data space. -/
theorem portHits_mod {a n : Nat} (hj : j < n) (h : a + n ≤ Config.addrSpace) (kinds : List PortKind) :
    portHits s.port ((a + j) % Config.addrSpace) kinds = portHits s.port (a + j) kinds := by
  rw [Nat.mod_eq_of_lt (by omega)]

/-- Settles O32: each loop is blocked at the access that the port refuses. -/
theorem gfBusError : Obligations.GfBusError := by
  intro i s hs adds scales hbad
  obtain ⟨j, hj, hbad⟩ := hbad
  have hn : 0 < s.arg2.toNat := by omega
  obtain ⟨-, -, hdst, hsrc, -⟩ := id hs
  rw [← portHits_mod hj hdst, ← portHits_mod hj hsrc, ← portHits_mod hj hdst] at hbad
  have hcases : (adds ∧ (BadRead s (s.arg0.toNat + j) ∨ BadRead s (s.arg1.toNat + j) ∨ BadWrite s (s.arg0.toNat + j))) ∨
      (scales ∧ (BadRead s (s.arg1.toNat + j) ∨ BadWrite s (s.arg0.toNat + j))) ∨
      (i = .gfMulMem 0 ∧ BadWrite s (s.arg0.toNat + j)) := by
    rcases hbad with ⟨ha, h⟩ | ⟨ha | hm, h⟩ | ⟨ha | hm | h0, h⟩
    · exact .inl ⟨ha, .inl h⟩
    · exact .inl ⟨ha, .inr (.inl h)⟩
    · exact .inr (.inl ⟨hm, .inl h⟩)
    · exact .inl ⟨ha, .inr (.inr h)⟩
    · exact .inr (.inl ⟨hm, .inr h⟩)
    · exact .inr (.inr ⟨h0, h⟩)
  rcases hcases with ⟨rfl | ⟨c, hc, rfl⟩, h⟩ | ⟨⟨c, hc, rfl⟩ | ⟨c, hc, rfl⟩, h⟩ | ⟨rfl, h⟩
  · exact exec_vector_busEnd hs (gfVector_busEnd hs hn (blocked_accumulate _ hj _ h)) fun _ => contained_gfAddMemBody
  · refine exec_vector_busEnd hs (gfVector_busEnd hs hn ?_) fun _ hW => contained_gfMuladdMemBody hW c
    rw [gfMuladdLoop, if_neg hc]
    exact blocked_accumulate _ hj _ h
  · refine exec_vector_busEnd hs (gfVector_busEnd hs hn ?_) fun _ hW => contained_gfMulMemBody hW c
    rw [gfMulLoop, if_neg hc]
    exact blocked_mapBytes _ hj _ h
  · refine exec_vector_busEnd hs ?_ fun _ hW => contained_gfDivMemBody hW c
    rw [commandBody, gfDivMemBody_run hc]
    exact gfVector_busEnd hs hn (blocked_mapBytes _ hj _ h)
  · refine exec_vector_busEnd hs (gfVector_busEnd hs hn ?_) fun _ hW => contained_gfMulMemBody hW 0
    rw [gfMulLoop, if_pos rfl]
    exact blocked_memZero hj _ h

end Vector

end Sys2Proof.Machine
end

section
/-! SUPPORT. The bus errors of the slab, sum and row commands (spec R106, R565). -/

namespace Sys2Proof.Machine

/-! ## Descriptors -/

section Descriptors

variable {K : State → Prop} {α : Type}

theorem accesses_readDesc (e : Int) : Accesses (readDesc e) :=
  accesses_withState fun _ => accesses_bind (accesses_memRead _ 8) fun _ => accesses_bind (accesses_memRead _ 4) fun _ =>
    accesses_bind (accesses_anyOpen _ 12) fun _ => accesses_ite
      (accesses_bind accesses_drawWord fun _ => accesses_bind accesses_drawWord fun _ => accesses_pure _)
      (accesses_pure _)

/-- Twelve bytes read as eight and four, one of which the port refuses: a descriptor, or the start of a header (spec R110,
R114). -/
theorem blocked_readTwelve {a j : Nat} (f : List Byte → List Byte → Cmd α) (hj : j < 12) :
    Blocked (fun s => BadRead s (a + j)) (do let x ← memRead a 8; let y ← memRead (a + 8) 4; f x y) := by
  by_cases h8 : j < 8
  · exact blocked_bind_left _ (blocked_memRead h8)
  · have hrest : Blocked (fun s => BadRead s (a + 8 + (j - 8))) (memRead (a + 8) 4) := blocked_memRead (by omega)
    rw [Nat.add_assoc, Nat.add_sub_cancel' (Nat.le_of_not_lt h8)] at hrest
    exact blocked_bind (badRead_ignores _) (accesses_memRead a 8) fun _ => blocked_bind_left _ hrest

/-- The port refuses the read of a byte of the element's descriptor. -/
def BadDesc (s : State) (e : Int) : Prop := ∃ j, j < 12 ∧ BadRead s (descAddr s e + j)

theorem blocked_readDesc (e : Int) : Blocked (fun s => BadDesc s e) (readDesc e) := by
  intro r hr
  obtain ⟨j, hj, hbad⟩ := hr
  exact blocked_readTwelve _ hj r hbad

theorem accesses_fatalIf_busError (c : Bool) : Accesses (fatalIf c .busError) := by
  intro r
  simp only [fatalIf]
  split
  · exact .inr ⟨_, r, rfl, .inr rfl, rfl⟩
  · exact .inl ⟨(), r, rfl, rfl⟩

theorem accesses_rowDesc (e : Nat) : Accesses (rowDesc e) :=
  accesses_bind (accesses_readDesc e) fun d => accesses_bind (accesses_fatalIf_busError _) fun _ => accesses_pure d

theorem blocked_rowDesc (e : Nat) : Blocked (fun s => BadDesc s e) (rowDesc e) := blocked_bind_left _ (blocked_readDesc e)

theorem accesses_addOriginal (dst lp e : Nat) (f : Byte → Byte) : Accesses (addOriginal dst lp e f) :=
  accesses_bind (accesses_rowDesc e) fun _ => accesses_bind (accesses_accumulate _ _ _ _) fun _ =>
    accesses_ite (accesses_memLoosen dst lp) (accesses_pure ())

theorem blocked_addOriginal (dst lp e : Nat) (f : Byte → Byte) :
    Blocked (fun s => BadDesc s e) (addOriginal dst lp e f) := blocked_bind_left _ (blocked_rowDesc e)

/-- The sum over elements of the window is blocked at one whose descriptor the port refuses. -/
theorem blocked_addOriginals {first n e : Nat} (dst lp : Nat) (g : Nat → Byte → Byte) (h1 : first ≤ e) (h2 : e < first + n) :
    Blocked (fun s => BadDesc s e) (addOriginals dst lp first g n 0) := by
  refine blocked_forRange (j := e - first) (fun _ => rfl) (fun _ => accesses_addOriginal _ _ _ _) (Nat.zero_le _) (by omega) ?_
  rw [Nat.add_sub_cancel' h1]
  exact blocked_addOriginal dst lp e (g e)

end Descriptors

theorem bind_run_congr {α β : Type} {x y : Cmd α} {f : α → Cmd β} {r : Run} (h : x r = y r) :
    (x >>= f) r = (y >>= f) r := by rw [bind_run, bind_run, h]

/-! ## Requests for a large allocation (spec R351, R361) -/

section Large

variable {s : State} {q : Run}

@[simp] theorem leBytes_length (n v : Nat) : (leBytes n v).length = n := by
  induction n generalizing v with
  | zero => rfl
  | succ n ih => exact congrArg (· + 1) (ih _)

@[simp] theorem headerBytes_length (win u freed : Nat) : (headerBytes win u freed).length = 16 := by simp [headerBytes]

theorem blocked_memWrite {a j : Nat} {vs : List Byte} (hj : j < vs.length) :
    Blocked (fun s => BadWrite s (a + j)) (memWrite a vs) := by
  induction vs generalizing a j with
  | nil => exact absurd hj (Nat.not_lt_zero j)
  | cons v vs ih =>
    cases j with
    | zero => exact blocked_bind_left _ (blocked_memWrite8 a v)
    | succ j =>
      have hrest : Blocked (fun s => BadWrite s (a + 1 + j)) (memWrite (a + 1) vs) := ih (Nat.lt_of_succ_lt_succ hj)
      rw [Nat.add_assoc, Nat.add_comm 1 j] at hrest
      exact blocked_bind (badWrite_ignores _) (accesses_memWrite8 a v) fun _ => hrest

theorem blocked_slabWrite {a j : Nat} {vs : List Byte} (hj : j < vs.length) :
    Blocked (fun s => BadWrite s (a + j)) (slabWrite a vs) :=
  blocked_withState fun _ _ => blocked_bind (badWrite_ignores _) (accesses_setArea _) fun _ => blocked_memWrite hj

/-- The block has taken the host's answer for a large allocation of `u` units (spec R120). -/
def tookLarge (r : Word) (rest : List (Option Word)) (u : Nat) (s : State) : State :=
  { s with allocAnswers := rest, largeLive := (r.toNat, u * s.params.unit) :: s.largeLive }

/-- What is left of the large branch of `alloc` once the host has answered. -/
def largeRest (r : Word) (rest : List (Option Word)) (u : Nat) : Cmd Word := do
  modifyState (tookLarge r rest u)
  let s ← getState
  slabWrite r.toNat (headerBytes 0 u 0)
  let p := BitVec.ofNat 64 (r.toNat + s.params.unit)
  handOut p
  pure p

theorem contained_largeRest {s₀ : State} {W : Nat → Prop} {r : Word} (hW : Covers W r.toNat 16)
    (rest : List (Option Word)) (u : Nat) : Keeps (Contained s₀ W) (largeRest r rest u) :=
  keeps_bind (contained_modify fun _ => rfl) fun _ => keeps_withState fun _ _ =>
    keeps_bind (contained_slabWrite (by rwa [headerBytes_length])) fun _ => keeps_bind (contained_modify fun _ => rfl) fun _ =>
      keeps_pure _

/-- A byte of the header that the port refuses. -/
theorem largeRest_busEnd {r : Word} {j : Nat} (rest : List (Option Word)) (u : Nat) (hj : j < 16)
    (hbad : BadWrite q.st (r.toNat + j)) : BusEnd (tookLarge r rest u q.st) (largeRest r rest u q) := by
  have hblocked : Blocked (fun s => BadWrite s (r.toNat + j)) (slabWrite r.toNat (headerBytes 0 u 0)) :=
    blocked_slabWrite (by rwa [headerBytes_length])
  rw [largeRest, bind_run_ok (modifyState_run _ _), bind_run_ok (getState_run _)]
  exact busEnd_bind (hblocked { q with st := tookLarge r rest u q.st } hbad)

/-- The next answer, one that the host may give, is taken. -/
theorem hostAllocOrFail_run {size : Nat} {r : Word} {rest : List (Option Word)} (h : NextAnswer q.st size r rest) :
    hostAllocOrFail size q = .ok r { q with st := { q.st with allocAnswers := rest } } := by
  obtain ⟨hanswers, hok⟩ := h
  have hask : hostAlloc size q = .ok (some r) { q with st := { q.st with allocAnswers := rest } } := by
    rw [hostAlloc, bind_run_ok (getState_run q), hanswers]
    simp only
    rw [bind_run_ok (modifyState_run _ _), pure_run, Option.filter_some, if_pos hok]
  rw [hostAllocOrFail, bind_run_ok hask]
  rfl

/-- A legal request that the host answers for a large allocation (spec R355, R361). -/
theorem allocChecked_large {b : Nat} {r : Word} {rest : List (Option Word)} (hlegal : q.st.params.Legal) (h1 : 1 ≤ b)
    (hmax : b ≤ 2 ^ 29 - 1) (hlarge : 512 ≤ unitsFor q.st.params b)
    (hanswer : NextAnswer q.st (unitsFor q.st.params b * q.st.params.unit) r rest) :
    allocChecked b q = (do let p ← largeRest r rest (unitsFor q.st.params b); resultPointer p : Cmd Unit) q := by
  obtain ⟨-, -, -, -, -, -, -, -, -, -, -, -, -, -, -, hunits, hbytes, -⟩ := hlegal
  have hcheck : requestCheck b q = .ok () q :=
    (bind_run_ok (getState_run _)).trans <| (bind_run_ok (rejectIf_unmet (by omega) _ _)).trans
      (rejectIf_unmet (by rw [hbytes]; omega) _ _)
  have hbranch : unitsFor q.st.params b ≥ q.st.params.largeUnits := by
    rw [Params.largeUnits, hunits]
    exact hlarge
  have halloc : alloc b q = largeRest r rest (unitsFor q.st.params b) q :=
    (bind_run_ok (getState_run _)).trans <| (congrFun (if_pos hbranch) q).trans <|
      (bind_run_ok (getState_run _)).trans (bind_run_ok (hostAllocOrFail_run hanswer))
  exact (bind_run_ok hcheck).trans (bind_run_congr halloc)

theorem requests_run {i : Instr} {b : Nat} (h : Requests i q.st b) : commandBody i q = allocChecked b q := by
  rcases h with ⟨rfl, hb⟩ | ⟨copy, rfl, hnull, hb⟩
  · exact (bind_run_ok (getState_run _)).trans (by rw [hb])
  · refine (bind_run_ok (getState_run _)).trans ((congrFun (if_pos ?_) q).trans (by rw [hb]))
    rw [hnull]
    rfl

/-- (a) The port refuses a byte of the header of a new large allocation. -/
theorem requests_busError {i : Instr} {b j : Nat} {r : Word} {rest : List (Option Word)} (hlegal : s.params.Legal)
    (hwf : s.mem.wf = true) (h : Requests i s b) (h1 : 1 ≤ b) (hmax : b ≤ 2 ^ 29 - 1) (hlarge : 512 ≤ unitsFor s.params b)
    (hanswer : NextAnswer s (unitsFor s.params b * s.params.unit) r rest) (hj : j < 16) (hbad : BadWrite s (r.toNat + j)) :
    ∃ m d, exec i s =
        .next (({ tookLarge r rest (unitsFor s.params b) s with mem := m, draws := d } : State).fatal .busError) ∧
      m.wf = true ∧ ∀ a, ¬ (r.toNat ≤ a ∧ a < r.toNat + 16) → m.read a = s.mem.read a := by
  have hroom : r.toNat + 16 ≤ Config.addrSpace := by
    obtain ⟨hunit, -⟩ := hlegal
    have hsize : 512 * 16 ≤ unitsFor s.params b * s.params.unit := Nat.mul_le_mul hlarge (by omega)
    have hok := hanswer.2
    simp only [answerOk, wraps, Bool.and_eq_true, Bool.not_eq_true', decide_eq_false_iff_not] at hok
    omega
  refine exec_busEnd (fun q hq => ?_) (busEnd_bind (largeRest_busEnd rest _ hj (q := Run.start s) hbad))
    (keeps_bind (contained_largeRest (covers_range hroom) rest _) fun p => contained_resultPointer p) hwf
  have hparams : q.st.params = s.params := by rw [hq]
  rw [requests_run (b := b) (by rw [hq]; exact h),
    allocChecked_large (by rwa [hparams]) h1 hmax (by rwa [hparams]) (r := r) (rest := rest)
      (by rw [hparams, hq]; exact hanswer), hparams]

end Large

/-! ## Freeing a region (spec R362) -/

section Free

variable {s : State}

theorem checkPointer_busEnd {q : Run} {h j : Nat} (haligned : (h + q.st.params.unit) % q.st.params.unit = 0) (hj : j < 13)
    (hbad : BadRead q.st (h + j)) : BusEnd q.st (checkPointer (h + q.st.params.unit) q) := by
  have hpasses : ¬ ((h + q.st.params.unit) % q.st.params.unit ≠ 0 ∨ h + q.st.params.unit < q.st.params.unit) := by omega
  have hread : ∀ f : List Byte → List Byte → Byte → Cmd Allocation, Blocked (fun s => BadRead s (h + j))
      (do let win ← memRead h 8; let u ← memRead (h + 8) 4; let x ← memRead8 (h + 12); f win u x) := fun f => by
    by_cases h12 : j < 12
    · exact blocked_readTwelve _ h12
    · obtain rfl : j = 12 := by omega
      exact blocked_bind (badRead_ignores _) (accesses_memRead _ 8) fun _ =>
        blocked_bind (badRead_ignores _) (accesses_memRead _ 4) fun _ => blocked_bind_left _ (blocked_memRead8 _)
  rw [checkPointer, bind_run_ok (getState_run q), bind_run_ok (rejectIf_unmet hpasses _ _), bind_run_ok (setArea_run _ _),
    Nat.add_sub_cancel]
  exact hread _ { q with area := _ } hbad

/-- (b) The port refuses a byte of the header of a region to free. -/
theorem slabFree_busError {h j : Nat} (hlegal : s.params.Legal) (hwf : s.mem.wf = true) (hnull : s.arg0 ≠ 0)
    (haligned : s.arg0.toNat % s.params.unit = 0) (hptr : s.arg0.toNat = h + s.params.unit) (hj : j < 13)
    (hbad : BadRead s (h + j)) :
    ∃ m d, exec .slabFree s = .next (({ s with mem := m, draws := d } : State).fatal .busError) ∧ m.wf = true ∧
      ∀ a, ¬ (h + 12 ≤ a ∧ a < h + 12 + 1) → m.read a = s.mem.read a := by
  have hroom : h + 12 + 1 ≤ Config.addrSpace := by
    obtain ⟨hunit, -⟩ := hlegal
    have hlt := s.arg0.isLt
    simp only [Config.addrSpace]
    omega
  have hcovers := covers_range hroom
  rw [show h + 12 = s.arg0.toNat - s.params.unit + 12 by omega] at hcovers
  have hnonzero : ¬ s.arg0.toNat = 0 := fun he => hnull (BitVec.eq_of_toNat_eq he)
  have hend : BusEnd s (slabFreeBody (Run.start s)) := by
    have hrun : slabFreeBody (Run.start s) = (do
        let x ← checkPointer s.arg0.toNat
        doFree x : Cmd Unit) (Run.start s) :=
      (bind_run_ok (getState_run _)).trans (congrFun (if_neg hnonzero) _)
    rw [hrun, hptr]
    exact busEnd_bind (checkPointer_busEnd (q := Run.start s) (by rw [start_st, ← hptr]; exact haligned) hj hbad)
  have hresult := exec_busEnd (i := .slabFree) (fun _ _ => rfl) hend (contained_slabFreeBody hcovers) hwf
  rwa [show s.arg0.toNat - s.params.unit + 12 = h + 12 by omega] at hresult

end Free

/-! ## Sums (spec R431) -/

section Sums

variable {s : State} {k : BitVec 2} {lane : BitVec 3}

/-- What the checks of SUMS_GET ask for (spec R431). -/
structure SumsGetPasses (s : State) (k : BitVec 2) (lane : BitVec 3) : Prop where
  index : k ≠ 3
  valid : s.sumsValid = true
  stop : s.arg0.toNat ≤ s.winCount.toNat
  served : (s.sum lane.toNat k.toNat).se.toInt ≤ s.arg0.toNat
  ends : s.sumBase.toNat + 24 * s.sumStride.toNat ≤ Config.addrSpace

theorem SumsGetPasses.index_lt (h : SumsGetPasses s k lane) : k.toNat < 3 := by
  have hne : k.toNat ≠ 3 := fun he => h.index (BitVec.eq_of_toNat_eq he)
  have hlt := k.isLt
  omega

/-- Every sum buffer ends where the last of the 24 does, at most (spec R112). -/
theorem sumAddr_end {l k : Nat} (hl : l < 8) (hk : k < 3) :
    sumAddr s l k + s.sumStride.toNat ≤ s.sumBase.toNat + 24 * s.sumStride.toNat := by
  have hindex : (sumIndex l k + 1) * s.sumStride.toNat ≤ 24 * s.sumStride.toNat :=
    Nat.mul_le_mul_right _ (sumIndex_lt hl hk)
  rw [Nat.add_mul, Nat.one_mul] at hindex
  rw [sumAddr, Nat.add_assoc]
  exact Nat.add_le_add_left hindex _

/-- The run of a command that folds, once it has checked the table and the folded originals. -/
def sumsRun (s : State) : Run :=
  { Run.start (recheckFolded (recheckTable s)) with area := sumsArea (recheckFolded (recheckTable s)) }

/-- SUMS_GET after its checks. -/
def sumsGetRest (t : Tables) (l k stop : Nat) : Cmd Unit := do
  fold t l k stop
  leaveSum l k
  modifyState fun s =>
    let c := s.sum l k
    s.setRes (BitVec.ofNat 64 (sumAddr s l k)) (c.sl.setWidth 64) (c.ne.signExtend 64) (c.se.signExtend 64)

theorem beginSums_run (q : Run) : beginSums q = .ok () { q with
    st := recheckFolded (recheckTable q.st)
    area := sumsArea (recheckFolded (recheckTable q.st)) } := rfl

theorem sumsGetBody_run (h : SumsGetPasses s k lane) (t : Tables) :
    sumsGetBody t k lane (Run.start s) = sumsGetRest t lane.toNat k.toNat s.arg0.toNat (sumsRun s) := by
  have hindex : ¬ k.toNat = 3 := Nat.ne_of_lt h.index_lt
  have hstop : ¬ s.arg0.toNat > s.winCount.toNat := Nat.not_lt.2 h.stop
  have hserved : ¬ (s.arg0.toNat : Int) < (s.sum lane.toNat k.toNat).se.toInt := Int.not_lt.2 h.served
  have hvalid : rejectIf (!s.sumsValid) .badState (Run.start s) = .ok () (Run.start s) := by
    rw [h.valid, Bool.not_true, rejectIf_false]
  have hends : rejectIf (sumsWrap s) .argRange (Run.start s) = .ok () (Run.start s) := by
    have hends := h.ends
    have hwraps : sumsWrap s = false := decide_eq_false (by simp only [Config.lanes, Config.sumCount]; omega)
    rw [hwraps, rejectIf_false]
  calc sumsGetBody t k lane (Run.start s)
    _ = _ := (bind_run_ok (getState_run _)).trans (bind_run_ok (rejectIf_unmet hindex _ _))
    _ = _ := (bind_run_ok hvalid).trans (bind_run_ok (rejectIf_unmet hstop _ _))
    _ = _ := (bind_run_ok (rejectIf_unmet hserved _ _)).trans (bind_run_ok hends)
    _ = sumsGetRest t lane.toNat k.toNat s.arg0.toNat (sumsRun s) := bind_run_ok (beginSums_run _)

/-- A fold that has an element to add reads its descriptor first (spec R422). -/
theorem fold_busEnd {q : Run} {l k : Nat} {stop : Int} (t : Tables) (hmore : (q.st.sum l k).ne.toInt < stop)
    (hbad : BadDesc q.st (q.st.sum l k).ne.toInt) : BusEnd q.st (fold t l k stop q) := by
  obtain ⟨n, hn⟩ : ∃ n, foldRounds (q.st.sum l k).ne.toInt stop = n + 1 := by
    refine Nat.exists_eq_succ_of_ne_zero ?_
    rw [foldRounds]
    omega
  rw [fold, bind_run_ok (getState_run q), hn]
  exact busEnd_bind (busEnd_bind (busEnd_bind (blocked_readDesc _ q hbad)))

/-- (c) The port refuses a byte of the first descriptor that SUMS_GET needs. -/
theorem sumsGet_busError (hwf : s.mem.wf = true) (h : SumsGetPasses s k lane)
    (hmore : (s.sum lane.toNat k.toNat).ne.toInt < s.arg0.toNat) (hbad : BadDesc s (s.sum lane.toNat k.toNat).ne.toInt) :
    ∃ m d, exec (.sumsGet k lane) s =
        .next (({ recheckFolded (recheckTable s) with mem := m, draws := d } : State).fatal .busError) ∧ m.wf = true ∧
      ∀ a, ¬ (sumAddr s lane.toNat k.toNat ≤ a ∧ a < sumAddr s lane.toNat k.toNat + s.sumStride.toNat) →
        m.read a = s.mem.read a := by
  have hroom := (sumAddr_end (s := s) lane.isLt h.index_lt).trans h.ends
  refine exec_busEnd (fun _ _ => rfl) ?_ (contained_sumsGetBody (covers_range hroom) Config.tables) hwf
  rw [commandBody, sumsGetBody_run h]
  exact busEnd_bind (fold_busEnd (q := sumsRun s) Config.tables hmore hbad)

end Sums

/-! ## Rows (spec R491, R492) -/

section Rows

variable {s : State} {q : Run}

/-- A window of one element comes to the single row (spec R495). -/
theorem rowEncodeBody_single (t : Tables) (hu : WindowHolds q.st 1) : rowEncodeBody t q = singleRow q := by
  obtain ⟨hcount, hmax⟩ := hu
  have hwindow : ¬ (q.st.winFirstElem.toNat > q.st.winCount.toNat ∨ q.st.winCount.toNat > q.st.params.elemMax) := by omega
  have hempty : ¬ q.st.winCount.toNat - q.st.winFirstElem.toNat = 0 := by omega
  have hsingle : q.st.winCount.toNat - q.st.winFirstElem.toNat = 1 := by omega
  calc rowEncodeBody t q
    _ = _ := (bind_run_ok (getState_run _)).trans (bind_run_ok (rejectIf_unmet hwindow _ _))
    _ = singleRow q := (congrFun (if_neg hempty) q).trans (congrFun (if_pos hsingle) q)

/-- (d) The port refuses a byte of the descriptor of a single row. -/
theorem singleRow_busError (hwf : s.mem.wf = true) (hu : WindowHolds s 1) (hbad : BadDesc s s.winFirstElem.toNat) :
    ∃ m d, exec .rowEncode s = .next (({ recheckTable s with mem := m, draws := d } : State).fatal .busError) ∧
      m.wf = true ∧ ∀ a, ¬ (0 ≤ a ∧ a < 0 + 0) → m.read a = s.mem.read a := by
  refine exec_busEnd (body := singleRow) (fun q hq => rowEncodeBody_single _ (by rw [hq]; exact hu)) ?_ contained_singleRow hwf
  rw [singleRow, bind_run_ok (modifyState_run _ _), bind_run_ok (getState_run _)]
  exact busEnd_bind (blocked_rowDesc _ (Run.start (recheckTable s)) hbad)

/-- A window of 2 to CAUCHY_THRESHOLD elements whose scratch has room comes to a parity or Cauchy row, wherever the scratch
lies (spec R495). -/
theorem rowEncodeBody_cauchy {u : Nat} (t : Tables) (hu : WindowHolds q.st u) (hlegal : q.st.params.Legal) (h2 : 2 ≤ u)
    (hthreshold : u ≤ q.st.params.cauchyThreshold) (hlp : q.st.winLongest.toNat ≤ 2 ^ 30)
    (hcap : q.st.winLongest.toNat + 8 ≤ q.st.recCap.toNat)
    (hroom : q.st.recBase.toNat + q.st.winLongest.toNat + 8 ≤ Config.addrSpace) :
    rowEncodeBody t q = cauchyBranch q := by
  obtain ⟨hcount, hmax⟩ := hu
  obtain ⟨-, -, -, -, -, -, -, -, -, -, -, -, -, -, hgf, -, -, hfooter, -⟩ := hlegal
  have hwindow : ¬ (q.st.winFirstElem.toNat > q.st.winCount.toNat ∨ q.st.winCount.toNat > q.st.params.elemMax) := by omega
  have hempty : ¬ q.st.winCount.toNat - q.st.winFirstElem.toNat = 0 := by omega
  have hsingle : ¬ q.st.winCount.toNat - q.st.winFirstElem.toNat = 1 := by omega
  have hlongest : ¬ q.st.winLongest.toNat > q.st.params.maxGfLen := by omega
  have hcauchy : q.st.winCount.toNat - q.st.winFirstElem.toNat ≤ q.st.params.cauchyThreshold := by omega
  have hscratch : ¬ q.st.recCap.toNat < q.st.winLongest.toNat + q.st.params.footerMax := by omega
  have hwraps : ¬ q.st.recBase.toNat + (q.st.winLongest.toNat + q.st.params.footerMax) > Config.addrSpace := by omega
  calc rowEncodeBody t q
    _ = _ := (bind_run_ok (getState_run _)).trans (bind_run_ok (rejectIf_unmet hwindow _ _))
    _ = _ := (congrFun (if_neg hempty) q).trans (congrFun (if_neg hsingle) q)
    _ = _ := (bind_run_ok (rejectIf_unmet hlongest _ _)).trans (congrFun (if_pos hcauchy) q)
    _ = cauchyBranch q :=
      (bind_run_ok (rejectIf_unmet hscratch _ _)).trans (bind_run_ok (rejectIf_unmet hwraps _ _))

theorem busEnd_withScratch {t : State} {base n : Nat} {body : Cmd Unit} (h : BusEnd t (body q)) :
    BusEnd t (withScratch base n body q) := by
  obtain ⟨x, r, hr, hx, hst⟩ := h
  rw [withScratch, hr]
  rcases hx with rfl | rfl
  · exact ⟨_, r, rfl, .inl rfl, hst⟩
  · exact ⟨_, _, rfl, .inr rfl, (Ignores.openRange (k := memErased) (fun _ => rfl) n base r.st).trans hst⟩

/-- What stops a parity or Cauchy row: a byte of its scratch, or the descriptor of an element of the window. -/
def RowObstructed (s : State) : Prop :=
  (∃ j, j < s.winLongest.toNat ∧ BadWrite s (s.recBase.toNat + j)) ∨
    ∃ e : Nat, s.winFirstElem.toNat ≤ e ∧ e < s.winCount.toNat ∧ BadDesc s e

theorem blocked_parityData {first n e : Nat} (dst lp : Nat) (h1 : first ≤ e) (h2 : e < first + n) :
    Blocked (fun s => BadDesc s e) (parityData dst lp first n) := by
  rw [parityData_eq]
  exact blocked_addOriginals dst lp _ h1 h2

theorem blocked_cauchyData {first n e : Nat} (s : State) (dst lp r : Nat) (h1 : first ≤ e) (h2 : e < first + n) :
    Blocked (fun s => BadDesc s e) (cauchyData s dst lp first n r) := by
  rw [cauchyData_eq]
  exact blocked_addOriginals dst lp _ h1 h2

theorem cauchyBranch_busEnd (h : RowObstructed s) : BusEnd (recheckTable s) (cauchyBranch (Run.start s)) := by
  refine busEnd_withScratch (q := rowRun s) ?_
  rcases h with ⟨j, hj, hbad⟩ | ⟨e, h1, h2, hbad⟩
  · exact busEnd_bind (blocked_memZero hj (rowRun s) hbad)
  · have hwindow : e < s.winFirstElem.toNat + (s.winCount.toNat - s.winFirstElem.toNat) := by omega
    exact blocked_bind (K := fun s => BadDesc s e) (fun _ => rfl) (accesses_memZero _ _)
      (fun _ => blocked_ite (fun _ => blocked_bind_left _ (blocked_parityData _ _ h1 hwindow))
        fun _ => blocked_bind_left _ (blocked_cauchyData _ _ _ _ h1 hwindow)) (rowRun s) hbad

/-- (e) The port refuses a byte of the scratch of a parity or Cauchy row, or of a descriptor that it needs. -/
theorem cauchyRow_busError {u : Nat} (hlegal : s.params.Legal) (hwf : s.mem.wf = true) (hu : WindowHolds s u) (h2 : 2 ≤ u)
    (hthreshold : u ≤ s.params.cauchyThreshold) (hlp : s.winLongest.toNat ≤ 2 ^ 30)
    (hcap : s.winLongest.toNat + 8 ≤ s.recCap.toNat)
    (hroom : s.recBase.toNat + s.winLongest.toNat + 8 ≤ Config.addrSpace) (h : RowObstructed s) :
    ∃ m d, exec .rowEncode s = .next (({ recheckTable s with mem := m, draws := d } : State).fatal .busError) ∧
      m.wf = true ∧
      ∀ a, ¬ (s.recBase.toNat ≤ a ∧ a < s.recBase.toNat + s.winLongest.toNat) → m.read a = s.mem.read a := by
  refine exec_busEnd (body := cauchyBranch) (fun q hq => ?_) (cauchyBranch_busEnd h)
    (contained_cauchyBranch (covers_range (by omega))) hwf
  refine rowEncodeBody_cauchy _ (u := u) ?_ ?_ h2 ?_ ?_ ?_ ?_ <;> rw [hq] <;> assumption

end Rows

/-- Settles O60. -/
theorem busErrors : Obligations.BusErrors := by
  intro s hlegal hwf badRead badWrite first badDesc fatally
  refine ⟨fun i b r rest h h1 hmax hlarge hanswer hbad => ?_, fun h hnull haligned hptr hbad => ?_,
    fun k lane hk hvalid hstop hserved hmore hends hbad => ?_, fun hu hbad => singleRow_busError hwf hu hbad,
    fun u hu h2 hthreshold hlp hcap hroom h => cauchyRow_busError hlegal hwf hu h2 hthreshold hlp hcap hroom h⟩
  · obtain ⟨j, hj, hbad⟩ := hbad
    exact requests_busError hlegal hwf h h1 hmax hlarge hanswer hj hbad
  · obtain ⟨j, hj, hbad⟩ := hbad
    exact slabFree_busError hlegal hwf hnull haligned hptr hj hbad
  · exact sumsGet_busError hwf ⟨hk, hvalid, hstop, hserved, hends⟩ hmore hbad

end Sys2Proof.Machine
end

section
/-! SUPPORT. Folding the originals of a lane into a sum over plain memory, and SUMS_GET (spec R420 to R422, R431). -/

namespace Sys2Proof.Machine

/-! ## What a fold changes of the state -/

/-- The state with other memory, another record of folded originals and other counters of sum (l, k). -/
def State.folding (s : State) (l k : Nat) (m : Memory) (f : List Original) (c : SumCtr) : State :=
  { s with mem := m, folded := f, sums := s.sums.setIfInBounds (sumIndex l k) c }

/-- From run `r` to run `r'` a fold has left memory `m` and the counters `c` of sum (l, k). -/
structure FoldStep (l k : Nat) (r r' : Run) (m : Memory) (c : SumCtr) : Prop where
  st : ∃ f, r'.st = r.st.folding l k m f c
  area : r'.area = r.area
  quiet : Quiet r → Quiet r'

/-- Sum (l, k) lies in its buffer, and its buffer in the data space (spec R112, R423). -/
structure SumInBuffer (s : State) (l k : Nat) : Prop where
  lane : l < 8
  index : k < 3
  ends : sumAddr s l k + s.sumStride.toNat ≤ Config.addrSpace
  within : (s.sum l k).sl.toNat ≤ s.sumStride.toNat

/-- Element `e` can be folded into sum (l, k): it is apart from the sum's buffer, and fits it (spec R423, R626). -/
structure FoldFits (s : State) (l k : Nat) (e : Int) : Prop where
  apart : ElementApart s (sumAddr s l k) s.sumStride.toNat e
  fits : (descAt s e).2 ≤ s.sumStride.toNat
  low : 0 ≤ e
  high : e < 2 ^ 30

section Folding

variable {s : State} {l k : Nat} {m m' : Memory} {f f' : List Original} {c c' : SumCtr} {r r' r'' : Run} {e : Int}

theorem State.folding_self (s : State) (l k : Nat) : s.folding l k s.mem s.folded (s.sum l k) = s := by
  have hsums : s.sums.setIfInBounds (sumIndex l k) (s.sum l k) = s.sums := by
    refine Vector.ext fun i hi => ?_
    rw [Vector.getElem_setIfInBounds]
    split
    · rename_i h
      simp [State.sum, h, hi]
    · rfl
  rw [State.folding, hsums]

theorem State.folding_folding : (s.folding l k m f c).folding l k m' f' c' = s.folding l k m' f' c' := by
  simp [State.folding]

theorem State.sum_folding (hl : l < 8) (hk : k < 3) : (s.folding l k m f c).sum l k = c :=
  (State.sum_setSum s c hl hk hk).trans (if_pos ⟨rfl, rfl⟩)

/-- A byte loop changes the memory alone. -/
theorem MemStep.foldStep (h : MemStep r r' m) (l k : Nat) : FoldStep l k r r' m (r.st.sum l k) := by
  refine ⟨⟨r.st.folded, ?_⟩, h.area, h.quiet⟩
  rw [h.st]
  exact congrArg (fun t : State => { t with mem := m }) (State.folding_self r.st l k).symm

theorem FoldStep.trans (h : FoldStep l k r r' m c) (h' : FoldStep l k r' r'' m' c') : FoldStep l k r r'' m' c' := by
  obtain ⟨f, hst⟩ := h.st
  obtain ⟨f', hst'⟩ := h'.st
  refine ⟨⟨f', ?_⟩, h'.area.trans h.area, fun q => h'.quiet (h.quiet q)⟩
  rw [hst', hst, State.folding_folding]

theorem FoldStep.mem (h : FoldStep l k r r' m c) : r'.st.mem = m := by
  obtain ⟨f, hst⟩ := h.st
  rw [hst]
  rfl

theorem FoldStep.sum (h : FoldStep l k r r' m c) (hs : SumInBuffer r.st l k) : r'.st.sum l k = c := by
  obtain ⟨f, hst⟩ := h.st
  rw [hst, State.sum_folding hs.lane hs.index]

/-- Changing the counters of the sum afterwards. -/
theorem FoldStep.setSum (h : FoldStep l k r r' m c) (c' : SumCtr) :
    FoldStep l k r { r' with st := r'.st.setSum l k c' } m c' := by
  obtain ⟨f, hst⟩ := h.st
  refine ⟨⟨f, ?_⟩, h.area, fun q => ⟨(h.quiet q).raced, (h.quiet q).opens⟩⟩
  rw [hst]
  exact State.folding_folding (m' := m) (f' := f)

/-- The buffer is where it was. -/
theorem FoldStep.buffer (h : FoldStep l k r r' m c) :
    sumAddr r'.st l k = sumAddr r.st l k ∧ r'.st.sumStride = r.st.sumStride := by
  obtain ⟨f, hst⟩ := h.st
  rw [hst]
  exact ⟨rfl, rfl⟩

theorem FoldStep.sumInBuffer (h : FoldStep l k r r' m c) (hs : SumInBuffer r.st l k)
    (hc : c.sl.toNat ≤ r.st.sumStride.toNat) : SumInBuffer r'.st l k := by
  obtain ⟨haddr, hstride⟩ := h.buffer
  exact ⟨hs.lane, hs.index, by rw [haddr, hstride]; exact hs.ends, by rw [h.sum hs, hstride]; exact hc⟩

/-- A run over plain memory stays one. -/
theorem FoldStep.plain (h : FoldStep l k r r' m c) (p : PlainRun r) (hm : m.wf = true) : PlainRun r' := by
  obtain ⟨f, hst⟩ := h.st
  refine ⟨h.quiet p.quiet, by rw [h.mem]; exact hm, by rw [hst]; exact p.kept, fun a ha => ?_⟩
  rw [h.area, hst]
  exact p.closed a ha

/-! ## Elements apart from the buffer -/

/-- The elements of a lane from `e`: the first one and those after it (spec R420). -/
theorem strided_cons {P : Int → Prop} {n : Nat} {e : Int} (h : ∀ i : Nat, i < n + 1 → P (e + 8 * i)) :
    P e ∧ ∀ i : Nat, i < n → P (e + 8 + 8 * i) := by
  refine ⟨by simpa using h 0 (Nat.succ_pos n), fun i hi => ?_⟩
  have hnext := h (i + 1) (by omega)
  rwa [show e + 8 * ((i + 1 : Nat) : Int) = e + 8 + 8 * i by omega] at hnext

section Apart

variable {value : Nat → Byte} (h : FoldStep l k r r' m c)
  (hm : Rewritten r.st.mem m (sumAddr r.st l k) r.st.sumStride.toNat value)

include h hm

theorem FoldStep.descAt (he : ElementApart r.st (sumAddr r.st l k) r.st.sumStride.toNat e) :
    descAt r'.st e = descAt r.st e := by
  obtain ⟨f, hst⟩ := h.st
  have hmem : MemStep r { r with st := { r.st with mem := m } } m := ⟨rfl, rfl, rfl, fun q => ⟨q.raced, q.opens⟩⟩
  rw [hst]
  exact he.descAt_step hmem hm

/-- An element that can be folded still can be. -/
theorem FoldStep.foldFits (he : FoldFits r.st l k e) : FoldFits r'.st l k e := by
  obtain ⟨haddr, hstride⟩ := h.buffer
  have hdesc := h.descAt hm he.apart
  obtain ⟨f, hst⟩ := h.st
  refine ⟨⟨?_, ?_, ?_⟩, ?_, he.low, he.high⟩
  · rw [haddr, hstride, hst]
    exact he.apart.descriptor
  · rw [hdesc]
    exact he.apart.ends
  · rw [haddr, hstride, hdesc]
    exact he.apart.original
  · rw [hdesc, hstride]
    exact he.fits

theorem FoldStep.foldedLength {n : Nat} (he : ∀ i : Nat, i < n → FoldFits r.st l k (e + 8 * i)) :
    foldedLength r'.st n e = foldedLength r.st n e := by
  induction n generalizing e with
  | zero => rfl
  | succ n ih =>
    obtain ⟨h0, hrest⟩ := strided_cons he
    rw [Machine.foldedLength, Machine.foldedLength, h.descAt hm h0.apart, ih hrest]

theorem FoldStep.foldedByte {n b : Nat} (t : Tables) (he : ∀ i : Nat, i < n → FoldFits r.st l k (e + 8 * i)) :
    foldedByte t r'.st k b n e = foldedByte t r.st k b n e := by
  induction n generalizing e with
  | zero => rfl
  | succ n ih =>
    obtain ⟨h0, hrest⟩ := strided_cons he
    rw [Machine.foldedByte, Machine.foldedByte, h.descAt hm h0.apart, ih hrest]
    have hweight : weight t r'.st e k = weight t r.st e k ∧ r'.st.params = r.st.params := by
      obtain ⟨f, hst⟩ := h.st
      rw [hst]
      exact ⟨rfl, rfl⟩
    rw [hweight.1, hweight.2, h.mem]
    by_cases hb : b < (Machine.descAt r.st e).2
    · rw [if_pos hb, if_pos hb, h0.apart.read_original hm hb]
    · rw [if_neg hb, if_neg hb]

end Apart

/-! ## The fold of one element (spec R422) -/

/-- Byte `b` of a sum's buffer at `base` once the sum has grown from `sl` to `sl'` bytes and `added` has been added to it. -/
def sumByte (m : Memory) (base sl sl' : Nat) (added : Nat → Byte) (b : Nat) : Byte :=
  if b < sl' then (if b < sl then m.read (base + b) else 0) ^^^ added b else m.read (base + b)

/-- Nothing added to a sum that does not grow. -/
theorem sumByte_same {base sl b : Nat} {added : Nat → Byte} (h : added b = 0) :
    sumByte m base sl sl added b = m.read (base + b) := by
  unfold sumByte
  by_cases hb : b < sl <;> simp [hb, h]

/-- Adding to a sum twice. -/
theorem sumByte_trans {base sl sl1 sl2 b : Nat} {added1 added2 : Nat → Byte}
    (hm : m'.read (base + b) = sumByte m base sl sl1 added1 b) (h : sl ≤ sl1) (h' : sl1 ≤ sl2) (h0 : sl1 ≤ b → added1 b = 0) :
    sumByte m' base sl1 sl2 added2 b = sumByte m base sl sl2 (fun b => added1 b ^^^ added2 b) b := by
  rw [sumByte, hm]
  unfold sumByte
  by_cases h1 : b < sl1
  · simp only [if_pos h1, if_pos (Nat.lt_of_lt_of_le h1 h'), BitVec.xor_assoc]
  · simp only [if_neg h1, if_neg (fun hb : b < sl => h1 (Nat.lt_of_lt_of_le hb h)), h0 (Nat.le_of_not_lt h1)]
    simp

/-- Growing a sum and then adding to its bytes. -/
theorem sumByte_add {base sl sl' b : Nat} {added : Nat → Byte} (h : sl' ≤ b → added b = 0) :
    sumByte m base sl sl' (fun _ => 0) b ^^^ added b = sumByte m base sl sl' added b := by
  unfold sumByte
  by_cases hb : b < sl'
  · simp [hb]
  · simp [hb, h (Nat.le_of_not_lt hb)]

/-- A loop over a part of a range, seen as one over the whole range that keeps the rest. -/
theorem Rewritten.widen_part {dst j n' n : Nat} {g value : Nat → Byte} (h : Rewritten m m' (dst + j) n' g) (hj : j + n' ≤ n)
    (hin : ∀ i, i < n' → value (j + i) = g i)
    (hout : ∀ i, i < n → ¬ (j ≤ i ∧ i < j + n') → value i = m.read (dst + i)) : Rewritten m m' dst n value := by
  refine ⟨h.1, fun a => ?_⟩
  rw [h.2]
  by_cases ha : dst + j ≤ a ∧ a < dst + j + n'
  · rw [if_pos ha, if_pos (by omega), ← hin _ (by omega), show j + (a - (dst + j)) = a - dst by omega]
  · rw [if_neg ha]
    by_cases hn : dst ≤ a ∧ a < dst + n
    · rw [if_pos hn, hout _ (by omega) (by omega), Nat.add_sub_cancel' hn.1]
    · rw [if_neg hn]

/-- Growing a sum writes zeros from its old length on (spec R422). -/
theorem growSum_step {n : Nat} (p : PlainRun r) (hs : SumInBuffer r.st l k) (hn : n ≤ r.st.sumStride.toNat) :
    ∃ r' m, growSum l k n r = .ok () r' ∧
      FoldStep l k r r' m { r.st.sum l k with sl := BitVec.ofNat 32 (max (r.st.sum l k).sl.toNat n) } ∧
      Rewritten r.st.mem m (sumAddr r.st l k) r.st.sumStride.toNat
        (sumByte r.st.mem (sumAddr r.st l k) (r.st.sum l k).sl.toNat (max (r.st.sum l k).sl.toNat n) fun _ => 0) := by
  have hends := hs.ends
  have hwithin := hs.within
  by_cases hgrow : n > (r.st.sum l k).sl.toNat
  · obtain ⟨r1, m, hr1, hs1, hm⟩ := memZero_rewrites (a := sumAddr r.st l k + (r.st.sum l k).sl.toNat)
      (n := n - (r.st.sum l k).sl.toNat) p.quiet p.wf (by omega) (p.closed_range (by omega))
    have hstep := hs1.foldStep l k
    refine ⟨_, m, (bind_run_ok (getState_run r)).trans <| (congrFun (if_pos hgrow) r).trans <| (bind_run_ok hr1).trans
      (modifyState_run _ _), ?_, hm.widen_part (by omega) (fun i hi => ?_) fun i hi hout => ?_⟩
    · rw [Nat.max_eq_right (by omega), hstep.sum hs]
      exact hstep.setSum _
    · rw [sumByte, if_pos (by omega), if_neg (by omega)]
      rfl
    · rw [sumByte]
      by_cases hi' : i < (r.st.sum l k).sl.toNat
      · rw [if_pos (by omega), if_pos hi']
        exact BitVec.xor_zero
      · rw [if_neg (by omega)]
  · have hsame := Rewritten.refl (dst := sumAddr r.st l k) (n := r.st.sumStride.toNat) p.wf
    refine ⟨r, r.st.mem, (bind_run_ok (getState_run r)).trans (congrFun (if_neg hgrow) r), ?_,
      hsame.trans hsame fun b _ => ?_⟩
    · rw [Nat.max_eq_left (by omega), BitVec.ofNat_toNat, BitVec.setWidth_eq]
      exact (MemStep.refl r).foldStep l k
    · rw [Nat.max_eq_left (by omega)]
      exact (sumByte_same rfl).symm

/-- What the original of element `e` adds to byte `b` of a sum of index `k` (spec R420, R421). -/
def addedByte (t : Tables) (s : State) (k : Nat) (e : Int) (b : Nat) : Byte :=
  if b < (descAt s e).2 then gfMul s.params (weight t s e k) (s.mem.read ((descAt s e).1 + b)) else 0

/-- Past its end an original adds nothing. -/
theorem addedByte_of_le {t : Tables} {b : Nat} (h : (descAt s e).2 ≤ b) : addedByte t s k e b = 0 := if_neg (Nat.not_lt.2 h)

/-- The sum's new length, and its buffer, once element `e` has been folded. -/
abbrev FoldsElement (t : Tables) (l k : Nat) (e : Int) (r : Run) (m : Memory) : Prop :=
  Rewritten r.st.mem m (sumAddr r.st l k) r.st.sumStride.toNat
    (sumByte r.st.mem (sumAddr r.st l k) (r.st.sum l k).sl.toNat (max (r.st.sum l k).sl.toNat (descAt r.st e).2)
      (addedByte t r.st k e))

/-- The sum's counters once an original of `n` bytes has been added. -/
def grownCtr (c : SumCtr) (n : Nat) : SumCtr := { c with sl := BitVec.ofNat 32 (max c.sl.toNat n) }

/-- The descriptor of an element that the host has kept, as memory holds it. -/
def keptDesc (s : State) (e : Int) : Desc := { addr := (descAt s e).1, len := (descAt s e).2, isOpen := false }

theorem foldOriginal_step (t : Tables) (p : PlainRun r) (hs : SumInBuffer r.st l k) (he : FoldFits r.st l k e) :
    ∃ r' m, foldOriginal t l k e (keptDesc r.st e) r = .ok () r' ∧
      FoldStep l k r r' m (grownCtr (r.st.sum l k) (descAt r.st e).2) ∧ FoldsElement t l k e r m := by
  have hends := hs.ends
  have hfits := he.fits
  have horig := he.apart.ends
  obtain ⟨r1, m1, hr1, hs1, hm1⟩ := growSum_step p hs he.fits
  have p1 : PlainRun r1 := hs1.plain p hm1.1
  obtain ⟨r2, m2, hr2, hs2, hm2⟩ := accumulate_rewrites (f := gfMul r.st.params (weight t r.st e k)) p1.quiet p1.wf
    (by omega) horig (he.apart.no_overlap (by omega)) (p1.closed_range (by omega)) (p1.closed_range horig)
  have hsum : FoldStep l k r r2 m2 (grownCtr (r.st.sum l k) (descAt r.st e).2) := by
    have hstep := hs1.trans (hs2.foldStep l k)
    rwa [hs1.sum hs] at hstep
  rw [hs1.mem] at hm2
  have hwide : Rewritten m1 m2 (sumAddr r.st l k) r.st.sumStride.toNat
      (fun b => m1.read (sumAddr r.st l k + b) ^^^ addedByte t r.st k e b) := by
    refine hm2.widen hfits (fun b hb => ?_) fun b hb _ => ?_
    · rw [addedByte, if_pos hb, he.apart.read_original hm1 hb]
    · rw [addedByte, if_neg (by omega)]
      exact BitVec.xor_zero
  refine ⟨r2, m2, ?_, hsum, hm1.trans hwide fun b hb => ?_⟩
  · exact (bind_run_ok (getState_run r)).trans <| (bind_run_ok hr1).trans <| (bind_run_ok hr2).trans rfl
  · rw [hm1.read_inside hb]
    exact sumByte_add fun hb' => addedByte_of_le (by omega)

theorem setNe_run {x : Int} (h1 : -2 ^ 31 ≤ x) (h2 : x < 2 ^ 31) (r : Run) :
    setNe l k x r = .ok () { r with st := r.st.setSum l k { r.st.sum l k with ne := BitVec.ofInt 32 x } } :=
  bind_run_ok (s32Value_run ⟨h1, h2⟩ r)

theorem setSe_run {x : Int} (h1 : -2 ^ 31 ≤ x) (h2 : x < 2 ^ 31) (r : Run) :
    setSe l k x r = .ok () { r with st := r.st.setSum l k { r.st.sum l k with se := BitVec.ofInt 32 x } } :=
  bind_run_ok (s32Value_run ⟨h1, h2⟩ r)

/-- Setting NE to a value that s32 holds. -/
theorem FoldStep.setNe {x : Int} (h : FoldStep l k r r' m c) (hs : SumInBuffer r.st l k) (h1 : -2 ^ 31 ≤ x) (h2 : x < 2 ^ 31) :
    ∃ r'', setNe l k x r' = .ok () r'' ∧ FoldStep l k r r'' m { c with ne := BitVec.ofInt 32 x } :=
  ⟨_, by rw [setNe_run h1 h2, h.sum hs], h.setSum _⟩

/-- Setting SE to a value that s32 holds. -/
theorem FoldStep.setSe {x : Int} (h : FoldStep l k r r' m c) (hs : SumInBuffer r.st l k) (h1 : -2 ^ 31 ≤ x) (h2 : x < 2 ^ 31) :
    ∃ r'', setSe l k x r' = .ok () r'' ∧ FoldStep l k r r'' m { c with se := BitVec.ofInt 32 x } :=
  ⟨_, by rw [setSe_run h1 h2, h.sum hs], h.setSum _⟩

theorem noteFolded_cases (e : Int) (a n : Nat) (s : State) : ∃ f, noteFolded e a n s = { s with folded := f } := by
  unfold noteFolded
  split
  · exact ⟨s.folded, rfl⟩
  · exact ⟨_, rfl⟩

theorem FoldStep.noteFolded (h : FoldStep l k r r' m c) (e : Int) (a n : Nat) :
    FoldStep l k r { r' with st := noteFolded e a n r'.st } m c := by
  obtain ⟨f, hst⟩ := h.st
  obtain ⟨f', hnote⟩ := noteFolded_cases e a n r'.st
  refine ⟨⟨f', ?_⟩, h.area, fun q => ⟨?_, (h.quiet q).opens⟩⟩
  · rw [hnote, hst]
    rfl
  · rw [hnote]
    exact (h.quiet q).raced

/-- Noting the original and moving NE on (spec R422). -/
theorem FoldStep.next (h : FoldStep l k r r' m c) (hs : SumInBuffer r.st l k) (h1 : 0 ≤ e) (h2 : e < 2 ^ 30) (a n : Nat) :
    ∃ r'', (do modifyState (Machine.noteFolded e a n); Machine.setNe l k (e + 8) : Cmd Unit) r' = .ok () r'' ∧
      FoldStep l k r r'' m { c with ne := BitVec.ofInt 32 (e + 8) } := by
  obtain ⟨r2, hr2, hs2⟩ := (h.noteFolded e a n).setNe hs (x := e + 8) (by omega) (by omega)
  exact ⟨r2, (bind_run_ok (modifyState_run _ _)).trans hr2, hs2⟩

/-- The sum's counters once element `e` with an original of `n` bytes has been folded (spec R422). -/
def foldedCtr (c : SumCtr) (e : Int) (n : Nat) : SumCtr := { grownCtr c n with ne := BitVec.ofInt 32 (e + 8) }

theorem foldFitting_step (t : Tables) (p : PlainRun r) (hs : SumInBuffer r.st l k) (he : FoldFits r.st l k e) :
    ∃ r' m, foldFitting t l k e (keptDesc r.st e) r = .ok () r' ∧
      FoldStep l k r r' m (foldedCtr (r.st.sum l k) e (descAt r.st e).2) ∧ FoldsElement t l k e r m := by
  have hwraps : wraps (keptDesc r.st e).addr (keptDesc r.st e).len = false := decide_eq_false (Nat.not_lt.2 he.apart.ends)
  by_cases hlen : (descAt r.st e).2 > 0
  · obtain ⟨r1, m, hr1, hs1, hm⟩ := foldOriginal_step t p hs he
    obtain ⟨r2, hr2, hs2⟩ := hs1.next hs he.low he.high (keptDesc r.st e).addr (keptDesc r.st e).len
    refine ⟨r2, m, ?_, hs2, hm⟩
    refine (congrFun (if_pos hlen) r).trans ?_
    rw [hwraps]
    exact (bind_run_ok (fatalIf_false _ _)).trans ((bind_run_ok hr1).trans hr2)
  · have hempty : (descAt r.st e).2 = 0 := Nat.eq_zero_of_not_pos hlen
    have hsame := Rewritten.refl (dst := sumAddr r.st l k) (n := r.st.sumStride.toNat) p.wf
    obtain ⟨r2, hr2, hs2⟩ :=
      ((MemStep.refl r).foldStep l k).next hs he.low he.high (keptDesc r.st e).addr (keptDesc r.st e).len
    refine ⟨r2, r.st.mem, (congrFun (if_neg hlen) r).trans hr2, ?_, hsame.trans hsame fun b _ => ?_⟩
    · rwa [foldedCtr, grownCtr, hempty, Nat.max_zero, BitVec.ofNat_toNat, BitVec.setWidth_eq]
    · rw [hempty, Nat.max_zero]
      exact (sumByte_same (addedByte_of_le (by omega))).symm

/-- The fold of an element reads its descriptor and adds its original to the sum (spec R422). -/
theorem foldElement_step (t : Tables) (p : PlainRun r) (hs : SumInBuffer r.st l k) (he : FoldFits r.st l k e) :
    ∃ r' m, foldElement t l k e r = .ok true r' ∧
      FoldStep l k r r' m (foldedCtr (r.st.sum l k) e (descAt r.st e).2) ∧ FoldsElement t l k e r m := by
  obtain ⟨r1, hr1, hs1⟩ := readDesc_step (e := e) p.quiet p.kept fun i _ => p.closed _ (mod_addrSpace_lt _)
  have hst : r1.st = r.st := hs1.st
  have p1 : PlainRun r1 := p.step hs1 p.wf
  obtain ⟨r2, m, hr2, hs2, hm⟩ := foldFitting_step t p1 (by rw [hst]; exact hs) (by rw [hst]; exact he)
  rw [hst] at hr2 hs2
  refine ⟨r2, m, ?_, (hs1.foldStep l k).trans hs2, by rwa [FoldsElement, hst] at hm⟩
  rw [foldElement_fits hr1 (by rw [hst]; exact he.fits)]
  exact (bind_run_ok hr2).trans rfl

/-! ## The fold of a lane (spec R420, R422) -/

/-- `fold`'s loop over `n` elements that fit. -/
theorem foldLoop_step (t : Tables) {n : Nat} (p : PlainRun r) (hs : SumInBuffer r.st l k) (hne : (r.st.sum l k).ne.toInt = e)
    (he : ∀ i : Nat, i < n → FoldFits r.st l k (e + 8 * i)) :
    ∃ r' m c, foldLoop t l k n e r = .ok () r' ∧ FoldStep l k r r' m c ∧
      c.ne.toInt = e + 8 * n ∧ c.se = (r.st.sum l k).se ∧
      c.sl.toNat = max (r.st.sum l k).sl.toNat (foldedLength r.st n e) ∧ c.sl.toNat ≤ r.st.sumStride.toNat ∧
      Rewritten r.st.mem m (sumAddr r.st l k) r.st.sumStride.toNat
        (sumByte r.st.mem (sumAddr r.st l k) (r.st.sum l k).sl.toNat c.sl.toNat fun b => foldedByte t r.st k b n e) := by
  induction n generalizing r e with
  | zero =>
    have hsame := Rewritten.refl (dst := sumAddr r.st l k) (n := r.st.sumStride.toNat) p.wf
    refine ⟨r, r.st.mem, r.st.sum l k, rfl, (MemStep.refl r).foldStep l k, by simpa using hne, rfl, by simp [foldedLength],
      hs.within, hsame.trans hsame fun b _ => (sumByte_same rfl).symm⟩
  | succ n ih =>
    obtain ⟨h0, hrest⟩ := strided_cons he
    obtain ⟨r1, m1, hr1, hs1, hm1⟩ := foldElement_step t p hs h0
    have hfits := h0.fits
    have hwithin := hs.within
    have hstride := r.st.sumStride.isLt
    have hsl1 : (foldedCtr (r.st.sum l k) e (descAt r.st e).2).sl.toNat =
        max (r.st.sum l k).sl.toNat (descAt r.st e).2 := by
      rw [foldedCtr, grownCtr, BitVec.toNat_ofNat, Nat.mod_eq_of_lt (by omega)]
    have hne1 : (foldedCtr (r.st.sum l k) e (descAt r.st e).2).ne.toInt = e + 8 := by
      have hlow := h0.low
      have hhigh := h0.high
      exact BitVec.toInt_ofInt_eq_self (by decide) (by omega) (by omega)
    have hsum1 := hs1.sum hs
    obtain ⟨haddr, hstr⟩ := hs1.buffer
    obtain ⟨r2, m2, c, hr2, hs2, hne2, hse2, hsl2, hle2, hm2⟩ := ih (hs1.plain p hm1.1)
      (hs1.sumInBuffer hs (by rw [hsl1]; omega)) (e := e + 8) (by rw [hsum1, hne1])
      fun i hi => hs1.foldFits hm1 (hrest i hi)
    rw [hsum1, hsl1, hs1.foldedLength hm1 hrest] at hsl2
    rw [hsum1] at hse2
    rw [hstr] at hle2
    rw [haddr, hstr, hsum1, hsl1, hs1.mem] at hm2
    refine ⟨r2, m2, c, ?_, hs1.trans hs2, ?_, ?_, ?_, hle2, hm1.trans hm2 fun b hb => ?_⟩
    · exact (bind_run_ok hr1).trans ((congrFun (if_pos rfl) r1).trans hr2)
    · rw [hne2]
      push_cast
      omega
    · rw [hse2]
      rfl
    · rw [hsl2, foldedLength, Nat.max_assoc]
    · simp only [hs1.foldedByte hm1 t hrest]
      refine sumByte_trans (hm1.read_inside hb) (Nat.le_max_left _ _) (by omega) fun hb' => addedByte_of_le (by omega)

/-- `fold` over plain memory does what the rules say, and changes no byte outside the sum's buffer (spec R420, R422). -/
theorem fold_step (t : Tables) {stop : Int} (p : PlainRun r) (hs : SumInBuffer r.st l k) (hstop : stop ≤ 2 ^ 30)
    (he : ∀ e, (r.st.sum l k).ne.toInt ≤ e → e < stop → FoldFits r.st l k e) :
    ∃ r' m c, fold t l k stop r = .ok () r' ∧ FoldStep l k r r' m c ∧ m.wf = true ∧
      FoldedTo t r.st m (sumAddr r.st l k) k stop (r.st.sum l k) c ∧ c.sl.toNat ≤ r.st.sumStride.toNat ∧
      ∀ a, ¬ (sumAddr r.st l k ≤ a ∧ a < sumAddr r.st l k + r.st.sumStride.toNat) → m.read a = r.st.mem.read a := by
  obtain ⟨r1, m, c, hr1, hs1, hne, hse, hsl, hle, hm⟩ := foldLoop_step t (n := foldRounds (r.st.sum l k).ne.toInt stop) p hs rfl
    fun i hi => he _ (by omega) (by rw [foldRounds] at hi; omega)
  have hlow : -2 ^ 31 ≤ max (r.st.sum l k).se.toInt stop := le_max_of_le_left (BitVec.le_toInt _)
  have hhigh : max (r.st.sum l k).se.toInt stop < 2 ^ 31 := max_lt BitVec.toInt_lt (by omega)
  obtain ⟨r2, hr2, hs2⟩ := hs1.setSe hs hlow hhigh
  refine ⟨r2, m, _, ?_, hs2, hm.1, ⟨hne, BitVec.toInt_ofInt_eq_self (by decide) hlow hhigh, hsl, fun b hb => ?_⟩, hle,
    fun a ha => hm.read_outside ha⟩
  · refine (bind_run_ok (getState_run r)).trans <| (bind_run_ok hr1).trans <| (bind_run_ok (getState_run r1)).trans ?_
    rw [hs1.sum hs, hse]
    exact hr2
  · rw [hm.read_inside (Nat.lt_of_lt_of_le hb hle)]
    exact if_pos hb

/-! ## What a fold leaves of the end of the buffer (spec R112) -/

/-- Opening bytes of the command's own buffers changes those bytes and draws free values. -/
theorem leaveOpen_step {a n : Nat} (hwf : r.st.mem.wf = true) (ha : a + n ≤ Config.addrSpace) :
    ∃ r' m d, leaveOpen a n r = .ok () r' ∧ r'.st = { r.st with mem := m, draws := d } ∧ m.wf = true ∧
      ∀ x, ¬ (a ≤ x ∧ x < a + n) → m.read x = r.st.mem.read x := by
  suffices h : ∀ j i r, i + j ≤ n → r.st.mem.wf = true → ∃ r' m d, forRange (fun i => do
      let v ← drawByte
      storeByte ((a + i) % Config.addrSpace) v) j i r = .ok () r' ∧ r'.st = { r.st with mem := m, draws := d } ∧
      m.wf = true ∧ ∀ x, ¬ (a ≤ x ∧ x < a + n) → m.read x = r.st.mem.read x from h n 0 r (by omega) hwf
  intro j
  induction j with
  | zero => exact fun i r _ hwf => ⟨r, r.st.mem, r.st.draws, rfl, rfl, hwf, fun _ _ => rfl⟩
  | succ j ih =>
    intro i r hi hwf
    have haddr : (a + i) % Config.addrSpace = a + i := Nat.mod_eq_of_lt (by omega)
    have hwf1 : (r.st.mem.write ((a + i) % Config.addrSpace) (Config.freeByte r.st.draws)).wf = true :=
      Memory.wf_write hwf (mod_addrSpace_lt _)
    obtain ⟨r', m, d, hr', hst, hm, hout⟩ := ih (i + 1)
      { r with
        st := { r.st with
          mem := r.st.mem.write ((a + i) % Config.addrSpace) (Config.freeByte r.st.draws), draws := r.st.draws + 1 }
        writes := (a + i) % Config.addrSpace :: r.writes } (by omega) hwf1
    refine ⟨r', m, d, hr', hst, hm, fun x hx => ?_⟩
    rw [hout x hx, Memory.read_write hwf, haddr, if_neg (by omega)]

/-- Sums that mean something keep their bytes below SL. -/
theorem leaveSum_step (hs : SumInBuffer r.st l k) (hwf : r.st.mem.wf = true) (hloose : sumsLoose r.st = false) :
    ∃ r' m d, leaveSum l k r = .ok () r' ∧ r'.st = { r.st with mem := m, draws := d } ∧ m.wf = true ∧
      ∀ x, ¬ (sumAddr r.st l k + (r.st.sum l k).sl.toNat ≤ x ∧ x < sumAddr r.st l k + r.st.sumStride.toNat) →
        m.read x = r.st.mem.read x := by
  have hends := hs.ends
  have hwithin := hs.within
  obtain ⟨r', m, d, hr', hst, hm, hout⟩ := leaveOpen_step (a := sumAddr r.st l k + (r.st.sum l k).sl.toNat)
    (n := r.st.sumStride.toNat - (r.st.sum l k).sl.toNat) hwf (by omega)
  refine ⟨r', m, d, (bind_run_ok (getState_run r)).trans ((congrFun (if_neg (by simp [hloose])) r).trans hr'), hst, hm,
    fun x hx => hout x (by omega)⟩

end Folding

/-! ## SUMS_GET (spec R431) -/

section SumsGet

variable {s : State} {l k : Nat}

/-- A record of folded originals that still holds is left as it is (spec R624). -/
theorem recheckFolded_of_kept (h : ∀ x ∈ s.folded, foldedChanged s x = false) : recheckFolded s = s := by
  have hany : s.folded.any (foldedChanged s) = false := by simpa using h
  have hsame : (s.sumsTainted || s.folded.any (foldedChanged s)) = s.sumsTainted := by rw [hany, Bool.or_false]
  rw [recheckFolded, hsame]

/-- What SUMS_GET and WIN_SHIFT fold from: nothing has been broken, so only the table's check is noted. -/
theorem sumsRun_st (h : SumsTrusted s) : (sumsRun s).st = { s with pending := [] } := by
  obtain ⟨-, -, htable, -, hfolded⟩ := h
  have hkept : ∀ x ∈ ({ s with pending := [] } : State).folded, foldedChanged { s with pending := [] } x = false := hfolded
  exact (congrArg recheckFolded (recheckTable_of_trusted htable)).trans (recheckFolded_of_kept hkept)

theorem originalRegions_noPending (s : State) (n e : Nat) :
    originalRegions { s with pending := [] } n e = originalRegions s n e := by
  induction n generalizing e with
  | zero => rfl
  | succ n ih =>
    rw [originalRegions, originalRegions, ih]
    rfl

theorem foldedByte_noPending (t : Tables) (s : State) (k b n : Nat) (e : Int) :
    foldedByte t { s with pending := [] } k b n e = foldedByte t s k b n e := by
  induction n generalizing e with
  | zero => rfl
  | succ n ih =>
    rw [foldedByte, foldedByte, ih]
    rfl

theorem foldedLength_noPending (s : State) (n : Nat) (e : Int) :
    foldedLength { s with pending := [] } n e = foldedLength s n e := by
  induction n generalizing e with
  | zero => rfl
  | succ n ih =>
    rw [foldedLength, foldedLength, ih]
    rfl

/-- No byte of the sum buffers lies in a structure around them that ends inside the data space (spec R626). -/
theorem SumsApart.outside (h : SumsApart s) {x : Region} {a : Nat} (hx : x ∈ aroundSums s)
    (hend : x.1 + x.2 ≤ Config.addrSpace) (ha : x.1 ≤ a ∧ a < x.1 + x.2) :
    ¬ (s.sumBase.toNat ≤ a ∧ a < s.sumBase.toNat + 24 * s.sumStride.toNat) := by
  obtain ⟨-, hfree⟩ := h
  intro hin
  have hb := hfree (a - s.sumBase.toNat) (by omega)
  rw [Nat.add_sub_cancel' hin.1, inRegions, List.any_eq_false] at hb
  exact hb x hx ((inRegion_iff hend (by omega)).2 ha)

/-- An element of the window whose original fits can be folded into any sum (spec R423, R424, R626). -/
theorem SumsApart.foldFits {e : Int} (h : SumsApart s) (hw : OriginalsFit s) (hl : l < 8) (hk : k < 3)
    (hcount : s.winCount.toNat ≤ 2 ^ 30) (hlow : 0 ≤ e) (hhigh : e < s.winCount.toNat) : FoldFits s l k e := by
  obtain ⟨j, rfl⟩ := Int.eq_ofNat_of_zero_le hlow
  have hj : j < s.winCount.toNat := by omega
  obtain ⟨htable, horiginals⟩ := hw
  obtain ⟨hfits, hends⟩ := horiginals j hj
  have hends : (descAt s j).1 + (descAt s j).2 ≤ Config.addrSpace := hends
  have hsum := sumAddr_end (s := s) hl hk
  have hbase : s.sumBase.toNat ≤ sumAddr s l k := Nat.le_add_right _ _
  have haddr : descAddr s j = s.descBase.toNat + 16 * j := descAddr_eq (by simp only [Config.addrSpace]; omega)
  have hmem : descAt s j ∈ aroundSums s := by
    have := descAt_mem_originalRegions (s := s) (e := 0) hj
    rw [Nat.zero_add] at this
    simp [aroundSums, this]
  refine ⟨⟨fun i hi hin => ?_, hends, fun i hi hin => ?_⟩, hfits, hlow, by omega⟩
  · rw [haddr, Nat.mod_eq_of_lt (by simp only [Config.addrSpace]; omega)] at hin
    exact h.outside (x := descRegion s) (a := s.descBase.toNat + 16 * j + i) (List.mem_cons_self ..) htable
      ⟨by simp only [descRegion]; omega, by simp only [descRegion]; omega⟩ ⟨by omega, by omega⟩
  · exact h.outside (a := (descAt s j).1 + i) hmem hends ⟨by omega, by omega⟩ ⟨by omega, by omega⟩

/-- Over plain memory, with sums apart and their meaning kept, a command that folds runs over plain memory. -/
theorem sumsRun_plain (h : SumsTrusted s) (ha : SumsApart s) : PlainRun (sumsRun s) := by
  have hst := sumsRun_st h
  obtain ⟨hwf, hport, ⟨hraced, hkept, -⟩, htainted, -⟩ := h
  have harea : (sumsRun s).area = sumsArea { s with pending := [] } := congrArg sumsArea hst
  refine ⟨⟨by rw [hst]; exact hraced, rfl⟩, by rw [hst]; exact hwf, by rw [hst]; exact hkept, fun a hlt => ⟨?_, ?_⟩⟩
  · rw [hst]
    simp [PlainAt, hport]
  · obtain ⟨hends, hfree⟩ := ha
    have hloose : sumsLoose { s with pending := [] } = false := by simp [sumsLoose, htainted, hkept]
    rw [harea, sumsArea, hloose, Bool.false_or, Bool.and_eq_false_iff, or_iff_not_imp_left, Bool.not_eq_false,
      inRegion_iff (by simp only [sumRegion, Config.lanes, Config.sumCount, Config.addrSpace]; omega) hlt]
    intro hin
    simp only [sumRegion, Config.lanes, Config.sumCount] at hin
    have hb := hfree (a - s.sumBase.toNat) (by omega)
    rw [Nat.add_sub_cancel' hin.1] at hb
    rw [aroundSums, originalRegions_noPending]
    exact hb

/-! ### The counters as words -/

/-- A word that holds a non-negative value of s32 holds its sign extension too. -/
theorem signExtend_eq_of_toInt {x : BitVec 32} {y : Word} (h : x.toInt = y.toNat) : x.signExtend 64 = y := by
  have hx := BitVec.toInt_lt (x := x)
  refine BitVec.eq_of_toInt_eq ?_
  rw [BitVec.toInt_signExtend_of_le (by decide), h, BitVec.toInt_eq_toNat_of_lt (by omega)]

/-- The counters that hold the values `ne`, `sl` and `stop`. -/
theorem sumCtr_eq {c : SumCtr} {ne : Int} {sl : Nat} {stop : Word} (hne : c.ne.toInt = ne) (hsl : c.sl.toNat = sl)
    (hse : c.se.toInt = stop.toNat) : c = { ne := BitVec.ofInt 32 ne, sl := BitVec.ofNat 32 sl, se := stop.setWidth 32 } := by
  have hstop : c.se = stop.setWidth 32 := by
    rw [← BitVec.ofInt_toInt (x := c.se), hse, BitVec.ofInt_natCast, BitVec.ofNat_toNat]
  rw [← hne, ← hsl, ← hstop, BitVec.ofInt_toInt, BitVec.ofNat_toNat, BitVec.setWidth_eq]

/-- The results of SUMS_GET for counters that hold the values `ne`, `sl` and `stop` (spec R431). -/
theorem setRes_sumCtr {c : SumCtr} {ne : Int} {sl : Nat} {stop : Word} (t : State) (base : Word) (hne : c.ne.toInt = ne)
    (hsl : c.sl.toNat = sl) (hse : c.se.toInt = stop.toNat) :
    t.setRes base (c.sl.setWidth 64) (c.ne.signExtend 64) (c.se.signExtend 64) =
      { t with res0 := base, res1 := BitVec.ofNat 64 sl, res2 := BitVec.ofInt 64 ne, res3 := stop } := by
  have hlen : c.sl.setWidth 64 = BitVec.ofNat 64 sl := by rw [← hsl, BitVec.ofNat_toNat]
  have hnext : c.ne.signExtend 64 = BitVec.ofInt 64 ne := congrArg (BitVec.ofInt 64) hne
  rw [State.setRes, hlen, hnext, signExtend_eq_of_toInt hse]

/-! ### The command -/

/-- The fold of SUMS_GET and the bytes that it leaves: the memory, the counters, and where they come from. -/
theorem sumsGetRest_step (t : Tables) {r : Run} {stop : Nat} (p : PlainRun r) (hs : SumInBuffer r.st l k) (hstop : stop ≤ 2 ^ 30)
    (htainted : r.st.sumsTainted = false) (he : ∀ e, (r.st.sum l k).ne.toInt ≤ e → e < stop → FoldFits r.st l k e) :
    ∃ r' m f d c, sumsGetRest t l k stop r = .ok () r' ∧
      r'.st = ({ r.st.folding l k m f c with draws := d } : State).setRes (BitVec.ofNat 64 (sumAddr r.st l k))
        (c.sl.setWidth 64) (c.ne.signExtend 64) (c.se.signExtend 64) ∧
      m.wf = true ∧ FoldedTo t r.st m (sumAddr r.st l k) k stop (r.st.sum l k) c ∧
      ∀ a, ¬ (sumAddr r.st l k ≤ a ∧ a < sumAddr r.st l k + r.st.sumStride.toNat) → m.read a = r.st.mem.read a := by
  obtain ⟨r1, m1, c, hr1, hs1, hm1, hfolded, hle, hout1⟩ := fold_step t p hs (by exact_mod_cast hstop) he
  have hs' := hs1.sumInBuffer hs hle
  obtain ⟨haddr, hstride⟩ := hs1.buffer
  have hsum := hs1.sum hs
  obtain ⟨f, hst1⟩ := hs1.st
  have hloose : sumsLoose r1.st = false := by
    have hkept : r.st.tableTainted = false := p.kept
    rw [hst1]
    simp [sumsLoose, State.folding, htainted, hkept]
  obtain ⟨r2, m2, d, hr2, hst2, hm2, hout2⟩ := leaveSum_step hs' (by rw [hs1.mem]; exact hm1) hloose
  rw [haddr, hstride, hsum, hs1.mem] at hout2
  have hst : r2.st = { r.st.folding l k m2 f c with draws := d } := by rw [hst2, hst1]; rfl
  have hsum2 : ({ r.st.folding l k m2 f c with draws := d } : State).sum l k = c :=
    State.sum_folding (m := m2) (f := f) hs.lane hs.index
  refine ⟨_, m2, f, d, c, (bind_run_ok hr1).trans ((bind_run_ok hr2).trans (modifyState_run _ _)), ?_, hm2, ?_, fun a ha => ?_⟩
  · simp only [hst, hsum2]
    rfl
  · obtain ⟨hne, hse, hsl, hbytes⟩ := hfolded
    exact ⟨hne, hse, hsl, fun b hb => (hout2 _ (by omega)).trans (hbytes b hb)⟩
  · exact (hout2 a (by omega)).trans (hout1 a ha)

/-- Settles O50, by the fold's loop over the lane's elements: each adds its original to the bytes the ones before it left, and the
buffer shares no byte with what the next ones read. -/
theorem sumsGetFolds : Obligations.SumsGetFolds := by
  intro s k lane htrust hfit hapart hk hvalid hstop hcount c hse hne hsl n len base
  have hpass : SumsGetPasses s k lane := ⟨fun h => by simp [h] at hk, hvalid, hstop, hse, hapart.1⟩
  have hst := sumsRun_st htrust
  have htainted : s.sumsTainted = false := by
    obtain ⟨-, -, -, htainted, -⟩ := htrust
    exact htainted
  have hbuffer : SumInBuffer { s with pending := [] } lane.toNat k.toNat :=
    ⟨lane.isLt, hk, (sumAddr_end (s := s) lane.isLt hk).trans hapart.1, hsl⟩
  have helements : ∀ e, c.ne.toInt ≤ e → e < s.arg0.toNat → FoldFits { s with pending := [] } lane.toNat k.toNat e := by
    intro e hlow hhigh
    obtain ⟨⟨hdesc, hends, horig⟩, hfits, hnonneg, hbound⟩ :=
      hapart.foldFits hfit lane.isLt hk hcount (hne.trans hlow) (by omega)
    exact ⟨⟨hdesc, hends, horig⟩, hfits, hnonneg, hbound⟩
  obtain ⟨r, m, f, d, c', hr, hr', hm, ⟨hne', hse', hsl', hbytes⟩, hout⟩ :=
    sumsGetRest_step Config.tables (sumsRun_plain htrust hapart) (by rw [hst]; exact hbuffer) (hstop.trans hcount)
      (by rw [hst]; exact htainted) (by rw [hst]; exact helements)
  rw [hst] at hr' hne' hse' hsl' hbytes hout
  have hner : c'.ne.toInt = c.ne.toInt + 8 * n := hne'
  have hser : c'.se.toInt = s.arg0.toNat := hse'.trans (max_eq_right hse)
  have hlen : c'.sl.toNat = len := hsl'.trans (by rw [foldedLength_noPending]; rfl)
  refine ⟨m, f, d, ?_, hm, fun b hb => ?_, hout⟩
  · rw [exec_eq, commandBody, conclude_ok ((sumsGetBody_run hpass _).trans hr), hr', setRes_sumCtr _ _ hner hlen hser,
      ← sumCtr_eq hner hlen hser]
    rfl
  · rw [← foldedByte_noPending]
    exact hbytes b (by rw [hlen]; exact hb)

end SumsGet

end Sys2Proof.Machine
end

section
/-! SUPPORT. Command words field by field, the rows of the opcode map (spec R150 to R163), and what decoding and encoding make
of each other. -/

namespace Sys2Proof

/-! ## A word by its fields (spec R150) -/

/-- RSV, bits 7:0. -/
def rsvOf (w : CmdWord) : Byte := w.extractLsb' 0 8

/-- The four bytes of a word are all of it. -/
theorem cmdWord_ext {v w : CmdWord} (hop : opcodeOf v = opcodeOf w) (himm : immOf v = immOf w) (hsel : selOf v = selOf w)
    (hrsv : rsvOf v = rsvOf w) : v = w := by
  simp only [opcodeOf, immOf, selOf, rsvOf, BitVec.toNat_inj.symm, BitVec.extractLsb'_toNat, Nat.shiftRight_eq_div_pow]
    at hop himm hsel hrsv
  refine BitVec.eq_of_toNat_eq ?_
  omega

section Fields

variable (v w : CmdWord)

@[simp] theorem opcodeOf_and : opcodeOf (v &&& w) = opcodeOf v &&& opcodeOf w := BitVec.extractLsb'_and

@[simp] theorem immOf_and : immOf (v &&& w) = immOf v &&& immOf w := BitVec.extractLsb'_and

@[simp] theorem selOf_and : selOf (v &&& w) = selOf v &&& selOf w := BitVec.extractLsb'_and

@[simp] theorem rsvOf_and : rsvOf (v &&& w) = rsvOf v &&& rsvOf w := BitVec.extractLsb'_and

@[simp] theorem rsvOf_commandWord (op : BitVec 8) (imm sel : Byte) : rsvOf (commandWord op imm sel) = 0#8 :=
  rsv_commandWord op imm sel

/-- The fields inside SEL (spec R152). -/
theorem bitsetOf_eq : bitsetOf w = (selOf w).extractLsb' 0 4 := by
  ext i hi
  have hin : i < 8 := by omega
  simp [bitsetOf, selOf, hin]

theorem nibbleOf_eq : nibbleOf w = (selOf w).extractLsb' 0 4 := bitsetOf_eq w

theorem hiOf_eq : hiOf w = (selOf w).getLsbD 4 := by simp [hiOf, selOf]

theorem laneOf_eq : laneOf w = (selOf w).extractLsb' 0 3 := by
  ext i hi
  have hin : i < 8 := by omega
  simp [laneOf, selOf, hin]

theorem sumIndexOf_eq : sumIndexOf w = (selOf w).extractLsb' 4 2 := by
  ext i hi
  have hin : 4 + i < 8 := by omega
  simp [sumIndexOf, selOf, hin, ← Nat.add_assoc]

theorem copyOf_eq : copyOf w = (selOf w).getLsbD 0 := by simp [copyOf, selOf]

end Fields

/-! ## The must-be-zero bits (spec R151, R161) -/

/-- Every class compares the whole OPCODE. -/
@[simp] theorem opcodeOf_mask (c : FieldClass) : opcodeOf c.mask = 0xFF#8 := by cases c <;> rfl

/-- Every class has the whole RSV byte among its must-be-zero bits. -/
@[simp] theorem rsvOf_mask (c : FieldClass) : rsvOf c.mask = 0xFF#8 := by cases c <;> rfl

/-- The must-be-zero bits of IMM8. -/
def FieldClass.immMask : FieldClass → Byte
  | .ci | .cis | .cn => 0x00#8
  | .c0 | .cb | .cl | .cf => 0xFF#8

/-- The must-be-zero bits of SEL. -/
def FieldClass.selMask : FieldClass → Byte
  | .cis => 0x00#8
  | .cb => 0xF0#8
  | .cn => 0xE0#8
  | .cl => 0xC8#8
  | .cf => 0xFE#8
  | .c0 | .ci => 0xFF#8

@[simp] theorem immOf_mask (c : FieldClass) : immOf c.mask = c.immMask := by cases c <;> rfl

@[simp] theorem selOf_mask (c : FieldClass) : selOf c.mask = c.selMask := by cases c <;> rfl

variable {w : CmdWord} {op : BitVec 8} {imm sel : Byte} {c : FieldClass} {i : Instr} {row : OpcodeRow}

/-- What the decoder's comparison under a class's mask says of the fields. -/
theorem and_mask_eq_iff : w &&& c.mask = commandWord op 0#8 0#8 ↔
    opcodeOf w = op ∧ immOf w &&& c.immMask = 0#8 ∧ selOf w &&& c.selMask = 0#8 ∧ rsvOf w = 0#8 := by
  have hall : ∀ x : Byte, x &&& 0xFF#8 = x := fun x => BitVec.and_allOnes
  constructor
  · intro h
    exact ⟨by simpa [hall] using congrArg opcodeOf h, by simpa using congrArg immOf h, by simpa using congrArg selOf h,
      by simpa [hall] using congrArg rsvOf h⟩
  · rintro ⟨hop, himm, hsel, hrsv⟩
    exact cmdWord_ext (by simpa [hall] using hop) (by simpa using himm) (by simpa using hsel) (by simpa [hall] using hrsv)

theorem commandWord_zero (op : BitVec 8) : commandWord op 0#8 0#8 = op ++ 0#24 :=
  (BitVec.append_assoc ..).trans (BitVec.append_assoc ..)

/-! ## The rows of the opcode map (spec R160) -/

/-- The row that the decoder finds for an OPCODE. -/
def rowOf (op : BitVec 8) : Option OpcodeRow := opcodeMap.find? (fun row => row.opcode == op)

theorem opcodes_eq : opcodeMap.map OpcodeRow.opcode = [0x00,
  0x10, 0x11, 0x12, 0x13, 0x14, 0x15, 0x16, 0x17, 0x18, 0x19, 0x1A,
  0x20, 0x21, 0x22, 0x23, 0x24, 0x25, 0x26, 0x27, 0x30, 0x31, 0x32, 0x33, 0x40, 0x41, 0x42, 0x48, 0x49] := rfl

theorem opcodes_nodup : (opcodeMap.map OpcodeRow.opcode).Nodup := by
  rw [opcodes_eq]
  decide

/-- No OPCODE has two rows, so the row found is the row of the map. -/
theorem rowOf_eq_some_iff : rowOf op = some row ↔ row ∈ opcodeMap ∧ row.opcode = op := by
  have found : ∀ {r}, rowOf op = some r → r ∈ opcodeMap ∧ r.opcode = op := fun h =>
    ⟨List.mem_of_find?_eq_some h, by simpa using List.find?_some h⟩
  refine ⟨found, fun ⟨hmem, hop⟩ => ?_⟩
  cases h : rowOf op with
  | none => exact absurd hop (by simpa using List.find?_eq_none.1 h row hmem)
  | some r =>
    obtain ⟨hr, hrop⟩ := found h
    exact congrArg some (List.inj_on_of_nodup_map opcodes_nodup hr hmem (hrop.trans hop.symm))

theorem rowOf_eq_none_iff : rowOf op = none ↔ op ∉ opcodeMap.map OpcodeRow.opcode := by
  simp [rowOf, List.find?_eq_none]

/-- The OPCODE values of the map are those outside the list of R162. -/
theorem not_mem_opcodes_iff (op : BitVec 8) : op ∉ opcodeMap.map OpcodeRow.opcode ↔
    (0x01 ≤ op.toNat ∧ op.toNat ≤ 0x0F) ∨ (0x1B ≤ op.toNat ∧ op.toNat ≤ 0x1F) ∨ (0x28 ≤ op.toNat ∧ op.toNat ≤ 0x2F) ∨
      (0x34 ≤ op.toNat ∧ op.toNat ≤ 0x3F) ∨ (0x43 ≤ op.toNat ∧ op.toNat ≤ 0x47) ∨
      (0x4A ≤ op.toNat ∧ op.toNat ≤ 0xFF) := by
  simp only [opcodes_eq, List.mem_cons, List.not_mem_nil, or_false, ← BitVec.toNat_inj, BitVec.reduceToNat]
  have hlt := op.isLt
  omega

/-! ## What decoding can come to (spec R163) -/

theorem decode_of_rowOf_none (h : rowOf (opcodeOf w) = none) : decode w = .error .illegalOpcode := by
  rw [rowOf] at h
  rw [decode, h]

theorem decode_of_rowOf_some (h : rowOf (opcodeOf w) = some row) : decode w =
    if w &&& row.cls.mask = commandWord row.opcode 0#8 0#8 then .ok (row.build w) else .error .reservedField := by
  rw [rowOf] at h
  rw [decode, h]

/-- A word decodes just when it has no bit under its row's mask but the OPCODE (spec R161). -/
theorem decode_of_row (hmem : row ∈ opcodeMap) (hop : opcodeOf w = row.opcode) :
    (w &&& row.cls.mask = commandWord row.opcode 0#8 0#8 → decode w = .ok (row.build w)) ∧
    (w &&& row.cls.mask ≠ commandWord row.opcode 0#8 0#8 → decode w = .error .reservedField) := by
  rw [decode_of_rowOf_some (rowOf_eq_some_iff.2 ⟨hmem, hop.symm⟩)]
  exact ⟨fun h => if_pos h, fun h => if_neg h⟩

theorem decode_ok_inv (h : decode w = .ok i) :
    ∃ row ∈ opcodeMap, w &&& row.cls.mask = commandWord row.opcode 0#8 0#8 ∧ row.build w = i := by
  cases hr : rowOf (opcodeOf w) with
  | none =>
    rw [decode_of_rowOf_none hr] at h
    cases h
  | some row =>
    rw [decode_of_rowOf_some hr] at h
    split at h
    · next hmask => exact ⟨row, (rowOf_eq_some_iff.1 hr).1, hmask, Except.ok.inj h⟩
    · cases h

theorem decode_illegal_iff : decode w = .error .illegalOpcode ↔ opcodeOf w ∉ opcodeMap.map OpcodeRow.opcode := by
  rw [← rowOf_eq_none_iff]
  refine ⟨fun h => ?_, decode_of_rowOf_none⟩
  cases hr : rowOf (opcodeOf w) with
  | none => rfl
  | some row =>
    rw [decode_of_rowOf_some hr] at h
    split at h <;> cases h

/-! ## From a command to its word and back, class by class (spec R151, R152) -/

/-- A word whose IMM8 and SEL have none of the class's must-be-zero bits decodes. -/
theorem decode_commandWord {build : CmdWord → Instr} (h : rowOf op = some ⟨op, c, build⟩) (himm : imm &&& c.immMask = 0#8)
    (hsel : sel &&& c.selMask = 0#8) : decode (commandWord op imm sel) = .ok (build (commandWord op imm sel)) := by
  obtain ⟨hmem, -⟩ := rowOf_eq_some_iff.1 h
  refine (decode_of_row hmem (opcodeOf_commandWord op imm sel)).1 (and_mask_eq_iff.2 ?_)
  simp [himm, hsel]

theorem decode_c0 (h : rowOf op = some ⟨op, .c0, fun _ => i⟩) : decode (commandWord op 0#8 0#8) = .ok i :=
  decode_commandWord h BitVec.zero_and BitVec.zero_and

theorem decode_ci {f : Byte → Instr} (h : rowOf op = some ⟨op, .ci, fun w => f (immOf w)⟩) (a : Byte) :
    decode (commandWord op a 0#8) = .ok (f a) := by
  rw [decode_commandWord h BitVec.and_zero BitVec.zero_and, immOf_commandWord]

theorem decode_cis {f : Byte → Byte → Instr} (h : rowOf op = some ⟨op, .cis, fun w => f (immOf w) (selOf w)⟩) (a b : Byte) :
    decode (commandWord op a b) = .ok (f a b) := by
  rw [decode_commandWord h BitVec.and_zero BitVec.and_zero, immOf_commandWord, selOf_commandWord]

theorem decode_cb {f : BitVec 4 → Instr} (h : rowOf op = some ⟨op, .cb, fun w => f (bitsetOf w)⟩) (b : BitVec 4) :
    decode (commandWord op 0#8 (selBitset b)) = .ok (f b) := by
  have hzero : ∀ b : BitVec 4, selBitset b &&& 0xF0#8 = 0#8 := by decide
  have hfield : ∀ b : BitVec 4, (selBitset b).extractLsb' 0 4 = b := by decide
  rw [decode_commandWord h BitVec.zero_and (hzero b), bitsetOf_eq, selOf_commandWord, hfield]

theorem decode_cn {f : Byte → Bool → BitVec 4 → Instr}
    (h : rowOf op = some ⟨op, .cn, fun w => f (immOf w) (hiOf w) (nibbleOf w)⟩) (a : Byte) (hi : Bool) (j : BitVec 4) :
    decode (commandWord op a (0#3 ++ BitVec.ofBool hi ++ j)) = .ok (f a hi j) := by
  have hzero : ∀ (hi : Bool) (j : BitVec 4), 0#3 ++ BitVec.ofBool hi ++ j &&& 0xE0#8 = 0#8 := by decide
  have hfields : ∀ (hi : Bool) (j : BitVec 4), (0#3 ++ BitVec.ofBool hi ++ j).getLsbD 4 = hi ∧
      (0#3 ++ BitVec.ofBool hi ++ j).extractLsb' 0 4 = j := by decide
  obtain ⟨hhi, hj⟩ := hfields hi j
  rw [decode_commandWord h BitVec.and_zero (hzero hi j), hiOf_eq, nibbleOf_eq, immOf_commandWord, selOf_commandWord, hhi, hj]

theorem decode_cl {f : BitVec 2 → BitVec 3 → Instr}
    (h : rowOf op = some ⟨op, .cl, fun w => f (sumIndexOf w) (laneOf w)⟩) (k : BitVec 2) (lane : BitVec 3) :
    decode (commandWord op 0#8 (0#2 ++ k ++ 0#1 ++ lane)) = .ok (f k lane) := by
  have hzero : ∀ (k : BitVec 2) (lane : BitVec 3), 0#2 ++ k ++ 0#1 ++ lane &&& 0xC8#8 = 0#8 := by decide
  have hfields : ∀ (k : BitVec 2) (lane : BitVec 3), (0#2 ++ k ++ 0#1 ++ lane).extractLsb' 4 2 = k ∧
      (0#2 ++ k ++ 0#1 ++ lane).extractLsb' 0 3 = lane := by decide
  obtain ⟨hk, hlane⟩ := hfields k lane
  rw [decode_commandWord h BitVec.zero_and (hzero k lane), sumIndexOf_eq, laneOf_eq, selOf_commandWord, hk, hlane]

theorem decode_cf {f : Bool → Instr} (h : rowOf op = some ⟨op, .cf, fun w => f (copyOf w)⟩) (copy : Bool) :
    decode (commandWord op 0#8 (0#7 ++ BitVec.ofBool copy)) = .ok (f copy) := by
  have hzero : ∀ copy : Bool, 0#7 ++ BitVec.ofBool copy &&& 0xFE#8 = 0#8 := by decide
  have hfield : ∀ copy : Bool, (0#7 ++ BitVec.ofBool copy).getLsbD 0 = copy := by decide
  rw [decode_commandWord h BitVec.zero_and (hzero copy), copyOf_eq, selOf_commandWord, hfield]

/-- Settles O1: each command's row, by the class of its fields. -/
theorem decodeEncode : Obligations.DecodeEncode := by
  intro i
  cases i with
  | nop => exact decode_c0 rfl
  | gfAddMem => exact decode_c0 rfl
  | gfMuladdMem c => exact decode_ci rfl c
  | gfMulMem c => exact decode_ci rfl c
  | gfDivMem c => exact decode_ci rfl c
  | gfMul a b => exact decode_cis rfl a b
  | gfDiv a b => exact decode_cis rfl a b
  | gfSqr a => exact decode_ci rfl a
  | gfInv a => exact decode_ci rfl a
  | gfLog a => exact decode_ci rfl a
  | gfExp n => exact decode_ci rfl n
  | gfNibtab c hi j => exact decode_cn rfl c hi j
  | bsSet b => exact decode_cb rfl b
  | bsClear b => exact decode_cb rfl b
  | bsCheck b => exact decode_cb rfl b
  | bsSetRange b => exact decode_cb rfl b
  | bsClearRange b => exact decode_cb rfl b
  | bsPopcount b => exact decode_cb rfl b
  | bsFfc b => exact decode_cb rfl b
  | bsFfs b => exact decode_cb rfl b
  | slabAlloc => exact decode_c0 rfl
  | slabFree => exact decode_c0 rfl
  | slabRealloc copy => exact decode_cf rfl copy
  | slabWinfo => exact decode_c0 rfl
  | sumsReset => exact decode_c0 rfl
  | sumsGet k lane => exact decode_cl rfl k lane
  | winShift => exact decode_c0 rfl
  | rowEncode => exact decode_c0 rfl
  | cauchyElem r y => exact decode_cis rfl r y

theorem decode_of_encode (h : encode i = w) : decode w = .ok i := h ▸ decodeEncode i

/-! ## From a word to its command and back, class by class (spec R151, R152) -/

/-- A field of which all bits must be 0 keeps none. -/
theorem and_not_ones (x : Byte) : x &&& ~~~0xFF#8 = 0#8 := BitVec.and_zero

/-- A field without must-be-zero bits keeps all its bits. -/
theorem and_not_zero (x : Byte) : x &&& ~~~0x00#8 = x := BitVec.and_allOnes

/-- The command of the row has the row's OPCODE and the word's bits outside the class's mask. -/
def OpcodeRow.Encodes (row : OpcodeRow) : Prop :=
  ∀ w, encode (row.build w) =
    commandWord row.opcode (immOf w &&& ~~~row.cls.immMask) (selOf w &&& ~~~row.cls.selMask)

theorem encodes_c0 (h : encode i = commandWord op 0#8 0#8) : OpcodeRow.Encodes ⟨op, .c0, fun _ => i⟩ :=
  fun _ => h.trans (congrArg₂ _ (and_not_ones _).symm (and_not_ones _).symm)

theorem encodes_ci {f : Byte → Instr} (h : ∀ a, encode (f a) = commandWord op a 0#8) :
    OpcodeRow.Encodes ⟨op, .ci, fun w => f (immOf w)⟩ :=
  fun _ => (h _).trans (congrArg₂ _ (and_not_zero _).symm (and_not_ones _).symm)

theorem encodes_cis {f : Byte → Byte → Instr} (h : ∀ a b, encode (f a b) = commandWord op a b) :
    OpcodeRow.Encodes ⟨op, .cis, fun w => f (immOf w) (selOf w)⟩ :=
  fun _ => (h _ _).trans (congrArg₂ _ (and_not_zero _).symm (and_not_zero _).symm)

theorem encodes_cb {f : BitVec 4 → Instr} (h : ∀ b, encode (f b) = commandWord op 0#8 (selBitset b)) :
    OpcodeRow.Encodes ⟨op, .cb, fun w => f (bitsetOf w)⟩ := by
  intro w
  have hsel : ∀ sel : Byte, selBitset (sel.extractLsb' 0 4) = sel &&& ~~~0xF0#8 := by decide
  exact (h _).trans (congrArg₂ _ (and_not_ones _).symm (by rw [bitsetOf_eq]; exact hsel _))

theorem encodes_cn {f : Byte → Bool → BitVec 4 → Instr}
    (h : ∀ a hi j, encode (f a hi j) = commandWord op a (0#3 ++ BitVec.ofBool hi ++ j)) :
    OpcodeRow.Encodes ⟨op, .cn, fun w => f (immOf w) (hiOf w) (nibbleOf w)⟩ := by
  intro w
  have hsel : ∀ sel : Byte, 0#3 ++ BitVec.ofBool (sel.getLsbD 4) ++ sel.extractLsb' 0 4 = sel &&& ~~~0xE0#8 := by decide
  exact (h _ _ _).trans (congrArg₂ _ (and_not_zero _).symm (by rw [hiOf_eq, nibbleOf_eq]; exact hsel _))

theorem encodes_cl {f : BitVec 2 → BitVec 3 → Instr}
    (h : ∀ k lane, encode (f k lane) = commandWord op 0#8 (0#2 ++ k ++ 0#1 ++ lane)) :
    OpcodeRow.Encodes ⟨op, .cl, fun w => f (sumIndexOf w) (laneOf w)⟩ := by
  intro w
  have hsel : ∀ sel : Byte, 0#2 ++ sel.extractLsb' 4 2 ++ 0#1 ++ sel.extractLsb' 0 3 = sel &&& ~~~0xC8#8 := by decide
  exact (h _ _).trans (congrArg₂ _ (and_not_ones _).symm (by rw [sumIndexOf_eq, laneOf_eq]; exact hsel _))

theorem encodes_cf {f : Bool → Instr} (h : ∀ copy, encode (f copy) = commandWord op 0#8 (0#7 ++ BitVec.ofBool copy)) :
    OpcodeRow.Encodes ⟨op, .cf, fun w => f (copyOf w)⟩ := by
  intro w
  have hsel : ∀ sel : Byte, 0#7 ++ BitVec.ofBool (sel.getLsbD 0) = sel &&& ~~~0xFE#8 := by decide
  exact (h _).trans (congrArg₂ _ (and_not_ones _).symm (by rw [copyOf_eq]; exact hsel _))

theorem gfVectorRows_encode : ∀ row ∈ gfVectorRows, row.Encodes := by
  simp only [gfVectorRows, List.forall_mem_cons]
  exact ⟨encodes_c0 rfl, encodes_ci fun _ => rfl, encodes_ci fun _ => rfl, encodes_ci fun _ => rfl, List.forall_mem_nil _⟩

theorem gfScalarRows_encode : ∀ row ∈ gfScalarRows, row.Encodes := by
  simp only [gfScalarRows, List.forall_mem_cons]
  exact ⟨encodes_cis fun _ _ => rfl, encodes_cis fun _ _ => rfl, encodes_ci fun _ => rfl, encodes_ci fun _ => rfl,
    encodes_ci fun _ => rfl, encodes_ci fun _ => rfl, encodes_cn fun _ _ _ => rfl, List.forall_mem_nil _⟩

theorem bitsetRows_encode : ∀ row ∈ bitsetRows, row.Encodes := by
  simp only [bitsetRows, List.forall_mem_cons]
  exact ⟨encodes_cb fun _ => rfl, encodes_cb fun _ => rfl, encodes_cb fun _ => rfl, encodes_cb fun _ => rfl,
    encodes_cb fun _ => rfl, encodes_cb fun _ => rfl, encodes_cb fun _ => rfl, encodes_cb fun _ => rfl, List.forall_mem_nil _⟩

theorem slabRows_encode : ∀ row ∈ slabRows, row.Encodes := by
  simp only [slabRows, List.forall_mem_cons]
  exact ⟨encodes_c0 rfl, encodes_c0 rfl, encodes_cf fun _ => rfl, encodes_c0 rfl, List.forall_mem_nil _⟩

theorem rowRows_encode : ∀ row ∈ rowRows, row.Encodes := by
  simp only [rowRows, List.forall_mem_cons]
  exact ⟨encodes_c0 rfl, encodes_cl fun _ _ => rfl, encodes_c0 rfl, encodes_c0 rfl, encodes_cis fun _ _ => rfl,
    List.forall_mem_nil _⟩

theorem opcodeMap_encodes (h : row ∈ opcodeMap) : row.Encodes := by
  simp only [opcodeMap, systemRows, List.mem_append, List.mem_singleton] at h
  rcases h with ((((rfl | h) | h) | h) | h) | h
  · exact encodes_c0 rfl
  · exact gfVectorRows_encode row h
  · exact gfScalarRows_encode row h
  · exact bitsetRows_encode row h
  · exact slabRows_encode row h
  · exact rowRows_encode row h

/-- A byte with no bit under a mask is its bits outside the mask. -/
theorem and_not_eq_self {x m : Byte} (h : x &&& m = 0#8) : x &&& ~~~m = x := by
  calc x &&& ~~~m = (x &&& m) ||| (x &&& ~~~m) := by rw [h, BitVec.zero_or]
    _ = x := by rw [← BitVec.and_or_distrib_left, BitVec.or_not_self, BitVec.and_allOnes]

/-- Settles O2: with no must-be-zero bit set, the bits outside the mask are the whole word. -/
theorem encodeDecode : Obligations.EncodeDecode := by
  intro w i h
  obtain ⟨row, hmem, hmask, rfl⟩ := decode_ok_inv h
  obtain ⟨hop, himm, hsel, hrsv⟩ := and_mask_eq_iff.1 hmask
  rw [opcodeMap_encodes hmem w, and_not_eq_self himm, and_not_eq_self hsel]
  exact cmdWord_ext (by simp [hop]) (by simp) (by simp) (by simp [hrsv])

/-- Settles O3: each word is the encoding of the command it stands for. -/
theorem writtenWordsDecode : Obligations.WrittenWordsDecode :=
  ⟨decode_of_encode rfl, decode_of_encode rfl, decode_of_encode rfl, decode_of_encode rfl, decode_of_encode rfl,
    decode_of_encode rfl, decode_of_encode rfl, decode_of_encode rfl, decode_of_encode rfl⟩

end Sys2Proof
end

section
/-! SUPPORT. Words that are no command: what the block rejects before a command's own checks (spec R161 to R163). -/

namespace Sys2Proof.Machine

/-- Settles O5: the opcodes and masks listed are those of the opcode map, and the RSV byte is in every mask. -/
theorem reservedFieldRejected : Obligations.ReservedFieldRejected := by
  intro s op mask hlisted hop
  have hmapped : (op, mask) ∈ opcodeMap.map (fun row => (row.opcode, row.cls.mask)) := hlisted
  obtain ⟨row, hmem, hrow⟩ := List.mem_map.1 hmapped
  obtain ⟨rfl, rfl⟩ := Prod.mk.inj hrow
  rw [← commandWord_zero]
  obtain ⟨haccept, hreject⟩ := decode_of_row hmem hop
  refine ⟨fun h => ⟨_, haccept h⟩, fun h hinbox hbusy hdisabled => ?_, fun hrsv h => ?_⟩
  · rw [step_end hinbox hbusy, runCommand_reserved hdisabled (hreject h)]
  · obtain ⟨-, -, -, hzero⟩ := and_mask_eq_iff.1 h
    exact hrsv hzero

/-- Settles O4: the list of R162 is what the opcode map leaves out. -/
theorem illegalOpcodeRejected : Obligations.IllegalOpcodeRejected := by
  intro s op listed
  have hillegal : decode s.cmd = .error .illegalOpcode ↔ listed := decode_illegal_iff.trans (not_mem_opcodes_iff _)
  refine ⟨hillegal, fun hinbox hbusy hdisabled hlisted => ?_⟩
  rw [step_end hinbox hbusy, runCommand_illegal hdisabled (hillegal.2 hlisted)]

end Sys2Proof.Machine
end

section
/-! SUPPORT. The polynomial product of bytes modulo GF_POLY, and the log and exp ROM as discrete logarithm and powers of the
generator for every build that follows R201 (spec R200 to R208). -/

namespace Sys2Proof.Machine

/-! ## Maps that respect XOR -/

/-- The map takes XOR to XOR: it is linear over the field with two elements. -/
def XorAdditive {v w : Nat} (f : BitVec v → BitVec w) : Prop := ∀ x y, f (x ^^^ y) = f x ^^^ f y

section XorAdditive

variable {u v w : Nat} {f g : BitVec v → BitVec w}

theorem XorAdditive.map_zero (hf : XorAdditive f) : f 0#v = 0#w := by
  simpa using hf 0#v 0#v

theorem XorAdditive.comp {k : BitVec u → BitVec v} (hf : XorAdditive f) (hk : XorAdditive k) :
    XorAdditive fun x => f (k x) := fun x y =>
  (congrArg f (hk x y)).trans (hf _ _)

theorem XorAdditive.xor (hf : XorAdditive f) (hg : XorAdditive g) : XorAdditive fun x => f x ^^^ g x := by
  intro x y
  simp only [hf x y, hg x y]
  ac_rfl

/-- A constant under the control of one bit. -/
theorem xorAdditive_bit (n : Nat) (c : BitVec w) : XorAdditive fun x : BitVec v => if x.getLsbD n then c else 0#w := by
  intro x y
  simp only [BitVec.getLsbD_xor]
  cases x.getLsbD n <;> cases y.getLsbD n <;> simp

/-- Two such maps agree when they agree on the words with one bit set. -/
theorem XorAdditive.ext_twoPow (hf : XorAdditive f) (hg : XorAdditive g)
    (h : ∀ j, j < v → f (BitVec.twoPow v j) = g (BitVec.twoPow v j)) (x : BitVec v) : f x = g x := by
  suffices low : ∀ n, n ≤ v → ∀ x : BitVec v, (∀ i, n ≤ i → x.getLsbD i = false) → f x = g x from
    low v (Nat.le_refl v) x fun i hi => x.getLsbD_of_ge i hi
  intro n
  induction n with
  | zero =>
    intro _ x hx
    obtain rfl : x = 0#v := BitVec.eq_of_getLsbD_eq fun i _ => by simp [hx i]
    rw [hf.map_zero, hg.map_zero]
  | succ n ih =>
    intro hn x hx
    by_cases hbit : x.getLsbD n = true
    · have hrest : f (x ^^^ BitVec.twoPow v n) = g (x ^^^ BitVec.twoPow v n) := by
        refine ih (by omega) _ fun i hi => ?_
        rw [BitVec.getLsbD_xor, BitVec.getLsbD_twoPow]
        rcases Nat.eq_or_lt_of_le hi with rfl | hlt
        · simp [hbit, show n < v by omega]
        · simp [hx i hlt, show n ≠ i by omega]
      have hsplit : x = (x ^^^ BitVec.twoPow v n) ^^^ BitVec.twoPow v n := by
        rw [BitVec.xor_assoc, BitVec.xor_self, BitVec.xor_zero]
      rw [hsplit, hf, hg, hrest, h n hn]
    · refine ih (by omega) x fun i hi => ?_
      rcases Nat.eq_or_lt_of_le hi with rfl | hlt
      · simpa using hbit
      · exact hx i hlt

end XorAdditive

/-! ## The product modulo GF_POLY -/

theorem xorAdditive_polyMod (poly : BitVec 16) (n : Nat) : XorAdditive (polyMod poly n) := by
  induction n with
  | zero => exact fun _ _ => rfl
  | succ n ih =>
    have hstep : polyMod poly (n + 1) =
        fun v => polyMod poly n (v ^^^ if v.getLsbD (n + 8) then poly <<< n else 0#16) := by
      funext v
      rw [polyMod]
      split
      · rfl
      · rw [BitVec.xor_zero]
    rw [hstep]
    exact ih.comp (XorAdditive.xor (fun _ _ => rfl) (xorAdditive_bit _ _))

theorem xorAdditive_clmul_left (b : Byte) (n : Nat) : XorAdditive fun a => clmul a b n := by
  induction n with
  | zero => exact fun _ _ => (BitVec.xor_self).symm
  | succ n ih =>
    refine ih.xor fun x y => ?_
    split
    · rw [BitVec.setWidth_xor, BitVec.shiftLeft_xor_distrib]
    · exact (BitVec.xor_self).symm

theorem xorAdditive_clmul_right (a : Byte) (n : Nat) : XorAdditive fun b => clmul a b n := by
  induction n with
  | zero => exact fun _ _ => (BitVec.xor_self).symm
  | succ n ih => exact ih.xor (xorAdditive_bit n _)

variable {p : Params}

theorem xorAdditive_reduce (p : Params) : XorAdditive fun v : BitVec 16 => (polyMod p.gfPoly 7 v).setWidth 8 := by
  intro x y
  simp only [xorAdditive_polyMod p.gfPoly 7 x y, BitVec.setWidth_xor]

/-- The product by a byte respects XOR on the left. -/
theorem xorAdditive_xmul_left (p : Params) (b : Byte) : XorAdditive fun a => xmul p a b :=
  (xorAdditive_reduce p).comp (xorAdditive_clmul_left b 8)

/-- The product by a byte respects XOR on the right. -/
theorem xorAdditive_xmul_right (p : Params) (a : Byte) : XorAdditive fun b => xmul p a b :=
  (xorAdditive_reduce p).comp (xorAdditive_clmul_right a 8)

theorem xmul_zero_right (a : Byte) : xmul p a 0 = 0 := (xorAdditive_xmul_right p a).map_zero

theorem xmul_zero_left (b : Byte) : xmul p 0 b = 0 := (xorAdditive_xmul_left p b).map_zero

theorem clmul_twoPow_comm : ∀ j, j < 8 → ∀ k, k < 8 →
    clmul (BitVec.twoPow 8 j) (BitVec.twoPow 8 k) 8 = clmul (BitVec.twoPow 8 k) (BitVec.twoPow 8 j) 8 := by decide

theorem clmul_comm (a b : Byte) : clmul a b 8 = clmul b a 8 :=
  XorAdditive.ext_twoPow (xorAdditive_clmul_left b 8) (xorAdditive_clmul_right b 8)
    (fun j hj => XorAdditive.ext_twoPow (xorAdditive_clmul_right _ 8) (xorAdditive_clmul_left _ 8)
      (fun k hk => clmul_twoPow_comm j hj k hk) b) a

theorem xmul_comm (a b : Byte) : xmul p a b = xmul p b a := by rw [xmul, xmul, clmul_comm]

/-! ## Multiplying by X

A product by the byte with bit j alone is j products by X; so any two products by a byte can be exchanged. -/

/-- The product by X modulo GF_POLY: a shift, and the polynomial subtracted when the degree reaches 8 (spec R200). -/
def timesX (p : Params) (a : Byte) : Byte :=
  (if a.getLsbD 7 then a.setWidth 16 <<< 1 ^^^ p.gfPoly else a.setWidth 16 <<< 1).setWidth 8

/-- GF_POLY has degree 8. -/
theorem gfPoly_getLsbD (h : p.gfPoly.toNat / 256 = 1) {i : Nat} (hi : 8 ≤ i) : p.gfPoly.getLsbD i = decide (i = 8) := by
  obtain ⟨d, rfl⟩ := Nat.exists_eq_add_of_le hi
  have hshift : p.gfPoly.toNat >>> 8 = 1 := by rw [Nat.shiftRight_eq_div_pow]; exact h
  rw [BitVec.getLsbD, ← Nat.testBit_shiftRight, hshift, Bool.eq_iff_iff, Nat.testBit_one_eq_true_iff_self_eq_zero,
    decide_eq_true_iff]
  omega

/-- The reduced product by X has degree below 8. -/
theorem setWidth_timesX (h : p.gfPoly.toNat / 256 = 1) (a : Byte) :
    (timesX p a).setWidth 16 = if a.getLsbD 7 then a.setWidth 16 <<< 1 ^^^ p.gfPoly else a.setWidth 16 <<< 1 := by
  refine BitVec.eq_of_getLsbD_eq fun i hi => ?_
  rw [timesX, BitVec.getLsbD_setWidth, BitVec.getLsbD_setWidth, decide_eq_true hi, Bool.true_and]
  by_cases hlow : i < 8
  · simp [hlow]
  · have hpoly := gfPoly_getLsbD h (Nat.le_of_not_lt hlow)
    have hbit : (a.setWidth 16 <<< 1).getLsbD i = (decide (i = 8) && a.getLsbD 7) := by
      by_cases h8 : i = 8
      · subst h8; simp
      · simp [h8, hi, show ¬ i < 1 by omega, a.getLsbD_of_ge (i - 1) (by omega)]
    rw [decide_eq_false hlow, Bool.false_and]
    split
    · rename_i h7; rw [BitVec.getLsbD_xor, hbit, hpoly, h7]; simp
    · rename_i h7; rw [hbit, Bool.eq_false_iff.2 h7, Bool.and_false]

/-- Reducing a byte shifted by `k` places is `k` products by X. -/
theorem polyMod_shiftLeft (h : p.gfPoly.toNat / 256 = 1) {n k : Nat} (hk : k ≤ n) (hn : n ≤ 8) (a : Byte) :
    polyMod p.gfPoly n (a.setWidth 16 <<< k) = ((timesX p)^[k] a).setWidth 16 := by
  induction n generalizing k a with
  | zero =>
    obtain rfl : k = 0 := by omega
    simp [polyMod]
  | succ n ih =>
    have hbit : (a.setWidth 16 <<< k).getLsbD (n + 8) = a.getLsbD (n + 8 - k) := by
      simp [show n + 8 < 16 by omega, show ¬ n + 8 < k by omega]
    rw [polyMod, hbit]
    rcases Nat.lt_or_eq_of_le hk with hlt | rfl
    · rw [a.getLsbD_of_ge _ (by omega), if_neg Bool.false_ne_true]
      exact ih (by omega) (by omega) a
    · rw [Function.iterate_succ_apply, ← ih (Nat.le_refl n) (by omega), setWidth_timesX h,
        show n + 8 - (n + 1) = 7 by omega, Nat.add_comm n 1, BitVec.shiftLeft_add]
      split
      · rw [BitVec.shiftLeft_xor_distrib]
      · rfl

theorem clmul_twoPow (a : Byte) {j : Nat} (hj : j < 8) (n : Nat) :
    clmul a (BitVec.twoPow 8 j) n = if j < n then a.setWidth 16 <<< j else 0 := by
  induction n with
  | zero => rfl
  | succ n ih =>
    rw [clmul, ih, BitVec.getLsbD_twoPow, decide_eq_true hj, Bool.true_and]
    rcases Nat.lt_trichotomy j n with hlt | rfl | hgt
    · simp [hlt, show j ≠ n by omega, show j < n + 1 by omega]
    · simp
    · simp [show ¬ j < n by omega, show j ≠ n by omega, show ¬ j < n + 1 by omega]

theorem xmul_twoPow (h : p.gfPoly.toNat / 256 = 1) (a : Byte) {j : Nat} (hj : j < 8) :
    xmul p a (BitVec.twoPow 8 j) = (timesX p)^[j] a := by
  rw [xmul, clmul_twoPow a hj, if_pos hj, polyMod_shiftLeft h (by omega) (by omega),
    BitVec.setWidth_setWidth_of_le _ (by omega), BitVec.setWidth_eq]

theorem xmul_one (h : p.gfPoly.toNat / 256 = 1) (a : Byte) : xmul p a 1 = a := xmul_twoPow h a (j := 0) (by omega)

/-- Two products by bytes can be exchanged: on single bits, both are products by X. -/
theorem xmul_right_comm (h : p.gfPoly.toNat / 256 = 1) (c a b : Byte) :
    xmul p (xmul p c a) b = xmul p (xmul p c b) a := by
  refine XorAdditive.ext_twoPow ((xorAdditive_xmul_left p b).comp (xorAdditive_xmul_right p c))
    (xorAdditive_xmul_right p (xmul p c b)) (fun j hj => ?_) a
  refine XorAdditive.ext_twoPow (xorAdditive_xmul_right p (xmul p c (BitVec.twoPow 8 j)))
    ((xorAdditive_xmul_left p (BitVec.twoPow 8 j)).comp (xorAdditive_xmul_right p c)) (fun k hk => ?_) b
  rw [xmul_twoPow h _ hk, xmul_twoPow h _ hj, xmul_twoPow h _ hk, xmul_twoPow h _ hj, ← Function.iterate_add_apply,
    ← Function.iterate_add_apply, Nat.add_comm]

theorem xmul_assoc (h : p.gfPoly.toNat / 256 = 1) (a b c : Byte) : xmul p (xmul p a b) c = xmul p a (xmul p b c) := by
  calc xmul p (xmul p a b) c = xmul p (xmul p b a) c := by rw [xmul_comm a b]
    _ = xmul p (xmul p b c) a := xmul_right_comm h b a c
    _ = xmul p a (xmul p b c) := xmul_comm _ a

/-! ## The tables (spec R201) -/

theorem FieldOk.degree (h : FieldOk p) : p.gfPoly.toNat / 256 = 1 := h.1

/-- One more power of the generator, around the cycle. -/
theorem gfExp_mod_succ (h : FieldOk p) (n : Nat) : gfExp p ((n + 1) % 255) = xmul p (gfExp p (n % 255)) p.gfGen := by
  have hlt : n % 255 < 255 := Nat.mod_lt _ (by omega)
  by_cases hlast : n % 255 = 254
  · rw [show (n + 1) % 255 = 0 by omega, hlast, gfExp_zero h, gfExp_cycle h]
  · rw [show (n + 1) % 255 = n % 255 + 1 by omega, gfExp_succ h (by omega)]

/-- The product of two powers of the generator. -/
theorem xmul_gfExp (h : FieldOk p) (m n : Nat) :
    xmul p (gfExp p (m % 255)) (gfExp p (n % 255)) = gfExp p ((m + n) % 255) := by
  induction n with
  | zero => rw [Nat.zero_mod, gfExp_zero h, xmul_one h.degree, Nat.add_zero]
  | succ n ih => rw [gfExp_mod_succ h, ← xmul_assoc h.degree, ih, ← Nat.add_assoc, gfExp_mod_succ h]

/-- The powers are those of polynomial multiplication. -/
theorem gfExp_eq_generatorPower (h : FieldOk p) {i : Nat} (hi : i ≤ 254) : gfExp p i = generatorPower p i := by
  induction i with
  | zero => exact gfExp_zero h
  | succ i ih => rw [gfExp_succ h (by omega), ih (by omega), generatorPower]

theorem gfExp_injective (h : FieldOk p) {i j : Nat} (hi : i < 255) (hj : j < 255) (he : gfExp p i = gfExp p j) : i = j := by
  rw [← gfLog_gfExp h hi, he, gfLog_gfExp h hj]

/-- Every byte other than 0 is a power of the generator: 255 different powers, none of them 0, are all 255 of them. -/
theorem exists_gfExp (h : FieldOk p) {x : Byte} (hx : x ≠ 0) : ∃ i, i < 255 ∧ gfExp p i = x := by
  have hpos : ∀ y : Byte, y ≠ 0 → y.toNat ∈ Finset.Ico 1 256 := fun y hy =>
    Finset.mem_Ico.2 ⟨Nat.pos_of_ne_zero fun h0 => hy (BitVec.eq_of_toNat_eq h0), y.isLt⟩
  have hsubset : (Finset.range 255).image (fun i => (gfExp p i).toNat) ⊆ Finset.Ico 1 256 := by
    intro y hy
    obtain ⟨i, hi, rfl⟩ := Finset.mem_image.1 hy
    exact hpos _ (gfExp_ne_zero h (Finset.mem_range.1 hi))
  have hcard : ((Finset.range 255).image (fun i => (gfExp p i).toNat)).card = 255 := by
    rw [Finset.card_image_of_injOn, Finset.card_range]
    intro i hi j hj he
    exact gfExp_injective h (Finset.mem_range.1 hi) (Finset.mem_range.1 hj) (BitVec.eq_of_toNat_eq he)
  have hall := Finset.eq_of_subset_of_card_le hsubset (by rw [hcard, Nat.card_Ico])
  obtain ⟨i, hi, he⟩ := Finset.mem_image.1 (hall ▸ hpos x hx)
  exact ⟨i, Finset.mem_range.1 hi, BitVec.eq_of_toNat_eq he⟩

theorem gfLog_lt (h : FieldOk p) {x : Byte} (hx : x ≠ 0) : gfLog p x < 255 := by
  obtain ⟨i, hi, rfl⟩ := exists_gfExp h hx
  rwa [gfLog_gfExp h hi]

/-- `EXP[LOG[x]] = x`. -/
theorem gfExp_gfLog (h : FieldOk p) {x : Byte} (hx : x ≠ 0) : gfExp p (gfLog p x) = x := by
  obtain ⟨i, hi, rfl⟩ := exists_gfExp h hx
  rw [gfLog_gfExp h hi]

/-- Settles O26: the powers by the ROM's recurrence, the logarithm as their inverse; the default build by evaluation. -/
theorem gfTables : Obligations.GfTables := by
  refine ⟨fun p h => ⟨fun i hi => gfExp_eq_generatorPower h hi, fun x hx => ?_⟩, fieldOk_default, by decide, by decide⟩
  have hlt := gfLog_lt h hx
  refine ⟨by omega, gfExp_gfLog h hx, fun i hi he => ?_⟩
  rw [← he, gfLog_gfExp h (by omega)]

/-! ## The operations read from the tables (spec R202 to R208) -/

/-- `gf_mul` is the polynomial product modulo GF_POLY. -/
theorem gfMul_eq_xmul (h : FieldOk p) (a b : Byte) : gfMul p a b = xmul p a b := by
  by_cases ha : a = 0
  · rw [ha, gfMul_zero_left, xmul_zero_left]
  by_cases hb : b = 0
  · rw [hb, gfMul_zero_right, xmul_zero_right]
  obtain ⟨i, hi, rfl⟩ := exists_gfExp h ha
  obtain ⟨j, hj, rfl⟩ := exists_gfExp h hb
  rw [gfMul_of_ne ha hb, gfLog_gfExp h hi, gfLog_gfExp h hj, ← xmul_gfExp h, Nat.mod_eq_of_lt hi, Nat.mod_eq_of_lt hj]

/-- `gf_inv` of a byte other than 0 is its inverse (spec R204). -/
theorem xmul_gfInv (h : FieldOk p) {a : Byte} (ha : a ≠ 0) : xmul p (gfInv p a) a = 1 := by
  obtain ⟨i, hi, rfl⟩ := exists_gfExp h ha
  rw [gfInv, gfLog_gfExp h hi]
  calc xmul p (gfExp p ((255 - i) % 255)) (gfExp p i)
    _ = xmul p (gfExp p ((255 - i) % 255)) (gfExp p (i % 255)) := by rw [Nat.mod_eq_of_lt hi]
    _ = gfExp p ((255 - i + i) % 255) := xmul_gfExp h _ _
    _ = 1 := by rw [Nat.sub_add_cancel (by omega), Nat.mod_self, gfExp_zero h]

/-- `gf_div` is the product by the inverse (spec R203). -/
theorem gfDiv_eq (h : FieldOk p) (a : Byte) {b : Byte} (hb : b ≠ 0) : gfDiv p a b = xmul p a (gfInv p b) := by
  have hlog := gfLog_lt h hb
  by_cases ha : a = 0
  · rw [gfDiv, if_pos ha, ha, xmul_zero_left]
  · obtain ⟨i, hi, rfl⟩ := exists_gfExp h ha
    rw [gfDiv, if_neg ha, gfInv, gfLog_gfExp h hi]
    calc gfExp p ((i + 255 - gfLog p b) % 255) = gfExp p ((i + (255 - gfLog p b)) % 255) := by
          rw [Nat.add_sub_assoc (by omega)]
      _ = xmul p (gfExp p (i % 255)) (gfExp p ((255 - gfLog p b) % 255)) := (xmul_gfExp h _ _).symm
      _ = xmul p (gfExp p i) (gfExp p ((255 - gfLog p b) % 255)) := by rw [Nat.mod_eq_of_lt hi]

/-- A quotient times its divisor. -/
theorem xmul_gfDiv (h : FieldOk p) (a : Byte) {b : Byte} (hb : b ≠ 0) : xmul p (gfDiv p a b) b = a := by
  rw [gfDiv_eq h a hb, xmul_assoc h.degree, xmul_gfInv h hb, xmul_one h.degree]

/-- A byte is its low nibble XOR its high nibble in place. -/
theorem byte_eq_nibbles (x : Byte) : x = (0#4 ++ x.extractLsb' 0 4) ^^^ (x.extractLsb' 4 4 ++ 0#4) :=
  calc x = x.extractLsb' 4 4 ++ x.extractLsb' 0 4 := (BitVec.extractLsb'_append_extractLsb' (w := 4) (len := 4)).symm
    _ = (0#4 ^^^ x.extractLsb' 4 4) ++ (x.extractLsb' 0 4 ^^^ 0#4) := by rw [BitVec.zero_xor, BitVec.xor_zero]
    _ = (0#4 ++ x.extractLsb' 0 4) ^^^ (x.extractLsb' 4 4 ++ 0#4) := BitVec.xor_append.symm

/-- The product by a byte through the nibble tables (spec R208). -/
theorem gfMul_eq_nibbles (h : FieldOk p) (c x : Byte) :
    gfMul p c x = nibLo p c (x.extractLsb' 0 4) ^^^ nibHi p c (x.extractLsb' 4 4) := by
  rw [nibLo, nibHi, gfMul_eq_xmul h, gfMul_eq_xmul h, gfMul_eq_xmul h, ← xorAdditive_xmul_right p c, ← byte_eq_nibbles]

/-- Squaring is additive: the mixed products cancel. -/
theorem xmul_self_xor (a b : Byte) : xmul p (a ^^^ b) (a ^^^ b) = xmul p a a ^^^ xmul p b b := by
  calc xmul p (a ^^^ b) (a ^^^ b)
    _ = xmul p a (a ^^^ b) ^^^ xmul p b (a ^^^ b) := xorAdditive_xmul_left p _ a b
    _ = (xmul p a a ^^^ xmul p a b) ^^^ (xmul p b a ^^^ xmul p b b) := by
      exact congrArg₂ (· ^^^ ·) (xorAdditive_xmul_right p a a b) (xorAdditive_xmul_right p b a b)
    _ = (xmul p a a ^^^ xmul p b b) ^^^ (xmul p a b ^^^ xmul p a b) := by rw [xmul_comm b a]; ac_rfl
    _ = xmul p a a ^^^ xmul p b b := by rw [BitVec.xor_self, BitVec.xor_zero]

/-- Settles O27: every law is one of the polynomial product. -/
theorem gfFieldLaws : Obligations.GfFieldLaws := by
  intro p h
  refine ⟨fun c x j => ⟨rfl, rfl, gfMul_eq_nibbles h c x⟩, fun a b c => ?_⟩
  simp only [gfSqr, gfMul_eq_xmul h]
  refine ⟨trivial, xmul_comm a b, xmul_assoc h.degree a b c, xorAdditive_xmul_right p a b c, xmul_one h.degree a,
    xmul_zero_right a, fun ha => ?_, fun hb => ?_, xmul_self_xor a b⟩
  · rw [xmul_comm, xmul_gfInv h ha]
  · rw [gfDiv_eq h _ hb, xmul_assoc h.degree, xmul_comm b, xmul_gfInv h hb, xmul_one h.degree]

end Sys2Proof.Machine
end

section
/-! SUPPORT. The commands of the GF(256) unit (spec R210 to R228): the scalar results, the checks of the vector commands, and what
their loops store over ordinary memory. -/

namespace Sys2Proof.Machine

/-! ## From the pseudocode to the command -/

section Ends

variable {i : Instr} {s : State}

theorem exec_of_ok {r : Run} (h : commandBody i (Run.start s) = .ok () r) : exec i s = .next (r.st.finish .success) := by
  rw [exec_eq, conclude_ok h]

theorem exec_of_reject {e : ErrorBit} {r : Run} (h : commandBody i (Run.start s) = .error (.reject e) r) :
    exec i s = .next (s.reject .invalidInput e) := by
  rw [exec_eq, conclude_reject h]

/-- A check whose condition is met ends the command. -/
theorem rejectIf_met {c : Prop} [Decidable c] (h : c) (e : ErrorBit) (r : Run) :
    rejectIf (decide c) e r = .error (.reject e) r := by
  rw [decide_eq_true h, rejectIf_true]

end Ends

/-! ## Scalar commands (spec R210 to R216) -/

section Scalar

variable {s : State}

/-- A divisor other than 0 passes the check. -/
theorem divisor_passes {c : Byte} (hc : c ≠ 0) (body : Cmd Unit) (r : Run) :
    (do rejectIf (c == 0) .zeroDivisor; body : Cmd Unit) r = body r :=
  bind_run_ok (by rw [beq_eq_false_iff_ne.2 hc, rejectIf_false])

/-- A zero divisor, and the logarithm of 0 (spec R211, R213, R214, R222 (1)). -/
theorem zeroDivisor_rejected {i : Instr} {body : Cmd Unit}
    (hi : commandBody i = do rejectIf ((0 : Byte) == 0) .zeroDivisor; body) (s : State) :
    exec i s = .next (s.reject .invalidInput .zeroDivisor) :=
  exec_of_reject (by rw [hi]; exact bind_run_error rfl)

/-- A command that comes to a byte of the field's tables. -/
theorem exec_resultField {i : Instr} {f : Params → Byte} {v : Byte}
    (hi : commandBody i (Run.start s) = resultField f (Run.start s)) (hv : f s.params = v) :
    exec i s = .next (({ s with res0 := v.setWidth 64 } : State).finish .success) := by
  subst hv
  exact exec_of_ok hi

theorem exec_gfLog {a : Byte} (ha : a ≠ 0) :
    exec (.gfLog a) s = .next (({ s with res0 := BitVec.ofNat 64 (gfLog s.params a) } : State).finish .success) := by
  have hrun : commandBody (.gfLog a) (Run.start s) = .ok () (Run.start { s with res0 := BitVec.ofNat 64 (gfLog s.params a) }) :=
    divisor_passes ha _ _
  exact exec_of_ok hrun

/-- Settles O28: each answer is the one that the field's tables give, named by the polynomial product. -/
theorem gfScalarResults : Obligations.GfScalarResults := by
  refine ⟨fun a b hi j s h => ⟨?_, ?_, ?_, fun hb => ?_, fun hb => ?_, fun ha => ?_, ?_⟩, fun a s i hi => ?_⟩
  · exact exec_resultField (f := fun p => gfMul p a b) rfl (gfMul_eq_xmul h a b)
  · exact exec_resultField (f := fun p => gfSqr p a) rfl (gfMul_eq_xmul h a a)
  · refine exec_resultField (f := fun p => if hi then nibHi p a j else nibLo p a j) rfl ?_
    cases hi
    · exact gfMul_eq_xmul h a (0#4 ++ j)
    · exact gfMul_eq_xmul h a (j ++ 0#4)
  · exact ⟨gfDiv s.params a b, xmul_gfDiv h a hb, exec_resultField (divisor_passes hb _ _) rfl⟩
  · exact ⟨gfInv s.params b, xmul_gfInv h hb, exec_resultField (divisor_passes hb _ _) rfl⟩
  · have hlog : gfLog s.params a ≤ 254 := Nat.le_of_lt_succ (gfLog_lt h ha)
    have hpower : generatorPower s.params (gfLog s.params a) = a := by
      rw [← gfExp_eq_generatorPower h hlog, gfExp_gfLog h ha]
    exact ⟨gfLog s.params a, hlog, hpower, exec_gfLog ha⟩
  · exact exec_resultField (f := fun p => gfExp p (a.toNat % 255)) rfl (gfExp_eq_generatorPower h (by omega))
  · simp only [List.mem_cons, List.not_mem_nil, or_false] at hi
    rcases hi with rfl | rfl | rfl <;> exact zeroDivisor_rejected rfl s

end Scalar

/-! ## The checks of the vector commands (spec R222) -/

/-- The loop of a vector command, from the parameters and the operands. -/
abbrev VectorLoop := Params → (dst src n : Nat) → Cmd Unit

section Checks

variable {s : State} (loop : VectorLoop)

theorem gfVector_tooLong (h : s.arg2.toNat > s.params.maxGfLen) :
    gfVector loop (Run.start s) = .error (.reject .argRange) (Run.start s) :=
  (bind_run_ok (getState_run _)).trans (bind_run_error (rejectIf_met h _ _))

/-- A length within `MAX_GF_LEN` passes check (2). -/
theorem gfVector_lengthOk (h : s.arg2.toNat ≤ s.params.maxGfLen) :
    gfVector loop (Run.start s) = (if s.arg2.toNat = 0 then pure () else do
      rejectIf (wraps s.arg0.toNat s.arg2.toNat || wraps s.arg1.toNat s.arg2.toNat) .argRange
      rejectIf (partialOverlap s.arg0.toNat s.arg1.toNat s.arg2.toNat) .overlap
      loop s.params s.arg0.toNat s.arg1.toNat s.arg2.toNat
      modifyState (noteTable s) : Cmd Unit) (Run.start s) :=
  (bind_run_ok (getState_run _)).trans (bind_run_ok (rejectIf_unmet (Nat.not_lt.2 h) _ _))

theorem gfVector_empty (h : s.arg2.toNat ≤ s.params.maxGfLen) (hn : s.arg2.toNat = 0) :
    gfVector loop (Run.start s) = .ok () (Run.start s) := by
  rw [gfVector_lengthOk loop h, if_pos hn, pure_run]

theorem wraps_eq_true {a n : Nat} (h : a + n > 2 ^ 64) : wraps a n = true := decide_eq_true h

theorem wraps_eq_false {a n : Nat} (h : a + n ≤ 2 ^ 64) : wraps a n = false := decide_eq_false (Nat.not_lt.2 h)

theorem gfVector_wraps (h : s.arg2.toNat ≤ s.params.maxGfLen) (hn : 0 < s.arg2.toNat)
    (hwrap : s.arg0.toNat + s.arg2.toNat > 2 ^ 64 ∨ s.arg1.toNat + s.arg2.toNat > 2 ^ 64) :
    gfVector loop (Run.start s) = .error (.reject .argRange) (Run.start s) := by
  have hcheck : (wraps s.arg0.toNat s.arg2.toNat || wraps s.arg1.toNat s.arg2.toNat) = true := by
    rcases hwrap with hw | hw <;> rw [wraps_eq_true hw]
    · exact Bool.true_or _
    · exact Bool.or_true _
  rw [gfVector_lengthOk loop h, if_neg (by omega), hcheck]
  exact bind_run_error (rejectIf_true _ _)

theorem gfVector_overlap (h : s.arg2.toNat ≤ s.params.maxGfLen) (hn : 0 < s.arg2.toNat)
    (hdst : s.arg0.toNat + s.arg2.toNat ≤ 2 ^ 64) (hsrc : s.arg1.toNat + s.arg2.toNat ≤ 2 ^ 64)
    (hoverlap : s.arg0.toNat ≠ s.arg1.toNat ∧ s.arg0.toNat < s.arg1.toNat + s.arg2.toNat ∧
      s.arg1.toNat < s.arg0.toNat + s.arg2.toNat) :
    gfVector loop (Run.start s) = .error (.reject .overlap) (Run.start s) := by
  rw [gfVector_lengthOk loop h, if_neg (by omega), wraps_eq_false hdst, wraps_eq_false hsrc, Bool.or_false]
  exact (bind_run_ok (rejectIf_false _ _)).trans (bind_run_error (rejectIf_met hoverlap _ _))

/-- What every vector command does after check (1) of R222. -/
theorem commandBody_vector {i : Instr} (hi : i = .gfAddMem ∨ (∃ c, i = .gfMuladdMem c) ∨ (∃ c, i = .gfMulMem c) ∨
    ∃ c : Byte, c ≠ 0 ∧ i = .gfDivMem c) (r : Run) : ∃ loop : VectorLoop, commandBody i r = gfVector loop r := by
  rcases hi with rfl | ⟨c, rfl⟩ | ⟨c, rfl⟩ | ⟨c, hc, rfl⟩
  · exact ⟨gfAddLoop, rfl⟩
  · exact ⟨gfMuladdLoop c, rfl⟩
  · exact ⟨gfMulLoop c, rfl⟩
  · exact ⟨gfDivLoop c, gfDivMemBody_run hc r⟩

end Checks

/-- Settles O29: one check of R222 after the other. -/
theorem gfVectorChecks : Obligations.GfVectorChecks := by
  intro i s hlegal
  refine ⟨zeroDivisor_rejected rfl s, fun hi => ?_⟩
  obtain ⟨-, -, -, -, -, -, -, -, -, -, -, -, -, -, hmax, -⟩ := hlegal
  obtain ⟨loop, hbody⟩ := commandBody_vector hi (Run.start s)
  have within {n : Nat} (h : n ≤ 2 ^ 30) : n ≤ s.params.maxGfLen := hmax.symm ▸ h
  refine ⟨fun h => ?_, fun h => ?_, fun hn hlen hwrap => ?_, fun hn hlen hdst hsrc hover => ?_⟩
  · exact exec_of_reject (hbody.trans (gfVector_tooLong loop (hmax.symm ▸ h)))
  · exact exec_of_ok (hbody.trans (gfVector_empty loop (within (by omega)) h))
  · exact exec_of_reject (hbody.trans (gfVector_wraps loop (within hlen) hn hwrap))
  · exact exec_of_reject (hbody.trans (gfVector_overlap loop (within hlen) hn hdst hsrc hover))

/-! ## What the vector commands store (spec R220, R223, R225 to R228) -/

section Stores

variable {s : State}

/-- A buffer in ordinary memory is closed at the start of a command that has no open area. -/
theorem Ordinary.closed {a n : Nat} (h : Ordinary s a n) (ha : a + n ≤ 2 ^ 64) : Closed (Run.start s) a n := by
  intro i hi
  have hplain := h i hi
  rw [Nat.mod_eq_of_lt (show a + i < Config.addrSpace by simp only [Config.addrSpace]; omega)] at hplain
  exact ⟨hplain, rfl⟩

/-- The buffers of a vector command are the same or lie apart (spec R221). -/
theorem GfBuffersOk.apart (hs : GfBuffersOk s) : s.arg0.toNat = s.arg1.toNat ∨
    s.arg1.toNat + s.arg2.toNat ≤ s.arg0.toNat ∨ s.arg0.toNat + s.arg2.toNat ≤ s.arg1.toNat := by
  obtain ⟨-, -, -, -, hoverlap⟩ := hs
  omega

/-- From the start of a command the loop stores `value i` in byte i of dst. -/
def LoopStores (s : State) (loop : VectorLoop) (value : Nat → Byte) : Prop :=
  ∃ r' m, loop s.params s.arg0.toNat s.arg1.toNat s.arg2.toNat (Run.start s) = .ok () r' ∧ MemStep (Run.start s) r' m ∧
    Rewritten s.mem m s.arg0.toNat s.arg2.toNat value

/-- The command ends with Success and leaves `value i` in byte i of dst; all else stays but the records of the descriptor
table (log 12). -/
def Stores (i : Instr) (s : State) (value : Nat → Byte) : Prop :=
  ∃ m rep cop owed,
    exec i s = .next (({ s with mem := m, replaced := rep, copied := cop, pending := owed } : State).finish .success) ∧
    WritesOnly s.mem m s.arg0.toNat s.arg2.toNat value

/-- A vector command stores what its loop stores; with no bytes it has no loop. -/
theorem LoopStores.exec {i : Instr} {loop : VectorLoop} {value : Nat → Byte} (h : LoopStores s loop value)
    (hbody : commandBody i (Run.start s) = gfVector loop (Run.start s)) (hs : GfBuffersOk s) : Stores i s value := by
  obtain ⟨hwf, hlen, -⟩ := id hs
  rcases Nat.eq_zero_or_pos s.arg2.toNat with hn | hn
  · refine ⟨s.mem, s.replaced, s.copied, s.pending, exec_of_ok (hbody.trans (gfVector_empty loop hlen hn)), hwf, fun a => ?_⟩
    rw [if_neg (by omega)]
  · obtain ⟨r', m, hrun, hstep, hm⟩ := h
    obtain ⟨rep, cop, owed, hnote⟩ := noteTable_cases s { s with mem := m }
    refine ⟨m, rep, cop, owed, ?_, hm⟩
    have hend : commandBody i (Run.start s) = .ok () { r' with st := noteTable s { s with mem := m } } := by
      rw [hbody, gfVector_run hs hn, bind_run_ok hrun, modifyState_run, hstep.st, start_st]
    rw [exec_of_ok hend, hnote]

theorem Stores.congr {i : Instr} {value value' : Nat → Byte} (h : Stores i s value) (he : ∀ j, value j = value' j) :
    Stores i s value' := funext he ▸ h

/-- The loop of GF_ADD_MEM and GF_MULADD_MEM (spec R225, R226). -/
theorem accumulate_stores {loop : VectorLoop} {f : Byte → Byte}
    (hloop : ∀ dst src n, loop s.params dst src n = accumulate dst src f n) (hs : GfBuffersOk s) (hraced : s.raced = [])
    (hdst : Ordinary s s.arg0.toNat s.arg2.toNat) (hsrc : Ordinary s s.arg1.toNat s.arg2.toNat) :
    LoopStores s loop fun i => s.mem.read (s.arg0.toNat + i) ^^^ f (s.mem.read (s.arg1.toNat + i)) := by
  obtain ⟨hwf, -, hd, hs', -⟩ := id hs
  rw [LoopStores, hloop]
  exact accumulate_rewrites (quiet_start hraced) hwf hd hs' hs.apart (hdst.closed hd) (hsrc.closed hs')

/-- The loop of GF_MUL_MEM and GF_DIV_MEM (spec R227, R228). -/
theorem mapBytes_stores {loop : VectorLoop} {f : Byte → Byte}
    (hloop : ∀ dst src n, loop s.params dst src n = mapBytes dst src f n) (hs : GfBuffersOk s) (hraced : s.raced = [])
    (hdst : Ordinary s s.arg0.toNat s.arg2.toNat) (hsrc : Ordinary s s.arg1.toNat s.arg2.toNat) :
    LoopStores s loop fun i => f (s.mem.read (s.arg1.toNat + i)) := by
  obtain ⟨hwf, -, hd, hs', -⟩ := id hs
  rw [LoopStores, hloop]
  exact mapBytes_rewrites (quiet_start hraced) hwf hd hs' hs.apart (hdst.closed hd) (hsrc.closed hs')

/-- The zeros of GF_MUL_MEM with c = 0, which does not read src (spec R227). -/
theorem zeros_stored (hs : GfBuffersOk s) (hraced : s.raced = []) (hdst : Ordinary s s.arg0.toNat s.arg2.toNat) :
    LoopStores s (gfMulLoop 0) fun _ => 0 := by
  obtain ⟨hwf, -, hd, -⟩ := hs
  exact memZero_rewrites (quiet_start hraced) hwf hd (hdst.closed hd)

/-! ## GF_ADD_MEM and GF_MULADD_MEM -/

theorem changedElements_self (s : State) : changedElements s s = [] :=
  List.filter_eq_nil_iff.2 fun _ _ => by simp

/-- GF_MULADD_MEM with c = 0 accesses no memory and leaves the records of the table (spec R223, R226). -/
theorem exec_gfMuladdMem_zero (hs : GfBuffersOk s) : exec (.gfMuladdMem 0) s = .next (s.finish .success) := by
  obtain ⟨-, hlen, -⟩ := id hs
  rcases Nat.eq_zero_or_pos s.arg2.toNat with hn | hn
  · exact exec_of_ok (i := .gfMuladdMem 0) (gfVector_empty (gfMuladdLoop 0) hlen hn)
  · refine (exec_of_ok (i := .gfMuladdMem 0) (gfVector_run (loop := gfMuladdLoop 0) hs hn)).trans ?_
    rw [start_st, noteTable_of_unchanged (changedElements_self s)]

/-- A vector command depends on its loop at the build's parameters alone. -/
theorem gfVector_congr {loop loop' : VectorLoop} {r : Run} (h : loop r.st.params = loop' r.st.params) :
    gfVector loop r = gfVector loop' r := by
  rw [gfVector, gfVector, bind_run_ok (getState_run r), bind_run_ok (getState_run r), h]

theorem StartsFrom.params {q : Run} (h : StartsFrom s q) : q.st.params = s.params := by
  rw [StartsFrom] at h
  rw [h]

/-- GF_MULADD_MEM with c = 1 is GF_ADD_MEM (spec R226). -/
theorem exec_gfMuladdMem_one (h : FieldOk s.params) : exec (.gfMuladdMem 1) s = exec .gfAddMem s := by
  have hone : gfMul s.params 1 = fun x => x := by
    funext x
    rw [gfMul_eq_xmul h, xmul_comm, xmul_one h.degree]
  rw [exec_eq, exec_eq]
  refine congrArg _ (conclude_congr fun q hq => gfVector_congr ?_)
  funext dst src n
  rw [hq.params, gfMuladdLoop, if_neg (by decide), hone, gfAddLoop]

/-- GF_MULADD_MEM adds c times src to dst, whatever c (spec R226). -/
theorem gfMuladdMem_stores (c : Byte) (h : FieldOk s.params) (hs : GfBuffersOk s) (hraced : s.raced = [])
    (hdst : Ordinary s s.arg0.toNat s.arg2.toNat) (hsrc : Ordinary s s.arg1.toNat s.arg2.toNat) :
    Stores (.gfMuladdMem c) s fun i =>
      s.mem.read (s.arg0.toNat + i) ^^^ xmul s.params c (s.mem.read (s.arg1.toNat + i)) := by
  by_cases hc : c = 0
  · subst hc
    obtain ⟨hwf, -⟩ := id hs
    have hkept : WritesOnly s.mem s.mem s.arg0.toNat s.arg2.toNat fun i => s.mem.read (s.arg0.toNat + i) := Rewritten.refl hwf
    refine Stores.congr ⟨s.mem, s.replaced, s.copied, s.pending, exec_gfMuladdMem_zero hs, hkept⟩ fun i => ?_
    rw [xmul_zero_left]
    exact BitVec.xor_zero.symm
  · have hloop : ∀ dst src n, gfMuladdLoop c s.params dst src n = accumulate dst src (gfMul s.params c) n :=
      fun _ _ _ => if_neg hc
    refine ((accumulate_stores hloop hs hraced hdst hsrc).exec rfl hs).congr fun i => ?_
    rw [gfMul_eq_xmul h]

/-- GF_ADD_MEM adds src to dst (spec R225). -/
theorem gfAddMem_stores (hs : GfBuffersOk s) (hraced : s.raced = []) (hdst : Ordinary s s.arg0.toNat s.arg2.toNat)
    (hsrc : Ordinary s s.arg1.toNat s.arg2.toNat) :
    Stores .gfAddMem s fun i => s.mem.read (s.arg0.toNat + i) ^^^ s.mem.read (s.arg1.toNat + i) :=
  (accumulate_stores (loop := gfAddLoop) (f := fun x => x) (fun _ _ _ => rfl) hs hraced hdst hsrc).exec rfl hs

/-- Settles O30: the loop's bytes, and the scalars 0 and 1. -/
theorem gfAddMuladdMemResult : Obligations.GfAddMuladdMemResult :=
  ⟨fun _ hs hraced hdst hsrc => gfAddMem_stores hs hraced hdst hsrc,
    fun c _ h hs hraced hdst hsrc => gfMuladdMem_stores c h hs hraced hdst hsrc, fun _ hs => exec_gfMuladdMem_zero hs,
    fun _ h => exec_gfMuladdMem_one h⟩

/-! ## GF_MUL_MEM and GF_DIV_MEM -/

/-- GF_MUL_MEM stores c times src to dst; src need be ordinary memory only where it is read (spec R227). -/
theorem gfMulMem_stores (c : Byte) (h : FieldOk s.params) (hs : GfBuffersOk s) (hraced : s.raced = [])
    (hdst : Ordinary s s.arg0.toNat s.arg2.toNat) (hsrc : c ≠ 0 → Ordinary s s.arg1.toNat s.arg2.toNat) :
    Stores (.gfMulMem c) s fun i => xmul s.params c (s.mem.read (s.arg1.toNat + i)) := by
  by_cases hc : c = 0
  · subst hc
    exact ((zeros_stored hs hraced hdst).exec rfl hs).congr fun i => (xmul_zero_left _).symm
  · have hloop : ∀ dst src n, gfMulLoop c s.params dst src n = mapBytes dst src (gfMul s.params c) n :=
      fun _ _ _ => if_neg hc
    exact ((mapBytes_stores hloop hs hraced hdst (hsrc hc)).exec rfl hs).congr fun i => gfMul_eq_xmul h c _

/-- GF_DIV_MEM stores the quotients of src by c to dst (spec R228). -/
theorem gfDivMem_stores {c : Byte} (hc : c ≠ 0) (hs : GfBuffersOk s) (hraced : s.raced = [])
    (hdst : Ordinary s s.arg0.toNat s.arg2.toNat) (hsrc : Ordinary s s.arg1.toNat s.arg2.toNat) :
    Stores (.gfDivMem c) s fun i => gfDiv s.params (s.mem.read (s.arg1.toNat + i)) c :=
  (mapBytes_stores (loop := gfDivLoop c) (f := fun x => gfDiv s.params x c) (fun _ _ _ => rfl) hs hraced hdst hsrc).exec
    (gfDivMemBody_run hc _) hs

/-- Settles O31: the products, and the quotients as the field's division gives them. -/
theorem gfMulDivMemResult : Obligations.GfMulDivMemResult := by
  intro c s h hs hraced hdst hsrc
  refine ⟨gfMulMem_stores c h hs hraced hdst hsrc, fun hc => ?_⟩
  obtain ⟨m, rep, cop, owed, hexec, hm⟩ := gfDivMem_stores hc hs hraced hdst (hsrc hc)
  exact ⟨m, rep, cop, owed, fun x => gfDiv s.params x c, fun x => xmul_gfDiv h x hc, hexec, hm⟩

end Stores

end Sys2Proof.Machine
end

section
/-! SUPPORT. The bitset engine (spec R300 to R317): the checks of its commands, what its updates write, what its questions
answer. -/

namespace Sys2Proof.Machine

/-! ## Ranges of bits (spec R301, R305, R306) -/

section BitRanges

variable {w : Nat} (v : BitVec w) {a e : Nat}

/-- `for i in a .. e-1: B[i] <- val`: `setBits` or `clearBits`. -/
def writeBits (val : Bool) (v : BitVec w) (a e : Nat) : BitVec w := if val then setBits v a e else clearBits v a e

/-- Inside the vector exactly the bits of `[a, e)` take the value. -/
theorem getLsbD_writeBits (val : Bool) (he : e ≤ w) (j : Nat) :
    (writeBits val v a e).getLsbD j = if a ≤ j ∧ j < e then val else v.getLsbD j := by
  by_cases hj : a ≤ j ∧ j < e
  · have hw : j < w := by omega
    rw [if_pos hj]
    cases val with
    | true => simp [writeBits, getLsbD_setBits, hj, hw]
    | false => simp [writeBits, getLsbD_clearBits, hj]
  · have hout : (decide (a ≤ j) && decide (j < e)) = false := by rw [← Bool.decide_and, decide_eq_false hj]
    rw [if_neg hj]
    cases val with
    | true => simp [writeBits, getLsbD_setBits, Bool.and_assoc, hout]
    | false => simp [writeBits, getLsbD_clearBits, hout]

/-- `findBit` over `[a, e)` answers the least index there whose bit is `x`, or `e`. -/
theorem findBit_least (x : Bool) (h : a ≤ e) :
    a ≤ findBit v x (e - a) a ∧ findBit v x (e - a) a ≤ e ∧
      (∀ j, a ≤ j → j < findBit v x (e - a) a → v.getLsbD j = !x) ∧
      (findBit v x (e - a) a < e → v.getLsbD (findBit v x (e - a) a) = x) := by
  obtain ⟨hlow, hhigh⟩ := findBit_bounds v x (e - a) a
  refine ⟨hlow, by omega, fun j h1 h2 => ?_, fun hr => findBit_at v x _ _ (by omega)⟩
  exact Bool.eq_not.2 (findBit_before v x _ _ j h1 h2)

theorem countSet_eq_card (n a : Nat) :
    countSet v n a = ((Finset.Ico a (a + n)).filter fun j => v.getLsbD j = true).card := by
  rw [Finset.card_filter]
  induction n generalizing a with
  | zero => simp [countSet_zero]
  | succ n ih =>
    have hend : a + 1 + n = a + (n + 1) := by omega
    rw [countSet_succ, ih, hend, Finset.sum_eq_sum_Ico_succ_bot (by omega : a < a + (n + 1))]

/-- The set bits of a range below `cap` are counted among all below `cap` (spec R315). -/
theorem popcountRange_eq_card {cap : Nat} (h : a ≤ e) (hcap : e ≤ cap) :
    popcountRange v a e = ((Finset.range cap).filter fun j => a ≤ j ∧ j < e ∧ v.getLsbD j = true).card := by
  rw [popcountRange, countSet_eq_card, Nat.add_sub_cancel' h]
  congr 1
  ext j
  simp only [Finset.mem_filter, Finset.mem_Ico, Finset.mem_range]
  constructor
  · rintro ⟨⟨ha, he⟩, hj⟩
    exact ⟨by omega, ha, he, hj⟩
  · rintro ⟨-, ha, he, hj⟩
    exact ⟨⟨ha, he⟩, hj⟩

end BitRanges

/-! ## The checks (spec R302, R310, R313, R316) -/

section BitsetChecks

variable {b : BitVec 4} {s : State}

theorem bitsetCheck_passes (hb : b.toNat < s.params.nbs) : bitsetCheck b (Run.start s) = .ok () (Run.start s) :=
  (bind_run_ok (getState_run _)).trans (rejectIf_unmet (Nat.not_le.2 hb) _ _)

theorem bitsetCheck_rejects (hb : b.toNat ≥ s.params.nbs) :
    bitsetCheck b (Run.start s) = .error (.reject .argRange) (Run.start s) :=
  (bind_run_ok (getState_run _)).trans (rejectIf_met hb _ _)

theorem bitsetIndex_passes (hb : b.toNat < s.params.nbs) (hi : s.arg0.toNat < s.params.bsCap) :
    bitsetIndex b (Run.start s) = .ok s.arg0.toNat (Run.start s) :=
  (bind_run_ok (bitsetCheck_passes hb)).trans <| (bind_run_ok (getState_run _)).trans
    (bind_run_ok (rejectIf_unmet (Nat.not_le.2 hi) _ _))

theorem bitsetIndex_rejects (h : b.toNat ≥ s.params.nbs ∨ s.arg0.toNat ≥ s.params.bsCap) :
    bitsetIndex b (Run.start s) = .error (.reject .argRange) (Run.start s) := by
  rcases Nat.lt_or_ge b.toNat s.params.nbs with hb | hb
  · have hi : s.arg0.toNat ≥ s.params.bsCap := h.resolve_left (Nat.not_le.2 hb)
    exact (bind_run_ok (bitsetCheck_passes hb)).trans <| (bind_run_ok (getState_run _)).trans
      (bind_run_error (rejectIf_met hi _ _))
  · exact bind_run_error (bitsetCheck_rejects hb)

/-- The operands name a range inside the bitset (spec R313). -/
abbrev LegalRange (s : State) : Prop := s.arg0.toNat ≤ s.arg1.toNat ∧ s.arg1.toNat ≤ s.params.bsCap

theorem bitsetRange_passes (hb : b.toNat < s.params.nbs) (h : LegalRange s) :
    bitsetRange b (Run.start s) = .ok (s.arg0.toNat, s.arg1.toNat) (Run.start s) := by
  refine (bind_run_ok (bitsetCheck_passes hb)).trans <| (bind_run_ok (getState_run _)).trans (bind_run_ok (a := ()) ?_)
  rw [start_st, decide_eq_true h]
  rfl

theorem bitsetRange_rejects (h : b.toNat ≥ s.params.nbs ∨ ¬ LegalRange s) :
    bitsetRange b (Run.start s) = .error (.reject .argRange) (Run.start s) := by
  rcases Nat.lt_or_ge b.toNat s.params.nbs with hb | hb
  · have hrange : ¬ LegalRange s := h.resolve_left (Nat.not_le.2 hb)
    refine (bind_run_ok (bitsetCheck_passes hb)).trans <| (bind_run_ok (getState_run _)).trans (bind_run_error ?_)
    rw [start_st, decide_eq_false hrange]
    rfl
  · exact bind_run_error (bitsetCheck_rejects hb)

theorem bsFfcBody_passes (hb : b.toNat < s.params.nbs) (h : s.arg0.toNat ≤ s.params.bsCap) :
    bsFfcBody b (Run.start s) =
      resultNat (ffcBits (s.bitset b.toNat) s.arg0.toNat s.params.bsCap) (Run.start s) :=
  (bind_run_ok (bitsetCheck_passes hb)).trans <| (bind_run_ok (getState_run _)).trans
    (bind_run_ok (rejectIf_unmet (Nat.not_lt.2 h) _ _))

theorem bsFfcBody_rejects (h : b.toNat ≥ s.params.nbs ∨ s.arg0.toNat > s.params.bsCap) :
    bsFfcBody b (Run.start s) = .error (.reject .argRange) (Run.start s) := by
  rcases Nat.lt_or_ge b.toNat s.params.nbs with hb | hb
  · have hstart : s.arg0.toNat > s.params.bsCap := h.resolve_left (Nat.not_le.2 hb)
    exact (bind_run_ok (bitsetCheck_passes hb)).trans <| (bind_run_ok (getState_run _)).trans
      (bind_run_error (rejectIf_met hstart _ _))
  · exact bind_run_error (bitsetCheck_rejects hb)

end BitsetChecks

/-! ## Rejected commands -/

section BitsetRejects

variable {b : BitVec 4} {s : State} {i : Instr}

/-- A command that takes an index. -/
theorem indexCommand_rejected {f : Nat → Cmd Unit} (hi : commandBody i = bitsetIndex b >>= f)
    (h : b.toNat ≥ s.params.nbs ∨ s.arg0.toNat ≥ s.params.bsCap) : exec i s = .next (s.reject .invalidInput .argRange) :=
  exec_of_reject (by rw [hi]; exact bind_run_error (bitsetIndex_rejects h))

/-- A command that takes a range. -/
theorem rangeCommand_rejected {f : Nat × Nat → Cmd Unit} (hi : commandBody i = bitsetRange b >>= f)
    (h : b.toNat ≥ s.params.nbs ∨ ¬ LegalRange s) : exec i s = .next (s.reject .invalidInput .argRange) :=
  exec_of_reject (by rw [hi]; exact bind_run_error (bitsetRange_rejects h))

theorem bsFfc_rejected (h : b.toNat ≥ s.params.nbs ∨ s.arg0.toNat > s.params.bsCap) :
    exec (.bsFfc b) s = .next (s.reject .invalidInput .argRange) :=
  exec_of_reject (bsFfcBody_rejects h)

end BitsetRejects

/-- Settles O35: a command takes an index, a range or, BS_FFC, a start, and its first failing check ends it. -/
theorem bitsetRejects : Obligations.BitsetRejects := by
  rintro i b s (⟨hb, hi⟩ | ⟨hindex, hi⟩ | ⟨hstart, rfl⟩ | ⟨hrange, hi⟩)
  · rcases hi with rfl | rfl | rfl | rfl | rfl | rfl | rfl | rfl
    iterate 3 exact indexCommand_rejected rfl (.inl hb)
    iterate 3 exact rangeCommand_rejected rfl (.inl hb)
    · exact bsFfc_rejected (.inl hb)
    · exact rangeCommand_rejected rfl (.inl hb)
  · rcases hi with rfl | rfl | rfl <;> exact indexCommand_rejected rfl (.inr hindex)
  · exact bsFfc_rejected (.inr hstart)
  · rcases hi with rfl | rfl | rfl | rfl <;> exact rangeCommand_rejected rfl (.inr hrange)

/-! ## Updates (spec R310, R311, R313, R314) -/

section BitsetUpdates

variable {b : BitVec 4} {s : State}

theorem bitsetAt_run (f : BitVec Config.bitsetWidth → Nat → BitVec Config.bitsetWidth) (hb : b.toNat < s.params.nbs)
    (hi : s.arg0.toNat < s.params.bsCap) :
    bitsetAt b f (Run.start s) = .ok () (Run.start (s.setBitset b.toNat (f (s.bitset b.toNat) s.arg0.toNat))) :=
  bind_run_ok (bitsetIndex_passes hb hi)

theorem bitsetOver_run (f : BitVec Config.bitsetWidth → Nat → Nat → BitVec Config.bitsetWidth)
    (hb : b.toNat < s.params.nbs) (h : LegalRange s) :
    bitsetOver b f (Run.start s) =
      .ok () (Run.start (s.setBitset b.toNat (f (s.bitset b.toNat) s.arg0.toNat s.arg1.toNat))) :=
  bind_run_ok (bitsetRange_passes hb h)

theorem exec_bitWrite (val : Bool) (hb : b.toNat < s.params.nbs) (hi : s.arg0.toNat < s.params.bsCap) :
    exec (if val then .bsSet b else .bsClear b) s =
      .next ((s.setBitset b.toNat (writeBits val (s.bitset b.toNat) s.arg0.toNat (s.arg0.toNat + 1))).finish .success) := by
  cases val with
  | true => exact exec_of_ok (i := .bsSet b) (bitsetAt_run (fun v i => setBits v i (i + 1)) hb hi)
  | false => exact exec_of_ok (i := .bsClear b) (bitsetAt_run (fun v i => clearBits v i (i + 1)) hb hi)

theorem exec_rangeWrite (val : Bool) (hb : b.toNat < s.params.nbs) (h : LegalRange s) :
    exec (if val then .bsSetRange b else .bsClearRange b) s =
      .next ((s.setBitset b.toNat (writeBits val (s.bitset b.toNat) s.arg0.toNat s.arg1.toNat)).finish .success) := by
  cases val with
  | true => exact exec_of_ok (i := .bsSetRange b) (bitsetOver_run _ hb h)
  | false => exact exec_of_ok (i := .bsClearRange b) (bitsetOver_run _ hb h)

/-- Writing a range of one bitset changes no bit outside that range and no other bitset. -/
theorem bit_setBitset_writeBits (val : Bool) {a e : Nat} (he : e ≤ Config.bitsetWidth) (b' j : Nat) :
    (s.setBitset b.toNat (writeBits val (s.bitset b.toNat) a e)).bit b' j =
      if b' = b.toNat ∧ a ≤ j ∧ j < e then val else s.bit b' j := by
  rw [State.bit, State.bitset_setBitset _ _ _ _ b.isLt]
  by_cases hb : b' = b.toNat
  · subst hb
    simp only [true_and, if_true]
    exact getLsbD_writeBits _ val he j
  · simp only [hb, false_and, if_false]
    rfl

/-- Settles O33: each command writes a range of bits, of one bit where it takes an index. -/
theorem bitsetUpdates : Obligations.BitsetUpdates := by
  intro b val s hlegal hb
  obtain ⟨-, -, ⟨-, -, hcap⟩, -⟩ := hlegal
  constructor
  · intro hi
    refine ⟨_, exec_bitWrite val hb hi, fun b' j => ?_⟩
    have hend : s.arg0.toNat + 1 ≤ Config.bitsetWidth := Nat.le_trans hi hcap.le
    exact (bit_setBitset_writeBits val hend b' j).trans (if_congr (by omega) rfl rfl)
  · intro ha he
    exact ⟨_, exec_rangeWrite val hb ⟨ha, he⟩, bit_setBitset_writeBits val (Nat.le_trans he hcap.le)⟩

end BitsetUpdates

/-! ## Questions (spec R312, R315 to R317) -/

section BitsetAnswers

variable {b : BitVec 4} {s : State} {i : Instr}

/-- A command whose run comes to answering a number changes RES0 alone. -/
theorem exec_resultNat {n : Nat} (h : commandBody i (Run.start s) = resultNat n (Run.start s)) :
    exec i s = .next (({ s with res0 := BitVec.ofNat 64 n } : State).finish .success) :=
  exec_of_ok h

theorem bsCheckBody_run (hb : b.toNat < s.params.nbs) (hi : s.arg0.toNat < s.params.bsCap) :
    bsCheckBody b (Run.start s) = resultNat (if s.bit b.toNat s.arg0.toNat then 1 else 0) (Run.start s) :=
  (bind_run_ok (bitsetIndex_passes hb hi)).trans (bind_run_ok (getState_run _))

theorem bitsetAsk_run (f : BitVec Config.bitsetWidth → Nat → Nat → Nat) (hb : b.toNat < s.params.nbs)
    (h : LegalRange s) :
    bitsetAsk b f (Run.start s) = resultNat (f (s.bitset b.toNat) s.arg0.toNat s.arg1.toNat) (Run.start s) :=
  (bind_run_ok (bitsetRange_passes hb h)).trans (bind_run_ok (getState_run _))

end BitsetAnswers

/-- Settles O34: each command answers its number of the bitset, and the numbers are the count and the least indices. -/
theorem bitsetAnswers : Obligations.BitsetAnswers := by
  intro b s hb cap answers
  refine ⟨fun hi => exec_resultNat (bsCheckBody_run hb hi), fun hstart => ?_, fun ha he => ⟨?_, ?_⟩⟩
  · obtain ⟨hlow, hhigh, hbefore, hat⟩ := findBit_least (s.bitset b.toNat) false hstart
    exact ⟨_, hlow, hhigh, hbefore, hat, exec_resultNat (bsFfcBody_passes hb hstart)⟩
  · have hcard := popcountRange_eq_card (s.bitset b.toNat) ha he
    exact exec_resultNat ((bitsetAsk_run _ hb ⟨ha, he⟩).trans (congrArg (resultNat · (Run.start s)) hcard))
  · obtain ⟨hlow, hhigh, hbefore, hat⟩ := findBit_least (s.bitset b.toNat) true ha
    exact ⟨_, hlow, hhigh, hbefore, hat, exec_resultNat (bitsetAsk_run _ hb ⟨ha, he⟩)⟩

end Sys2Proof.Machine
end

section
/-! SUPPORT. The slab allocator's windows and lists as functions of the state (spec R356, R359 to R364): the gap scan, the walk
over PREF, the lowest free slot, the migration after an allocation, and the release of a run. -/

namespace Sys2Proof.Machine

/-! ## The gap scan (spec R356) -/

/-- The `u` units from `st` are free. -/
def ClearRun (used : BitVec Config.unitWidth) (u st : Nat) : Prop := ∀ j, st ≤ j → j < st + u → used.getLsbD j = false

section GapScan

variable {units u start fuel : Nat} {used : BitVec Config.unitWidth}

theorem le_ffcBits (used : BitVec Config.unitWidth) (start units : Nat) : start ≤ ffcBits used start units :=
  (findBit_bounds used false (units - start) start).1

theorem ffcBits_free (h : ffcBits used start units < units) : used.getLsbD (ffcBits used start units) = false :=
  findBit_at used false (units - start) start (by have := le_ffcBits used start units; change ffcBits used start units < _; omega)

/-- No run starts at an allocated unit. -/
theorem not_clearRun_before_ffc (hu : 0 < u) {x : Nat} (h1 : start ≤ x) (h2 : x < ffcBits used start units) :
    ¬ ClearRun used u x := fun h => findBit_before used false _ _ x h1 h2 (h x (Nat.le_refl x) (by omega))

/-- The scan meets an allocated unit in the run that it tries: no run starts before that unit, which lies further on. -/
theorem ffs_skips {e : Nat} (hu : 0 < u) (hroom : ffcBits used start units + u ≤ units)
    (he : ffsBits used (ffcBits used start units) (ffcBits used start units + u) = e)
    (hstop : e ≠ ffcBits used start units + u) :
    start < e ∧ ∀ x, start ≤ x → x < e → ¬ ClearRun used u x := by
  have hfree : used.getLsbD (ffcBits used start units) = false := ffcBits_free (by omega)
  have hlow := le_ffcBits used start units
  obtain ⟨hfrom, hto, -, hset⟩ := findBit_least used true (Nat.le_add_right (ffcBits used start units) u)
  rw [← ffsBits, he] at hfrom hto hset
  have hallocated : used.getLsbD e = true := hset (by omega)
  have hne : e ≠ ffcBits used start units := fun h => by
    rw [h, hfree] at hallocated
    cases hallocated
  refine ⟨by omega, fun x h1 h2 => ?_⟩
  by_cases hx : x < ffcBits used start units
  · exact not_clearRun_before_ffc hu h1 hx
  · intro h
    rw [h e (by omega) (by omega)] at hallocated
    cases hallocated

/-- The scan answers the first run at or after `start`; without an answer there is none. -/
theorem gapScan_least (hu : 0 < u) (hfuel : units < start + fuel) :
    (∀ st, gapScan units used u fuel start = some st → start ≤ st ∧ ∀ x, start ≤ x → x < st → ¬ ClearRun used u x) ∧
    (gapScan units used u fuel start = none → ∀ x, start ≤ x → x + u ≤ units → ¬ ClearRun used u x) := by
  induction fuel generalizing start with
  | zero => exact ⟨nofun, fun _ x h1 h2 => by omega⟩
  | succ fuel ih =>
    simp only [gapScan]
    split
    · exact ⟨nofun, fun _ x h1 h2 => not_clearRun_before_ffc (units := units) hu h1 (by omega)⟩
    · rename_i hroom
      split
      · refine ⟨fun st h => ?_, nofun⟩
        obtain rfl := Option.some.inj h
        exact ⟨le_ffcBits used start units, fun x h1 h2 => not_clearRun_before_ffc hu h1 h2⟩
      · rename_i hstop
        obtain ⟨hnext, hskip⟩ := ffs_skips hu (Nat.le_of_not_lt hroom) rfl hstop
        obtain ⟨hsome, hnone⟩ := ih (start := ffsBits used (ffcBits used start units) (ffcBits used start units + u)) (by omega)
        refine ⟨fun st h => ?_, fun h x h1 h2 hx => ?_⟩
        · obtain ⟨hfrom, hbefore⟩ := hsome st h
          refine ⟨by omega, fun x h1 h2 hx => ?_⟩
          exact (Nat.lt_or_ge x _).elim (fun hlt => hskip x h1 hlt hx) fun hge => hbefore x hge h2 hx
        · exact (Nat.lt_or_ge x _).elim (fun hlt => hskip x h1 hlt hx) fun hge => hnone h x hge h2 hx

end GapScan

/-- Settles O36: every round of the scan moves past units at which no run starts, and the rounds suffice for the window. -/
theorem findGapIsLowest : Obligations.FindGapIsLowest := by
  intro units w u hu clear
  obtain ⟨hsome, hnone⟩ := gapScan_least (start := w.resume) (fuel := units + 1) (units := units) (used := w.used) hu (by omega)
  refine ⟨fun st h => ?_, hnone⟩
  obtain ⟨hend, hclear⟩ := gapScan_gap h
  obtain ⟨hfrom, hbefore⟩ := hsome st h
  exact ⟨hfrom, hend, hclear, hbefore⟩

/-! ## Which window takes a request (spec R359, R361) -/

section Walk

variable {s : State} {u w st i : Nat} {scanned : List Nat}

theorem takes_eq_none_iff : takes s w u = none ↔ PassedOver s u w := by
  unfold takes PassedOver
  split
  · exact ⟨.inr, fun h => h.resolve_left (by omega)⟩
  · exact ⟨fun _ => .inl (by omega), fun _ => rfl⟩

theorem takes_eq_some (hfree : u ≤ (s.slot w).free) (hgap : findGap s.params.maxUnits (s.slot w) u = some st) :
    takes s w u = some st := (if_pos hfree).trans hgap

/-- The walk stops at the first window that takes the request. -/
theorem walkPref_append {pre rest : List Nat} (acc : List Nat) (hpre : ∀ x ∈ pre, PassedOver s u x)
    (hw : takes s w u = some st) : walkPref s u (pre ++ w :: rest) acc = (some (w, st), acc ++ pre) := by
  induction pre generalizing acc with
  | nil => rw [List.nil_append, walkPref, hw, List.append_nil]
  | cons x pre ih =>
    have hx : takes s x u = none := takes_eq_none_iff.2 (hpre x (List.mem_cons_self ..))
    rw [List.cons_append, walkPref, hx]
    simp only
    rw [ih _ fun y hy => hpre y (List.mem_cons_of_mem _ hy), List.append_assoc, List.singleton_append]

theorem FirstThatTakes.walkPref (h : FirstThatTakes s u scanned w st) :
    walkPref s u s.prefList [] = (some (w, st), scanned) := by
  obtain ⟨⟨rest, hlist⟩, hpassed, hfree, hgap⟩ := h
  rw [hlist, walkPref_append [] hpassed (takes_eq_some hfree hgap), List.nil_append]

theorem walkPref_none {left : List Nat} (acc : List Nat) (h : ∀ x ∈ left, PassedOver s u x) :
    walkPref s u left acc = (none, acc ++ left) := by
  induction left generalizing acc with
  | nil => rw [walkPref, List.append_nil]
  | cons x left ih =>
    have hx : takes s x u = none := takes_eq_none_iff.2 (h x (List.mem_cons_self ..))
    rw [walkPref, hx]
    simp only
    rw [ih _ fun y hy => h y (List.mem_cons_of_mem _ hy), List.append_assoc, List.singleton_append]

theorem NoWindowTakes.walkPref (h : NoWindowTakes s u) : walkPref s u s.prefList [] = (none, s.prefList) :=
  walkPref_none [] h

/-- The search for a slot that is not live, over live slots and up to the first that is not. -/
theorem lowestDead_eq_some {n k : Nat} (hk : k ≤ i) (hi : i < k + n) (hdead : (s.slot i).live = false)
    (hlive : ∀ j, j < i → (s.slot j).live = true) : lowestDead s n k = some i := by
  induction n generalizing k with
  | zero => omega
  | succ n ih =>
    rw [lowestDead]
    by_cases hki : k = i
    · rw [hki, hdead]
      rfl
    · rw [if_pos (hlive k (by omega)), ih (by omega) (by omega)]

theorem LowestDead.lowestDead (h : LowestDead s i) : lowestDead s s.params.nwMax 0 = some i := by
  obtain ⟨hlt, hdead, hlive⟩ := h
  exact lowestDead_eq_some (Nat.zero_le i) (by omega) hdead hlive

theorem lowestDead_eq_none {n k : Nat} (h : ∀ j, j < k + n → (s.slot j).live = true) : lowestDead s n k = none := by
  induction n generalizing k with
  | zero => rfl
  | succ n ih => rw [lowestDead, if_pos (h k (by omega)), ih fun j hj => h j (by omega)]

/-- A slot number of a window that takes a request is one of the slots. -/
theorem slot_lt_of_takes (hu : 0 < u) (hfree : u ≤ (s.slot w).free) : w < Config.maxSlots := by
  by_contra hge
  rw [s.slot_of_ge (Nat.le_of_not_lt hge)] at hfree
  exact absurd hfree (Nat.not_le.2 hu)

end Walk

/-! ## The migration after an allocation (spec R360) -/

section Migration

variable {s : State} {x : Nat} {l : List Nat}

theorem prefFreeThreshold_eq {p : Params} (h : p.Legal) : p.prefFreeThreshold = 512 := by
  rw [Params.prefFreeThreshold, maxUnits_eq h]

theorem largeUnits_eq {p : Params} (h : p.Legal) : p.largeUnits = 512 := by rw [Params.largeUnits, maxUnits_eq h]

/-- The window is in PREF with too few free units to stay there. -/
def movesOut (s : State) (x : Nat) : Bool := decide ((s.slot x).list = .pref ∧ (s.slot x).free < 512)

theorem migrate_of_moves (hlegal : s.params.Legal) (h : movesOut s x = true) : migrate s x =
    (s.setSlot x { s.slot x with list := .full }).setLists (s.prefList.erase x) (s.fullList ++ [x]) := by
  rw [movesOut, decide_eq_true_eq, ← prefFreeThreshold_eq hlegal] at h
  exact if_pos h

theorem migrate_of_stays (hlegal : s.params.Legal) (h : movesOut s x = false) : migrate s x = s := by
  rw [movesOut, decide_eq_false_iff_not, ← prefFreeThreshold_eq hlegal] at h
  exact if_neg h

theorem migrate_slot_of_ne {y : Nat} (hx : x < Config.maxSlots) (hy : y ≠ x) : (migrate s x).slot y = s.slot y := by
  unfold migrate
  simp only
  split
  · exact (s.slot_setSlot y x _ hx).trans (if_neg hy)
  · rfl

/-- The slots and the lists are all that a migration of windows changes; `moved` are those that go to FULL, in order. -/
structure Migrated (s t : State) (moved : List Nat) : Prop where
  prefList : t.prefList = s.prefList.filter (fun x => !moved.contains x)
  fullList : t.fullList = s.fullList ++ moved
  slot : ∀ x, t.slot x = if x ∈ moved then { s.slot x with list := .full } else s.slot x
  frame : ∃ v p f, t = { s with slots := v, prefList := p, fullList := f }

theorem Migrated.refl (s : State) : Migrated s s [] where
  prefList := (List.filter_eq_self.2 fun _ _ => rfl).symm
  fullList := (List.append_nil _).symm
  slot _ := (if_neg List.not_mem_nil).symm
  frame := ⟨_, _, _, rfl⟩

/-- One window moves first, then others. -/
theorem Migrated.cons {t : State} {moved : List Nat} (hlegal : s.params.Legal) (hx : x < Config.maxSlots)
    (hnodup : s.prefList.Nodup) (hmoves : movesOut s x = true) (hnot : x ∉ moved) (h : Migrated (migrate s x) t moved) :
    Migrated s t (x :: moved) := by
  obtain ⟨hpref, hfull, hslot, v, p, f, hframe⟩ := h
  rw [migrate_of_moves hlegal hmoves] at hpref hfull hslot hframe
  refine ⟨?_, ?_, fun y => ?_, v, p, f, hframe⟩
  · rw [hpref, State.setLists_prefList, hnodup.erase_eq_filter, List.filter_filter]
    refine List.filter_congr fun y _ => ?_
    by_cases hy : y = x <;> simp [hy]
  · rw [hfull, State.setLists_fullList, List.append_assoc, List.singleton_append]
  · have hbase : ((s.setSlot x { s.slot x with list := .full }).setLists (s.prefList.erase x) (s.fullList ++ [x])).slot y =
        if y = x then { s.slot x with list := .full } else s.slot y := s.slot_setSlot y x _ hx
    rw [hslot, hbase]
    by_cases hy : y = x
    · subst hy
      simp [hnot]
    · simp [hy]

/-- Moving windows of a list one after the other (spec R360). -/
theorem foldl_migrate_migrated (hlegal : s.params.Legal) (hnodup : s.prefList.Nodup) (hl : l.Nodup)
    (hlt : ∀ x ∈ l, x < Config.maxSlots) : Migrated s (l.foldl migrate s) (l.filter (movesOut s)) := by
  induction l generalizing s with
  | nil => exact .refl s
  | cons x l ih =>
    obtain ⟨hnot, hl⟩ := List.nodup_cons.1 hl
    have hx := hlt x (List.mem_cons_self ..)
    have hlegal' : (migrate s x).params.Legal := by
      unfold migrate
      simp only
      split <;> exact hlegal
    have hnodup' : (migrate s x).prefList.Nodup := by
      unfold migrate
      simp only
      split
      · exact hnodup.erase x
      · exact hnodup
    have hsame : l.filter (movesOut (migrate s x)) = l.filter (movesOut s) := List.filter_congr fun y hy => by
      rw [movesOut, movesOut, migrate_slot_of_ne hx fun he => hnot (he ▸ hy)]
    have hrest := ih hlegal' hnodup' hl fun y hy => hlt y (List.mem_cons_of_mem _ hy)
    rw [hsame] at hrest
    rw [List.foldl_cons]
    cases hm : movesOut s x with
    | true =>
      rw [List.filter_cons_of_pos hm]
      exact hrest.cons hlegal hx hnodup hm fun hmem => hnot (List.mem_filter.1 hmem).1
    | false =>
      rw [List.filter_cons_of_neg (by rw [hm]; exact Bool.false_ne_true)]
      rwa [migrate_of_stays hlegal hm] at hrest ⊢

theorem post_of_takes {w u : Nat} (scanned : List Nat) (h : (takes s w u).isSome = true) : post s w u scanned = s := if_pos h

end Migration

/-- Settles O41: the windows of the walk move one after the other, each out of PREF and to the tail of FULL. -/
theorem postMigrates : Obligations.PostMigrates := by
  intro s w u scanned hlegal hs hnodup hlt
  refine ⟨fun h => post_of_takes scanned ?_, fun h => ?_⟩
  · rwa [← takes_eq_none_iff, ← ne_eq, Option.ne_none_iff_isSome] at h
  · obtain ⟨-, ⟨hpref, -⟩, -⟩ := hs
    have hpost : post s w u scanned = (scanned ++ [w]).foldl migrate s := if_neg (by rw [takes_eq_none_iff.2 h]; exact nofun)
    obtain ⟨h1, h2, h3, h4⟩ := foldl_migrate_migrated hlegal hpref hnodup fun x hx => lt_of_lt_of_le (hlt x hx) (nwMax_le hlegal)
    rw [hpost]
    exact ⟨h1, h2, h3, h4⟩

/-! ## Releasing a run (spec R363, R364) -/

section Release

variable {s : State} {slot : Nat}

theorem promote_of_full (hlegal : s.params.Legal) (h : (s.slot slot).list = .full ∧ 512 ≤ (s.slot slot).free) :
    promote s slot = (s.setSlot slot { s.slot slot with list := .pref }).setLists (s.prefList ++ [slot]) (s.fullList.erase slot) :=
  if_pos (by rwa [ge_iff_le, prefFreeThreshold_eq hlegal])

theorem promote_of_stays (hlegal : s.params.Legal) (h : ¬ ((s.slot slot).list = .full ∧ 512 ≤ (s.slot slot).free)) :
    promote s slot = s := if_neg (by rwa [ge_iff_le, prefFreeThreshold_eq hlegal])

/-- The window once the run has left it, before it may change its list. -/
def withoutRun (w : Slot) (st u : Nat) : Slot :=
  { w with used := clearBits w.used st (st + u), free := w.free + u, resume := if st < w.resume then st else w.resume }

/-- The window is in FULL and has enough free units for PREF once `u` more are free. -/
abbrev Promoted (s : State) (slot u : Nat) : Prop := (s.slot slot).list = .full ∧ 512 ≤ (s.slot slot).free + u

/-- The window without the run, in the list `l` it is in afterwards, and the lists `p` and `f`. -/
theorem releaseRun_eq (hlegal : s.params.Legal) (hlt : slot < Config.maxSlots) (st u : Nat) : ∃ l p f,
    releaseRun s slot st u = (s.setSlot slot { withoutRun (s.slot slot) st u with list := l }).setLists p f ∧
    (Promoted s slot u → l = .pref ∧ p = s.prefList ++ [slot] ∧ f = s.fullList.erase slot) ∧
    (¬ Promoted s slot u → l = (s.slot slot).list ∧ p = s.prefList ∧ f = s.fullList) := by
  have hwithout : (s.setSlot slot (withoutRun (s.slot slot) st u)).slot slot = withoutRun (s.slot slot) st u :=
    (s.slot_setSlot slot slot _ hlt).trans (if_pos rfl)
  have hrelease : releaseRun s slot st u = promote (s.setSlot slot (withoutRun (s.slot slot) st u)) slot := rfl
  have hlegal' : (s.setSlot slot (withoutRun (s.slot slot) st u)).params.Legal := hlegal
  by_cases hp : Promoted s slot u
  · refine ⟨.pref, _, _, ?_, fun _ => ⟨rfl, rfl, rfl⟩, fun hn => absurd hp hn⟩
    rw [hrelease, promote_of_full hlegal' (by rw [hwithout]; exact hp), hwithout]
    simp only [State.setSlot, State.setLists, Vector.setIfInBounds_setIfInBounds]
  · refine ⟨_, _, _, ?_, fun hn => absurd hn hp, fun _ => ⟨rfl, rfl, rfl⟩⟩
    rw [hrelease, promote_of_stays hlegal' (by rw [hwithout]; exact hp)]
    rfl

end Release

/-- Settles O44: the window without the run, which then stays in its list or goes to the tail of PREF. -/
theorem releaseRunEffect : Obligations.ReleaseRunEffect := by
  intro s slot st u hlegal hslot hend t promoted
  have hlt : slot < Config.maxSlots := lt_of_lt_of_le hslot (nwMax_le hlegal)
  obtain ⟨l, p, f, ht, hpromoted, hstays⟩ := releaseRun_eq hlegal hlt st u
  have hat : ∀ x, t.slot x = if x = slot then { withoutRun (s.slot slot) st u with list := l } else s.slot x := fun x =>
    (congrArg (State.slot · x) ht).trans (s.slot_setSlot x slot _ hlt)
  have hself : t.slot slot = { withoutRun (s.slot slot) st u with list := l } := (hat slot).trans (if_pos rfl)
  have hpref : t.prefList = p := congrArg State.prefList ht
  have hfull : t.fullList = f := congrArg State.fullList ht
  rw [hself, hpref, hfull]
  refine ⟨fun j => ?_, rfl, ?_, rfl, rfl, hpromoted, hstays, fun x hx => (hat x).trans (if_neg hx), _, p, f, ht⟩
  · simp only [withoutRun]
    rw [getLsbD_clearBits, Bool.decide_and]
  · rw [Nat.min_def]
    simp only [withoutRun]
    split <;> split <;> omega

end Sys2Proof.Machine
end

section
/-! SUPPORT. Runs of the slab allocator's pseudocode over ordinary memory, from state to state: what a command answers, where it
halts, and that the structures a window must not overlap stay where they are (spec R114, R362, R626). -/

namespace Sys2Proof.Machine

/-! ## From state to state -/

/-- From the state `s`, with nothing computed from open bytes, the command answers `a` and leaves `t`. -/
def Does {α : Type} (c : Cmd α) (s : State) (a : α) (t : State) : Prop :=
  ∀ q : Run, q.st = s → q.opens = [] → ∃ q', c q = .ok a q' ∧ q'.st = t ∧ q'.opens = []

/-- From the state `s` the command answers `a`, and has at most read. -/
def Looks {α : Type} (c : Cmd α) (s : State) (a : α) : Prop :=
  ∀ q : Run, q.st = s → q.opens = [] → ∃ q', c q = .ok a q' ∧ q'.st = s ∧ q'.opens = [] ∧ q'.writes = q.writes

/-- From the state `s` the command stops by `x` in the state `t`, having written no byte. -/
def Halts {α : Type} (c : Cmd α) (s : State) (x : Stop) (t : State) : Prop :=
  ∀ q : Run, q.st = s → q.opens = [] → ∃ q', c q = .error x q' ∧ q'.st = t ∧ q'.writes = q.writes

section Rules

variable {α β : Type} {s s₁ t : State} {a : α} {b : β} {x : Stop}

theorem does_pure (a : α) (s : State) : Does (pure a) s a s := fun q hq ho => ⟨q, rfl, hq, ho⟩

theorem does_bind {c : Cmd β} {f : β → Cmd α} (hc : Does c s b s₁) (hf : Does (f b) s₁ a t) : Does (c >>= f) s a t := by
  intro q hq ho
  obtain ⟨q₁, hc, hq₁, ho₁⟩ := hc q hq ho
  rw [bind_run_ok hc]
  exact hf q₁ hq₁ ho₁

theorem does_withState {f : State → Cmd α} (h : Does (f s) s a t) : Does (getState >>= f) s a t := by
  intro q hq ho
  rw [bind_run_ok (getState_run q), hq]
  exact h q hq ho

theorem does_modify (f : State → State) (s : State) : Does (modifyState f) s () (f s) := fun q hq ho =>
  ⟨_, modifyState_run f q, congrArg f hq, ho⟩

theorem does_congr {c c' : Cmd α} (hc : ∀ q : Run, q.st = s → c q = c' q) (h : Does c' s a t) : Does c s a t := by
  intro q hq ho
  rw [hc q hq]
  exact h q hq ho

theorem Looks.does {c : Cmd α} (h : Looks c s a) : Does c s a s := by
  intro q hq ho
  obtain ⟨q', hrun, hq', ho', -⟩ := h q hq ho
  exact ⟨q', hrun, hq', ho'⟩

theorem halts_stop (x : Stop) (s : State) : Halts (stop x : Cmd α) s x s := fun q hq _ => ⟨q, rfl, hq, rfl⟩

theorem halts_bind {c : Cmd β} {f : β → Cmd α} (hc : Looks c s b) (hf : Halts (f b) s x t) : Halts (c >>= f) s x t := by
  intro q hq ho
  obtain ⟨q₁, hrun, hq₁, ho₁, hw₁⟩ := hc q hq ho
  obtain ⟨q', hstop, hq', hw'⟩ := hf q₁ hq₁ ho₁
  exact ⟨q', (bind_run_ok hrun).trans hstop, hq', hw'.trans hw₁⟩

theorem halts_bind_left {c : Cmd β} {f : β → Cmd α} (hc : Halts c s x t) : Halts (c >>= f) s x t := by
  intro q hq ho
  obtain ⟨q', hrun, hq', hw⟩ := hc q hq ho
  exact ⟨q', bind_run_error hrun, hq', hw⟩

theorem halts_withState {f : State → Cmd α} (h : Halts (f s) s x t) : Halts (getState >>= f) s x t :=
  halts_bind (b := s) (fun q hq ho => ⟨q, by rw [getState_run, hq], hq, ho, rfl⟩) h

theorem halts_congr {c c' : Cmd α} (hc : ∀ q : Run, q.st = s → c q = c' q) (h : Halts c' s x t) : Halts c s x t := by
  intro q hq ho
  rw [hc q hq]
  exact h q hq ho

theorem looks_rejectIf_unmet {p : Prop} [Decidable p] (h : ¬ p) (e : ErrorBit) (s : State) : Looks (rejectIf (decide p) e) s () :=
  fun q hq ho => ⟨q, rejectIf_unmet h e q, hq, ho, rfl⟩

theorem halts_rejectIf_met {p : Prop} [Decidable p] (h : p) (e : ErrorBit) (s : State) :
    Halts (rejectIf (decide p) e) s (.reject e) s := fun q hq _ => ⟨q, rejectIf_met h e q, hq, rfl⟩

end Rules

/-! ## From the pseudocode's end to the command's -/

section Ends

variable {i : Instr} {s t : State}

theorem exec_of_does (h : Does (commandBody i) s () t) : exec i s = .next (t.finish .success) := by
  obtain ⟨q, hrun, hq, -⟩ := h (Run.start s) rfl rfl
  rw [exec_of_ok hrun, hq]

theorem exec_of_halts_reject {e : ErrorBit} (h : Halts (commandBody i) s (.reject e) t) :
    exec i s = .next (s.reject .invalidInput e) := by
  obtain ⟨q, hrun, -, -⟩ := h (Run.start s) rfl rfl
  exact exec_of_reject hrun

/-- A fatal cause that the command meets before it writes, whatever part of the port's ranges is left: it then has written
nothing in the run it would have made either, and the state is the one so far (spec R565). -/
theorem exec_of_halts_fatal {e : ErrorBit} (h : ∀ port, (∀ x ∈ port, x ∈ s.port) →
    Halts (commandBody i) { s with port := port } (.fatal e) { t with port := port }) (hport : t.port = s.port) :
    exec i s = .next (t.fatal e) := by
  obtain ⟨q, hrun, hq, -⟩ := h s.port (fun _ hx => hx) (Run.start s) rfl rfl
  obtain ⟨q', hrun', hq', hw'⟩ := h (s.port.filter fun p => p.kind == .device) (fun _ hx => (List.mem_filter.1 hx).1)
    { Run.start { s with port := s.port.filter (fun p => p.kind == .device) } with skip := true } rfl rfl
  have hwould : wouldRun (commandBody i) s = q' := by rw [wouldRun, hrun']
  have ht : q.st = t := by rw [hq, ← hport]
  have hclean : q'.writes = [] := hw'
  have hdraws : q'.st.draws = t.draws := by rw [hq']
  have hcut : cutOff q' q = t := by
    rw [cutOff, hclean, List.take_nil, openList, hdraws, ht, Nat.max_self]
  rw [exec_eq, conclude_fatal hrun, hwould, hcut]

end Ends

/-! ## Bytes and numbers (spec R102) -/

theorem leValue_leBytes {n v : Nat} (h : v < 256 ^ n) : leValue (leBytes n v) = v := by
  induction n generalizing v with
  | zero => simp only [leBytes, leValue, Nat.pow_zero] at *; omega
  | succ n ih =>
    rw [Nat.pow_succ] at h
    rw [leBytes, leValue, ih (by omega), BitVec.toNat_ofNat]
    omega

theorem leValue_bytesAt (m : Memory) (a n : Nat) : leValue (bytesAt m a n) = leAt m a n := by
  induction n generalizing a with
  | zero => rfl
  | succ n ih => rw [bytesAt, leValue, ih, leAt]

theorem bytesAt_length (m : Memory) (a n : Nat) : (bytesAt m a n).length = n := by
  induction n generalizing a with
  | zero => rfl
  | succ n ih => rw [bytesAt, List.length_cons, ih]

theorem bytesAt_getD (m : Memory) {a n i : Nat} (hi : i < n) : (bytesAt m a n).getD i 0 = m.read ((a + i) % Config.addrSpace) := by
  induction n generalizing a i with
  | zero => omega
  | succ n ih =>
    cases i with
    | zero => rw [bytesAt, List.getD_cons_zero, Nat.add_zero]
    | succ i => rw [bytesAt, List.getD_cons_succ, ih (by omega), Nat.add_assoc, Nat.add_comm 1 i]

/-- The number that stored bytes make. -/
theorem leAt_of_bytes {m : Memory} {a : Nat} {vs : List Byte} (hend : a + vs.length ≤ 2 ^ 64)
    (h : ∀ i, i < vs.length → m.read (a + i) = vs.getD i 0) : leAt m a vs.length = leValue vs := by
  induction vs generalizing a with
  | nil => rfl
  | cons v vs ih =>
    rw [List.length_cons] at hend h
    have haddr : a % Config.addrSpace = a := Nat.mod_eq_of_lt (by simp only [Config.addrSpace]; omega)
    have hhead : m.read a = v := h 0 (by omega)
    have htail := ih (a := a + 1) (by omega) fun i hi => by
      have := h (i + 1) (by omega)
      rwa [List.getD_cons_succ, Nat.add_comm i 1, ← Nat.add_assoc] at this
    rw [List.length_cons, leAt, leValue, haddr, hhead, htail]

section Written

variable {m : Memory} {a : Nat} {vs : List Byte}

theorem read_writeList_inside (hm : m.wf = true) (hend : a + vs.length ≤ 2 ^ 64) {i : Nat} (hi : i < vs.length) :
    (m.writeList a vs).read (a + i) = vs.getD i 0 := by
  rw [(Memory.writeList_writesOnly hm hend).2, if_pos (by omega), Nat.add_sub_cancel_left]

theorem read_writeList_outside (hm : m.wf = true) (hend : a + vs.length ≤ 2 ^ 64) {x : Nat} (hx : ¬ (a ≤ x ∧ x < a + vs.length)) :
    (m.writeList a vs).read x = m.read x := by
  rw [(Memory.writeList_writesOnly hm hend).2, if_neg hx]

/-- A part of the stored bytes, as a number. -/
theorem leAt_writeList {k n : Nat} (hm : m.wf = true) (hend : a + vs.length ≤ 2 ^ 64) (hk : k + n ≤ vs.length) :
    leAt (m.writeList a vs) (a + k) n = leValue ((vs.drop k).take n) := by
  have hlen : ((vs.drop k).take n).length = n := by rw [List.length_take, List.length_drop]; omega
  have hvalue := leAt_of_bytes (m := m.writeList a vs) (a := a + k) (vs := (vs.drop k).take n) (by omega) fun i hi => by
    rw [hlen] at hi
    rw [Nat.add_assoc, read_writeList_inside hm hend (by omega)]
    simp [List.getD_eq_getElem?_getD, hi]
  rwa [hlen] at hvalue

/-- The header's bytes make a header (spec R114). -/
theorem writesHeader_writeList {h window u : Nat} (hm : m.wf = true) (hend : h + 16 ≤ 2 ^ 64) (hw : window < 2 ^ 64)
    (hu : u < 2 ^ 32) : WritesHeader m (m.writeList h (headerBytes window u 0)) h window u := by
  have hlen : h + (headerBytes window u 0).length ≤ 2 ^ 64 := by rwa [headerBytes_length]
  have part {k n : Nat} (hk : k + n ≤ 16) := leAt_writeList (k := k) (n := n) hm hlen (by rwa [headerBytes_length])
  have hwindow := part (k := 0) (n := 8) (by omega)
  have hunits := part (k := 8) (n := 4) (by omega)
  have hfreed := part (k := 12) (n := 4) (by omega)
  have h0 : ((headerBytes window u 0).drop 0).take 8 = leBytes 8 window := rfl
  have h8 : ((headerBytes window u 0).drop 8).take 4 = leBytes 4 u := rfl
  have h12 : ((headerBytes window u 0).drop 12).take 4 = leBytes 4 0 := rfl
  rw [h0, leValue_leBytes (by omega)] at hwindow
  rw [h8, leValue_leBytes (by omega)] at hunits
  rw [h12, leValue_leBytes (by omega)] at hfreed
  refine ⟨Memory.wf_writeList hm, hwindow, hunits, hfreed, fun a ha => ?_⟩
  exact read_writeList_outside hm hlen (by rwa [headerBytes_length])

end Written

/-! ## The structures around a window (spec R626, U14) -/

section Around

variable {s t : State} {a n : Nat}

/-- The bytes of a descriptor of the window lie in the table. -/
theorem inRegion_descRegion {e i : Nat} (he : e < s.winCount.toNat) (hi : i < 16) :
    inRegion (descRegion s) ((descAddr s e + i) % Config.addrSpace) = true := by
  have hbase := s.descBase.isLt
  have hcount := s.winCount.isLt
  have haddr : (descAddr s e + i) % Config.addrSpace = (s.descBase.toNat + (16 * e + i)) % Config.addrSpace := by
    simp only [descAddr, Config.addrSpace]
    omega
  rw [inRegion, decide_eq_true_eq, haddr]
  simp only [descRegion, Config.addrSpace]
  omega

/-- The places of the structures and the bytes of the descriptor table fix what a window must not overlap. -/
theorem aroundWindows_congr (hc : configSide t = configSide s) (hw : windowSide t = windowSide s)
    (hm : ∀ a, inRegion (descRegion s) a = true → t.mem.read a = s.mem.read a) : aroundWindows t = aroundWindows s := by
  obtain ⟨-, hdesc, hsum, hstride, hrec, hcap⟩ : t.winLongest = s.winLongest ∧ t.descBase = s.descBase ∧
      t.sumBase = s.sumBase ∧ t.sumStride = s.sumStride ∧ t.recBase = s.recBase ∧ t.recCap = s.recCap := by
    simpa only [configSide, Prod.mk.injEq] using hc
  obtain ⟨-, hfirst, hcount⟩ : t.winColumnStart = s.winColumnStart ∧ t.winFirstElem = s.winFirstElem ∧
      t.winCount = s.winCount := by simpa only [windowSide, Prod.mk.injEq] using hw
  have haddr : ∀ e, descAddr t e = descAddr s e := fun e => by rw [descAddr, hdesc, descAddr]
  have hdescAt : ∀ e : Nat, e < s.winCount.toNat → descAt t e = descAt s e := fun e he => by
    have haddress : leAt t.mem (descAddr s e) 8 = leAt s.mem (descAddr s e) 8 :=
      leAt_congr fun i hi => hm _ (inRegion_descRegion he (by omega))
    have hlength : leAt t.mem (descAddr s e + 8) 4 = leAt s.mem (descAddr s e + 8) 4 := leAt_congr fun i hi => by
      rw [Nat.add_assoc]
      exact hm _ (inRegion_descRegion he (by omega))
    rw [descAt, descAt, haddr, haddress, hlength]
  have horiginals : ∀ n e, e + n ≤ s.winCount.toNat ∨ n = 0 → originalRegions t n e = originalRegions s n e := fun n => by
    induction n with
    | zero => exact fun _ _ => rfl
    | succ n ih => exact fun e he => by rw [originalRegions, originalRegions, hdescAt e (by omega), ih (e + 1) (by omega)]
  rw [aroundWindows, aroundWindows, descRegion, descRegion, sumRegion, sumRegion, scratchRegion, scratchRegion, hdesc, hsum,
    hstride, hrec, hcap, hfirst, hcount, horiginals _ _ (by omega)]

theorem ClearOfStructures.congr (h : ClearOfStructures s a n) (he : aroundWindows t = aroundWindows s) :
    ClearOfStructures t a n := fun i hi => by rw [he]; exact h i hi

/-- Writes inside a range clear of the structures leave them where they are. -/
theorem ClearOfStructures.around (h : ClearOfStructures s a n) (hc : configSide t = configSide s)
    (hw : windowSide t = windowSide s) (hm : ∀ x, ¬ (a ≤ x ∧ x < a + n) → t.mem.read x = s.mem.read x) :
    aroundWindows t = aroundWindows s := by
  refine aroundWindows_congr hc hw fun x hx => hm x fun hin => ?_
  have hclear := h (x - a) (by omega)
  rw [Nat.add_sub_cancel' hin.1, inRegions, List.any_eq_false] at hclear
  exact hclear _ (List.mem_cons_self ..) hx

/-- The part of a range that is clear. -/
theorem ClearOfStructures.sub {b k : Nat} (h : ClearOfStructures s a n) (hb : a ≤ b) (hk : b + k ≤ a + n) :
    ClearOfStructures s b k := fun i hi => by
  have := h (b - a + i) (by omega)
  rwa [← Nat.add_assoc, Nat.add_sub_cancel' hb] at this

/-- A range clear of the structures has no open byte for the allocator. -/
theorem slabArea_of_clear {x : Nat} (h : ClearOfStructures s a n) (hend : a + n ≤ 2 ^ 64) (hx : x < 2 ^ 64) :
    slabArea s a n x = false := by
  by_cases hin : inRegion (a, n) x = true
  · have hrange := (inRegion_iff (x := (a, n)) hend hx).1 hin
    have hclear := h (x - a) (by omega)
    rw [Nat.add_sub_cancel' hrange.1] at hclear
    rw [slabArea, hclear, Bool.and_false]
  · rw [slabArea, Bool.eq_false_iff.2 hin, Bool.false_and, Bool.false_and]

end Around

/-! ## Memory accesses of the allocator over ordinary memory -/

section Accesses

variable {s : State} {q : Run} {a n : Nat}

theorem Ordinary.sub {b k : Nat} (h : Ordinary s a n) (hb : a ≤ b) (hk : b + k ≤ a + n) : Ordinary s b k := fun i hi => by
  have := h (b - a + i) (by omega)
  rwa [← Nat.add_assoc, Nat.add_sub_cancel' hb] at this

theorem ordinary_of_port_nil (h : s.port = []) (a n : Nat) : Ordinary s a n := fun _ _ p hp => by
  rw [h] at hp
  cases hp

/-- The run has read, and done nothing else. -/
structure ReadStep (q q' : Run) : Prop where
  st : q'.st = q.st
  opens : q'.opens = q.opens
  area : q'.area = q.area
  writes : q'.writes = q.writes

theorem ReadStep.refl (q : Run) : ReadStep q q := ⟨rfl, rfl, rfl, rfl⟩

theorem ReadStep.trans {q₁ q₂ q₃ : Run} (h : ReadStep q₁ q₂) (h' : ReadStep q₂ q₃) : ReadStep q₁ q₃ :=
  ⟨h'.st.trans h.st, h'.opens.trans h.opens, h'.area.trans h.area, h'.writes.trans h.writes⟩

theorem ReadStep.quiet {q' : Run} (h : ReadStep q q') (hq : Quiet q) : Quiet q' :=
  ⟨by rw [h.st]; exact hq.raced, h.opens.trans hq.opens⟩

/-- The `n` bytes from `a` are ordinary memory outside the run's open area, whether or not they run over the top. -/
def Shut (q : Run) (a n : Nat) : Prop :=
  ∀ i, i < n → PlainAt q.st.port ((a + i) % Config.addrSpace) ∧ q.area ((a + i) % Config.addrSpace) = false

theorem Shut.tail (h : Shut q a (n + 1)) : Shut q (a + 1) n := fun i hi => by
  rw [Nat.add_assoc, Nat.add_comm 1 i]
  exact h (i + 1) (by omega)

theorem Shut.head {m : Nat} (h : Shut q a n) (hm : m ≤ n) : Shut q a m := fun i hi => h i (by omega)

theorem Shut.byte (h : Shut q a n) (hn : 0 < n) :
    PlainAt q.st.port (a % Config.addrSpace) ∧ q.area (a % Config.addrSpace) = false := h 0 hn

theorem Shut.part {k m : Nat} (h : Shut q a n) (hk : k + m ≤ n) : Shut q (a + k) m := fun i hi => by
  rw [Nat.add_assoc]
  exact h (k + i) (by omega)

theorem Shut.congr {q' : Run} (h : Shut q a n) (hport : q'.st.port = q.st.port) (harea : q'.area = q.area) : Shut q' a n :=
  fun i hi => by rw [hport, harea]; exact h i hi

theorem Shut.after {q' : Run} (h : Shut q a n) (hr : ReadStep q q') : Shut q' a n := h.congr (by rw [hr.st]) hr.area

theorem memRead8_shut (hq : Quiet q) (h : Shut q a 1) :
    ∃ q', memRead8 a q = .ok (q.st.mem.read (a % Config.addrSpace)) q' ∧ ReadStep q q' := by
  obtain ⟨hport, harea⟩ := h.byte Nat.one_pos
  exact ⟨_, memRead8_run hport (hq.isOpen_false hport harea), rfl, rfl, rfl, rfl⟩

/-- Reading such bytes answers what they hold. -/
theorem memRead_shut (hq : Quiet q) (h : Shut q a n) :
    ∃ q', memRead a n q = .ok (bytesAt q.st.mem a n) q' ∧ ReadStep q q' := by
  induction n generalizing a q with
  | zero => exact ⟨q, rfl, .refl q⟩
  | succ n ih =>
    obtain ⟨q₁, h₁, hr₁⟩ := memRead8_shut hq (h.head (by omega))
    obtain ⟨q', h', hr'⟩ := ih (hr₁.quiet hq) (h.tail.after hr₁)
    refine ⟨q', ?_, hr₁.trans hr'⟩
    rw [memRead, bind_run_ok h₁, bind_run_ok h', hr₁.st]
    rfl

/-- Storing such bytes. -/
theorem memWrite_shut {vs : List Byte} (hq : Quiet q) (h : Shut q a vs.length) :
    ∃ q', memWrite a vs q = .ok () q' ∧ MemStep q q' (q.st.mem.writeList a vs) := by
  induction vs generalizing a q with
  | nil => exact ⟨q, rfl, MemStep.refl q⟩
  | cons v vs ih =>
    obtain ⟨hport, harea⟩ := h.byte (Nat.succ_pos _)
    obtain ⟨q₁, h₁, hs₁⟩ := memWrite8_step (v := v) hq hport harea
    obtain ⟨q', h', hs'⟩ := ih (hs₁.quiet hq) (Shut.tail h |>.congr hs₁.port hs₁.area)
    refine ⟨q', by rw [memWrite, bind_run_ok h₁, h'], ?_⟩
    rw [hs₁.mem] at hs'
    exact hs₁.trans hs'

/-- With the area of the allocator for a clear range, ordinary memory is closed, that range or another. -/
theorem shut_slabArea {c k : Nat} (hend : a + n ≤ 2 ^ 64) (hclear : ClearOfStructures s a n) (hq : q.st = s)
    (hport : Ordinary s c k) : Shut { q with area := slabArea s a n } c k := fun i hi =>
  ⟨by rw [hq]; exact hport i hi, slabArea_of_clear hclear hend (mod_addrSpace_lt _)⟩

theorem anyOpen_shut (hq : Quiet q) (h : Shut q a n) : anyOpen a n q = .ok false q := by
  have hnone : ((List.range n).any fun i => q.isOpen ((a + i) % Config.addrSpace)) = false := by
    refine List.any_eq_false.2 fun i hi => ?_
    obtain ⟨hport, harea⟩ := h i (List.mem_range.1 hi)
    rw [hq.isOpen_false hport harea]
    exact Bool.false_ne_true
  rw [anyOpen_run, hnone]

/-- A write of the allocator's own to ordinary memory clear of the structures (spec R357, R363). -/
theorem does_slabWrite {vs : List Byte} (hraced : s.raced = []) (hend : a + vs.length ≤ 2 ^ 64)
    (hport : Ordinary s a vs.length) (hclear : ClearOfStructures s a vs.length) :
    Does (slabWrite a vs) s () { s with mem := s.mem.writeList a vs } := by
  refine does_withState fun q hq ho => ?_
  have hquiet : Quiet { q with area := slabArea s a vs.length } := ⟨by rw [hq]; exact hraced, ho⟩
  obtain ⟨q', hrun, hstep⟩ := memWrite_shut hquiet (shut_slabArea hend hclear hq hport)
  exact ⟨q', (bind_run_ok (setArea_run _ _)).trans hrun, by rw [hstep.st, hq], (hstep.quiet hquiet).opens⟩

end Accesses

/-! ## The checks of a pointer (spec R362) -/

section Check

variable {s : State} {h : Nat}

/-- The header of a pointer lies in the data space. -/
theorem HeaderReadable.header_lt (hh : HeaderReadable s h) : h + s.params.unit < 2 ^ 64 := by
  obtain ⟨-, -, hptr, -⟩ := hh
  rw [← hptr]
  exact s.arg0.isLt

/-- The header of a pointer is the unit before it. -/
theorem HeaderReadable.toNat_eq (hh : HeaderReadable s h) : s.arg0.toNat = h + s.params.unit := by
  obtain ⟨-, -, hptr, -⟩ := hh
  exact hptr

theorem HeaderReadable.clear (hh : HeaderReadable s h) : ClearOfStructures s h 13 := by
  obtain ⟨-, -, -, -, hclear⟩ := hh
  exact hclear

theorem unit_ge {p : Params} (hlegal : p.Legal) : 16 ≤ p.unit := by
  obtain ⟨hunit, -⟩ := hlegal
  omega

/-- The pointer of a command is `h + unit`. -/
theorem HeaderReadable.pointer (hh : HeaderReadable s h) : BitVec.ofNat 64 (h + s.params.unit) = s.arg0 := by
  obtain ⟨-, -, hptr, -⟩ := hh
  rw [← hptr, BitVec.ofNat_toNat, BitVec.setWidth_eq]

/-- What `check` makes of the answer of the checks on the header. -/
def checked : Except ErrorBit Allocation → Cmd Allocation
  | .ok r => pure r
  | .error e => stop (.reject e)

/-- `check` reads the header, and answers what it says. -/
theorem checkPointer_run {q : Run} (hlegal : s.params.Legal) (hraced : s.raced = []) (hh : HeaderReadable s h) (hq : q.st = s)
    (ho : q.opens = []) : ∃ q', checkPointer s.arg0.toNat q = checked (headerSays s h) q' ∧
      q'.st = s ∧ q'.opens = [] ∧ q'.writes = q.writes := by
  have hlt := hh.header_lt
  have hunit := unit_ge hlegal
  obtain ⟨-, halign, hptr, hport, hclear⟩ := hh
  have hpasses : ¬ (s.arg0.toNat % s.params.unit ≠ 0 ∨ s.arg0.toNat < s.params.unit) := by omega
  have hquiet : Quiet { q with area := slabArea s h 13 } := ⟨by rw [hq]; exact hraced, ho⟩
  have hshut := shut_slabArea (q := q) (by omega) hclear hq hport
  obtain ⟨q₁, hwin, hr₁⟩ := memRead_shut (n := 8) hquiet (hshut.head (by omega))
  obtain ⟨q₂, hunits, hr₂⟩ := memRead_shut (n := 4) (hr₁.quiet hquiet) ((hshut.part (k := 8) (by omega)).after hr₁)
  have hr := hr₁.trans hr₂
  obtain ⟨q₃, hfreed, hr₃⟩ := memRead8_shut (hr.quiet hquiet) ((hshut.part (k := 12) (by omega)).after hr)
  have hr' := hr.trans hr₃
  have haddr : (h + 12) % Config.addrSpace = h + 12 := Nat.mod_eq_of_lt (by simp only [Config.addrSpace]; omega)
  refine ⟨q₃, ?_, hr'.st.trans hq, hr'.opens.trans ho, hr'.writes⟩
  rw [hr₁.st] at hunits
  rw [hr.st] at hfreed
  rw [checkPointer, bind_run_ok (getState_run q), hq, bind_run_ok (rejectIf_unmet hpasses _ _), bind_run_ok (setArea_run _ _), hptr,
    Nat.add_sub_cancel, bind_run_ok hwin, bind_run_ok hunits, bind_run_ok hfreed, headerSays, leValue_bytesAt, leValue_bytesAt,
    haddr]
  simp only [hq]
  cases classify s h (leAt s.mem h 8) (leAt s.mem (h + 8) 4) (s.mem.read (h + 12)).toNat <;> rfl

theorem looks_checkPointer {r : Allocation} (hlegal : s.params.Legal) (hraced : s.raced = []) (hh : HeaderReadable s h)
    (hr : headerSays s h = .ok r) : Looks (checkPointer s.arg0.toNat) s r := by
  intro q hq ho
  obtain ⟨q', hrun, hq', ho', hw'⟩ := checkPointer_run hlegal hraced hh hq ho
  rw [hr] at hrun
  exact ⟨q', hrun, hq', ho', hw'⟩

theorem halts_checkPointer {e : ErrorBit} (hlegal : s.params.Legal) (hraced : s.raced = []) (hh : HeaderReadable s h)
    (he : headerSays s h = .error e) : Halts (checkPointer s.arg0.toNat) s (.reject e) s := by
  intro q hq ho
  obtain ⟨q', hrun, hq', -, hw'⟩ := checkPointer_run hlegal hraced hh hq ho
  rw [he] at hrun
  exact ⟨q', hrun, hq', hw'⟩

theorem halts_checkPointer_place (hp : s.arg0.toNat % s.params.unit ≠ 0 ∨ s.arg0.toNat < s.params.unit) :
    Halts (checkPointer s.arg0.toNat) s (.reject .badFree) s :=
  halts_withState (halts_bind_left (halts_rejectIf_met hp _ _))

end Check

/-! ## The checks of a request, and the pointer a command answers (spec R355, R370 to R372) -/

section Requests

variable {s : State} {b : Nat}

theorem maxAllocBytes_eq {p : Params} (h : p.Legal) : p.maxAllocBytes = 2 ^ 29 - 1 := by
  obtain ⟨-, -, -, -, -, -, -, -, -, -, -, -, -, -, -, -, hmax, -⟩ := h
  exact hmax

theorem looks_requestCheck (hlegal : s.params.Legal) (h1 : 1 ≤ b) (hmax : b ≤ 2 ^ 29 - 1) : Looks (requestCheck b) s () := by
  intro q hq ho
  refine ⟨q, (bind_run_ok (getState_run q)).trans <|
    (bind_run_ok (rejectIf_unmet (by omega) _ _)).trans (rejectIf_unmet ?_ _ _), hq, ho, rfl⟩
  rw [hq, maxAllocBytes_eq hlegal]
  omega

theorem halts_requestCheck (hlegal : s.params.Legal) (h : b = 0 ∨ b > 2 ^ 29 - 1) :
    Halts (requestCheck b) s (.reject .argRange) s := by
  refine halts_withState ?_
  by_cases h0 : b = 0
  · exact halts_bind_left (halts_rejectIf_met h0 _ _)
  · refine halts_bind (looks_rejectIf_unmet h0 _ s) (halts_rejectIf_met ?_ _ s)
    rw [maxAllocBytes_eq hlegal]
    exact h.resolve_left h0

theorem does_allocatorResult (v : Word) (h : s.slabTainted = false) : Does (allocatorResult v) s v s :=
  does_withState (by rw [if_neg (by rw [h]; exact Bool.false_ne_true)]; exact does_pure v s)

theorem does_resultPointer (p : Word) (h : s.slabTainted = false) : Does (resultPointer p) s () (s.setRes0 p) :=
  does_bind (does_allocatorResult p h) (does_modify _ s)

end Requests

end Sys2Proof.Machine
end

section
/-! SUPPORT. The allocation of the slab allocator as one change of the state (spec R355 to R361), and the commands that allocate,
check a pointer and report a window (R362, R370, R373). -/

namespace Sys2Proof.Machine

/-! ## The host allocator's answers (spec R120) -/

section Host

variable {s : State} {size : Nat} {rest : List (Option Word)}

theorem does_hostAllocOrFail {r : Word} (h : NextAnswer s size r rest) :
    Does (hostAllocOrFail size) s r { s with allocAnswers := rest } := by
  intro q hq ho
  subst hq
  exact ⟨_, hostAllocOrFail_run h, rfl, ho⟩

/-- FAIL, and an answer that the host may not give, end the command. -/
theorem halts_hostAllocOrFail (h : NextAnswerFails s size rest) :
    Halts (hostAllocOrFail size) s (.fatal .hostAllocFail) { s with allocAnswers := rest } := by
  obtain ⟨answer, hanswers, hrefused⟩ : ∃ answer, s.allocAnswers = answer :: rest ∧ answer.filter (answerOk s size) = none := by
    rcases h with h | ⟨r, h, hr⟩
    · exact ⟨none, h, rfl⟩
    · exact ⟨some r, h, by rw [Option.filter_some, hr]; rfl⟩
  intro q hq _
  subst hq
  have hask : hostAlloc size q = .ok none { q with st := { q.st with allocAnswers := rest } } := by
    rw [hostAlloc, bind_run_ok (getState_run q), hanswers]
    simp only
    rw [bind_run_ok (modifyState_run _ _), pure_run, hrefused]
  exact ⟨_, (bind_run_ok hask).trans (stop_run _ _), rfl, rfl⟩

end Host

/-! ## Carving a region (spec R357) -/

section Carve

variable {s : State} {w st u : Nat}

/-- The address of unit `st` of a window. -/
def unitAddr (s : State) (w st : Nat) : Nat := (s.slot w).base.toNat + st * s.params.unit

/-- The window with the run of `u` units from `st` taken. -/
def takenSlot (w : Slot) (st u : Nat) : Slot := { w with used := setBits w.used st (st + u), free := w.free - u, resume := st + u }

/-- What `carve` makes of the state. -/
def carved (s : State) (w st u : Nat) : State :=
  { s.setSlot w (takenSlot (s.slot w) st u) with
    mem := s.mem.writeList (unitAddr s w st) (headerBytes (w + 1) u 0)
    handed := BitVec.ofNat 64 (unitAddr s w st + s.params.unit) :: s.handed }

theorem carved_slot (hw : w < Config.maxSlots) : (carved s w st u).slot w = takenSlot (s.slot w) st u :=
  (s.slot_setSlot w w _ hw).trans (if_pos rfl)

theorem carved_slabTainted (s : State) (w st u : Nat) : (carved s w st u).slabTainted = s.slabTainted := rfl

theorem does_carve (hraced : s.raced = []) (hend : unitAddr s w st + 16 ≤ 2 ^ 64) (hport : Ordinary s (unitAddr s w st) 16)
    (hclear : ClearOfStructures s (unitAddr s w st) 16) :
    Does (carve w st u) s (BitVec.ofNat 64 (unitAddr s w st + s.params.unit)) (carved s w st u) := by
  have hlen : (headerBytes (w + 1) u 0).length = 16 := headerBytes_length ..
  have hclear' : ClearOfStructures (s.setSlot w (takenSlot (s.slot w) st u)) (unitAddr s w st) 16 :=
    hclear.congr (aroundWindows_congr rfl rfl fun _ _ => rfl)
  have hwrite := does_slabWrite (vs := headerBytes (w + 1) u 0) (s := s.setSlot w (takenSlot (s.slot w) st u)) hraced
    (by rwa [hlen]) (by rw [hlen]; exact hport) (by rwa [hlen])
  exact does_withState <| does_bind (does_modify (fun s' => s'.setSlot w (takenSlot (s.slot w) st u)) s) <|
    does_bind hwrite <| does_bind (does_modify _ _) <| does_pure _ _

/-- A migration of windows changes the slots and the lists alone. -/
theorem post_frame (s : State) (w u : Nat) (scanned : List Nat) :
    ∃ v p f, post s w u scanned = { s with slots := v, prefList := p, fullList := f } := by
  have hfold : ∀ (l : List Nat) (s : State), ∃ v p f, l.foldl migrate s = { s with slots := v, prefList := p, fullList := f } := by
    intro l
    induction l with
    | nil => exact fun s => ⟨_, _, _, rfl⟩
    | cons x l ih =>
      intro s
      obtain ⟨v, p, f, h⟩ := ih (migrate s x)
      rw [List.foldl_cons, h]
      unfold migrate
      simp only
      split <;> exact ⟨v, p, f, rfl⟩
  unfold post
  split
  · exact ⟨_, _, _, rfl⟩
  · exact hfold _ s

theorem post_slabTainted (s : State) (w u : Nat) (scanned : List Nat) : (post s w u scanned).slabTainted = s.slabTainted := by
  obtain ⟨v, p, f, h⟩ := post_frame s w u scanned
  rw [h]

end Carve

/-! ## `alloc` (spec R361) -/

section Alloc

variable {s : State} {b w st slot u : Nat} {r : Word} {rest : List (Option Word)} {scanned : List Nat}

theorem unitsFor_pos (p : Params) (b : Nat) : 0 < unitsFor p b := Nat.succ_pos _

/-- A request has too many units for no header (spec R114, R355). -/
theorem unitsFor_lt {p : Params} (hlegal : p.Legal) (hmax : b ≤ 2 ^ 29 - 1) : unitsFor p b < 2 ^ 32 := by
  have hunit := unit_ge hlegal
  obtain ⟨-, -, -, -, -, -, -, -, -, -, -, hover, -⟩ := hlegal
  have hle : (b + p.overalloc + p.unit - 1) / p.unit ≤ b + p.overalloc := by
    refine Nat.lt_succ_iff.1 ((Nat.div_lt_iff_lt_mul (by omega)).2 ?_)
    have hmul : (b + p.overalloc) * 1 ≤ (b + p.overalloc) * p.unit := Nat.mul_le_mul_left _ (by omega)
    rw [Nat.succ_mul]
    omega
  rw [unitsFor, ceilDiv]
  omega

theorem does_alloc_small {p : Word} {t : State} (hlegal : s.params.Legal) (hsmall : unitsFor s.params b < 512)
    (h : Does (allocSmall (unitsFor s.params b)) s p t) : Does (alloc b) s p t := by
  refine does_withState ?_
  rw [if_neg (by rw [largeUnits_eq hlegal]; omega)]
  exact h

/-- A window of PREF takes the request. -/
theorem does_allocSmall_window (hfirst : FirstThatTakes s u scanned w st)
    (hcarve : Does (carve w st u) s (BitVec.ofNat 64 (unitAddr s w st + s.params.unit)) (carved s w st u)) :
    Does (allocSmall u) s (BitVec.ofNat 64 (unitAddr s w st + s.params.unit)) (post (carved s w st u) w u scanned) := by
  refine does_withState ?_
  rw [hfirst.walkPref]
  exact does_bind hcarve <| does_bind (does_modify _ _) <| does_pure _ _

/-- The state with the new window of R359. -/
def opened (s : State) (slot : Nat) (r : Word) (rest : List (Option Word)) : State :=
  withWindow { s with allocAnswers := rest } slot r

theorem opened_slabTainted (s : State) (slot : Nat) (r : Word) (rest : List (Option Word)) :
    (opened s slot r rest).slabTainted = s.slabTainted := rfl

theorem does_newWindow (hslot : LowestDead s slot) (hanswer : NextAnswer s (windowBytes s.params) r rest) :
    Does newWindow s slot (opened s slot r rest) := by
  refine does_withState ?_
  rw [hslot.lowestDead]
  exact does_bind (does_hostAllocOrFail hanswer) <|
    does_bind (does_modify (fun s' => withWindow s' slot r) { s with allocAnswers := rest }) <| does_pure _ _

theorem opened_slot (hlegal : s.params.Legal) (hslot : slot < s.params.nwMax) :
    (opened s slot r rest).slot slot = freshWindow s.params r :=
  withWindow_slot (s := { s with allocAnswers := rest }) hlegal hslot r

theorem opened_unitAddr (hlegal : s.params.Legal) (hslot : slot < s.params.nwMax) :
    unitAddr (opened s slot r rest) slot 0 = r.toNat := by
  rw [unitAddr, opened_slot hlegal hslot, Nat.zero_mul, Nat.add_zero]
  rfl

/-- A new window with fewer than 512 units taken takes another such request (spec R360). -/
theorem opened_takes (hlegal : s.params.Legal) (hslot : slot < s.params.nwMax) (hpos : 0 < u) (hu : u < 512) :
    (takes (carved (opened s slot r rest) slot 0 u) slot u).isSome = true := by
  have hunits : s.params.maxUnits = 2048 := maxUnits_eq hlegal
  have hat : (carved (opened s slot r rest) slot 0 u).slot slot = takenSlot (freshWindow s.params r) 0 u := by
    rw [carved_slot (lt_of_lt_of_le hslot (nwMax_le hlegal)), opened_slot hlegal hslot]
  have hclear : ClearRun (takenSlot (freshWindow s.params r) 0 u).used u u := fun j hj _ => by
    simp only [takenSlot, freshWindow, getLsbD_setBits]
    simp only [BitVec.ofNat_eq_ofNat, BitVec.getLsbD_zero, Bool.false_or, Bool.and_eq_false_iff, decide_eq_false_iff_not]
    omega
  rw [Option.isSome_iff_ne_none, ne_eq, takes_eq_none_iff, PassedOver, hat]
  rintro (hfew | hnone)
  · simp only [takenSlot, freshWindow] at hfew
    omega
  · obtain ⟨-, hnone'⟩ := findGapIsLowest s.params.maxUnits (takenSlot (freshWindow s.params r) 0 u) u hpos
    exact hnone' hnone u (by simp only [takenSlot]; omega) (by omega) hclear

theorem does_carve_opened (hlegal : s.params.Legal) (hraced : s.raced = []) (hslot : slot < s.params.nwMax)
    (hend : r.toNat + 16 ≤ 2 ^ 64) (hport : Ordinary s r.toNat 16) (hclear : ClearOfStructures s r.toNat 16) :
    Does (carve slot 0 u) (opened s slot r rest) (BitVec.ofNat 64 (r.toNat + s.params.unit))
      (carved (opened s slot r rest) slot 0 u) := by
  have haround : aroundWindows (opened s slot r rest) = aroundWindows s := aroundWindows_congr rfl rfl fun _ _ => rfl
  have hdoes := does_carve (s := opened s slot r rest) (w := slot) (st := 0) (u := u) hraced
  rw [opened_unitAddr hlegal hslot] at hdoes
  exact hdoes hend hport (hclear.congr haround)

/-- No window of PREF takes the request: a new one does. -/
theorem does_allocSmall_new (hlegal : s.params.Legal) (hnone : NoWindowTakes s u) (hslot : LowestDead s slot)
    (hanswer : NextAnswer s (windowBytes s.params) r rest) (hpos : 0 < u) (hu : u < 512)
    (hcarve : Does (carve slot 0 u) (opened s slot r rest) (BitVec.ofNat 64 (r.toNat + s.params.unit))
      (carved (opened s slot r rest) slot 0 u)) :
    Does (allocSmall u) s (BitVec.ofNat 64 (r.toNat + s.params.unit)) (carved (opened s slot r rest) slot 0 u) := by
  have hpost := does_modify (fun s' => post s' slot u s.prefList) (carved (opened s slot r rest) slot 0 u)
  rw [post_of_takes _ (opened_takes hlegal hslot.1 hpos hu)] at hpost
  refine does_withState ?_
  rw [hnone.walkPref]
  exact does_bind (does_newWindow hslot hanswer) <| does_bind hcarve <| does_bind hpost <| does_pure _ _

/-- No window of PREF takes the request, and no new one can be made (spec R358, R359). -/
theorem halts_allocSmall {x : Stop} {t : State} (hnone : NoWindowTakes s u) (h : Halts newWindow s x t) :
    Halts (allocSmall u) s x t := by
  refine halts_withState ?_
  rw [hnone.walkPref]
  exact halts_bind_left h

theorem halts_newWindow_slots (h : ∀ j, j < s.params.nwMax → (s.slot j).live = true) :
    Halts newWindow s (.fatal .slotExhausted) s := by
  refine halts_withState ?_
  rw [lowestDead_eq_none fun j hj => h j (by omega)]
  exact halts_stop _ s

theorem halts_newWindow_host (hslot : LowestDead s slot) (h : NextAnswerFails s (windowBytes s.params) rest) :
    Halts newWindow s (.fatal .hostAllocFail) { s with allocAnswers := rest } := by
  refine halts_withState ?_
  rw [hslot.lowestDead]
  exact halts_bind_left (halts_hostAllocOrFail h)

theorem halts_alloc_small {x : Stop} {t : State} (hlegal : s.params.Legal) (hsmall : unitsFor s.params b < 512)
    (h : Halts (allocSmall (unitsFor s.params b)) s x t) : Halts (alloc b) s x t := by
  refine halts_withState ?_
  rw [if_neg (by rw [largeUnits_eq hlegal]; omega)]
  exact h

/-- What the large branch of `alloc` makes of the state. -/
def allocatedLarge (s : State) (r : Word) (rest : List (Option Word)) (u : Nat) : State :=
  { tookLarge r rest u s with
    mem := s.mem.writeList r.toNat (headerBytes 0 u 0)
    handed := BitVec.ofNat 64 (r.toNat + s.params.unit) :: s.handed }

theorem does_alloc_large (hlegal : s.params.Legal) (hraced : s.raced = []) (hlarge : 512 ≤ unitsFor s.params b)
    (hanswer : NextAnswer s (unitsFor s.params b * s.params.unit) r rest) (hend : r.toNat + 16 ≤ 2 ^ 64)
    (hport : Ordinary s r.toNat 16) (hclear : ClearOfStructures s r.toNat 16) :
    Does (alloc b) s (BitVec.ofNat 64 (r.toNat + s.params.unit)) (allocatedLarge s r rest (unitsFor s.params b)) := by
  have hlen : (headerBytes 0 (unitsFor s.params b) 0).length = 16 := headerBytes_length ..
  have hclear' : ClearOfStructures (tookLarge r rest (unitsFor s.params b) s) r.toNat 16 :=
    hclear.congr (aroundWindows_congr rfl rfl fun _ _ => rfl)
  have hwrite := does_slabWrite (vs := headerBytes 0 (unitsFor s.params b) 0) (s := tookLarge r rest (unitsFor s.params b) s)
    hraced (by rwa [hlen]) (by rw [hlen]; exact hport) (by rwa [hlen])
  refine does_withState ?_
  rw [if_pos (by rw [largeUnits_eq hlegal]; exact hlarge)]
  refine does_withState <| does_bind (does_hostAllocOrFail hanswer) <| does_bind (does_modify _ _) <| does_bind hwrite <|
    does_bind (does_modify _ _) <| does_pure _ _

theorem halts_alloc_large (hlegal : s.params.Legal) (hlarge : 512 ≤ unitsFor s.params b)
    (h : NextAnswerFails s (unitsFor s.params b * s.params.unit) rest) :
    Halts (alloc b) s (.fatal .hostAllocFail) { s with allocAnswers := rest } := by
  refine halts_withState ?_
  rw [if_pos (by rw [largeUnits_eq hlegal]; exact hlarge)]
  exact halts_withState (halts_bind_left (halts_hostAllocOrFail h))

/-- An answer that the host may give does not run over the top of the data space, and lies apart from what is taken. -/
theorem NextAnswer.apart {size : Nat} (h : NextAnswer s size r rest) :
    r.toNat + size ≤ 2 ^ 64 ∧ ∀ x ∈ takenRegions s, r.toNat + size ≤ x.1 ∨ x.1 + x.2 ≤ r.toNat := by
  obtain ⟨-, hok⟩ := h
  simp only [answerOk, wraps, disjointRegions, Bool.and_eq_true, Bool.not_eq_true', decide_eq_false_iff_not, Nat.not_lt,
    List.all_eq_true, decide_eq_true_eq] at hok
  obtain ⟨⟨-, hroom⟩, happart⟩ := hok
  exact ⟨hroom, happart⟩

end Alloc

/-! ## The commands that allocate (spec R370, R372) -/

section Requested

variable {i : Instr} {s : State} {b : Nat}

/-- A legal request that `alloc` serves. -/
theorem exec_request {p : Word} {t : State} (hlegal : s.params.Legal) (hreq : Requests i s b) (h1 : 1 ≤ b) (hmax : b ≤ 2 ^ 29 - 1)
    (h : Does (alloc b) s p t) (ht : t.slabTainted = false) : exec i s = .next ((t.setRes0 p).finish .success) := by
  have hchecked : Does (allocChecked b) s () (t.setRes0 p) :=
    does_bind (looks_requestCheck hlegal h1 hmax).does (does_bind h (does_resultPointer p ht))
  exact exec_of_does (does_congr (fun q hq => requests_run (by rw [hq]; exact hreq)) hchecked)

/-- A request whose allocation, or whose checks, stop the command. -/
theorem halts_request {x : Stop} {t : State} (hreq : Requests i s b) (h : Halts (allocChecked b) s x t) :
    Halts (commandBody i) s x t := halts_congr (fun q hq => requests_run (by rw [hq]; exact hreq)) h

theorem halts_allocChecked {x : Stop} {t : State} (hlegal : s.params.Legal) (h1 : 1 ≤ b) (hmax : b ≤ 2 ^ 29 - 1)
    (h : Halts (alloc b) s x t) : Halts (allocChecked b) s x t :=
  halts_bind (looks_requestCheck hlegal h1 hmax) (halts_bind_left h)

/-- A request that the allocator cannot serve. -/
theorem exec_request_fatal {e : ErrorBit} {t : State} (hlegal : s.params.Legal) (hreq : Requests i s b) (h1 : 1 ≤ b)
    (hmax : b ≤ 2 ^ 29 - 1) (h : ∀ port, Halts (alloc b) { s with port := port } (.fatal e) { t with port := port })
    (hport : t.port = s.port) : exec i s = .next (t.fatal e) :=
  exec_of_halts_fatal (fun port _ => halts_request (s := { s with port := port }) hreq (halts_allocChecked hlegal h1 hmax (h port)))
    hport

end Requested

/-! ## The commands of a pointer (spec R371, R372) -/

section Pointer

variable {s t : State} {r : Allocation} {copy : Bool}

theorem arg0_toNat_ne (hnull : s.arg0 ≠ 0) : ¬ s.arg0.toNat = 0 := fun h => hnull (BitVec.eq_of_toNat_eq h)

theorem slabFreeBody_run {q : Run} (hq : q.st = s) (hnull : s.arg0 ≠ 0) :
    slabFreeBody q = (checkPointer s.arg0.toNat >>= doFree) q := by
  subst hq
  exact (bind_run_ok (getState_run q)).trans (congrFun (if_neg (arg0_toNat_ne hnull)) q)

/-- SLAB_REALLOC once its pointer has passed the checks. -/
def reallocOf (s : State) (copy : Bool) (r : Allocation) : Cmd Unit :=
  if unitsFor s.params s.arg1.toNat ≤ r.units then resultPointer s.arg0
  else do
    let p ← enlarge r s.arg0.toNat s.arg1.toNat (unitsFor s.params s.arg1.toNat) copy
    resultPointer p

theorem slabReallocBody_run {q : Run} (hq : q.st = s) (hnull : s.arg0 ≠ 0) : slabReallocBody copy q = (do
    requestCheck s.arg1.toNat
    let r ← checkPointer s.arg0.toNat
    reallocOf s copy r : Cmd Unit) q := by
  subst hq
  exact (bind_run_ok (getState_run q)).trans (congrFun (if_neg (arg0_toNat_ne hnull)) q)

/-- A check of the pointer that fails, of SLAB_FREE and of SLAB_REALLOC of a legal size (spec R362). -/
theorem exec_pointer_reject {i : Instr} {e : ErrorBit} (hlegal : s.params.Legal) (hnull : s.arg0 ≠ 0)
    (hi : i = .slabFree ∨ ∃ copy, i = .slabRealloc copy ∧ 1 ≤ s.arg1.toNat ∧ s.arg1.toNat ≤ 2 ^ 29 - 1)
    (h : Halts (checkPointer s.arg0.toNat) s (.reject e) s) : exec i s = .next (s.reject .invalidInput e) := by
  refine exec_of_halts_reject (t := s) ?_
  rcases hi with rfl | ⟨copy, rfl, h1, hmax⟩
  · exact halts_congr (fun _ hq => slabFreeBody_run hq hnull) (halts_bind_left h)
  · exact halts_congr (fun _ hq => slabReallocBody_run hq hnull)
      (halts_bind (looks_requestCheck hlegal h1 hmax) (halts_bind_left h))

theorem exec_free (hnull : s.arg0 ≠ 0) (hcheck : Looks (checkPointer s.arg0.toNat) s r) (h : Does (doFree r) s () t) :
    exec .slabFree s = .next (t.finish .success) :=
  exec_of_does (does_congr (fun _ hq => slabFreeBody_run hq hnull) (does_bind hcheck.does h))

theorem exec_realloc (hlegal : s.params.Legal) (hnull : s.arg0 ≠ 0) (h1 : 1 ≤ s.arg1.toNat) (hmax : s.arg1.toNat ≤ 2 ^ 29 - 1)
    (hcheck : Looks (checkPointer s.arg0.toNat) s r) (h : Does (reallocOf s copy r) s () t) :
    exec (.slabRealloc copy) s = .next (t.finish .success) :=
  exec_of_does (does_congr (fun _ hq => slabReallocBody_run hq hnull)
    (does_bind (looks_requestCheck hlegal h1 hmax).does (does_bind hcheck.does h)))

end Pointer

/-- Settles O37: the walk comes to the window, which is carved. -/
theorem slabAllocFromWindow : Obligations.SlabAllocFromWindow := by
  intro i s b w st scanned htrusted hreq h1 hmax hsmall hfirst u h hend hport hclear
  obtain ⟨hlegal, hwf, htaint, hraced⟩ := htrusted
  have ⟨_, _, hfree, _⟩ := hfirst
  have hslot : w < Config.maxSlots := slot_lt_of_takes (unitsFor_pos ..) hfree
  have hdoes := does_alloc_small hlegal hsmall (does_allocSmall_window hfirst (does_carve hraced hend hport hclear))
  have hheader : WritesHeader s.mem (s.mem.writeList h (headerBytes (w + 1) u 0)) h (w + 1) u :=
    writesHeader_writeList hwf hend (by simp only [Config.maxSlots] at hslot; omega) (unitsFor_lt hlegal hmax)
  exact ⟨_, hheader, exec_request hlegal hreq h1 hmax hdoes (by rw [post_slabTainted]; exact htaint)⟩

/-- The first units of a new window, written out. -/
theorem carved_opened {s : State} {slot u : Nat} {r : Word} {rest : List (Option Word)} (hlegal : s.params.Legal)
    (hslot : slot < s.params.nwMax) : carved (opened s slot r rest) slot 0 u = { s with
      slots := s.slots.setIfInBounds slot
        { live := true, base := r, used := setBits 0 0 u, free := 2048 - u, resume := u, list := .pref }
      prefList := slot :: s.prefList
      allocAnswers := rest
      windowsLive := (r.toNat, 2048 * s.params.unit) :: s.windowsLive
      mem := s.mem.writeList r.toNat (headerBytes (slot + 1) u 0)
      handed := BitVec.ofNat 64 (r.toNat + s.params.unit) :: s.handed } := by
  have hfresh : takenSlot (freshWindow s.params r) 0 u =
      { live := true, base := r, used := setBits 0 0 u, free := 2048 - u, resume := u, list := .pref } := by
    simp only [takenSlot, freshWindow, Nat.zero_add, maxUnits_eq hlegal]
  have hbytes : windowBytes s.params = 2048 * s.params.unit := by rw [windowBytes, maxUnits_eq hlegal]
  rw [carved, opened_slot hlegal hslot, opened_unitAddr hlegal hslot, hfresh, ← hbytes]
  simp only [opened, withWindow, State.setSlot, State.setLists, Vector.setIfInBounds_setIfInBounds]

theorem payload_eq (r : Word) (n : Nat) : BitVec.ofNat 64 (r.toNat + n) = r + BitVec.ofNat 64 n := by
  rw [BitVec.ofNat_add, BitVec.ofNat_toNat, BitVec.setWidth_eq]

/-- Settles O38: the walk finds no window, so a new one in the lowest free slot is carved, and nothing migrates. -/
theorem slabAllocNewWindow : Obligations.SlabAllocNewWindow := by
  intro i s b slot r rest htrusted hreq h1 hmax hsmall hnone hslot hanswer hport hclear
  obtain ⟨hlegal, hwf, htaint, hraced⟩ := htrusted
  have hunit := unit_ge hlegal
  have hroom := hanswer.apart.1
  have hlt : slot < Config.maxSlots := lt_of_lt_of_le hslot.1 (nwMax_le hlegal)
  have hbytes : windowBytes s.params = 2048 * s.params.unit := by rw [windowBytes, maxUnits_eq hlegal]
  have hcarve := does_carve_opened (u := unitsFor s.params b) (rest := rest) hlegal hraced hslot.1 (by omega) hport hclear
  have hdoes := does_alloc_small hlegal hsmall
    (does_allocSmall_new hlegal hnone hslot (by rwa [hbytes]) (unitsFor_pos ..) hsmall hcarve)
  have hheader : WritesHeader s.mem (s.mem.writeList r.toNat (headerBytes (slot + 1) (unitsFor s.params b) 0))
      r.toNat (slot + 1) (unitsFor s.params b) :=
    writesHeader_writeList hwf (by omega) (by simp only [Config.maxSlots] at hlt; omega) (unitsFor_lt hlegal hmax)
  refine ⟨_, hheader, ?_⟩
  rw [exec_request hlegal hreq h1 hmax hdoes (by rw [carved_slabTainted, opened_slabTainted, htaint]),
    carved_opened hlegal hslot.1, payload_eq]
  rfl

/-- Settles O39: the host's answer gets a header that names no window. -/
theorem slabAllocLarge : Obligations.SlabAllocLarge := by
  intro i s b r rest htrusted hreq h1 hmax hlarge hanswer hport hclear
  obtain ⟨hlegal, hwf, htaint, hraced⟩ := htrusted
  have hend : r.toNat + 16 ≤ 2 ^ 64 := by
    have hsize : 512 * 16 ≤ unitsFor s.params b * s.params.unit := Nat.mul_le_mul hlarge (unit_ge hlegal)
    have hroom := hanswer.apart.1
    omega
  have hdoes := does_alloc_large hlegal hraced hlarge hanswer hend hport hclear
  refine ⟨_, writesHeader_writeList hwf hend (by omega) (unitsFor_lt hlegal hmax), ?_⟩
  rw [exec_request hlegal hreq h1 hmax hdoes htaint, payload_eq, allocatedLarge, payload_eq]
  rfl

/-- Settles O40: the checks come first; then the command stops where the host allocator or the slots fail it, before any
write. -/
theorem slabAllocFails : Obligations.SlabAllocFails := by
  intro i s b hlegal
  refine ⟨fun hreq hb => ?_, fun hreq h1 hmax => ⟨fun rest hlarge hfails => ?_, fun hsmall hnone =>
    ⟨fun rest slot hslot hfails => ?_, fun hlive => ?_⟩⟩⟩
  · refine exec_of_halts_reject (t := s) ?_
    rcases hreq with hreq | ⟨copy, rfl, rfl⟩
    · exact halts_request hreq (halts_bind_left (halts_requestCheck hlegal hb))
    · by_cases hnull : s.arg0 = 0
      · exact halts_request (.inr ⟨copy, rfl, hnull, rfl⟩) (halts_bind_left (halts_requestCheck hlegal hb))
      · exact halts_congr (fun _ hq => slabReallocBody_run hq hnull) (halts_bind_left (halts_requestCheck hlegal hb))
  · exact exec_request_fatal hlegal hreq h1 hmax
      (fun port => halts_alloc_large (s := { s with port := port }) hlegal hlarge hfails) rfl
  · have hbytes : windowBytes s.params = 2048 * s.params.unit := by rw [windowBytes, maxUnits_eq hlegal]
    exact exec_request_fatal hlegal hreq h1 hmax (fun port => halts_alloc_small (s := { s with port := port }) hlegal hsmall
      (halts_allocSmall hnone (halts_newWindow_host hslot (by rw [← hbytes] at hfails; exact hfails)))) rfl
  · exact exec_request_fatal hlegal hreq h1 hmax (fun port => halts_alloc_small (s := { s with port := port }) hlegal hsmall
      (halts_allocSmall hnone (halts_newWindow_slots hlive))) rfl

/-! ## What a header says (spec R362) -/

section Header

variable {s : State} {h win u : Nat}

theorem popcountRange_lt_iff {n : Nat} (v : BitVec n) (a u : Nat) :
    popcountRange v a (a + u) < u ↔ ∃ j, a ≤ j ∧ j < a + u ∧ v.getLsbD j = false := by
  have hle := countSet_le v u a
  have hall := countSet_eq_all (b := v) (n := u) (a := a)
  rw [popcountRange, Nat.add_sub_cancel_left]
  constructor
  · intro hlt
    by_contra hnone
    have hset : ∀ i, a ≤ i → i < a + u → v.getLsbD i = true := fun i h1 h2 => by
      by_contra hi
      exact hnone ⟨i, h1, h2, by simpa using hi⟩
    have := hall.2 hset
    omega
  · rintro ⟨j, h1, h2, hj⟩
    refine lt_of_le_of_ne hle fun heq => ?_
    rw [hall.1 heq j h1 h2] at hj
    cases hj

theorem classify_freed {freed : Nat} (h1 : freed > 1) : classify s h win u freed = .error .badFree := by
  rw [classify, if_neg (by omega), if_pos (by omega)]

theorem classify_null : classify s h 0 u 0 = if u < s.params.largeUnits then .error .badFree else .ok (.large h u) := rfl

theorem classify_noSlot (hwin : win ≠ 0) (hslot : s.params.nwMax ≤ win - 1 ∨ (s.slot (win - 1)).live = false) :
    classify s h win u 0 = .error .badFree := by
  rw [classify, if_neg (by omega), if_neg (by omega), if_neg hwin]
  exact if_pos hslot

/-- The checks that are left for a header of a live window. -/
theorem classify_live (hwin : win ≠ 0) (hslot : win - 1 < s.params.nwMax) (hlive : (s.slot (win - 1)).live = true) :
    classify s h win u 0 =
      if h < (s.slot (win - 1)).base.toNat ∨ (h - (s.slot (win - 1)).base.toNat) % s.params.unit ≠ 0 then .error .badFree
      else if u < 2 ∨ (h - (s.slot (win - 1)).base.toNat) / s.params.unit + u > s.params.maxUnits then .error .badFree
      else if popcountRange (s.slot (win - 1)).used ((h - (s.slot (win - 1)).base.toNat) / s.params.unit)
        ((h - (s.slot (win - 1)).base.toNat) / s.params.unit + u) < u then .error .badFree
      else .ok (.slab (win - 1) ((h - (s.slot (win - 1)).base.toNat) / s.params.unit) h u) := by
  rw [classify, if_neg (by omega), if_neg (by omega), if_neg hwin]
  exact if_neg (by rw [hlive]; simp only [Bool.true_eq_false, or_false, ge_iff_le, Nat.not_le]; exact hslot)

end Header

/-- Settles O42: the place of the pointer first, then one check of the header after the other. -/
theorem checkPointer_inOrder : Obligations.CheckPointer := by
  intro i s hlegal hwf hraced hnull hi ptr unit rejects
  refine ⟨fun hplace => exec_pointer_reject hlegal hnull hi (halts_checkPointer_place hplace), ?_⟩
  intro h hh win u freed w st
  have bad {e : ErrorBit} (he : headerSays s h = .error e) : rejects e :=
    exec_pointer_reject hlegal hnull hi (halts_checkPointer hlegal hraced hh he)
  have hsays : headerSays s h = classify s h win u freed := rfl
  refine ⟨fun hf => bad (by rw [hsays, hf]; rfl), fun hf => bad (hsays.trans (classify_freed hf)), fun hf => ?_⟩
  rw [hf] at hsays
  refine ⟨fun hwin => ?_, fun hwin => ⟨fun hslot => bad (hsays.trans (classify_noSlot hwin hslot)), fun hslot hlive => ?_⟩⟩
  · rw [hwin, classify_null, largeUnits_eq hlegal] at hsays
    exact ⟨fun hu => bad (hsays.trans (if_pos hu)), fun hu => hsays.trans (if_neg (Nat.not_lt.2 hu))⟩
  · rw [classify_live hwin hslot hlive, maxUnits_eq hlegal] at hsays
    refine ⟨fun hat => bad (hsays.trans (if_pos hat)), fun hbase halign => ?_⟩
    have hsays := hsays.trans (if_neg (not_or.2 ⟨Nat.not_lt.2 hbase, not_not_intro halign⟩))
    refine ⟨fun hu => bad (hsays.trans (if_pos hu)), fun h2 hend => ?_⟩
    have hsays := hsays.trans (if_neg (not_or.2 ⟨Nat.not_lt.2 h2, Nat.not_lt.2 hend⟩))
    refine ⟨fun hclear => bad (hsays.trans (if_pos ((popcountRange_lt_iff ..).2 hclear))), fun hset => ?_⟩
    refine hsays.trans (if_neg fun hlt => ?_)
    obtain ⟨j, h1, h2, hj⟩ := (popcountRange_lt_iff ..).1 hlt
    rw [hset j h1 h2] at hj
    cases hj

/-! ## SLAB_WINFO (spec R373) -/

section Winfo

variable {s : State}

theorem does_allocatorCount (n : Nat) (h : s.slabTainted = false) : Does (allocatorCount n) s (BitVec.ofNat 64 n) s :=
  does_withState (by rw [if_neg (by rw [h]; exact Bool.false_ne_true)]; exact does_pure _ s)

theorem windowStatus_eq (s : State) (slot : Nat) : windowStatus s slot =
    BitVec.ofNat 64 (1 + (if (s.slot slot).list = .full then 1 else 0) * 2 +
      (if (s.slot slot).list = .full then s.fullList else s.prefList).idxOf slot * 2 ^ 32) := by
  rw [windowStatus, listPosition, Nat.mul_comm (2 ^ 32)]
  cases (s.slot slot).list <;> rfl

end Winfo

/-- Settles O48: the slot number is checked, and a live window's fields are reported as they are. -/
theorem slabWinfoResult : Obligations.SlabWinfoResult := by
  intro s
  refine ⟨fun h => ?_, fun h hdead => ?_, fun h hlive htaint => ?_⟩
  · exact exec_of_halts_reject (t := s) (halts_withState (halts_bind_left (halts_rejectIf_met h _ s)))
  · refine exec_of_does (does_withState (does_bind (looks_rejectIf_unmet (Nat.not_le.2 h) _ s).does ?_))
    rw [if_neg (by rw [hdead]; exact Bool.false_ne_true)]
    exact does_modify (fun s => s.setRes 0 0 0 0) s
  · intro w full position
    have hstatus : windowStatus s s.arg0.toNat = BitVec.ofNat 64 (1 + full * 2 + position * 2 ^ 32) := windowStatus_eq s _
    rw [← hstatus]
    refine exec_of_does (does_withState (does_bind (looks_rejectIf_unmet (Nat.not_le.2 h) _ s).does ?_))
    rw [if_pos hlive]
    exact does_bind (does_allocatorResult _ htaint) <| does_bind (does_allocatorCount _ htaint) <|
      does_bind (does_allocatorCount _ htaint) <| does_bind (does_allocatorResult _ htaint) <| does_modify _ s

end Sys2Proof.Machine
end

section
/-! SUPPORT. Freeing, growing and moving a region of the slab allocator (spec R362 to R367, R371, R372). -/

namespace Sys2Proof.Machine

/-! ## Freeing (spec R363) -/

section Free

variable {s : State} {h slot st u : Nat} {r : Allocation}

/-- The header is marked freed, and the later results are open when the region was not the block's own (U12). -/
def markedFreed (s : State) (r : Allocation) : State :=
  { s with mem := s.mem.write (r.header + 12) 1, slabTainted := s.slabTainted || !blocksOwn s r }

/-- The region at the pointer `ptr` goes back to its window, or to the host. -/
def givenBack (s : State) (ptr : Word) : Allocation → State
  | .large h _ =>
    { s with
      hostFrees := BitVec.ofNat 64 h :: s.hostFrees
      largeLive := s.largeLive.filter (fun x => x.1 != h)
      handed := s.handed.erase ptr }
  | .slab slot st _ u => releaseRun { s with handed := s.handed.erase ptr } slot st u

theorem markedFreed_of_own (hown : blocksOwn s r = true) : markedFreed s r = { s with mem := s.mem.write (r.header + 12) 1 } := by
  rw [markedFreed, hown, Bool.not_true, Bool.or_false]

/-- Releasing a run changes the slots and the lists alone. -/
theorem releaseRun_frame (s : State) (slot st u : Nat) :
    ∃ v p f, releaseRun s slot st u = { s with slots := v, prefList := p, fullList := f } := by
  have hpromote : ∀ s : State, ∃ v p f, promote s slot = { s with slots := v, prefList := p, fullList := f } := fun s => by
    unfold promote
    simp only
    split <;> exact ⟨_, _, _, rfl⟩
  obtain ⟨v, p, f, h⟩ := hpromote (s.setSlot slot (withoutRun (s.slot slot) st u))
  exact ⟨v, p, f, h⟩

theorem givenBack_slabTainted (s : State) (ptr : Word) (r : Allocation) : (givenBack s ptr r).slabTainted = s.slabTainted := by
  cases r with
  | large h u => rfl
  | slab slot st h u =>
    obtain ⟨v, p, f, hframe⟩ := releaseRun_frame { s with handed := s.handed.erase ptr } slot st u
    rw [givenBack, hframe]

theorem does_setFreed (hlegal : s.params.Legal) (hraced : s.raced = []) (hh : HeaderReadable s h) :
    Does (slabWrite (h + 12) [1]) s () { s with mem := s.mem.write (h + 12) 1 } := by
  have hlt := hh.header_lt
  have hunit := unit_ge hlegal
  obtain ⟨-, -, -, hport, hclear⟩ := hh
  have haddr : (h + 12) % Config.addrSpace = h + 12 := Nat.mod_eq_of_lt (by simp only [Config.addrSpace]; omega)
  have hwrite := does_slabWrite (a := h + 12) (vs := [1]) hraced (by rw [List.length_singleton]; omega)
    (hport.sub (by omega) (by rw [List.length_singleton])) (hclear.sub (by omega) (by rw [List.length_singleton]))
  rwa [Memory.writeList, Memory.writeList, haddr] at hwrite

theorem HeaderReadable.congr {t : State} (hh : HeaderReadable s h) (harg : t.arg0 = s.arg0) (hparams : t.params = s.params)
    (hport : t.port = s.port) (haround : aroundWindows t = aroundWindows s) : HeaderReadable t h := by
  obtain ⟨hnull, halign, hptr, hordinary, hclear⟩ := hh
  rw [HeaderReadable, harg, hparams]
  exact ⟨hnull, halign, hptr, fun i hi => by rw [hport]; exact hordinary i hi, hclear.congr haround⟩

theorem does_doFree (hlegal : s.params.Legal) (hraced : s.raced = []) (hh : HeaderReadable s h) (hr : r.header = h) :
    Does (doFree r) s () (givenBack (markedFreed s r) s.arg0 r) := by
  have hwrite := does_setFreed (s := { s with slabTainted := s.slabTainted || !blocksOwn s r }) hlegal hraced
    (hh.congr rfl rfl rfl (aroundWindows_congr rfl rfl fun _ _ => rfl))
  have htake : Does (takeBack (BitVec.ofNat 64 (h + s.params.unit))) (markedFreed s r) ()
      { markedFreed s r with handed := s.handed.erase s.arg0 } := by
    rw [hh.pointer]
    exact does_modify _ _
  refine does_withState <| does_bind (does_modify (fun s' => { s' with slabTainted := s'.slabTainted || !blocksOwn s r }) s) ?_
  cases r with
  | large _ u =>
    obtain rfl := hr
    exact does_bind hwrite <| does_bind htake <| does_modify _ _
  | slab slot st _ u =>
    obtain rfl := hr
    exact does_bind hwrite <| does_bind htake <| does_modify _ _

/-- A header that passes the checks names the region at itself. -/
theorem headerSays_header (hr : headerSays s h = .ok r) : r.header = h := classify_header hr

end Free

/-- Settles O43: the checks of the header pass, its freed flag is set, and the region goes back. -/
theorem slabFreeResult : Obligations.SlabFreeResult := by
  intro s hlegal hwf hraced
  refine ⟨fun hnull => ?_, fun h hh => ?_⟩
  · refine exec_of_does (does_withState ?_)
    rw [hnull]
    exact does_pure () s
  · have hfree {r : Allocation} (hr : headerSays s h = .ok r) :
        exec .slabFree s = .next ((givenBack (markedFreed s r) s.arg0 r).finish .success) :=
      exec_free hh.1 (looks_checkPointer hlegal hraced hh hr) (does_doFree hlegal hraced hh (headerSays_header hr))
    exact ⟨fun slot st u hr => hfree hr, fun u hr => hfree hr⟩

/-! ## Growing in place (spec R366) -/

section Grow

variable {s : State} {h slot st u u2 : Nat} {r : Allocation} {copy : Bool}

/-- There is room for growing in place exactly when the block finds it. -/
theorem canGrow_iff (hlegal : s.params.Legal) (hu : u ≤ u2) :
    canGrow s u2 (.slab slot st h u) = true ↔ RoomAfter s slot st u u2 := by
  have hend : st + u + (u2 - u) = st + u2 := by omega
  simp only [canGrow, RoomAfter, largeUnits_eq hlegal, maxUnits_eq hlegal, Bool.and_eq_true, decide_eq_true_eq, beq_iff_eq,
    popcountRange, and_assoc]
  rw [show st + u2 - (st + u) = u2 - u by omega, countSet_eq_zero, hend]

/-- What `grow` makes of the state before `post`. -/
def grown (s : State) (slot st h u u2 : Nat) : State :=
  { s with
    slots := s.slots.setIfInBounds slot { s.slot slot with
      used := setBits (s.slot slot).used (st + u) (st + u2)
      free := (s.slot slot).free - (u2 - u)
      resume := if st + u ≤ (s.slot slot).resume ∧ (s.slot slot).resume < st + u2 then st + u2 else (s.slot slot).resume }
    mem := s.mem.writeList (h + 8) (leBytes 4 u2) }

theorem does_grow (hlegal : s.params.Legal) (hraced : s.raced = []) (hh : HeaderReadable s h) :
    Does (grow slot st h u u2) s s.arg0 (post (grown s slot st h u u2) slot u2 []) := by
  have hlt := hh.header_lt
  have hunit := unit_ge hlegal
  have hptr := hh.pointer
  obtain ⟨-, -, -, hport, hclear⟩ := hh
  have hlen : (leBytes 4 u2).length = 4 := leBytes_length ..
  refine does_withState <| does_bind (does_modify _ s) ?_
  refine does_bind (does_slabWrite (a := h + 8) (vs := leBytes 4 u2) hraced (by omega) ?_ ?_) <|
    does_bind (does_modify (fun s' => post s' slot u2 []) _) ?_
  · rw [hlen]
    exact hport.sub (by omega) (by omega)
  · rw [hlen]
    exact (hclear.sub (by omega) (by omega)).congr (aroundWindows_congr rfl rfl fun _ _ => rfl)
  · rw [hptr]
    exact does_pure _ _

theorem does_enlarge_grow {ptr b : Nat} {p : Word} {t : State} (hg : canGrow s u2 (.slab slot st h u) = true)
    (hd : Does (grow slot st h u u2) s p t) : Does (enlarge (.slab slot st h u) ptr b u2 copy) s p t := by
  refine does_withState ?_
  rw [hg]
  exact hd

/-- A region that needs no more units (spec R372). -/
theorem does_reallocOf_enough (htaint : s.slabTainted = false) (h : unitsFor s.params s.arg1.toNat ≤ r.units) :
    Does (reallocOf s copy r) s () (s.setRes0 s.arg0) := by
  rw [reallocOf, if_pos h]
  exact does_resultPointer s.arg0 htaint

theorem does_reallocOf_enlarge {p : Word} {t : State} (h : r.units < unitsFor s.params s.arg1.toNat)
    (hd : Does (enlarge r s.arg0.toNat s.arg1.toNat (unitsFor s.params s.arg1.toNat) copy) s p t)
    (htaint : t.slabTainted = false) : Does (reallocOf s copy r) s () (t.setRes0 p) := by
  rw [reallocOf, if_neg (Nat.not_le.2 h)]
  exact does_bind hd (does_resultPointer p htaint)

end Grow

/-- Settles O45: the pointer stays, and the region takes the units behind it when it needs them. -/
theorem slabReallocInPlace : Obligations.SlabReallocInPlace := by
  intro s copy h htrusted hh h1 hmax u2
  obtain ⟨hlegal, hwf, htaint, hraced⟩ := htrusted
  have hrealloc {r : Allocation} {t : State} (hr : headerSays s h = .ok r) (hd : Does (reallocOf s copy r) s () t) :=
    exec_realloc hlegal hh.1 h1 hmax (looks_checkPointer hlegal hraced hh hr) hd
  refine ⟨fun r hr hu => hrealloc hr (does_reallocOf_enough htaint hu), fun slot st u hr hu hroom => ?_⟩
  have hlen : (leBytes 4 u2).length = 4 := leBytes_length ..
  have hend : h + 8 + (leBytes 4 u2).length ≤ 2 ^ 64 := by
    have := hh.header_lt
    have := unit_ge hlegal
    omega
  have hunits : leAt (s.mem.writeList (h + 8) (leBytes 4 u2)) (h + 8) 4 = u2 := by
    have hpart := leAt_writeList (k := 0) (n := 4) hwf hend (by omega)
    rwa [List.drop_zero, List.take_of_length_le (by omega), leValue_leBytes (by have := unitsFor_lt hlegal hmax; omega)] at hpart
  refine ⟨_, Memory.wf_writeList hwf, hunits, fun a ha => read_writeList_outside hwf hend (by omega), ?_⟩
  exact hrealloc hr (does_reallocOf_enlarge hu
    (does_enlarge_grow ((canGrow_iff hlegal (Nat.le_of_lt hu)).2 hroom) (does_grow hlegal hraced hh))
    (by rw [post_slabTainted]; exact htaint))

end Sys2Proof.Machine
end

section
/-! SUPPORT. Moving a region of the slab allocator to a new one (spec R367, R372). -/

namespace Sys2Proof.Machine

/-! ## What a move makes of the memory -/

section Memory

variable {m : Memory} {r window u2 p src n h : Nat}

/-- The memory after a move: the new header at `r`, then the `n` bytes from `src` copied to `p`, then the freed flag of the header
at `h`. -/
def movedMemory (m : Memory) (r window u2 p src n h : Nat) : Memory :=
  ((m.writeList r (headerBytes window u2 0)).writeList p (bytesAt (m.writeList r (headerBytes window u2 0)) src n)).write
    (h + 12) 1

/-- The new region, `size` bytes from `r`, lies in the data space apart from the old one, `old` bytes from `h`, and each has room
for a header and the `n` payload bytes copied. -/
structure RegionsApart (r p size src n h old : Nat) : Prop where
  header : r + 16 ≤ p
  payload : p + n < r + size
  ends : r + size ≤ 2 ^ 64
  oldHeader : h + 16 ≤ src
  oldPayload : src + n ≤ h + old
  oldEnds : h + old ≤ 2 ^ 64
  apart : r + size ≤ h ∨ h + old ≤ r

theorem movesRegion_movedMemory {size old : Nat} (hm : m.wf = true) (hwindow : window < 2 ^ 64) (hu : u2 < 2 ^ 32)
    (ha : RegionsApart r p size src n h old) :
    MovesRegion m (movedMemory m r window u2 p src n h) r window u2 p src n h := by
  obtain ⟨hheader, hpayload, hends, holdHeader, holdPayload, holdEnds, hapart⟩ := ha
  obtain ⟨hwf₁, hwin, hunits, hfreed, hframe₁⟩ := writesHeader_writeList (h := r) hm (by omega) hwindow hu
  rw [movedMemory]
  generalize m.writeList r (headerBytes window u2 0) = m₁ at *
  have hlen : (bytesAt m₁ src n).length = n := bytesAt_length m₁ src n
  have hwf₂ : (m₁.writeList p (bytesAt m₁ src n)).wf = true := Memory.wf_writeList hwf₁
  have hoff {x : Nat} (hx : ¬ (p ≤ x ∧ x < p + n)) (hx' : x ≠ h + 12) :
      ((m₁.writeList p (bytesAt m₁ src n)).write (h + 12) 1).read x = m₁.read x := by
    rw [Memory.read_write hwf₂, if_neg hx', read_writeList_outside hwf₁ (by omega) (by rwa [hlen])]
  have hsame {k j : Nat} (hk : k + j ≤ 16) :
      leAt ((m₁.writeList p (bytesAt m₁ src n)).write (h + 12) 1) (r + k) j = leAt m₁ (r + k) j := leAt_congr fun i hi => by
    rw [Nat.mod_eq_of_lt (show r + k + i < Config.addrSpace by simp only [Config.addrSpace]; omega)]
    exact hoff (by omega) (by omega)
  refine ⟨Memory.wf_write hwf₂ (by simp only [Config.addrSpace]; omega), (hsame (k := 0) (by omega)).trans hwin,
    (hsame (by omega)).trans hunits, (hsame (by omega)).trans hfreed, fun i hi => ?_, ?_, fun a h1 h2 h3 => ?_⟩
  · have haddr : (src + i) % Config.addrSpace = src + i := Nat.mod_eq_of_lt (by simp only [Config.addrSpace]; omega)
    rw [Memory.read_write hwf₂, if_neg (by omega), read_writeList_inside hwf₁ (by omega) (by omega), bytesAt_getD m₁ hi, haddr,
      hframe₁ _ (by omega)]
  · rw [Memory.read_write hwf₂, if_pos rfl]
  · rw [hoff h2 h3, hframe₁ a h1]

end Memory

/-! ## The copy (spec R367) -/

section Copy

variable {s : State} {h ptr p n : Nat}

theorem does_copyPayload (hraced : s.raced = []) (hport : s.port = []) (hheader : h + 13 ≤ 2 ^ 64) (hclear : ClearOfStructures s h 13)
    (hend : p + n ≤ 2 ^ 64) (hnew : ClearOfStructures s p n) :
    Does (copyPayload h ptr p n) s () { s with mem := s.mem.writeList p (bytesAt s.mem ptr n) } := by
  refine does_withState fun q hq ho => ?_
  have hquiet {area : Nat → Bool} : Quiet { q with area := area } := ⟨by rw [hq]; exact hraced, ho⟩
  have hloose := anyOpen_shut hquiet (shut_slabArea hheader hclear hq (ordinary_of_port_nil hport h 13))
  have hshut {a k : Nat} := shut_slabArea (c := a) (k := k) hend hnew hq (ordinary_of_port_nil hport a k)
  obtain ⟨q₁, hread, hr⟩ := memRead_shut (a := ptr) (n := n) hquiet hshut
  obtain ⟨q₂, hwrite, hstep⟩ := memWrite_shut (a := p) (vs := bytesAt q.st.mem ptr n) (hr.quiet hquiet) (hshut.after hr)
  refine ⟨q₂, ?_, ?_, (hstep.quiet (hr.quiet hquiet)).opens⟩
  · rw [bind_run_ok (setArea_run _ _), bind_run_ok hloose, bind_run_ok (setArea_run _ _), bind_run_ok hread, bind_run_ok hwrite]
    rfl
  · rw [hstep.st, hr.st, hq]

end Copy

/-! ## `move` (spec R367) -/

section Move

variable {s t : State} {old : Allocation} {r window u2 b h n : Nat} {copy : Bool}

/-- `alloc` has led from `s` to `t` with a new region of `u2` units at `r`, its header written, over ordinary memory. -/
structure NewRegion (s t : State) (r window u2 : Nat) : Prop where
  operands : operandSide t = operandSide s
  config : configSide t = configSide s
  place : windowSide t = windowSide s
  params : t.params = s.params
  raced : t.raced = []
  port : t.port = []
  taint : t.slabTainted = false
  mem : t.mem = s.mem.writeList r (headerBytes window u2 0)

theorem NewRegion.arg0 (hnew : NewRegion s t r window u2) : t.arg0 = s.arg0 := congrArg (·.1) hnew.operands

theorem does_moveRegion (hlegal : s.params.Legal) (hwf : s.mem.wf = true) (hport : s.port = []) (hh : HeaderReadable s h)
    (hold : old.header = h) (hn : n = if copy then (old.units - 1) * s.params.unit else 0) (hown : blocksOwn t old = true)
    (hnew : NewRegion s t r window u2) (halloc : Does (alloc b) s (BitVec.ofNat 64 (r + s.params.unit)) t)
    (hclear : ClearOfStructures s r (u2 * s.params.unit))
    (ha : RegionsApart r (r + s.params.unit) (u2 * s.params.unit) s.arg0.toNat n h (old.units * s.params.unit)) :
    Does (moveRegion old s.arg0.toNat b copy) s (BitVec.ofNat 64 (r + s.params.unit))
      (givenBack { t with mem := movedMemory s.mem r window u2 (r + s.params.unit) s.arg0.toNat n h } s.arg0 old) := by
  have hunit := unit_ge hlegal
  have hlen : (headerBytes window u2 0).length = 16 := headerBytes_length ..
  have hbytes {k : Nat} (m : Memory) (a : Nat) : (bytesAt m a k).length = k := bytesAt_length m a k
  obtain ⟨hheader, hpayload, hends, holdHeader, holdPayload, holdEnds, hapart⟩ := ha
  have hptr : s.arg0.toNat - s.params.unit = h := by rw [hh.toNat_eq, Nat.add_sub_cancel]
  have hp : (BitVec.ofNat 64 (r + s.params.unit)).toNat = r + s.params.unit := by
    rw [BitVec.toNat_ofNat, Nat.mod_eq_of_lt (by omega)]
  have hframe {x : Nat} (hx : ¬ (r ≤ x ∧ x < r + u2 * s.params.unit)) : t.mem.read x = s.mem.read x := by
    rw [hnew.mem, read_writeList_outside hwf (by omega) (by omega)]
  have haround : aroundWindows t = aroundWindows s := hclear.around hnew.config hnew.place fun x hx => hframe hx
  have hht : HeaderReadable t h := hh.congr hnew.arg0 hnew.params (by rw [hnew.port, hport]) haround
  have hmem : (t.mem.writeList (r + s.params.unit) (bytesAt t.mem s.arg0.toNat n)).write (h + 12) 1 =
      movedMemory s.mem r window u2 (r + s.params.unit) s.arg0.toNat n h := by
    rw [hnew.mem, movedMemory]
  have haround' : aroundWindows { t with mem := t.mem.writeList (r + s.params.unit) (bytesAt t.mem s.arg0.toNat n) } =
      aroundWindows t := (hclear.congr haround).around rfl rfl fun x hx =>
    read_writeList_outside (by rw [hnew.mem]; exact Memory.wf_writeList hwf) (by rw [hbytes]; omega) (by rw [hbytes]; omega)
  have hgiven (x : State) : givenBack x t.arg0 old = givenBack x s.arg0 old := by rw [hnew.arg0]
  -- the old region freed, in the state after the copy
  have hfree : Does (doFree old) { t with mem := t.mem.writeList (r + s.params.unit) (bytesAt t.mem s.arg0.toNat n) } ()
      (givenBack { t with mem := movedMemory s.mem r window u2 (r + s.params.unit) s.arg0.toNat n h } s.arg0 old) := by
    rw [← hmem]
    generalize t.mem.writeList (r + s.params.unit) (bytesAt t.mem s.arg0.toNat n) = m₂ at *
    have hown' : blocksOwn { t with mem := m₂ } old = true := by cases old <;> exact hown
    have hfree := does_doFree (s := { t with mem := m₂ }) (by rw [hnew.params]; exact hlegal) hnew.raced
      (hht.congr rfl rfl rfl haround') hold
    rwa [markedFreed_of_own hown', hold, hgiven] at hfree
  have hrest := does_bind (f := fun _ => pure (BitVec.ofNat 64 (r + s.params.unit))) hfree (does_pure _ _)
  refine does_withState <| does_bind halloc ?_
  cases copy with
  | false =>
    obtain rfl := hn
    exact hrest
  | true =>
    have hn : n = (old.units - 1) * s.params.unit := hn
    have hcopy : Does (copyPayload (s.arg0.toNat - s.params.unit) s.arg0.toNat (BitVec.ofNat 64 (r + s.params.unit)).toNat
        ((old.units - 1) * s.params.unit)) t ()
        { t with mem := t.mem.writeList (r + s.params.unit) (bytesAt t.mem s.arg0.toNat n) } := by
      rw [hptr, hp, ← hn]
      exact does_copyPayload hnew.raced hnew.port (by omega) hht.clear (by omega)
        ((hclear.sub (by omega) (by omega)).congr haround)
    exact does_bind hcopy hrest

end Move

/-! ## The old region (spec R362) -/

section Old

variable {s t : State} {h slot st u u2 : Nat} {old : Allocation}

theorem classify_slab {win n freed : Nat} (hr : classify s h win n freed = .ok (.slab slot st h u)) :
    2 ≤ u ∧ h = unitAddr s slot st := by
  unfold classify at hr
  simp only at hr
  split_ifs at hr with h1 h2 h3 h4 h5 h6 h7 h8
  · cases hr
  · cases hr
    obtain ⟨hbase, halign⟩ := not_or.1 h6
    have hdiv := Nat.div_add_mod' (h - (s.slot (win - 1)).base.toNat) s.params.unit
    rw [unitAddr]
    omega

/-- The header of a slab region names a live window, a run of its taken units, and the address of the run. -/
theorem headerSays_slab (hr : headerSays s h = .ok (.slab slot st h u)) :
    LiveSlot s slot ∧ RunAt s.params (s.slot slot) st u ∧ 2 ≤ u ∧ h = unitAddr s slot st := by
  obtain ⟨hlive, hrun⟩ := classify_held hr
  exact ⟨hlive, hrun, classify_slab hr⟩

theorem classify_large {win n freed : Nat} (hr : classify s h win n freed = .ok (.large h u)) : s.params.largeUnits ≤ u := by
  unfold classify at hr
  simp only at hr
  split_ifs at hr with h1 h2 h3 h4
  · cases hr
    omega
  · cases hr

theorem headerSays_large (hlegal : s.params.Legal) (hr : headerSays s h = .ok (.large h u)) : 512 ≤ u := by
  rw [← largeUnits_eq hlegal]
  exact classify_large hr

theorem headerSays_units_pos (hlegal : s.params.Legal) (hr : headerSays s h = .ok old) : 1 ≤ old.units := by
  obtain rfl := headerSays_header hr
  cases old with
  | large h u =>
    have := headerSays_large hlegal hr
    exact le_trans (by omega) this
  | slab slot st h u =>
    obtain ⟨-, -, hu, -⟩ := headerSays_slab hr
    exact le_trans (by omega) hu

/-- A slab region lies inside its window. -/
theorem headerSays_inside (hlegal : s.params.Legal) (hr : headerSays s h = .ok (.slab slot st h u)) :
    (s.slot slot).base.toNat ≤ h ∧ h + u * s.params.unit ≤ (s.slot slot).base.toNat + 2048 * s.params.unit := by
  obtain ⟨-, ⟨hend, -⟩, -, hat⟩ := headerSays_slab hr
  rw [maxUnits_eq hlegal] at hend
  have hbytes := Nat.mul_le_mul_right s.params.unit hend
  rw [Nat.add_mul] at hbytes
  rw [unitAddr] at hat
  omega

/-- A slab region lies apart from an answer that the host may give (spec R120). -/
theorem NextAnswer.apart_slab {size : Nat} {r : Word} {rest : List (Option Word)} (hanswer : NextAnswer s size r rest)
    (hlegal : s.params.Legal) (hr : headerSays s h = .ok (.slab slot st h u)) :
    r.toNat + size ≤ h ∨ h + u * s.params.unit ≤ r.toNat := by
  obtain ⟨⟨hslot, hlive⟩, -⟩ := headerSays_slab hr
  have hinside := headerSays_inside hlegal hr
  have happart := hanswer.apart.2 ((s.slot slot).base.toNat, windowBytes s.params) (List.mem_append_left _ <|
    List.mem_append_left _ <| (mem_windowRegions hlegal).2 ⟨slot, hslot, hlive, rfl⟩)
  simp only [windowBytes, maxUnits_eq hlegal] at happart
  omega

/-- A request for 512 units or more grows nowhere in place. -/
theorem canGrow_of_large (hlegal : s.params.Legal) (h : 512 ≤ u2) : canGrow s u2 old = false := by
  cases old with
  | large h u => rfl
  | slab slot st h u => rw [canGrow, largeUnits_eq hlegal, decide_eq_false (by omega), Bool.false_and]

end Old

/-! ## SLAB_REALLOC that moves (spec R372) -/

section Realloc

variable {s t : State} {old : Allocation} {r window u2 h n : Nat} {copy : Bool}

/-- Without room in place, the region moves. -/
theorem enlarge_run {q : Run} {ptr b : Nat} (hq : q.st = s) (hgrow : canGrow s u2 old = false) :
    enlarge old ptr b u2 copy q = moveRegion old ptr b copy q := by
  subst hq
  cases old with
  | large h u => exact bind_run_ok (getState_run q)
  | slab slot st h u =>
    refine (bind_run_ok (getState_run q)).trans ?_
    rw [hgrow]

/-- Where the new region is: in the data space, clear of the structures, apart from the old region. -/
structure Placed (s : State) (old : Allocation) (r u2 h : Nat) : Prop where
  ends : r + u2 * s.params.unit ≤ 2 ^ 64
  oldEnds : h + old.units * s.params.unit ≤ 2 ^ 64
  apart : r + u2 * s.params.unit ≤ h ∨ h + old.units * s.params.unit ≤ r
  clear : ClearOfStructures s r (u2 * s.params.unit)

theorem Placed.regionsApart (hplace : Placed s old r u2 h) (hlegal : s.params.Legal) (hh : HeaderReadable s h)
    (hpos : 1 ≤ old.units) (hlt : old.units < u2) (hn : n = if copy then (old.units - 1) * s.params.unit else 0) :
    RegionsApart r (r + s.params.unit) (u2 * s.params.unit) s.arg0.toNat n h (old.units * s.params.unit) := by
  have hunit := unit_ge hlegal
  have hptr := hh.toNat_eq
  have hcopied : s.params.unit + n ≤ old.units * s.params.unit := by
    have hall : (old.units - 1) * s.params.unit + s.params.unit = old.units * s.params.unit := by
      rw [← Nat.succ_mul, Nat.succ_eq_add_one, Nat.sub_add_cancel hpos]
    split at hn <;> omega
  have hroom : old.units * s.params.unit < u2 * s.params.unit := Nat.mul_lt_mul_of_pos_right hlt (by omega)
  obtain ⟨hends, holdEnds, hapart, -⟩ := hplace
  exact ⟨by omega, by omega, hends, by omega, by omega, holdEnds, hapart⟩

/-- A region that needs more units than it has, and has no room for them, moves to the one that `alloc` gets. -/
theorem exec_realloc_move (htrusted : SlabTrusted s) (hport : s.port = []) (hh : HeaderReadable s h) (h1 : 1 ≤ s.arg1.toNat)
    (hmax : s.arg1.toNat ≤ 2 ^ 29 - 1) (hr : headerSays s h = .ok old) (hlt : old.units < unitsFor s.params s.arg1.toNat)
    (hgrow : canGrow s (unitsFor s.params s.arg1.toNat) old = false)
    (hn : n = if copy then (old.units - 1) * s.params.unit else 0)
    (halloc : Does (alloc s.arg1.toNat) s (BitVec.ofNat 64 (r + s.params.unit)) t)
    (hnew : NewRegion s t r window (unitsFor s.params s.arg1.toNat)) (hwindow : window < 2 ^ 64) (hown : blocksOwn t old = true)
    (hplace : Placed s old r (unitsFor s.params s.arg1.toNat) h) :
    ∃ m, MovesRegion s.mem m r window (unitsFor s.params s.arg1.toNat) (r + s.params.unit) s.arg0.toNat n h ∧
      exec (.slabRealloc copy) s = .next (((givenBack { t with mem := m } s.arg0 old).setRes0
        (BitVec.ofNat 64 (r + s.params.unit))).finish .success) := by
  obtain ⟨hlegal, hwf, htaint, hraced⟩ := htrusted
  have happart := hplace.regionsApart hlegal hh (headerSays_units_pos hlegal hr) hlt hn
  have hmove := does_moveRegion hlegal hwf hport hh (headerSays_header hr) hn hown hnew halloc hplace.clear happart
  refine ⟨_, movesRegion_movedMemory hwf hwindow (unitsFor_lt hlegal hmax) happart, ?_⟩
  exact exec_realloc hlegal hh.1 h1 hmax (looks_checkPointer hlegal hraced hh hr)
    (does_reallocOf_enlarge hlt (does_congr (fun q hq => enlarge_run hq hgrow) hmove)
      (by rw [givenBack_slabTainted]; exact hnew.taint))

/-- When `alloc` fails the command is fatal, before any write. -/
theorem exec_realloc_fatal {e : ErrorBit} (htrusted : SlabTrusted s) (hh : HeaderReadable s h) (h1 : 1 ≤ s.arg1.toNat)
    (hmax : s.arg1.toNat ≤ 2 ^ 29 - 1) (hr : headerSays s h = .ok old) (hlt : old.units < unitsFor s.params s.arg1.toNat)
    (hgrow : canGrow s (unitsFor s.params s.arg1.toNat) old = false)
    (halloc : ∀ port, Halts (alloc s.arg1.toNat) { s with port := port } (.fatal e) { t with port := port })
    (hport : t.port = s.port) : exec (.slabRealloc copy) s = .next (t.fatal e) := by
  obtain ⟨hlegal, -, -, hraced⟩ := htrusted
  refine exec_of_halts_fatal (fun port hsub => ?_) hport
  have hh' : HeaderReadable { s with port := port } h := by
    obtain ⟨hnull, halign, hptr, hordinary, hclear⟩ := hh
    exact ⟨hnull, halign, hptr, fun i hi x hx => hordinary i hi x (hsub x hx),
      hclear.congr (aroundWindows_congr rfl rfl fun _ _ => rfl)⟩
  have hmove : Halts (moveRegion old s.arg0.toNat s.arg1.toNat copy) { s with port := port } (.fatal e) { t with port := port } :=
    halts_withState (halts_bind_left (halloc port))
  have henlarge : Halts (reallocOf { s with port := port } copy old) { s with port := port } (.fatal e)
      { t with port := port } := by
    rw [reallocOf, if_neg (Nat.not_le.2 hlt)]
    exact halts_bind_left (halts_congr (fun q hq => enlarge_run hq hgrow) hmove)
  exact halts_congr (fun q hq => slabReallocBody_run hq hh.1) (halts_bind (looks_requestCheck hlegal h1 hmax)
    (halts_bind (looks_checkPointer hlegal hraced hh' hr) henlarge))

end Realloc

section Large

variable {s : State} {h slot st u u2 : Nat} {r : Word} {rest : List (Option Word)} {old : Allocation}

theorem newRegion_allocatedLarge (hraced : s.raced = []) (hport : s.port = []) (htaint : s.slabTainted = false) :
    NewRegion s (allocatedLarge s r rest u2) r.toNat 0 u2 := by
  rw [allocatedLarge, tookLarge]
  exact {
    operands := by simp only [operandSide]
    config := by simp only [configSide]
    place := by simp only [windowSide]
    params := rfl
    raced := hraced
    port := hport
    taint := htaint
    mem := rfl }

/-- A slab region that moves to a large allocation. -/
theorem givenBack_allocatedLarge_slab (m : Memory) :
    givenBack { allocatedLarge s r rest u2 with mem := m } s.arg0 (.slab slot st h u) = releaseRun { s with
      allocAnswers := rest
      largeLive := (r.toNat, u2 * s.params.unit) :: s.largeLive
      mem := m
      handed := (BitVec.ofNat 64 (r.toNat + s.params.unit) :: s.handed).erase s.arg0 } slot st u := by
  rw [givenBack, allocatedLarge, tookLarge]

/-- A large allocation that moves to another. -/
theorem givenBack_allocatedLarge_large (m : Memory) :
    givenBack { allocatedLarge s r rest u2 with mem := m } s.arg0 (.large h u) = { s with
      allocAnswers := rest
      largeLive := ((r.toNat, u2 * s.params.unit) :: s.largeLive).filter (fun x => x.1 != h)
      hostFrees := BitVec.ofNat 64 h :: s.hostFrees
      mem := m
      handed := (BitVec.ofNat 64 (r.toNat + s.params.unit) :: s.handed).erase s.arg0 } := by
  rw [givenBack, allocatedLarge, tookLarge]

/-- What is the block's own stays so when the block allocates. -/
theorem blocksOwn_allocatedLarge (hown : blocksOwn s old = true) : blocksOwn (allocatedLarge s r rest u2) old = true := by
  cases old with
  | large h u => exact (List.any_cons ..).trans (Bool.or_eq_true_iff.2 (.inr hown))
  | slab slot st h u => exact List.contains_cons.trans (Bool.or_eq_true_iff.2 (.inr hown))

end Large

/-- Settles O46: the region has no room in place, and `alloc` takes the large branch; the new region lies apart from the old one,
whose window or large allocation the host allocator counts as taken. -/
theorem slabReallocToLarge : Obligations.SlabReallocToLarge := by
  intro s copy h old r rest htrusted hh h1 hmax hr hlarge hlt u2 p n
  have ⟨hlegal, hwf, htaint, hraced⟩ := htrusted
  have hgrow : canGrow s u2 old = false := canGrow_of_large hlegal hlarge
  have hunit := unit_ge hlegal
  refine ⟨fun hfails => exec_realloc_fatal htrusted hh h1 hmax hr hlt hgrow
    (fun port => halts_alloc_large (s := { s with port := port }) hlegal hlarge hfails) rfl, ?_⟩
  intro hanswer hport hown hclear
  obtain ⟨hends, happart⟩ := hanswer.apart
  have hsize : 512 * 16 ≤ u2 * s.params.unit := Nat.mul_le_mul hlarge hunit
  have halloc := does_alloc_large hlegal hraced hlarge hanswer (by omega) (ordinary_of_port_nil hport _ _)
    (hclear.sub (Nat.le_refl _) (by omega))
  have hmove (holdEnds : h + old.units * s.params.unit ≤ 2 ^ 64)
      (hold : r.toNat + u2 * s.params.unit ≤ h ∨ h + old.units * s.params.unit ≤ r.toNat) :=
    exec_realloc_move (copy := copy) htrusted hport hh h1 hmax hr hlt hgrow rfl halloc (newRegion_allocatedLarge hraced hport htaint)
      (by omega) (blocksOwn_allocatedLarge hown) ⟨hends, holdEnds, hold, hclear⟩
  refine ⟨fun slot st u hslab hwindow => ?_, fun u hbook hlive holdEnds => ?_⟩
  · subst hslab
    have hinside := headerSays_inside hlegal hr
    obtain ⟨m, hm, hexec⟩ := hmove (le_trans hinside.2 hwindow) (hanswer.apart_slab hlegal hr)
    rw [givenBack_allocatedLarge_slab] at hexec
    exact ⟨m, hm, hexec⟩
  · subst hbook
    obtain ⟨m, hm, hexec⟩ := hmove holdEnds (happart _ (List.mem_append_right _ hlive))
    rw [givenBack_allocatedLarge_large] at hexec
    exact ⟨m, hm, hexec⟩

end Sys2Proof.Machine
end

section
/-! SUPPORT. Moving a region of the slab allocator to another small one (spec R366, R367, R372). -/

namespace Sys2Proof.Machine

/-! ## The migration after an allocation, over another memory -/

section Heap

/-- The state with another memory and another record of the payloads handed out. -/
def withHeap (s : State) (m : Memory) (l : List Word) : State := { s with mem := m, handed := l }

variable {s : State} {m : Memory} {l : List Word}

theorem migrate_withHeap (s : State) (m : Memory) (l : List Word) (x : Nat) :
    migrate (withHeap s m l) x = withHeap (migrate s x) m l := by
  by_cases h : (s.slot x).list = .pref ∧ (s.slot x).free < s.params.prefFreeThreshold
  · rw [show migrate s x = _ from if_pos h]
    exact if_pos h
  · rw [show migrate s x = s from if_neg h]
    exact if_neg h

/-- Which windows migrate does not hang on the memory. -/
theorem post_withHeap (s : State) (m : Memory) (l : List Word) (w u : Nat) (scanned : List Nat) :
    post (withHeap s m l) w u scanned = withHeap (post s w u scanned) m l := by
  have hfold : ∀ (xs : List Nat) (s : State), xs.foldl migrate (withHeap s m l) = withHeap (xs.foldl migrate s) m l := by
    intro xs
    induction xs with
    | nil => exact fun _ => rfl
    | cons x xs ih => exact fun s => by rw [List.foldl_cons, List.foldl_cons, migrate_withHeap, ih]
  have htakes : takes (withHeap s m l) w u = takes s w u := rfl
  unfold post
  rw [htakes]
  split
  · rfl
  · exact hfold _ s

end Heap

section Small

variable {s : State} {h slot st u u2 w x : Nat} {r : Word} {rest : List (Option Word)} {scanned : List Nat}

theorem post_handed (s : State) (w u : Nat) (scanned : List Nat) : (post s w u scanned).handed = s.handed := by
  obtain ⟨v, p, f, h⟩ := post_frame s w u scanned
  rw [h]

theorem newRegion_carved (hraced : s.raced = []) (hport : s.port = []) (htaint : s.slabTainted = false) :
    NewRegion s (post (carved s w x u2) w u2 scanned) (unitAddr s w x) (w + 1) u2 := by
  obtain ⟨v, p, f, hpost⟩ := post_frame (carved s w x u2) w u2 scanned
  rw [hpost, carved, State.setSlot]
  exact {
    operands := by simp only [operandSide]
    config := by simp only [configSide]
    place := by simp only [windowSide]
    params := rfl
    raced := hraced
    port := hport
    taint := htaint
    mem := rfl }

theorem newRegion_opened (hlegal : s.params.Legal) (hslot : w < s.params.nwMax) (hraced : s.raced = []) (hport : s.port = [])
    (htaint : s.slabTainted = false) : NewRegion s (carved (opened s w r rest) w 0 u2) r.toNat (w + 1) u2 := by
  rw [carved_opened hlegal hslot]
  exact {
    operands := by simp only [operandSide]
    config := by simp only [configSide]
    place := by simp only [windowSide]
    params := rfl
    raced := hraced
    port := hport
    taint := htaint
    mem := rfl }

/-- A payload that the host has got is the block's own, also once another has been handed out. -/
theorem blocksOwn_of_handed {t : State} {p : Word} (hh : HeaderReadable s h) (hparams : t.params = s.params)
    (ht : t.handed = p :: s.handed) (hown : s.handed.contains s.arg0 = true) : blocksOwn t (.slab slot st h u) = true := by
  rw [blocksOwn, hparams, hh.pointer, ht]
  exact List.contains_cons.trans (Bool.or_eq_true_iff.2 (.inr hown))

/-- A slab region that moves to a window of PREF. -/
theorem givenBack_carved (m : Memory) :
    givenBack { post (carved s w x u2) w u2 scanned with mem := m } s.arg0 (.slab slot st h u) =
      releaseRun (post { s with
        slots := s.slots.setIfInBounds w (takenSlot (s.slot w) x u2)
        mem := m
        handed := (BitVec.ofNat 64 (unitAddr s w x + s.params.unit) :: s.handed).erase s.arg0 } w u2 scanned) slot st u := by
  have hpost := post_withHeap (carved s w x u2) m ((BitVec.ofNat 64 (unitAddr s w x + s.params.unit) :: s.handed).erase s.arg0)
    w u2 scanned
  have hhanded : (post (carved s w x u2) w u2 scanned).handed = BitVec.ofNat 64 (unitAddr s w x + s.params.unit) :: s.handed :=
    post_handed ..
  rw [givenBack, hhanded]
  exact congrArg (releaseRun · slot st u) hpost.symm

/-- A slab region that moves to a new window. -/
theorem givenBack_opened (hlegal : s.params.Legal) (hslot : w < s.params.nwMax) (m : Memory) :
    givenBack { carved (opened s w r rest) w 0 u2 with mem := m } s.arg0 (.slab slot st h u) =
      releaseRun { s with
        slots := s.slots.setIfInBounds w
          { live := true, base := r, used := setBits 0 0 u2, free := 2048 - u2, resume := u2, list := .pref }
        prefList := w :: s.prefList
        allocAnswers := rest
        windowsLive := (r.toNat, 2048 * s.params.unit) :: s.windowsLive
        mem := m
        handed := (BitVec.ofNat 64 (r.toNat + s.params.unit) :: s.handed).erase s.arg0 } slot st u := by
  rw [carved_opened hlegal hslot, givenBack]

/-- Two runs of one window, one taken and one free, lie apart. -/
theorem unitAddr_apart (hr : headerSays s h = .ok (.slab slot st h u)) (hpos : 0 < u2)
    (hgap : findGap s.params.maxUnits (s.slot slot) u2 = some x) :
    unitAddr s slot x + u2 * s.params.unit ≤ h ∨ h + u * s.params.unit ≤ unitAddr s slot x := by
  obtain ⟨-, ⟨-, hset⟩, hu, hat⟩ := headerSays_slab hr
  obtain ⟨-, hclear⟩ := findGap_gap hgap
  have hunits : x + u2 ≤ st ∨ st + u ≤ x := by
    by_contra hboth
    have htaken := hset (max x st) (by omega) (by omega)
    rw [hclear (max x st) (by omega) (by omega)] at htaken
    cases htaken
  rw [hat, unitAddr, unitAddr]
  refine hunits.imp (fun hle => ?_) fun hle => ?_
  · have hbytes := Nat.mul_le_mul_right s.params.unit hle
    rw [Nat.add_mul] at hbytes
    omega
  · have hbytes := Nat.mul_le_mul_right s.params.unit hle
    rw [Nat.add_mul] at hbytes
    omega

/-- A request for fewer than 512 units is of a legal size (spec R355). -/
theorem size_le_of_small {b : Nat} (hlegal : s.params.Legal) (hsmall : unitsFor s.params b < 512) : b ≤ 2 ^ 29 - 1 := by
  obtain ⟨hunit, -⟩ := hlegal
  rw [unitsFor, ceilDiv] at hsmall
  rcases hunit with hunit | hunit <;> rw [hunit] at hsmall <;> omega

/-- SLAB_REALLOC of a legal pointer to a slab region that stays small and must move (spec R366). -/
structure SmallMove (s : State) (h slot st u : Nat) : Prop where
  trusted : SlabTrusted s
  readable : HeaderReadable s h
  asked : 1 ≤ s.arg1.toNat
  header : headerSays s h = .ok (.slab slot st h u)
  more : u < unitsFor s.params s.arg1.toNat
  small : unitsFor s.params s.arg1.toNat < 512
  stuck : canGrow s (unitsFor s.params s.arg1.toNat) (.slab slot st h u) = false

/-- Its new region has room for a header. -/
theorem SmallMove.header_le (hmove : SmallMove s h slot st u) : 16 ≤ unitsFor s.params s.arg1.toNat * s.params.unit := by
  obtain ⟨⟨hlegal, -⟩, -, -, -, hmore, -⟩ := hmove
  have hunits := Nat.mul_le_mul (show 1 ≤ unitsFor s.params s.arg1.toNat by omega) (unit_ge hlegal)
  omega

theorem exec_realloc_toWindow {copy : Bool} (hmove : SmallMove s h slot st u) (hport : s.port = [])
    (hown : s.handed.contains s.arg0 = true) (hfirst : FirstThatTakes s (unitsFor s.params s.arg1.toNat) scanned w x)
    (hplace : Placed s (.slab slot st h u) (unitAddr s w x) (unitsFor s.params s.arg1.toNat) h) :
    ∃ m, MovesRegion s.mem m (unitAddr s w x) (w + 1) (unitsFor s.params s.arg1.toNat) (unitAddr s w x + s.params.unit)
        s.arg0.toNat (if copy then (u - 1) * s.params.unit else 0) h ∧
      exec (.slabRealloc copy) s = .next (((releaseRun (post { s with
          slots := s.slots.setIfInBounds w (takenSlot (s.slot w) x (unitsFor s.params s.arg1.toNat))
          mem := m
          handed := (BitVec.ofNat 64 (unitAddr s w x + s.params.unit) :: s.handed).erase s.arg0 } w
            (unitsFor s.params s.arg1.toNat) scanned) slot st u).setRes0
              (BitVec.ofNat 64 (unitAddr s w x + s.params.unit))).finish .success) := by
  have hheader := hmove.header_le
  obtain ⟨htrusted, hh, h1, hr, hlt, hsmall, hgrow⟩ := hmove
  have ⟨hlegal, hwf, htaint, hraced⟩ := htrusted
  have ⟨hends, _, _, hclear⟩ := hplace
  have ⟨_, _, hfree, _⟩ := hfirst
  have hw : w < Config.maxSlots := slot_lt_of_takes (unitsFor_pos ..) hfree
  have halloc := does_alloc_small hlegal hsmall (does_allocSmall_window hfirst
    (does_carve hraced (by omega) (ordinary_of_port_nil hport _ _) (hclear.sub (Nat.le_refl _) (by omega))))
  have hnew := newRegion_carved (w := w) (x := x) (u2 := unitsFor s.params s.arg1.toNat) (scanned := scanned) hraced hport htaint
  obtain ⟨m, hm, hexec⟩ := exec_realloc_move (copy := copy) htrusted hport hh h1 (size_le_of_small hlegal hsmall) hr hlt hgrow rfl
    halloc hnew (by simp only [Config.maxSlots] at hw; omega) (blocksOwn_of_handed hh hnew.params (post_handed ..) hown) hplace
  rw [givenBack_carved] at hexec
  exact ⟨m, hm, hexec⟩

theorem exec_realloc_toNewWindow {copy : Bool} (hmove : SmallMove s h slot st u) (hport : s.port = [])
    (hown : s.handed.contains s.arg0 = true) (hnone : NoWindowTakes s (unitsFor s.params s.arg1.toNat)) (hslot : LowestDead s w)
    (hanswer : NextAnswer s (2048 * s.params.unit) r rest)
    (hplace : Placed s (.slab slot st h u) r.toNat (unitsFor s.params s.arg1.toNat) h) :
    ∃ m, MovesRegion s.mem m r.toNat (w + 1) (unitsFor s.params s.arg1.toNat) (r.toNat + s.params.unit) s.arg0.toNat
        (if copy then (u - 1) * s.params.unit else 0) h ∧
      exec (.slabRealloc copy) s = .next (((releaseRun { s with
          slots := s.slots.setIfInBounds w {
            live := true, base := r, list := .pref
            used := setBits 0 0 (unitsFor s.params s.arg1.toNat)
            free := 2048 - unitsFor s.params s.arg1.toNat
            resume := unitsFor s.params s.arg1.toNat }
          prefList := w :: s.prefList
          allocAnswers := rest
          windowsLive := (r.toNat, 2048 * s.params.unit) :: s.windowsLive
          mem := m
          handed := (BitVec.ofNat 64 (r.toNat + s.params.unit) :: s.handed).erase s.arg0 } slot st u).setRes0
            (BitVec.ofNat 64 (r.toNat + s.params.unit))).finish .success) := by
  have hheader := hmove.header_le
  obtain ⟨htrusted, hh, h1, hr, hlt, hsmall, hgrow⟩ := hmove
  have ⟨hlegal, hwf, htaint, hraced⟩ := htrusted
  have ⟨hends, _, _, hclear⟩ := hplace
  have hbytes : windowBytes s.params = 2048 * s.params.unit := by rw [windowBytes, maxUnits_eq hlegal]
  have hw : w < Config.maxSlots := lt_of_lt_of_le hslot.1 (nwMax_le hlegal)
  have hcarve := does_carve_opened (u := unitsFor s.params s.arg1.toNat) (rest := rest) hlegal hraced hslot.1 (by omega)
    (ordinary_of_port_nil hport _ _) (hclear.sub (Nat.le_refl _) (by omega))
  have halloc := does_alloc_small hlegal hsmall
    (does_allocSmall_new hlegal hnone hslot (by rwa [hbytes]) (unitsFor_pos ..) hsmall hcarve)
  have hnew := newRegion_opened (u2 := unitsFor s.params s.arg1.toNat) (r := r) (rest := rest) hlegal hslot.1 hraced hport htaint
  obtain ⟨m, hm, hexec⟩ := exec_realloc_move (copy := copy) htrusted hport hh h1 (size_le_of_small hlegal hsmall) hr hlt hgrow rfl
    halloc hnew (by simp only [Config.maxSlots] at hw; omega)
    (blocksOwn_of_handed hh hnew.params (by rw [carved_opened hlegal hslot.1]) hown) hplace
  rw [givenBack_opened hlegal hslot.1] at hexec
  exact ⟨m, hm, hexec⟩

theorem exec_realloc_small_fatal {copy : Bool} {e : ErrorBit} {t : State} (hmove : SmallMove s h slot st u)
    (hnone : NoWindowTakes s (unitsFor s.params s.arg1.toNat))
    (hfails : ∀ port, Halts newWindow { s with port := port } (.fatal e) { t with port := port }) (hport : t.port = s.port) :
    exec (.slabRealloc copy) s = .next (t.fatal e) := by
  obtain ⟨htrusted, hh, h1, hr, hlt, hsmall, hgrow⟩ := hmove
  have ⟨hlegal, _⟩ := htrusted
  exact exec_realloc_fatal htrusted hh h1 (size_le_of_small hlegal hsmall) hr hlt hgrow
    (fun port => halts_alloc_small (s := { s with port := port }) hlegal hsmall (halts_allocSmall hnone (hfails port))) hport

end Small

/-- Settles O47: the region has no room in place, and `alloc` takes the small branch; in its own window the free run lies apart
from the taken one, and a new window lies apart from the live ones. -/
theorem slabReallocMovesSmall : Obligations.SlabReallocMovesSmall := by
  intro s copy h slot st u htrusted hh h1 hr hlt hsmall hroom unit u2 n
  have ⟨hlegal, _⟩ := htrusted
  have hmove : SmallMove s h slot st u :=
    ⟨htrusted, hh, h1, hr, hlt, hsmall, Bool.eq_false_iff.2 (mt (canGrow_iff hlegal (Nat.le_of_lt hlt)).1 hroom)⟩
  have hbytes : windowBytes s.params = 2048 * s.params.unit := by rw [windowBytes, maxUnits_eq hlegal]
  refine ⟨fun hport hown hwindow => ?_, fun hnone => ⟨fun rest w hslot hfails => ?_, fun hlive => ?_⟩⟩
  · have hinside := headerSays_inside hlegal hr
    have holdEnds : h + u * s.params.unit ≤ 2 ^ 64 := le_trans hinside.2 hwindow
    refine ⟨?_, fun w r rest hnone hslot hanswer hclear => ?_⟩
    · intro scanned w x hfirst r hends hapart hclear
      have ⟨_, _, _, hgap⟩ := hfirst
      refine exec_realloc_toWindow hmove hport hown hfirst ⟨hends, holdEnds, hapart.elim (fun hsame => ?_) id, hclear⟩
      subst hsame
      exact unitAddr_apart hr (unitsFor_pos ..) hgap
    · have hends : r.toNat + 2048 * s.params.unit ≤ 2 ^ 64 := hanswer.apart.1
      have hsize : u2 * s.params.unit ≤ 2048 * s.params.unit := Nat.mul_le_mul_right _ (by omega)
      exact exec_realloc_toNewWindow hmove hport hown hnone hslot hanswer ⟨le_trans (Nat.add_le_add_left hsize _) hends, holdEnds,
        (hanswer.apart_slab hlegal hr).imp_left (le_trans (Nat.add_le_add_left hsize _)), hclear⟩
  · rw [← hbytes] at hfails
    exact exec_realloc_small_fatal hmove hnone
      (fun port => halts_newWindow_host (s := { s with port := port }) hslot hfails) rfl
  · exact exec_realloc_small_fatal hmove hnone (fun port => halts_newWindow_slots (s := { s with port := port }) hlive) rfl

end Sys2Proof.Machine
end

section
/-! SUPPORT. The checks of the lane-sum commands in their order (spec R430 to R432), and what SUMS_RESET makes of the counters
(spec R425). -/

namespace Sys2Proof.Machine

section LaneChecks

variable {s : State}

/-- A check that is met ends the command, whatever comes after it. -/
theorem rejectIf_bind_met {α : Type} {c : Bool} (h : c = true) (e : ErrorBit) (f : Unit → Cmd α) (r : Run) :
    (rejectIf c e >>= f) r = .error (.reject e) r := bind_run_error (by rw [h, rejectIf_true])

/-- A check that is not met goes on with what comes after it. -/
theorem rejectIf_bind_unmet {α : Type} {c : Bool} (h : c = false) (e : ErrorBit) (f : Unit → Cmd α) (r : Run) :
    (rejectIf c e >>= f) r = f () r := bind_run_ok (by rw [h, rejectIf_false])

/-- The 24 buffers run over the top of the data space (spec R112). -/
theorem sumsWrap_iff (s : State) : sumsWrap s = true ↔ s.sumBase.toNat + 24 * s.sumStride.toNat > 2 ^ 64 := by
  simp only [sumsWrap, wraps, Config.lanes, Config.sumCount, Config.addrSpace, decide_eq_true_eq]

/-! ## SUMS_RESET (spec R425, R430) -/

/-- A sum's counters after a reset, by its lane and index. -/
theorem sumsResetTo_sum (s : State) (es : Nat) {l k : Nat} (hl : l < 8) (hk : k < 3) :
    (sumsResetTo s es).sum l k = resetCtr es l := by
  have hindex : sumIndex l k / Config.sumCount = l := by
    simp only [sumIndex, Config.sumCount]
    omega
  simp [State.sum, sumsResetTo, sumIndex_lt hl hk, hindex]

/-- The first element of lane `l` at or after `es` is less than a lane count above it. -/
theorem resetCtr_ne {es : Nat} (hes : es ≤ 2 ^ 30) (l : Nat) :
    (resetCtr es l).ne.toInt = es + ((l : Int) - es) % 8 := by
  have hnonneg : 0 ≤ ((l : Int) - es) % 8 := Int.emod_nonneg _ (by decide)
  have hlt : ((l : Int) - es) % 8 < 8 := Int.emod_lt_of_pos _ (by decide)
  have hcast : (BitVec.ofInt 32 (es + ((l : Int) - es) % 8)) = (resetCtr es l).ne := by
    rw [resetCtr, ← BitVec.ofInt_natCast]
    push_cast
    rw [Int.toNat_of_nonneg hnonneg]
  rw [← hcast]
  exact BitVec.toInt_ofInt_eq_self (by decide) (by omega) (by omega)

theorem resetCtr_se {es : Nat} (hes : es ≤ 2 ^ 30) (l : Nat) : (resetCtr es l).se.toInt = es := by
  rw [resetCtr, ← BitVec.ofInt_natCast]
  have hlow : -2 ^ 31 ≤ (es : Int) := by omega
  have hhigh : (es : Int) < 2 ^ 31 := by omega
  exact BitVec.toInt_ofInt_eq_self (w := 32) (by decide) hlow hhigh

theorem exec_sumsReset_rejected (h : s.arg0.toNat > s.winCount.toNat ∨ s.arg0.toNat > s.params.elemMax) :
    exec .sumsReset s = .next (s.reject .invalidInput .argRange) :=
  exec_of_reject ((bind_run_ok (getState_run _)).trans (rejectIf_bind_met (decide_eq_true h) _ _ _))

theorem exec_sumsReset (hcount : s.arg0.toNat ≤ s.winCount.toNat) (hmax : s.arg0.toNat ≤ s.params.elemMax) :
    exec .sumsReset s = .next ((sumsResetTo s s.arg0.toNat).finish .success) :=
  exec_of_ok (r := Run.start (sumsResetTo s s.arg0.toNat))
    ((bind_run_ok (getState_run _)).trans
      (rejectIf_bind_unmet (decide_eq_false (by simp only [start_st]; omega)) _ _ _))

/-- Settles O49: the reset gives every sum the counters of its lane, and touches nothing but the sums' registers and records. -/
theorem sumsResetResult : Obligations.SumsResetResult := by
  intro s hlegal
  refine ⟨exec_sumsReset_rejected, fun hcount hmax => ⟨(sumsResetTo s s.arg0.toNat).sums, ?_, fun l hl k hk => ?_⟩⟩
  · have hstart : BitVec.ofNat 32 s.arg0.toNat = s.arg0.setWidth 32 := BitVec.ofNat_toNat 32 s.arg0
    rw [exec_sumsReset hcount hmax, ← hstart]
    rfl
  · have hes : s.arg0.toNat ≤ 2 ^ 30 := by
      obtain ⟨-, -, -, -, -, -, -, -, -, -, -, -, -, helem, -⟩ := hlegal
      omega
    have hctr : ({ s with sums := (sumsResetTo s s.arg0.toNat).sums } : State).sum l k = resetCtr s.arg0.toNat l :=
      sumsResetTo_sum s s.arg0.toNat hl hk
    simp only [hctr]
    exact ⟨rfl, resetCtr_ne hes l, resetCtr_se hes l⟩

/-! ## SUMS_GET (spec R431) -/

theorem exec_sumsGet_badIndex (s : State) (lane : BitVec 3) :
    exec (.sumsGet 3 lane) s = .next (s.reject .invalidInput .argRange) :=
  exec_of_reject ((bind_run_ok (getState_run _)).trans (rejectIf_bind_met rfl _ _ _))

variable {k : BitVec 2} {lane : BitVec 3}

theorem decide_index_eq_three (hk : k ≠ 3) : decide (k.toNat = 3) = false :=
  decide_eq_false fun he => hk (BitVec.eq_of_toNat_eq he)

theorem exec_sumsGet_invalid (hk : k ≠ 3) (hvalid : s.sumsValid = false) :
    exec (.sumsGet k lane) s = .next (s.reject .invalidInput .badState) :=
  exec_of_reject ((bind_run_ok (getState_run _)).trans <| (rejectIf_bind_unmet (decide_index_eq_three hk) _ _ _).trans
    (rejectIf_bind_met (by rw [start_st, hvalid]; rfl) _ _ _))

/-- An end past the window or below SE, and buffers past the data space, are answered alike. -/
theorem exec_sumsGet_badRange (hk : k ≠ 3) (hvalid : s.sumsValid = true)
    (h : s.arg0.toNat > s.winCount.toNat ∨ (s.arg0.toNat : Int) < (s.sum lane.toNat k.toNat).se.toInt ∨ sumsWrap s = true) :
    exec (.sumsGet k lane) s = .next (s.reject .invalidInput .argRange) := by
  refine exec_of_reject (r := Run.start s) ((bind_run_ok (getState_run _)).trans <|
    (rejectIf_bind_unmet (decide_index_eq_three hk) _ _ _).trans <|
    (rejectIf_bind_unmet (by rw [start_st, hvalid]; rfl) _ _ _).trans ?_)
  by_cases hcount : s.arg0.toNat > s.winCount.toNat
  · exact rejectIf_bind_met (decide_eq_true hcount) _ _ _
  refine (rejectIf_bind_unmet (decide_eq_false hcount) _ _ _).trans ?_
  by_cases hserved : (s.arg0.toNat : Int) < (s.sum lane.toNat k.toNat).se.toInt
  · exact rejectIf_bind_met (decide_eq_true hserved) _ _ _
  · exact (rejectIf_bind_unmet (decide_eq_false hserved) _ _ _).trans
      (rejectIf_bind_met ((h.resolve_left hcount).resolve_left hserved) _ _ _)

/-! ## WIN_SHIFT (spec R432) -/

theorem exec_winShift_badWindow (h : s.winFirstElem.toNat > s.winCount.toNat) :
    exec .winShift s = .next (s.reject .invalidInput .badState) :=
  exec_of_reject ((bind_run_ok (getState_run _)).trans (rejectIf_bind_met (decide_eq_true h) _ _ _))

theorem exec_winShift_badDelta (hwindow : s.winFirstElem.toNat ≤ s.winCount.toNat)
    (h : s.arg0.toNat % 8 ≠ 0 ∨ s.arg0.toNat > s.winFirstElem.toNat) :
    exec .winShift s = .next (s.reject .invalidInput .argRange) :=
  exec_of_reject ((bind_run_ok (getState_run _)).trans <|
    (rejectIf_bind_unmet (decide_eq_false (Nat.not_lt.2 hwindow)) _ _ _).trans
      (rejectIf_bind_met (decide_eq_true h) _ _ _))

/-- What the checks of WIN_SHIFT on the window and delta ask for. -/
structure ShiftPasses (s : State) : Prop where
  window : s.winFirstElem.toNat ≤ s.winCount.toNat
  lanes : s.arg0.toNat % 8 = 0
  below : s.arg0.toNat ≤ s.winFirstElem.toNat

/-- The window side of WIN_SHIFT from `s`, for the state that its sum side has left. -/
def moveWindow (s x : State) : State := shiftWindow (noteEarly (rewrittenEarly s s.arg0.toNat) x) s.arg0.toNat

/-- WIN_SHIFT of valid sums after its checks. -/
def shiftValid (t : Tables) (s : State) : Cmd Unit := do
  shiftSums t s.arg0.toNat (rewrittenEarly s s.arg0.toNat)
  modifyState (moveWindow s)

theorem ShiftPasses.run (h : ShiftPasses s) (t : Tables) : winShiftBody t (Run.start s) =
    (if s.sumsValid then shiftValid t s else do modifyState recheckTable; modifyState (moveWindow s) : Cmd Unit)
      (Run.start s) := by
  have hlanes := h.lanes
  have hbelow := h.below
  exact (bind_run_ok (getState_run _)).trans <|
    (rejectIf_bind_unmet (decide_eq_false (Nat.not_lt.2 h.window)) _ _ _).trans
      (rejectIf_bind_unmet (decide_eq_false (by simp only [start_st]; omega)) _ _ _)

/-- With valid sums the shift comes to its sum side. -/
theorem ShiftPasses.run_valid (h : ShiftPasses s) (hvalid : s.sumsValid = true) (t : Tables) :
    winShiftBody t (Run.start s) = shiftValid t s (Run.start s) := (h.run t).trans (congrFun (if_pos hvalid) _)

theorem exec_winShift_wraps (h : ShiftPasses s) (hvalid : s.sumsValid = true) (hwraps : sumsWrap s = true) :
    exec .winShift s = .next (s.reject .invalidInput .argRange) :=
  exec_of_reject ((h.run_valid hvalid _).trans (bind_run_error
    ((bind_run_ok (getState_run _)).trans (rejectIf_bind_met hwraps _ _ _))))

/-- Without valid sums only the window and the records of the table move. -/
theorem exec_winShift_invalid (h : ShiftPasses s) (hvalid : s.sumsValid = false) :
    exec .winShift s = .next ((moveWindow s (recheckTable s)).finish .success) :=
  exec_of_ok (r := Run.start (moveWindow s (recheckTable s)))
    ((h.run _).trans ((congrFun (if_neg (by rw [hvalid]; decide)) _).trans rfl))

end LaneChecks

end Sys2Proof.Machine
end

section
/-! SUPPORT. What the folding commands keep whatever memory and the counters come to (spec R422, R432), and what WIN_SHIFT leaves
unchanged. -/

namespace Sys2Proof.Machine

/-! ## Properties that a fold keeps -/

/-- A property of the run that neither memory, nor the length of a sum, nor the record of folded originals can break. -/
structure FoldStable (P : Run → Prop) : Prop extends MemStable P where
  /-- A new length of a sum keeps it. -/
  len : ∀ r l k n, P r → P { r with st := r.st.setSum l k { r.st.sum l k with sl := n } }
  /-- Noting a folded original keeps it. -/
  note : ∀ r f, P r → P { r with st := { r.st with folded := f } }

/-- Besides, NE and SE of a sum cannot break it. -/
structure LaneStable (P : Run → Prop) : Prop extends FoldStable P where
  /-- A new NE keeps it. -/
  next : ∀ r l k n, P r → P { r with st := r.st.setSum l k { r.st.sum l k with ne := n } }
  /-- A new SE keeps it. -/
  served : ∀ r l k n, P r → P { r with st := r.st.setSum l k { r.st.sum l k with se := n } }

/-- The original's bytes go into the sum, or, when it wraps in a run that goes on past fatal causes, the sum's bytes are open
(spec R422, R424): `foldFitting` up to the record and NE. -/
def addFitting (t : Tables) (l k : Nat) (e : Int) (d : Desc) : Cmd Unit := do
  if d.len > 0 then do
    fatalIf (wraps d.addr d.len) .busError
    if wraps d.addr d.len then do
      let s ← getState
      leaveOpen (sumAddr s l k) d.len
    else foldOriginal t l k e d
  else pure ()

theorem foldFitting_eq (t : Tables) (l k : Nat) (e : Int) (d : Desc) : foldFitting t l k e d =
    (do addFitting t l k e d; modifyState (noteFolded e d.addr d.len); setNe l k (e + 8) : Cmd Unit) := by
  unfold foldFitting addFitting
  split
  · split <;> simp [bind_assoc]
  · rfl

section Stable

variable {P : Run → Prop}

theorem keeps_growSum (hP : FoldStable P) (l k n : Nat) : Keeps P (growSum l k n) :=
  keeps_withState fun _ _ => keeps_ite
    (fun _ => keeps_bind (keeps_memZero hP.toMemStable _ _) fun _ => keeps_modifyState fun r h => hP.len r l k _ h)
    fun _ => keeps_pure ()

theorem keeps_leaveSum (hP : FoldStable P) (l k : Nat) : Keeps P (leaveSum l k) :=
  keeps_withState fun _ _ => keeps_ite
    (fun _ => keeps_bind (keeps_drawWord hP.toMemStable) fun _ =>
      keeps_bind (keeps_modifyState fun r h => hP.len r l k _ h) fun _ => keeps_leaveOpen hP.toMemStable _ _)
    fun _ => keeps_leaveOpen hP.toMemStable _ _

theorem keeps_foldOriginal (hP : FoldStable P) (t : Tables) (l k : Nat) (e : Int) (d : Desc) :
    Keeps P (foldOriginal t l k e d) :=
  keeps_withState fun _ _ => keeps_bind (keeps_growSum hP l k d.len) fun _ =>
    keeps_bind (keeps_accumulate hP.toMemStable _ _ _ _) fun _ => keeps_withState fun _ _ =>
      keeps_ite (fun _ => keeps_memLoosen hP.toMemStable _ _) fun _ => keeps_pure ()

theorem keeps_addFitting (hP : FoldStable P) (t : Tables) (l k : Nat) (e : Int) (d : Desc) :
    Keeps P (addFitting t l k e d) :=
  keeps_ite
    (fun _ => keeps_bind (keeps_fatalIf _ _) fun _ => keeps_ite
      (fun _ => keeps_withState fun _ _ => keeps_leaveOpen hP.toMemStable _ _)
      fun _ => keeps_foldOriginal hP t l k e d)
    fun _ => keeps_pure ()

theorem keeps_noteFolded (hP : FoldStable P) (e : Int) (a n : Nat) : Keeps P (modifyState (noteFolded e a n)) :=
  keeps_modifyState fun r h => by
    obtain ⟨f, hf⟩ := noteFolded_cases e a n r.st
    rw [hf]
    exact hP.note r f h

theorem keeps_setNe (hP : LaneStable P) (l k : Nat) (x : Int) : Keeps P (setNe l k x) :=
  keeps_bind (keeps_s32Value hP.toMemStable x) fun _ => keeps_modifyState fun r h => hP.next r l k _ h

theorem keeps_setSe (hP : LaneStable P) (l k : Nat) (x : Int) : Keeps P (setSe l k x) :=
  keeps_bind (keeps_s32Value hP.toMemStable x) fun _ => keeps_modifyState fun r h => hP.served r l k _ h

theorem keeps_foldElement (hP : LaneStable P) (t : Tables) (l k : Nat) (e : Int) : Keeps P (foldElement t l k e) := by
  refine keeps_bind (keeps_readDesc hP.toMemStable e) fun d => keeps_withState fun _ _ =>
    keeps_bind (keeps_fatalIf _ _) fun _ => keeps_ite (fun _ => keeps_pure _) fun _ => ?_
  rw [foldFitting_eq]
  exact keeps_bind (keeps_bind (keeps_addFitting hP.toFoldStable t l k e d) fun _ =>
    keeps_bind (keeps_noteFolded hP.toFoldStable e _ _) fun _ => keeps_setNe hP l k _) fun _ => keeps_pure _

theorem keeps_foldLoop (hP : LaneStable P) (t : Tables) (l k rounds : Nat) (e : Int) :
    Keeps P (foldLoop t l k rounds e) := by
  induction rounds generalizing e with
  | zero => exact keeps_pure ()
  | succ rounds ih =>
    exact keeps_bind (keeps_foldElement hP t l k e) fun _ => keeps_ite (fun _ => ih (e + 8)) fun _ => keeps_pure ()

theorem keeps_fold (hP : LaneStable P) (t : Tables) (l k : Nat) (stop : Int) : Keeps P (fold t l k stop) :=
  keeps_withState fun _ _ => keeps_bind (keeps_foldLoop hP t l k _ _) fun _ =>
    keeps_withState fun _ _ => keeps_setSe hP l k _

theorem keeps_shiftSum (hP : LaneStable P) (delta l k : Nat) : Keeps P (shiftSum delta l k) :=
  keeps_withState fun _ _ => keeps_bind (keeps_setNe hP l k _) fun _ => keeps_setSe hP l k _

theorem keeps_forSums {f : (l k : Nat) → Cmd Unit} (hf : ∀ l k, l < 8 → k < 3 → Keeps P (f l k)) :
    Keeps P (forSums f) :=
  keeps_forRange_lt fun i _ hi => hf _ _
    (by simp only [Config.lanes, Config.sumCount] at *; omega) (by simp only [Config.sumCount]; omega)

end Stable

/-! ## What WIN_SHIFT leaves (spec R432) -/

section Shift

variable {s t : State}

/-- Whether the sums are valid is no matter of a fold. -/
theorem laneStable_sumsValid (b : Bool) : LaneStable fun r => r.st.sumsValid = b where
  draw _ h := h
  read _ _ _ h := h
  opens _ _ h := h
  area _ _ h := h
  store _ _ _ _ h := h
  len _ _ _ _ h := h
  note _ _ h := h
  next _ _ _ _ h := h
  served _ _ _ _ h := h

theorem shiftSums_keeps_sumsValid (t : Tables) (delta : Nat) (early b : Bool) :
    Keeps (fun r => r.st.sumsValid = b) (shiftSums t delta early) := by
  have hP := laneStable_sumsValid b
  exact keeps_withState fun _ _ => keeps_bind (keeps_rejectIf _ _) fun _ =>
    keeps_bind (keeps_bind (keeps_modifyState fun _ h => h) fun _ => keeps_withState fun _ _ =>
      keeps_setArea hP.toMemStable _) fun _ =>
    keeps_bind (keeps_forSums fun l k _ _ => keeps_fold hP t l k _) fun _ =>
    keeps_bind (keeps_modifyState fun _ h => h) fun _ =>
    keeps_bind (keeps_forSums fun l k _ _ => keeps_leaveSum hP.toFoldStable l k) fun _ =>
    keeps_bind (keeps_forSums fun l k _ _ => keeps_shiftSum hP delta l k) fun _ =>
    keeps_bind (keeps_s32Value hP.toMemStable _) fun _ => keeps_modifyState fun _ h => h

/-- The bytes of the 24 sum buffers (spec R112). -/
def InSums (s : State) (a : Nat) : Prop := s.sumBase.toNat ≤ a ∧ a < s.sumBase.toNat + 24 * s.sumStride.toNat

/-- The 24 buffers inside the data space hold each sum's. -/
theorem coversSum_inSums (hends : s.sumBase.toNat + 24 * s.sumStride.toNat ≤ Config.addrSpace) {l k : Nat} (hl : l < 8)
    (hk : k < 3) : CoversSum (InSums s) s l k := fun i hi => by
  have hend := sumAddr_end (s := s) hl hk
  have hbase : s.sumBase.toNat ≤ sumAddr s l k := Nat.le_add_right _ _
  rw [Nat.mod_eq_of_lt (by omega)]
  exact ⟨by omega, by omega⟩

/-- The sum side of WIN_SHIFT writes only the sum buffers. -/
theorem contained_shiftSums_inSums (hends : s.sumBase.toNat + 24 * s.sumStride.toNat ≤ Config.addrSpace) (t : Tables)
    (delta : Nat) (early : Bool) : Keeps (Contained s (InSums s)) (shiftSums t delta early) :=
  keeps_withState fun _ _ => keeps_bind (keeps_rejectIf _ _) fun _ => keeps_bind contained_beginSums fun _ =>
    keeps_bind (keeps_forSums fun _ _ hl hk => contained_fold (coversSum_inSums hends hl hk) t _) fun _ =>
    keeps_bind (contained_modify fun _ => rfl) fun _ =>
    keeps_bind (keeps_forSums fun _ _ hl hk => contained_leaveSum (coversSum_inSums hends hl hk)) fun _ =>
    keeps_bind (contained_forSums (contained_shiftSum delta)) fun _ =>
    keeps_bind (contained_s32Value _) fun _ => contained_modify fun _ => rfl

/-- The window registers of a state that has them where `s` has them, moved down by delta. -/
theorem moveWindow_window (h : ShiftPasses s) {x : State} (hx : windowSide x = windowSide s) :
    windowSide (moveWindow s x) = (s.winColumnStart + s.arg0.setWidth 22, s.winFirstElem - s.arg0.setWidth 32,
      s.winCount - s.arg0.setWidth 32) := by
  have hbelow := h.below
  have hwindow := h.window
  have hcolumn : BitVec.ofNat 22 (s.winColumnStart.toNat + s.arg0.toNat) = s.winColumnStart + s.arg0.setWidth 22 :=
    BitVec.eq_of_toNat_eq (by simp)
  have hsub : ∀ x : BitVec 32, s.arg0.toNat ≤ x.toNat →
      BitVec.ofNat 32 (x.toNat - s.arg0.toNat) = x - s.arg0.setWidth 32 := fun x hle =>
    BitVec.eq_of_toNat_eq (by
      have hlt := x.isLt
      simp only [BitVec.toNat_ofNat, BitVec.toNat_sub, BitVec.toNat_setWidth]
      omega)
  simp only [windowSide, Prod.mk.injEq] at hx
  obtain ⟨hxc, hxf, hxn⟩ := hx
  rw [← hcolumn, ← hsub s.winFirstElem hbelow, ← hsub s.winCount (by omega), ← hxc, ← hxf, ← hxn]
  rfl

/-- A command that ends with Success has come to the end of its body. -/
theorem exec_success {i : Instr} (h : exec i s = .next t) (hsuccess : t.result = 0x00#8) :
    ∃ r, commandBody i (Run.start s) = .ok () r ∧ t = r.st.finish .success := by
  rw [exec_eq] at h
  obtain rfl := Host.Outcome.next.inj h
  rcases conclude_cases (commandBody i) s with ⟨r, hr, hend⟩ | ⟨e, r, hr, hend⟩ | ⟨r, hr, hend⟩ | ⟨e, r, hr, hend⟩ |
    ⟨r, hr, hend⟩
  · exact ⟨r, hr, hend⟩
  all_goals
    rw [hend] at hsuccess
    simp at hsuccess

/-- A command that succeeds was not rejected. -/
theorem success_not_rejected {i : Instr} {e : ErrorBit} (h : exec i s = .next t) (hsuccess : t.result = 0x00#8) :
    ¬ exec i s = .next (s.reject .invalidInput e) := by
  intro hrejected
  obtain rfl := Host.Outcome.next.inj (h.symm.trans hrejected)
  simp at hsuccess

theorem shiftPasses_of_success (h : exec .winShift s = .next t) (hsuccess : t.result = 0x00#8) : ShiftPasses s := by
  have hwindow : s.winFirstElem.toNat ≤ s.winCount.toNat :=
    Nat.le_of_not_lt fun hlt => success_not_rejected h hsuccess (exec_winShift_badWindow hlt)
  have hdelta : ¬ (s.arg0.toNat % 8 ≠ 0 ∨ s.arg0.toNat > s.winFirstElem.toNat) := fun hbad =>
    success_not_rejected h hsuccess (exec_winShift_badDelta hwindow hbad)
  exact ⟨hwindow, by omega, by omega⟩

/-- A view that does not show what is erased is the same for states that agree elsewhere. -/
theorem Ignores.eq_of {τ : Type} {e : State → State} {k : State → τ} {x y : State} (hk : Ignores e k) (h : e x = e y) :
    k x = k y := by rw [← hk x, h, hk]

/-- What a successful WIN_SHIFT has made of the window, of the sums' validity and of memory. -/
theorem winShift_leaves (hwf : s.mem.wf = true) (h : exec .winShift s = .next t) (hsuccess : t.result = 0x00#8) :
    windowSide t = (s.winColumnStart + s.arg0.setWidth 22, s.winFirstElem - s.arg0.setWidth 32,
      s.winCount - s.arg0.setWidth 32) ∧ t.sumsValid = s.sumsValid ∧
    ∀ a, ¬ (s.sumsValid = true ∧ InSums s a) → t.mem.read a = s.mem.read a := by
  have hpass := shiftPasses_of_success h hsuccess
  by_cases hvalid : s.sumsValid = true
  · have hends : s.sumBase.toNat + 24 * s.sumStride.toNat ≤ Config.addrSpace := Nat.le_of_not_lt fun hlt =>
      success_not_rejected h hsuccess (exec_winShift_wraps hpass hvalid ((sumsWrap_iff s).2 hlt))
    obtain ⟨r, hr, rfl⟩ := exec_success h hsuccess
    have hbody : shiftValid Config.tables s (Run.start s) = .ok () r := (hpass.run_valid hvalid _).symm.trans hr
    obtain ⟨⟨⟩, r1, hr1, hmove⟩ := bind_ok hbody
    obtain ⟨⟩ := hmove
    have hlane : laneErased r1.st = laneErased s := by
      have hframe := (confined_shiftSums Config.tables s.arg0.toNat (rewrittenEarly s s.arg0.toNat)).frame (Run.start s)
      rwa [hr1] at hframe
    have hmem := (contained_shiftSums_inSums hends Config.tables _ _ _ (contained_start hwf)).1 _ _ hr1
    have hstays := (shiftSums_keeps_sumsValid Config.tables _ _ _ (Run.start s) rfl).1 _ _ hr1
    exact ⟨moveWindow_window hpass (Ignores.eq_of (e := laneErased) (k := windowSide) (fun _ => rfl) hlane), hstays,
      fun a ha => hmem.outside a fun hin => ha ⟨hvalid, hin⟩⟩
  · obtain rfl := Host.Outcome.next.inj (h.symm.trans (exec_winShift_invalid hpass (by simpa using hvalid)))
    exact ⟨moveWindow_window hpass rfl, rfl, fun _ _ => rfl⟩

/-- Settles O54: the body leaves all but the window, the sums and memory, and writes the sum buffers only. -/
theorem winShiftFrame : Obligations.WinShiftFrame := by
  intro s t hwf h hsuccess
  obtain ⟨hwindow, hvalid, hmem⟩ := winShift_leaves hwf h hsuccess
  simp only [windowSide, Prod.mk.injEq] at hwindow
  obtain ⟨hcolumn, hfirst, hcount⟩ := hwindow
  have hbits := exec_bitsets rfl h
  obtain ⟨r, hr, rfl⟩ := exec_success h hsuccess
  have hrest : windowErased r.st = windowErased s := by
    have hframe := (confined_winShiftBody Config.tables).frame (Run.start s)
    rwa [show winShiftBody Config.tables (Run.start s) = .ok () r from hr] at hframe
  have leaves : ∀ {τ : Type} (k : State → τ), Ignores windowErased k → k r.st = k s := fun _ hk => hk.eq_of hrest
  exact ⟨hcolumn, hfirst, hcount, leaves State.error fun _ => rfl, leaves State.disabled fun _ => rfl,
    leaves State.res0 fun _ => rfl, leaves State.res1 fun _ => rfl, leaves State.res2 fun _ => rfl,
    leaves State.res3 fun _ => rfl, hbits, leaves State.slots fun _ => rfl, leaves State.prefList fun _ => rfl,
    leaves State.fullList fun _ => rfl, hvalid, leaves State.nextRow fun _ => rfl, leaves State.nextCauchyRow fun _ => rfl,
    leaves State.nextParityColumn fun _ => rfl, leaves State.npcValid fun _ => rfl, hmem⟩

end Shift

end Sys2Proof.Machine
end

section
/-! SUPPORT. What the commands make of NE, SE and SUM_START_ELEM, whatever memory they fold over, and the invariants of the
counters (spec R422, R425, R427, R432, R493). -/

namespace Sys2Proof.Machine

/-! ## From run to run -/

/-- From a run with `P` the command, if it goes on, answers a value and leaves a run with `Q`. -/
def Reaches {α : Type} (P : Run → Prop) (Q : α → Run → Prop) (c : Cmd α) : Prop :=
  ∀ r a r', P r → c r = .ok a r' → Q a r'

section Reaches

variable {P R : Run → Prop} {α β : Type}

theorem reaches_of_keeps {c : Cmd α} (h : Keeps P c) : Reaches P (fun _ => P) c := fun r a r' hr hc => (h r hr).1 a r' hc

theorem reaches_bind {Q : α → Run → Prop} {S : β → Run → Prop} {x : Cmd α} {f : α → Cmd β} (hx : Reaches P Q x)
    (hf : ∀ a, Reaches (Q a) S (f a)) : Reaches P S (x >>= f) := by
  intro r b r' hr h
  obtain ⟨a, r1, h1, h2⟩ := bind_ok h
  exact hf a r1 b r' (hx r a r1 hr h1) h2

/-- What comes after a command that keeps the property. -/
theorem reaches_bind_keeps {S : β → Run → Prop} {x : Cmd α} {f : α → Cmd β} (hx : Keeps P x)
    (hf : ∀ a, Reaches P S (f a)) : Reaches P S (x >>= f) := reaches_bind (reaches_of_keeps hx) hf

theorem reaches_withState {S : β → Run → Prop} {f : State → Cmd β} (hf : ∀ r, P r → Reaches P S (f r.st)) :
    Reaches P S (getState >>= f) := fun r a r' hr h => hf r hr r a r' hr h

theorem reaches_modify {S : Unit → Run → Prop} {f : State → State} (hf : ∀ r, P r → S () { r with st := f r.st }) :
    Reaches P S (modifyState f) := by
  rintro r a r' hr ⟨⟩
  exact hf r hr

theorem reaches_pure {S : α → Run → Prop} {a : α} (h : ∀ r, P r → S a r) : Reaches P S (pure a) := by
  rintro r b r' hr ⟨⟩
  exact h r hr

theorem reaches_ite {S : α → Run → Prop} {c : Prop} [Decidable c] {x y : Cmd α} (hx : c → Reaches P S x)
    (hy : ¬ c → Reaches P S y) : Reaches P S (if c then x else y) := by
  split
  · exact hx ‹_›
  · exact hy ‹_›

/-- After a check, its condition is not met. -/
theorem reaches_rejectIf {S : β → Run → Prop} {c : Bool} {e : ErrorBit} {f : Unit → Cmd β}
    (h : c = false → Reaches P S (f ())) : Reaches P S (rejectIf c e >>= f) := by
  intro r b r' hr hrun
  cases c with
  | true =>
    rw [bind_run_error (rejectIf_true e r)] at hrun
    cases hrun
  | false =>
    rw [bind_run_ok (rejectIf_false e r)] at hrun
    exact h rfl r b r' hr hrun

/-- A loop whose rounds lead from one property to the next. -/
theorem reaches_forRange {I : Nat → Run → Prop} {f : Nat → Cmd Unit} {n : Nat}
    (hf : ∀ i, i < n → Reaches (I i) (fun _ => I (i + 1)) (f i)) : Reaches (I 0) (fun _ => I n) (forRange f n 0) := by
  suffices h : ∀ j i, i + j = n → Reaches (I i) (fun _ => I n) (forRange f j i) from h n 0 (Nat.zero_add n)
  intro j
  induction j with
  | zero =>
    rintro i rfl
    exact reaches_pure fun r hr => hr
  | succ j ih =>
    intro i hi
    exact reaches_bind (hf i (by omega)) fun _ => ih (i + 1) (by omega)

theorem reaches_withScratch {S : Unit → Run → Prop} {base n : Nat} {body : Cmd Unit} (h : Reaches P S body) :
    Reaches P S (withScratch base n body) := by
  intro r a r' hr hrun
  refine h r a r' hr ?_
  unfold withScratch at hrun
  cases hb : body r with
  | ok u r1 => rwa [hb] at hrun
  | error x r1 =>
    rw [hb] at hrun
    cases x <;> cases hrun

end Reaches

/-! ## The counters of a run -/

/-- NE and SE of each sum, as numbers. -/
abbrev Counts := Nat → Nat → Int × Int

/-- NE and SE of sum (l, k) in a state. -/
def State.count (s : State) (l k : Nat) : Int × Int := ((s.sum l k).ne.toInt, (s.sum l k).se.toInt)

/-- The run stops at fatal causes, and its sums' counters are `V` from start element `start`. -/
structure CountsAre (start : BitVec 32) (V : Counts) (r : Run) : Prop where
  stops : r.skip = false
  start : r.st.sumStartElem = start
  counts : ∀ l k, l < 8 → k < 3 → r.st.count l k = V l k

/-- Other counts of one sum. -/
def Counts.set (V : Counts) (l k : Nat) (p : Int × Int) : Counts := fun l' k' => if l' = l ∧ k' = k then p else V l' k'

section Counts

variable {start : BitVec 32} {V : Counts} {l k : Nat}

/-- Reading back a sum after one has been set, whatever their indices. -/
theorem State.sum_setSum_index (s : State) (l k l' k' : Nat) (c : SumCtr) :
    (s.setSum l k c).sum l' k' = if sumIndex l k = sumIndex l' k' ∧ sumIndex l k < 24 then c else s.sum l' k' := by
  simp only [State.sum, State.setSum_sums]
  by_cases hindex : sumIndex l k = sumIndex l' k'
  · by_cases hlt : sumIndex l' k' < 24 <;> simp [hindex, hlt]
  · simp [hindex]

/-- A new length of a sum changes no counts. -/
theorem State.count_setLength (s : State) (l k l' k' : Nat) (n : BitVec 32) :
    (s.setSum l k { s.sum l k with sl := n }).count l' k' = s.count l' k' := by
  rw [State.count, State.sum_setSum_index]
  by_cases hindex : sumIndex l k = sumIndex l' k' ∧ sumIndex l k < 24
  · have hsame : s.sum l k = s.sum l' k' := by rw [State.sum, State.sum, hindex.1]
    rw [if_pos hindex, hsame]
    rfl
  · rw [if_neg hindex]
    rfl

theorem foldStable_counts : FoldStable (CountsAre start V) where
  draw _ h := ⟨h.stops, h.start, h.counts⟩
  read _ _ _ h := ⟨h.stops, h.start, h.counts⟩
  opens _ _ h := ⟨h.stops, h.start, h.counts⟩
  area _ _ h := ⟨h.stops, h.start, h.counts⟩
  store _ _ _ _ h := ⟨h.stops, h.start, h.counts⟩
  len _ _ _ _ h := ⟨h.stops, h.start, fun l' k' hl hk => (State.count_setLength _ _ _ _ _ _).trans (h.counts l' k' hl hk)⟩
  note _ _ h := ⟨h.stops, h.start, h.counts⟩

/-- Setting the counters of one sum. -/
theorem CountsAre.setSum {r : Run} (h : CountsAre start V r) (hl : l < 8) (hk : k < 3) (c : SumCtr) :
    CountsAre start (V.set l k (c.ne.toInt, c.se.toInt)) { r with st := r.st.setSum l k c } := by
  refine ⟨h.stops, h.start, fun l' k' hl' hk' => ?_⟩
  simp only [State.count, State.sum_setSum r.st c hl hk hk', Counts.set]
  split
  · rfl
  · exact h.counts l' k' hl' hk'

theorem reaches_setNe {x : Int} (hl : l < 8) (hk : k < 3) (hlow : -2 ^ 31 ≤ x) (hhigh : x < 2 ^ 31) :
    Reaches (CountsAre start V) (fun _ => CountsAre start (V.set l k (x, (V l k).2))) (setNe l k x) := by
  intro r a r' h hrun
  rw [setNe_run hlow hhigh] at hrun
  cases hrun
  have hset := h.setSum hl hk { r.st.sum l k with ne := BitVec.ofInt 32 x }
  rw [← h.counts l k hl hk, State.count]
  simpa only [BitVec.toInt_ofInt_eq_self (w := 32) (by decide) hlow hhigh] using hset

theorem reaches_setSe {x : Int} (hl : l < 8) (hk : k < 3) (hlow : -2 ^ 31 ≤ x) (hhigh : x < 2 ^ 31) :
    Reaches (CountsAre start V) (fun _ => CountsAre start (V.set l k ((V l k).1, x))) (setSe l k x) := by
  intro r a r' h hrun
  rw [setSe_run hlow hhigh] at hrun
  cases hrun
  have hset := h.setSum hl hk { r.st.sum l k with se := BitVec.ofInt 32 x }
  rw [← h.counts l k hl hk, State.count]
  simpa only [BitVec.toInt_ofInt_eq_self (w := 32) (by decide) hlow hhigh] using hset

theorem Counts.set_set (V : Counts) (l k : Nat) (p q : Int × Int) : (V.set l k p).set l k q = V.set l k q := by
  funext l' k'
  simp only [Counts.set]
  split <;> rfl

theorem Counts.set_same (V : Counts) (l k : Nat) (p : Int × Int) : V.set l k p l k = p := if_pos ⟨rfl, rfl⟩

theorem Counts.set_self (V : Counts) (l k : Nat) : V.set l k (V l k) = V := by
  funext l' k'
  simp only [Counts.set]
  split
  · rename_i h
    rw [h.1, h.2]
  · rfl

/-! ## What a fold makes of them (spec R422) -/

/-- An element that can be folded moves NE on; one that is too long is fatal. -/
theorem reaches_foldElement (t : Tables) {e : Int} (hl : l < 8) (hk : k < 3) (hlow : -2 ^ 31 ≤ e) (hhigh : e < 2 ^ 30) :
    Reaches (CountsAre start V) (fun b r => b = true ∧ CountsAre start (V.set l k (e + 8, (V l k).2)) r)
      (foldElement t l k e) := by
  have hP := foldStable_counts (start := start) (V := V)
  refine reaches_bind_keeps (keeps_readDesc hP.toMemStable e) fun d => reaches_withState fun q hq => ?_
  intro r b r' hr hrun
  obtain ⟨⟨⟩, r1, hfatal, hrest⟩ := bind_ok hrun
  by_cases hlong : decide (d.len > q.st.sumStride.toNat) = true
  · rw [hlong, fatalIf_true _ hr.stops] at hfatal
    cases hfatal
  · rw [if_neg hlong, foldFitting_eq] at hrest
    have hr1 := ((keeps_fatalIf _ _ r hr).1 _ _ hfatal : CountsAre start V r1)
    have hfold : Reaches (CountsAre start V) (fun b r => b = true ∧ CountsAre start (V.set l k (e + 8, (V l k).2)) r)
        (do addFitting t l k e d; modifyState (noteFolded e d.addr d.len); setNe l k (e + 8); pure true) :=
      reaches_bind_keeps (keeps_addFitting hP t l k e d) fun _ => reaches_bind_keeps (keeps_noteFolded hP e _ _) fun _ =>
        reaches_bind (reaches_setNe hl hk (by omega) (by omega)) fun _ => reaches_pure fun _ hq => ⟨rfl, hq⟩
    simp only [bind_assoc] at hrest
    exact hfold r1 b r' hr1 hrest

/-- The loop moves NE on by 8 for each element. -/
theorem reaches_foldLoop (t : Tables) {n : Nat} {e : Int} (hl : l < 8) (hk : k < 3) (hlow : -2 ^ 31 ≤ e)
    (hhigh : ∀ i : Nat, i < n → e + 8 * i < 2 ^ 30) (hne : (V l k).1 = e) :
    Reaches (CountsAre start V) (fun _ => CountsAre start (V.set l k (e + 8 * n, (V l k).2))) (foldLoop t l k n e) := by
  induction n generalizing e V with
  | zero =>
    refine reaches_pure fun r hr => ?_
    have hsame : (e + 8 * ((0 : Nat) : Int), (V l k).2) = V l k := Prod.ext (by simpa using hne.symm) rfl
    rwa [hsame, Counts.set_self]
  | succ n ih =>
    obtain ⟨hfirst, hrest⟩ := strided_cons (P := fun e => e < 2 ^ 30) hhigh
    refine reaches_bind (reaches_foldElement t hl hk hlow hfirst) fun b => ?_
    rintro r a r' ⟨rfl, hr⟩ hrun
    have hloop := ih (V := V.set l k (e + 8, (V l k).2)) (e := e + 8) (by omega) hrest
      (by rw [Counts.set_same]) r a r' hr hrun
    rw [Counts.set_set, Counts.set_same] at hloop
    rwa [show e + 8 * ((n + 1 : Nat) : Int) = e + 8 + 8 * n by push_cast; omega]

/-- NE and SE once a sum has been folded to `stop` (spec R422). -/
def foldedCount (stop : Int) (p : Int × Int) : Int × Int := (p.1 + 8 * foldRounds p.1 stop, max p.2 stop)

theorem State.count_bounds (s : State) (l k : Nat) :
    (-2 ^ 31 ≤ (s.count l k).1 ∧ (s.count l k).1 < 2 ^ 31) ∧ -2 ^ 31 ≤ (s.count l k).2 ∧ (s.count l k).2 < 2 ^ 31 :=
  ⟨⟨BitVec.le_toInt _, BitVec.toInt_lt⟩, BitVec.le_toInt _, BitVec.toInt_lt⟩

theorem reaches_fold (t : Tables) {stop : Int} (hl : l < 8) (hk : k < 3) (hstop : stop ≤ 2 ^ 30) :
    Reaches (CountsAre start V) (fun _ => CountsAre start (V.set l k (foldedCount stop (V l k)))) (fold t l k stop) := by
  refine reaches_withState fun q hq => ?_
  have hcount := hq.counts l k hl hk
  obtain ⟨⟨hne1, hne2⟩, hse1, hse2⟩ := q.st.count_bounds l k
  have hne : (q.st.sum l k).ne.toInt = (V l k).1 := congrArg Prod.fst hcount
  rw [hcount] at hne1 hne2 hse1 hse2
  rw [hne]
  refine reaches_bind (reaches_foldLoop t hl hk hne1 (fun i hi => by rw [foldRounds] at hi; omega) rfl) fun _ =>
    reaches_withState fun q' hq' => ?_
  have hse : (q'.st.sum l k).se.toInt = (V l k).2 :=
    congrArg Prod.snd ((hq'.counts l k hl hk).trans (Counts.set_same V l k _))
  rw [hse]
  have hset := reaches_setSe (start := start) (V := V.set l k ((V l k).1 + 8 * foldRounds (V l k).1 stop, (V l k).2)) hl hk
    (x := max (V l k).2 stop) (le_max_of_le_left hse1) (max_lt hse2 (by omega))
  rwa [Counts.set_set, Counts.set_same] at hset

/-- A loop over all sums whose round changes the counts of its own sum. -/
theorem reaches_forSums {f : (l k : Nat) → Cmd Unit} {F : Nat → Nat → Int × Int → Int × Int}
    (hf : ∀ (W : Counts) l k, l < 8 → k < 3 → W l k = V l k →
      Reaches (CountsAre start W) (fun _ => CountsAre start (W.set l k (F l k (V l k)))) (f l k)) :
    Reaches (CountsAre start V) (fun _ => CountsAre start fun l k => F l k (V l k)) (forSums f) := by
  have hloop := reaches_forRange (n := 24)
    (I := fun i => CountsAre start fun l k => if sumIndex l k < i then F l k (V l k) else V l k)
    (f := fun i => f (i / Config.sumCount) (i % Config.sumCount)) fun i hi => by
      have hl : i / Config.sumCount < 8 := by simp only [Config.sumCount]; omega
      have hk : i % Config.sumCount < 3 := by simp only [Config.sumCount]; omega
      have hindex : sumIndex (i / Config.sumCount) (i % Config.sumCount) = i := Nat.div_add_mod i _
      have hround := hf (fun l k => if sumIndex l k < i then F l k (V l k) else V l k) _ _ hl hk
        (if_neg (by rw [hindex]; omega))
      intro r a r' hr hrun
      have hr' := hround r a r' hr hrun
      refine ⟨hr'.stops, hr'.start, fun l k hl' hk' => (hr'.counts l k hl' hk').trans ?_⟩
      simp only [Counts.set]
      by_cases hsum : l = i / Config.sumCount ∧ k = i % Config.sumCount
      · obtain ⟨rfl, rfl⟩ := hsum
        rw [if_pos ⟨rfl, rfl⟩, if_pos (by rw [hindex]; omega)]
      · have hne : sumIndex l k ≠ i := fun he => hsum ((sumIndex_inj hk' hk).1 (he.trans hindex.symm))
        rw [if_neg hsum]
        exact if_congr (by omega) rfl rfl
  intro r a r' hr hrun
  have hr' := hloop r a r' ⟨hr.stops, hr.start, fun l k hl hk => (hr.counts l k hl hk).trans (if_neg (Nat.not_lt_zero _)).symm⟩
    hrun
  exact ⟨hr'.stops, hr'.start, fun l k hl hk => (hr'.counts l k hl hk).trans (if_pos (sumIndex_lt hl hk))⟩

end Counts

end Sys2Proof.Machine
end

section
/-! SUPPORT. The invariants of the lane-sum counters (spec R427): every command keeps them. -/

namespace Sys2Proof.Machine

/-! ## The invariants, sum by sum -/

/-- The invariants of spec R427 for a sum of lane `l` with NE and SE `p`. -/
def LaneOk (start : Int) (l : Nat) (p : Int × Int) : Prop :=
  p.1 % 8 = l ∧ start ≤ p.1 ∧ p.1 < max p.2 start + 8 ∧ start ≤ p.2 ∧ 0 ≤ p.1 ∧ 0 ≤ p.2

theorem sumCountersOk_iff (s : State) : SumCountersOk s ↔
    (s.sumsValid = true → ∀ l, l < 8 → ∀ k, k < 3 → LaneOk s.sumStartElem.toInt l (s.count l k)) := Iff.rfl

/-- NE and SE once the window has moved by `delta` (spec R432). -/
def shiftedCount (delta : Nat) (p : Int × Int) : Int × Int := (p.1 - delta, p.2 - delta)

section LaneOk

variable {start : Int} {l : Nat} {p : Int × Int} {stop : Int}

/-- A fold leaves NE at the first element of its lane at or after the end, or where it was. -/
theorem LaneOk.folded (h : LaneOk start l p) (hstop : 0 ≤ stop) : LaneOk start l (foldedCount stop p) := by
  obtain ⟨hlane, hlow, hhigh, hserved, hne, hse⟩ := h
  simp only [LaneOk, foldedCount, foldRounds]
  omega

theorem foldedCount_reaches (stop : Int) (p : Int × Int) : stop ≤ (foldedCount stop p).1 ∧ stop ≤ (foldedCount stop p).2 := by
  simp only [foldedCount, foldRounds]
  omega

theorem LaneOk.shifted {delta : Nat} (h : LaneOk start l p) (hlanes : delta % 8 = 0) (hne : delta ≤ p.1) (hse : delta ≤ p.2) :
    LaneOk (start - delta) l (shiftedCount delta p) := by
  obtain ⟨hlane, hlow, hhigh, hserved, -, -⟩ := h
  simp only [LaneOk, shiftedCount]
  omega

/-- A reset sum starts at the first element of its lane at or after `es` (spec R425). -/
theorem laneOk_reset {es : Nat} (hes : es ≤ 2 ^ 30) {s : State} {l k : Nat} (hl : l < 8) (hk : k < 3) :
    LaneOk (sumsResetTo s es).sumStartElem.toInt l ((sumsResetTo s es).count l k) := by
  have hstart : (sumsResetTo s es).sumStartElem.toInt = es := resetCtr_se hes l
  rw [State.count, sumsResetTo_sum s es hl hk, resetCtr_ne hes, resetCtr_se hes, hstart]
  simp only [LaneOk]
  omega

end LaneOk

/-- A run whose counters have the invariants. -/
theorem CountsAre.ok {start : BitVec 32} {V : Counts} {r : Run} (h : CountsAre start V r)
    (hV : ∀ l, l < 8 → ∀ k, k < 3 → LaneOk start.toInt l (V l k)) : SumCountersOk r.st := fun _ l hl k hk => by
  have hlane := hV l hl k hk
  rw [← h.counts l k hl hk, ← h.start] at hlane
  exact hlane

theorem countsAre_start (s : State) : CountsAre s.sumStartElem s.count (Run.start s) := ⟨rfl, rfl, fun _ _ _ _ => rfl⟩

theorem Reaches.of {α : Type} {P P' : Run → Prop} {Q : α → Run → Prop} {c : Cmd α} (h : Reaches P' Q c)
    (hP : ∀ r, P r → P' r) : Reaches P Q c := fun r a r' hr hc => h r a r' (hP r hr) hc

section Lanes

variable {s : State} {t : Tables}

/-- Any change of the state that leaves the sums' registers. -/
theorem keeps_counts_modify {start : BitVec 32} {V : Counts} {f : State → State}
    (hf : ∀ x, (f x).sumStartElem = x.sumStartElem ∧ (f x).sums = x.sums) : Keeps (CountsAre start V) (modifyState f) :=
  keeps_modifyState fun r h => ⟨h.stops, (hf r.st).1.trans h.start, fun l k hl hk => by
    rw [← h.counts l k hl hk]
    simp only [State.count, State.sum, (hf r.st).2]⟩

theorem keeps_counts_beginSums {start : BitVec 32} {V : Counts} : Keeps (CountsAre start V) beginSums :=
  keeps_bind (keeps_counts_modify fun _ => ⟨rfl, rfl⟩) fun _ => keeps_withState fun _ _ =>
    keeps_setArea foldStable_counts.toMemStable _

/-! ## SUMS_GET (spec R431) -/

/-- SUMS_GET folds its sum to the end it is given. -/
theorem sumsGet_keeps_counters {k : BitVec 2} {lane : BitVec 3} (h : SumCountersOk s) (hcount : s.winCount.toNat ≤ 2 ^ 30) :
    Reaches (fun r => r = Run.start s) (fun _ r => SumCountersOk r.st) (sumsGetBody t k lane) := by
  refine reaches_withState ?_
  rintro _ rfl
  refine reaches_rejectIf fun hindex => reaches_rejectIf fun hvalid => reaches_rejectIf fun hstop =>
    reaches_rejectIf fun _ => reaches_rejectIf fun _ => ?_
  have hk : k.toNat < 3 := by
    have hlt := k.isLt
    have hne := of_decide_eq_false hindex
    omega
  have hstop : s.arg0.toNat ≤ s.winCount.toNat := Nat.not_lt.1 (of_decide_eq_false hstop)
  have hvalid : s.sumsValid = true := by simpa using hvalid
  refine Reaches.of (P' := CountsAre s.sumStartElem s.count) ?_ fun r hr => hr ▸ countsAre_start s
  refine reaches_bind_keeps keeps_counts_beginSums fun _ =>
    reaches_bind (reaches_fold t lane.isLt hk (by simp only [start_st]; omega)) fun _ =>
    reaches_bind_keeps (keeps_leaveSum foldStable_counts _ _) fun _ => reaches_modify fun r hr => ?_
  refine CountsAre.ok (r := r) hr fun l hl k' hk' => ?_
  simp only [Counts.set]
  split
  · rename_i hsum
    obtain ⟨rfl, rfl⟩ := hsum
    exact LaneOk.folded (h hvalid _ hl _ hk') (Int.natCast_nonneg _)
  · exact h hvalid l hl k' hk'

/-! ## WIN_SHIFT (spec R432) -/

theorem reaches_shiftSum {start : BitVec 32} {V : Counts} {delta l k : Nat} (hl : l < 8) (hk : k < 3)
    (hne : -2 ^ 31 ≤ (V l k).1 - delta) (hse : -2 ^ 31 ≤ (V l k).2 - delta) :
    Reaches (CountsAre start V) (fun _ => CountsAre start (V.set l k (shiftedCount delta (V l k)))) (shiftSum delta l k) := by
  refine reaches_withState fun q hq => ?_
  have hcount := hq.counts l k hl hk
  have hne' : (q.st.sum l k).ne.toInt = (V l k).1 := congrArg Prod.fst hcount
  have hse' : (q.st.sum l k).se.toInt = (V l k).2 := congrArg Prod.snd hcount
  obtain ⟨⟨-, hne2⟩, -, hse2⟩ := q.st.count_bounds l k
  rw [hcount] at hne2 hse2
  dsimp only
  rw [hne', hse']
  refine reaches_bind (reaches_setNe hl hk hne (by omega)) fun _ => ?_
  have hset := reaches_setSe (start := start) (V := V.set l k ((V l k).1 - delta, (V l k).2)) hl hk hse (by omega)
  rwa [Counts.set_set, Counts.set_same] at hset

/-- WIN_SHIFT folds every sum to WIN_COUNT and moves the counters and their start down by delta. -/
theorem shiftSums_keeps_counters {early : Bool} (h : SumCountersOk s) (hvalid : s.sumsValid = true) (hpass : ShiftPasses s)
    (hcount : s.winCount.toNat ≤ 2 ^ 30) (hstart : -2 ^ 30 ≤ s.sumStartElem.toInt) :
    Reaches (fun r => r = Run.start s) (fun _ r => SumCountersOk r.st) (shiftSums t s.arg0.toNat early) := by
  have hdelta : s.arg0.toNat ≤ s.winCount.toNat := hpass.below.trans hpass.window
  have hlow : -2 ^ 31 ≤ s.sumStartElem.toInt - s.arg0.toNat := by omega
  have hhigh : s.sumStartElem.toInt - s.arg0.toNat < 2 ^ 31 := by
    have hlt := BitVec.toInt_lt (x := s.sumStartElem)
    omega
  refine reaches_withState ?_
  rintro _ rfl
  refine reaches_rejectIf fun _ => ?_
  refine Reaches.of (P' := CountsAre s.sumStartElem s.count) ?_ fun r hr => hr ▸ countsAre_start s
  refine reaches_bind_keeps keeps_counts_beginSums fun _ =>
    reaches_bind (reaches_forSums (F := fun _ _ => foldedCount s.winCount.toNat) fun W l k hl hk hW =>
      hW ▸ reaches_fold t hl hk (by omega)) fun _ =>
    reaches_bind_keeps (keeps_counts_modify fun _ => ⟨rfl, rfl⟩) fun _ =>
    reaches_bind_keeps (keeps_forSums fun l k _ _ => keeps_leaveSum foldStable_counts l k) fun _ =>
    reaches_bind (reaches_forSums (F := fun _ _ => shiftedCount s.arg0.toNat) fun W l k hl hk hW => hW ▸
      reaches_shiftSum hl hk ?_ ?_) fun _ => ?_
  · have hreach := (foldedCount_reaches s.winCount.toNat (s.count l k)).1
    rw [hW]
    omega
  · have hreach := (foldedCount_reaches s.winCount.toNat (s.count l k)).2
    rw [hW]
    omega
  · intro r a r' hr hrun
    rw [start_st, bind_run_ok (s32Value_run ⟨hlow, hhigh⟩ r)] at hrun
    cases hrun
    intro _ l hl k hk
    have hreach := foldedCount_reaches s.winCount.toNat (s.count l k)
    have hbefore : LaneOk s.sumStartElem.toInt l (s.count l k) := h hvalid l hl k hk
    have hlane := (hbefore.folded (Int.natCast_nonneg s.winCount.toNat)).shifted hpass.lanes (by omega) (by omega)
    rw [← hr.counts l k hl hk] at hlane
    have hstart' : (BitVec.ofInt 32 (s.sumStartElem.toInt - s.arg0.toNat)).toInt = s.sumStartElem.toInt - s.arg0.toNat :=
      BitVec.toInt_ofInt_eq_self (w := 32) (by decide) hlow hhigh
    rw [← hstart'] at hlane
    exact hlane

theorem winShift_keeps_counters (h : SumCountersOk s) (hcount : s.winCount.toNat ≤ 2 ^ 30)
    (hstart : -2 ^ 30 ≤ s.sumStartElem.toInt) :
    Reaches (fun r => r = Run.start s) (fun _ r => SumCountersOk r.st) (winShiftBody t) := by
  refine reaches_withState ?_
  rintro _ rfl
  refine reaches_rejectIf fun hwindow => reaches_rejectIf fun hdelta => reaches_ite (fun hvalid => ?_) fun _ => ?_
  · have hwindow := of_decide_eq_false hwindow
    have hdelta := of_decide_eq_false hdelta
    simp only [start_st] at hwindow hdelta
    exact reaches_bind (shiftSums_keeps_counters h hvalid ⟨by omega, by omega, by omega⟩ hcount hstart) fun _ =>
      reaches_modify fun _ hr => hr
  · refine reaches_bind (Q := fun _ r => SumCountersOk r.st) (reaches_modify ?_) fun _ => reaches_modify fun _ hr => hr
    rintro _ rfl
    exact h

/-! ## ROW_ENCODE (spec R493, R495) -/

/-- The opcode of the lane's row asks for sum (l, k) on one side or both (spec R493). -/
def Selects (op : BitVec 6) (k : Nat) : Bool := op.getLsbD k || op.getLsbD (k + 3)

theorem reaches_denseSum {start : BitVec 32} {V : Counts} {op : BitVec 6} {r p lp count l k : Nat} (hl : l < 8) (hk : k < 3)
    (hcount : count ≤ 2 ^ 30) :
    Reaches (CountsAre start V)
      (fun _ => CountsAre start (V.set l k (if Selects op k then foldedCount count (V l k) else V l k)))
      (denseSum t op r p lp count l k) := by
  by_cases hselected : Selects op k = true
  · rw [if_pos hselected]
    refine reaches_ite (fun _ => ?_) fun hnot => absurd hselected hnot
    refine reaches_bind (reaches_fold t hl hk (by omega)) fun _ => reaches_withState fun q _ => reaches_of_keeps ?_
    have hP := (foldStable_counts (start := start) (V := V.set l k (foldedCount count (V l k)))).toMemStable
    have hside : Keeps (CountsAre start (V.set l k (foldedCount count (V l k)))) (if op.getLsbD (k + 3) then
        accumulate p (sumAddr q.st l k) (fun x => x) (min (q.st.sum l k).sl.toNat lp) else pure ()) :=
      keeps_ite (fun _ => keeps_accumulate hP _ _ _ _) fun _ => keeps_pure ()
    exact keeps_ite (fun _ => keeps_bind (keeps_accumulate hP _ _ _ _) fun _ => hside) fun _ => hside
  · rw [if_neg hselected, Counts.set_self]
    exact reaches_ite (fun hyes => absurd hyes hselected) fun _ => reaches_pure fun _ hr => hr

theorem keeps_rowDesc {P : Run → Prop} (hP : MemStable P) (e : Nat) : Keeps P (rowDesc e) :=
  keeps_bind (keeps_readDesc hP e) fun d => keeps_bind (keeps_fatalIf _ _) fun _ => keeps_pure d

theorem keeps_addOriginal {P : Run → Prop} (hP : MemStable P) (dst lp e : Nat) (f : Byte → Byte) :
    Keeps P (addOriginal dst lp e f) :=
  keeps_bind (keeps_rowDesc hP e) fun _ => keeps_bind (keeps_accumulate hP _ _ _ _) fun _ =>
    keeps_ite (fun _ => keeps_memLoosen hP dst lp) fun _ => keeps_pure ()

theorem keeps_lightPairs {P : Run → Prop} (hP : MemStable P) (r p lp first u pairs : Nat) (g : Pcg) :
    Keeps P (lightPairs r p lp first u pairs g) := by
  induction pairs generalizing g with
  | zero => exact keeps_pure ()
  | succ pairs ih =>
    exact keeps_bind (keeps_addOriginal hP _ _ _ _) fun _ => keeps_bind (keeps_addOriginal hP _ _ _ _) fun _ =>
      ih g.advance.advance

/-- NE and SE after the sums of a Siamese row. -/
def rowCounts (t : Tables) (row : BitVec 32) (count : Nat) (V : Counts) : Counts := fun l k =>
  if Selects (t.rowOpcode (BitVec.ofNat 3 l) row) k then foldedCount count (V l k) else V l k

theorem reaches_siameseData {start : BitVec 32} {V : Counts} {row : BitVec 32} {r p lp first count : Nat}
    (hcount : count ≤ 2 ^ 30) :
    Reaches (CountsAre start V) (fun _ => CountsAre start (rowCounts t row count V))
      (siameseData t row r p lp first count) :=
  have hP : MemStable (CountsAre start (rowCounts t row count V)) := foldStable_counts.toMemStable
  reaches_withState fun _ _ => reaches_bind
    (reaches_forSums (F := fun l k p =>
      if Selects (t.rowOpcode (BitVec.ofNat 3 l) row) k then foldedCount count p else p) fun _ _ _ hl hk hW =>
        hW ▸ reaches_denseSum hl hk hcount) fun _ =>
    reaches_bind_keeps (keeps_lightPairs hP _ _ _ _ _ _ _) fun _ => reaches_of_keeps (keeps_accumulate hP _ _ _ _)

/-- The sums that a Siamese row folds from: reset at the window, or those of the state (spec R493). -/
def refreshedSums (s : State) : State :=
  if sumsStale (recheckTable s) then sumsResetTo (recheckTable s) s.winFirstElem.toNat else recheckFolded (recheckTable s)

theorem refreshedSums_lanes (h : SumCountersOk s) (hfirst : s.winFirstElem.toNat ≤ 2 ^ 30) {l k : Nat} (hl : l < 8)
    (hk : k < 3) : LaneOk (refreshedSums s).sumStartElem.toInt l ((refreshedSums s).count l k) := by
  unfold refreshedSums
  split
  · exact laneOk_reset hfirst hl hk
  · rename_i hfresh
    have hvalid : s.sumsValid = true := by
      by_contra hnot
      exact hfresh (by simp [sumsStale, hnot])
    exact h hvalid l hl k hk

theorem siameseBranch_keeps_sums (h : SumCountersOk s) (hwindow : s.winFirstElem.toNat ≤ s.winCount.toNat)
    (hcount : s.winCount.toNat ≤ 2 ^ 30) :
    Reaches (fun r => r = Run.start s) (fun _ r => SumCountersOk r.st) (siameseBranch t) := by
  refine reaches_withState ?_
  rintro _ rfl
  have hP : ∀ V, FoldStable (CountsAre (refreshedSums s).sumStartElem V) := fun _ => foldStable_counts
  have hrow : Reaches (fun r => r = Run.start s) (fun _ => CountsAre (refreshedSums s).sumStartElem
      (rowCounts t s.nextRow s.winCount.toNat (refreshedSums s).count)) (siameseRow t) := by
    refine reaches_withState ?_
    rintro _ rfl
    refine reaches_bind (Q := fun _ r => r = Run.start (recheckTable s)) (reaches_modify ?_) fun _ =>
      reaches_bind (Q := fun _ r => r = Run.start (refreshedSums s)) (reaches_modify ?_) fun _ =>
      reaches_bind (Q := fun _ => CountsAre (refreshedSums s).sumStartElem (refreshedSums s).count) (reaches_modify ?_) fun _ =>
      reaches_withState fun _ _ => reaches_bind_keeps (keeps_setArea (hP _).toMemStable _) fun _ => reaches_withScratch <|
      reaches_bind_keeps (keeps_memZero (hP _).toMemStable _ _) fun _ => reaches_siameseData hcount
    · rintro _ rfl
      rfl
    · rintro _ rfl
      rfl
    · rintro _ rfl
      exact ⟨rfl, rfl, fun _ _ _ _ => rfl⟩
  refine reaches_bind hrow fun _ =>
    reaches_bind_keeps (keeps_forSums fun l k _ _ => keeps_leaveSum (hP _) l k) fun _ =>
    reaches_bind_keeps (keeps_leaveOpen (hP _).toMemStable _ _) fun _ => reaches_modify fun r hr => ?_
  refine CountsAre.ok (r := r) hr fun l hl k hk => ?_
  have hlane := refreshedSums_lanes h (hwindow.trans hcount) hl hk
  unfold rowCounts
  split
  · exact hlane.folded (Int.natCast_nonneg _)
  · exact hlane

/-- A row of one element, and a parity or Cauchy row, leave the sums (spec R491, R492). -/
theorem memStable_sumCountersOk : MemStable fun r => SumCountersOk r.st where
  draw _ h := h
  read _ _ _ h := h
  opens _ _ h := h
  area _ _ h := h
  store _ _ _ _ h := h

theorem singleRow_keeps_sums : Keeps (fun r => SumCountersOk r.st) singleRow :=
  keeps_bind (keeps_modifyState fun _ h => h) fun _ => keeps_withState fun _ _ =>
    keeps_bind (keeps_rowDesc memStable_sumCountersOk _) fun _ => keeps_modifyState fun _ h => h

theorem cauchyBranch_keeps_sums : Keeps (fun r => SumCountersOk r.st) cauchyBranch := by
  refine keeps_bind (keeps_modifyState fun _ h => h) fun _ => keeps_withState fun _ _ =>
    keeps_bind (keeps_setArea memStable_sumCountersOk _) fun _ => keeps_withScratch (fun _ => rfl) _ _ <|
    keeps_bind (keeps_memZero memStable_sumCountersOk _ _) fun _ => keeps_ite (fun _ => ?_) fun _ => ?_
  all_goals
    exact keeps_bind (keeps_forRange (fun _ => keeps_addOriginal memStable_sumCountersOk _ _ _ _) _ 0) fun _ =>
      keeps_bind (keeps_modifyState fun _ h => h) fun _ => keeps_modifyState fun _ h => h

theorem rowEncode_keeps_counters (h : SumCountersOk s) (hcount : s.winCount.toNat ≤ 2 ^ 30) :
    Reaches (fun r => r = Run.start s) (fun _ r => SumCountersOk r.st) (rowEncodeBody t) := by
  have of_keeps : ∀ {c : Cmd Unit}, Keeps (fun r => SumCountersOk r.st) c →
      Reaches (fun r => r = Run.start s) (fun _ r => SumCountersOk r.st) c := fun hc =>
    (reaches_of_keeps hc).of fun _ hr => hr ▸ h
  refine reaches_withState ?_
  rintro _ rfl
  refine reaches_rejectIf fun hwindow => reaches_ite (fun _ => ?_) fun _ => reaches_ite
    (fun _ => of_keeps singleRow_keeps_sums) fun _ => reaches_rejectIf fun _ => reaches_ite
    (fun _ => reaches_rejectIf fun _ => reaches_rejectIf fun _ => of_keeps cauchyBranch_keeps_sums) fun _ =>
    reaches_rejectIf fun _ => reaches_rejectIf fun _ => reaches_rejectIf fun _ => ?_
  · rintro r a r' - ⟨⟩
  · have hfirst := of_decide_eq_false hwindow
    exact siameseBranch_keeps_sums h (by simp only [start_st] at hfirst; omega) hcount

end Lanes

/-! ## The commands that leave the sums -/

section Others

theorem keeps_sums_resultField (f : Params → Byte) : Keeps (fun r => SumCountersOk r.st) (resultField f) :=
  keeps_withState fun _ _ => keeps_modifyState fun _ h => h

theorem keeps_sums_divides (c : Bool) (f : Params → Byte) :
    Keeps (fun r => SumCountersOk r.st) (do rejectIf c .zeroDivisor; resultField f) :=
  keeps_bind (keeps_rejectIf _ _) fun _ => keeps_sums_resultField f

theorem keeps_sums_gfVector {loop : VectorLoop} (h : ∀ p dst src n, Keeps (fun r => SumCountersOk r.st) (loop p dst src n)) :
    Keeps (fun r => SumCountersOk r.st) (gfVector loop) :=
  keeps_withState fun _ _ => keeps_bind (keeps_rejectIf _ _) fun _ => keeps_ite (fun _ => keeps_pure ()) fun _ =>
    keeps_bind (keeps_rejectIf _ _) fun _ => keeps_bind (keeps_rejectIf _ _) fun _ => keeps_bind (h _ _ _ _) fun _ =>
    keeps_modifyState fun _ h => h

theorem keeps_sums_bitsetRange (b : BitVec 4) : Keeps (fun r => SumCountersOk r.st) (bitsetRange b) :=
  keeps_bind (keeps_withState fun _ _ => keeps_rejectIf _ _) fun _ => keeps_withState fun _ _ =>
    keeps_bind (keeps_rejectIf _ _) fun _ => keeps_pure _

theorem keeps_sums_bitsetIndex (b : BitVec 4) : Keeps (fun r => SumCountersOk r.st) (bitsetIndex b) :=
  keeps_bind (keeps_withState fun _ _ => keeps_rejectIf _ _) fun _ => keeps_withState fun _ _ =>
    keeps_bind (keeps_rejectIf _ _) fun _ => keeps_pure _

theorem keeps_sums_bitsetAt (b : BitVec 4) (f : BitVec Config.bitsetWidth → Nat → BitVec Config.bitsetWidth) :
    Keeps (fun r => SumCountersOk r.st) (bitsetAt b f) :=
  keeps_bind (keeps_sums_bitsetIndex b) fun _ => keeps_modifyState fun _ h => h

theorem keeps_sums_bitsetOver (b : BitVec 4) (f : BitVec Config.bitsetWidth → Nat → Nat → BitVec Config.bitsetWidth) :
    Keeps (fun r => SumCountersOk r.st) (bitsetOver b f) :=
  keeps_bind (keeps_sums_bitsetRange b) fun _ => keeps_modifyState fun _ h => h

theorem keeps_sums_bitsetAsk (b : BitVec 4) (f : BitVec Config.bitsetWidth → Nat → Nat → Nat) :
    Keeps (fun r => SumCountersOk r.st) (bitsetAsk b f) :=
  keeps_bind (keeps_sums_bitsetRange b) fun _ => keeps_withState fun _ _ => keeps_modifyState fun _ h => h

end Others

/-! ## Every command -/

/-- What a command's body leaves where it goes on, a command that does not latch DISABLED leaves. -/
theorem exec_keeps_counters_of {i : Instr} {s t : State} (hs : SumCountersOk s)
    (hbody : Reaches (fun r => r = Run.start s) (fun _ r => SumCountersOk r.st) (commandBody i)) (h : exec i s = .next t)
    (ht : t.disabled = false) : SumCountersOk t := by
  rw [exec_eq] at h
  obtain rfl := Host.Outcome.next.inj h
  rcases conclude_cases (commandBody i) s with ⟨r, hr, hend⟩ | ⟨e, r, hr, hend⟩ | ⟨r, hr, hend⟩ | ⟨e, r, hr, hend⟩ |
    ⟨r, hr, hend⟩ <;> rw [hend] at ht ⊢
  · exact hbody _ _ _ rfl hr
  · exact hs
  · exact hs
  · cases ht
  · cases ht

/-- The registers of the sums (spec R53, R64). -/
def sumSide (s : State) : Bool × BitVec 32 × Vector SumCtr 24 := (s.sumsValid, s.sumStartElem, s.sums)

theorem sumCountersOk_of_sumSide {s t : State} (h : sumSide t = sumSide s) (hs : SumCountersOk s) : SumCountersOk t := by
  simp only [sumSide, Prod.mk.injEq] at h
  obtain ⟨hvalid, hstart, hsums⟩ := h
  unfold SumCountersOk State.sum at hs ⊢
  rw [hvalid, hstart, hsums]
  exact hs

/-- Settles O24: only four commands write the counters, and each of them resets a sum, folds it to an end inside the window, or
moves all of them down by a multiple of the lane count that no folded sum is below. -/
theorem commandsKeepSumCounters : Obligations.CommandsKeepSumCounters := by
  intro i s t hs hcount hstart h ht
  have of_body := fun hbody => exec_keeps_counters_of (i := i) hs hbody h ht
  have of_keeps := fun (hc : Keeps (fun r => SumCountersOk r.st) (commandBody i)) =>
    of_body ((reaches_of_keeps hc).of fun _ hr => hr ▸ hs)
  have of_slab := fun (hc : Ignores (commandErased i) sumSide) =>
    sumCountersOk_of_sumSide (exec_leaves sumSide (fun _ => rfl) hc h) hs
  cases i with
  | nop => exact of_keeps (keeps_pure ())
  | gfAddMem => exact of_keeps (keeps_sums_gfVector fun _ _ _ _ => keeps_accumulate memStable_sumCountersOk _ _ _ _)
  | gfMuladdMem c =>
    exact of_keeps (keeps_sums_gfVector fun _ _ _ _ => keeps_ite (fun _ => keeps_pure ())
      fun _ => keeps_accumulate memStable_sumCountersOk _ _ _ _)
  | gfMulMem c =>
    exact of_keeps (keeps_sums_gfVector fun _ _ _ _ => keeps_ite (fun _ => keeps_memZero memStable_sumCountersOk _ _)
      fun _ => keeps_mapBytes memStable_sumCountersOk _ _ _ _)
  | gfDivMem c =>
    exact of_keeps (keeps_bind (keeps_rejectIf _ _) fun _ =>
      keeps_sums_gfVector fun _ _ _ _ => keeps_mapBytes memStable_sumCountersOk _ _ _ _)
  | gfMul a b => exact of_keeps (keeps_sums_resultField fun p => gfMul p a b)
  | gfDiv a b => exact of_keeps (keeps_sums_divides _ _)
  | gfSqr a => exact of_keeps (keeps_sums_resultField fun p => gfSqr p a)
  | gfInv a => exact of_keeps (keeps_sums_divides _ _)
  | gfLog a =>
    exact of_keeps (keeps_bind (keeps_rejectIf _ _) fun _ => keeps_withState fun _ _ => keeps_modifyState fun _ h => h)
  | gfExp j => exact of_keeps (keeps_sums_resultField fun p => gfExp p (j.toNat % 255))
  | gfNibtab c hi j => exact of_keeps (keeps_sums_resultField fun p => if hi then nibHi p c j else nibLo p c j)
  | bsSet b => exact of_keeps (keeps_sums_bitsetAt b fun v i => setBits v i (i + 1))
  | bsClear b => exact of_keeps (keeps_sums_bitsetAt b fun v i => clearBits v i (i + 1))
  | bsCheck b =>
    exact of_keeps (keeps_bind (keeps_sums_bitsetIndex b) fun _ => keeps_withState fun _ _ => keeps_modifyState fun _ h => h)
  | bsSetRange b => exact of_keeps (keeps_sums_bitsetOver b fun v a e => setBits v a e)
  | bsClearRange b => exact of_keeps (keeps_sums_bitsetOver b fun v a e => clearBits v a e)
  | bsPopcount b => exact of_keeps (keeps_sums_bitsetAsk b fun v a e => popcountRange v a e)
  | bsFfc b =>
    exact of_keeps (keeps_bind (keeps_withState fun _ _ => keeps_rejectIf _ _) fun _ => keeps_withState fun _ _ =>
      keeps_bind (keeps_rejectIf _ _) fun _ => keeps_modifyState fun _ h => h)
  | bsFfs b => exact of_keeps (keeps_sums_bitsetAsk b fun v a e => ffsBits v a e)
  | slabAlloc | slabFree | slabRealloc | slabWinfo => exact of_slab fun _ => rfl
  | sumsReset =>
    refine of_body (reaches_withState ?_)
    rintro _ rfl
    refine reaches_rejectIf fun hbound => reaches_modify ?_
    rintro _ rfl
    have hes := of_decide_eq_false hbound
    simp only [start_st] at hes
    exact fun _ l hl k hk => laneOk_reset (by simp only [start_st]; omega) hl hk
  | sumsGet k lane => exact of_body (sumsGet_keeps_counters hs hcount)
  | winShift =>
    exact of_body (winShift_keeps_counters hs hcount hstart)
  | rowEncode => exact of_body (rowEncode_keeps_counters hs hcount)
  | cauchyElem r y =>
    exact of_keeps (keeps_withState fun _ _ => keeps_bind (keeps_rejectIf _ _) fun _ => keeps_modifyState fun _ h => h)

end Sys2Proof.Machine
end

section
/-! SUPPORT. The fatal ends of SUMS_GET's fold at its first element (spec R423, R424, R565). -/

namespace Sys2Proof.Machine

section SumsGetFatal

variable {s t : State} {W : Nat → Prop}

/-- A fatal end of a command that until then has changed memory alone, and would have written the bytes of `W` only. -/
theorem exec_fatalEnd {i : Instr} {e : ErrorBit} {r : Run} (hrun : commandBody i (Run.start s) = .error (.fatal e) r)
    (hst : memErased r.st = memErased t) (hr : Contained s W r) (hwould : Contained s W (wouldRun (commandBody i) s)) :
    ∃ m d, exec i s = .next (({ t with mem := m, draws := d } : State).fatal e) ∧ ∀ a, ¬ W a → m.read a = s.mem.read a := by
  have ignores : Ignores memErased memErased := fun _ => rfl
  have hfinal := eq_of_memErased ((ignores.cutOff (wouldRun (commandBody i) s) r).trans hst)
  refine ⟨_, _, by rw [exec_eq, conclude_fatal hrun]; exact congrArg (fun x : State => Host.Outcome.next (x.fatal e)) hfinal,
    fun a ha => ?_⟩
  rw [← hr.outside a ha]
  refine cutOff_read hr.wf fun b hb he => ha ?_
  obtain ⟨hlt, hW⟩ := hwould.writes b hb
  rwa [he, Nat.mod_eq_of_lt hlt]

/-- Without port errors, the run that goes on past fatal causes starts as the command does. -/
theorem contained_wouldRun_of {body rest : Cmd Unit} {q : Run} (hport : s.port = [])
    (hrun : body { Run.start s with skip := true } = rest q) (hrest : Keeps (Contained s W) rest) (hq : Contained s W q) :
    Contained s W (wouldRun body s) := by
  have hsame : ({ s with port := s.port.filter fun p => p.kind == .device } : State) = s :=
    congrArg (fun p => ({ s with port := p } : State))
      (show s.port.filter (fun p => p.kind == .device) = s.port by rw [hport]; rfl)
  unfold wouldRun
  rw [hsame, hrun]
  split
  · exact (hrest q hq).1 _ _ ‹_›
  · exact (hrest q hq).2 _ _ ‹_›

variable {k : BitVec 2} {lane : BitVec 3}

/-- The run of a command that folds, from a run of any kind. -/
def foldingRun (q : Run) : Run :=
  { q with st := recheckFolded (recheckTable q.st), area := sumsArea (recheckFolded (recheckTable q.st)) }

/-- SUMS_GET that passes its checks, also in a run that goes on past fatal causes. -/
theorem sumsGetBody_passes {q : Run} (h : SumsGetPasses q.st k lane) (t : Tables) :
    sumsGetBody t k lane q = sumsGetRest t lane.toNat k.toNat q.st.arg0.toNat (foldingRun q) := by
  have hstop : decide (q.st.arg0.toNat > q.st.winCount.toNat) = false := decide_eq_false (Nat.not_lt.2 h.stop)
  have hserved : decide ((q.st.arg0.toNat : Int) < (q.st.sum lane.toNat k.toNat).se.toInt) = false :=
    decide_eq_false (Int.not_lt.2 h.served)
  have hwraps : sumsWrap q.st = false := by
    rw [Bool.eq_false_iff, ne_eq, sumsWrap_iff]
    exact Nat.not_lt.2 h.ends
  exact (bind_run_ok (getState_run _)).trans <| (rejectIf_bind_unmet (decide_index_eq_three h.index) _ _ _).trans <|
    (rejectIf_bind_unmet (by rw [h.valid]; rfl) _ _ _).trans <| (rejectIf_bind_unmet hstop _ _ _).trans <|
    (rejectIf_bind_unmet hserved _ _ _).trans <| (rejectIf_bind_unmet hwraps _ _ _).trans (bind_run_ok (beginSums_run _))

/-- A fold that has an element to add has a first round (spec R422). -/
theorem foldRounds_succ {ne stop : Int} (h : ne < stop) : ∃ n, foldRounds ne stop = n + 1 := by
  refine Nat.exists_eq_succ_of_ne_zero ?_
  rw [foldRounds]
  omega

/-- It stops where its first element stops. -/
theorem fold_first_error {q q' : Run} {l k : Nat} {stop : Int} {x : Stop} {t : Tables} (h : (q.st.sum l k).ne.toInt < stop)
    (hfirst : foldElement t l k (q.st.sum l k).ne.toInt q = .error x q') : fold t l k stop q = .error x q' := by
  obtain ⟨n, hn⟩ := foldRounds_succ h
  rw [fold, bind_run_ok (getState_run q), hn]
  exact bind_run_error (bind_run_error hfirst)

/-- A first element that ends the loop leaves SE alone to be set. -/
theorem fold_first_ends {q q' : Run} {l k : Nat} {stop : Int} {t : Tables} (h : (q.st.sum l k).ne.toInt < stop)
    (hfirst : foldElement t l k (q.st.sum l k).ne.toInt q = .ok false q') :
    fold t l k stop q = setSe l k (max (q'.st.sum l k).se.toInt stop) q' := by
  obtain ⟨n, hn⟩ := foldRounds_succ h
  have hloop : foldLoop t l k (n + 1) (q.st.sum l k).ne.toInt q = .ok () q' :=
    (bind_run_ok hfirst).trans (congrFun (if_neg (by decide)) q')
  rw [fold, bind_run_ok (getState_run q), hn]
  exact (bind_run_ok hloop).trans (bind_run_ok (getState_run q'))

/-- Sums that mean something are left open from SL on. -/
theorem leaveSum_run {q : Run} {l k : Nat} (h : sumsLoose q.st = false) :
    leaveSum l k q = leaveOpen (sumAddr q.st l k + (q.st.sum l k).sl.toNat)
      (q.st.sumStride.toNat - (q.st.sum l k).sl.toNat) q :=
  (bind_run_ok (getState_run q)).trans (congrFun (if_neg (by simp [h])) q)

/-- The bytes of sum (l, k)'s buffer from SL on. -/
def PastSum (s : State) (l k a : Nat) : Prop :=
  sumAddr s l k + (s.sum l k).sl.toNat ≤ a ∧ a < sumAddr s l k + s.sumStride.toNat

theorem covers_pastSum {l k : Nat} (h : sumAddr s l k + s.sumStride.toNat ≤ Config.addrSpace) :
    Covers (PastSum s l k) (sumAddr s l k + (s.sum l k).sl.toNat) (s.sumStride.toNat - (s.sum l k).sl.toNat) := fun i hi => by
  rw [Nat.mod_eq_of_lt (by omega)]
  exact ⟨by omega, by omega⟩

/-- SUMS_GET after a fold that leaves a sum that means something (spec R112, R431). -/
def openPast (s : State) (l k : Nat) : Cmd Unit := do
  leaveOpen (sumAddr s l k + (s.sum l k).sl.toNat) (s.sumStride.toNat - (s.sum l k).sl.toNat)
  modifyState fun x =>
    let c := x.sum l k
    x.setRes (BitVec.ofNat 64 (sumAddr x l k)) (c.sl.setWidth 64) (c.ne.signExtend 64) (c.se.signExtend 64)

theorem sumsGetRest_run {q q' : Run} {l k stop : Nat} {t : Tables} (hfold : fold t l k stop q = .ok () q')
    (hloose : sumsLoose q'.st = false) : sumsGetRest t l k stop q = openPast q'.st l k q' :=
  (bind_run_ok hfold).trans (bind_run_congr (leaveSum_run hloose))

/-- What the first element of a fold needs, over plain memory with the sums' meaning kept. -/
structure FirstElement (s : State) (k : BitVec 2) (lane : BitVec 3) : Prop where
  passes : SumsGetPasses s k lane
  trusted : SumsTrusted s
  apart : SumsApart s
  more : (s.sum lane.toNat k.toNat).ne.toInt < s.arg0.toNat
  far : s.arg0.toNat ≤ 2 ^ 30

section First

variable (h : FirstElement s k lane) (skip : Bool)

/-- The run at the first element of the fold, going on past fatal causes if `skip`. -/
def firstRun (s : State) (skip : Bool) : Run := { sumsRun s with skip := skip }

include h

theorem FirstElement.start : sumsGetBody Config.tables k lane { Run.start s with skip := skip } =
    sumsGetRest Config.tables lane.toNat k.toNat s.arg0.toNat (firstRun s skip) :=
  sumsGetBody_passes (q := { Run.start s with skip := skip }) h.passes _

theorem FirstElement.contained : Contained s W (firstRun s skip) := by
  have ⟨hwf, _⟩ := h.trusted
  exact (contained_start hwf).of_same rfl rfl

theorem FirstElement.st : (firstRun s skip).st = { s with pending := [] } := sumsRun_st h.trusted

/-- Its descriptor is read as memory holds it. -/
theorem FirstElement.readDesc : ∃ r, readDesc (s.sum lane.toNat k.toNat).ne.toInt (firstRun s skip) =
      .ok (keptDesc s (s.sum lane.toNat k.toNat).ne.toInt) r ∧
    r.st = { s with pending := [] } ∧ r.skip = skip ∧ Contained s W r := by
  have hplain := sumsRun_plain h.trusted h.apart
  have p : PlainRun (firstRun s skip) := ⟨⟨hplain.quiet.raced, hplain.quiet.opens⟩, hplain.wf, hplain.kept, hplain.closed⟩
  obtain ⟨r, hr, hs⟩ := readDesc_step (e := (s.sum lane.toNat k.toNat).ne.toInt) p.quiet p.kept
    fun i _ => p.closed _ (mod_addrSpace_lt _)
  refine ⟨r, hr, ?_, hs.skip, (contained_readDesc _ _ (h.contained skip)).1 _ _ hr⟩
  rw [hs.st]
  exact h.st skip

theorem FirstElement.more_at : ((firstRun s skip).st.sum lane.toNat k.toNat).ne.toInt < s.arg0.toNat := by
  rw [h.st skip]
  exact h.more

/-- The command stops where its first element stops. -/
theorem FirstElement.stops {x : Stop} {r : Run}
    (hfirst : foldElement Config.tables lane.toNat k.toNat (s.sum lane.toNat k.toNat).ne.toInt (firstRun s false) = .error x r) :
    commandBody (.sumsGet k lane) (Run.start s) = .error x r :=
  (h.start false).trans (bind_run_error (fold_first_error (h.more_at false) (by rw [h.st false]; exact hfirst)))

/-- An original longer than the sum's buffer: the run that goes on sets SE and leaves the sum open from SL on (spec R423). -/
theorem FirstElement.overflow_would (hlong : (descAt s (s.sum lane.toNat k.toNat).ne.toInt).2 > s.sumStride.toNat) :
    Contained s (PastSum s lane.toNat k.toNat) (wouldRun (commandBody (.sumsGet k lane)) s) := by
  have hk := h.passes.index_lt
  have hfar := h.far
  have ⟨_, hport, ⟨_, hkept, _⟩, htainted, _⟩ := h.trusted
  have hroom := (sumAddr_end (s := s) lane.isLt hk).trans h.passes.ends
  obtain ⟨r, hr, hst, hskip, hcontained⟩ := h.readDesc (W := PastSum s lane.toNat k.toNat) true
  have hfirst := foldElement_tooLong_skip (t := Config.tables) (l := lane.toNat) (k := k.toNat) hr (by rw [hst]; exact hlong)
    hskip
  have hserved := setSe_run (l := lane.toNat) (k := k.toNat)
    (x := max (r.st.sum lane.toNat k.toNat).se.toInt s.arg0.toNat) (le_max_of_le_left (BitVec.le_toInt _))
    (max_lt BitVec.toInt_lt (by omega)) r
  have hfold := (fold_first_ends (h.more_at true) (by rw [h.st true]; exact hfirst)).trans hserved
  have hloose : sumsLoose r.st = false := by
    rw [hst]
    simp [sumsLoose, hkept, htainted]
  have hpast : openPast (r.st.setSum lane.toNat k.toNat { r.st.sum lane.toNat k.toNat with
      se := BitVec.ofInt 32 (max (r.st.sum lane.toNat k.toNat).se.toInt s.arg0.toNat) }) lane.toNat k.toNat =
      openPast s lane.toNat k.toNat := by
    rw [openPast, State.sum_setSum _ _ lane.isLt hk hk, if_pos ⟨rfl, rfl⟩, hst]
    rfl
  refine contained_wouldRun_of hport ((h.start true).trans ((sumsGetRest_run hfold hloose).trans (congrFun hpast _)))
    (keeps_bind (contained_leaveOpen (covers_pastSum hroom)) fun _ => contained_modify fun _ => rfl)
    ((contained_setSe _ _ _ r hcontained).1 _ _ hserved)

/-- An original longer than the sum's buffer is fatal. -/
theorem FirstElement.overflow (hlong : (descAt s (s.sum lane.toNat k.toNat).ne.toInt).2 > s.sumStride.toNat) :
    ∃ m d, exec (.sumsGet k lane) s = .next (({ s with pending := [], mem := m, draws := d } : State).fatal .sumOverflow) ∧
      ∀ a, ¬ PastSum s lane.toNat k.toNat a → m.read a = s.mem.read a := by
  obtain ⟨r, hr, hst, hskip, hcontained⟩ := h.readDesc (W := PastSum s lane.toNat k.toNat) false
  have hfirst := foldElement_tooLong (t := Config.tables) (l := lane.toNat) (k := k.toNat) hr (by rw [hst]; exact hlong) hskip
  exact exec_fatalEnd (h.stops hfirst) (congrArg memErased hst) hcontained (h.overflow_would hlong)

/-- An original that fits the buffer but wraps is fatal (spec R424). -/
theorem FirstElement.wraps (hlen : 0 < (descAt s (s.sum lane.toNat k.toNat).ne.toInt).2)
    (hfits : (descAt s (s.sum lane.toNat k.toNat).ne.toInt).2 ≤ s.sumStride.toNat)
    (hwraps : wraps (descAt s (s.sum lane.toNat k.toNat).ne.toInt).1 (descAt s (s.sum lane.toNat k.toNat).ne.toInt).2 = true) :
    ∃ m d, exec (.sumsGet k lane) s = .next (({ s with pending := [], mem := m, draws := d } : State).fatal .busError) ∧
      ∀ a, ¬ (sumAddr s lane.toNat k.toNat ≤ a ∧ a < sumAddr s lane.toNat k.toNat + s.sumStride.toNat) →
        m.read a = s.mem.read a := by
  have ⟨hwf, _⟩ := h.trusted
  have hroom := (sumAddr_end (s := s) lane.isLt h.passes.index_lt).trans h.passes.ends
  obtain ⟨r, hr, hst, hskip, hcontained⟩ := h.readDesc (W := fun a => sumAddr s lane.toNat k.toNat ≤ a ∧
    a < sumAddr s lane.toNat k.toNat + s.sumStride.toNat) false
  have hfitting : foldFitting Config.tables lane.toNat k.toNat (s.sum lane.toNat k.toNat).ne.toInt
      (keptDesc s (s.sum lane.toNat k.toNat).ne.toInt) r = .error (.fatal .busError) r := by
    refine (congrFun (if_pos hlen) r).trans (bind_run_error ?_)
    rw [show Machine.wraps (keptDesc s _).addr (keptDesc s _).len = true from hwraps]
    exact fatalIf_true _ hskip
  have hfirst := (foldElement_fits (t := Config.tables) (l := lane.toNat) (k := k.toNat) hr (by rw [hst]; exact hfits)).trans
    (bind_run_error hfitting)
  exact exec_fatalEnd (h.stops hfirst) (congrArg memErased hst) hcontained
    (contained_wouldRun (contained_sumsGetBody (covers_range hroom) Config.tables) hwf)

end First

/-- Settles O51: the first check that is met ends the command; the fold stops at its first element before it has written. -/
theorem sumsGetStops : Obligations.SumsGetStops := by
  intro s k lane c stop base wraps fatally
  refine ⟨fun hk => ?_, exec_sumsGet_invalid, fun hk hvalid hbad => ?_, ?_⟩
  · subst hk
    exact exec_sumsGet_badIndex s lane
  · exact exec_sumsGet_badRange hk hvalid (hbad.imp_right fun hbad => hbad.imp_right (sumsWrap_iff s).2)
  · intro hk hvalid hcount hserved hroom _ hmore hfar htrusted hapart d
    have h : FirstElement s k lane :=
      ⟨⟨hk, hvalid, hcount, hserved, Nat.not_lt.1 hroom⟩, htrusted, hapart, hmore, hcount.trans hfar⟩
    exact ⟨h.overflow, fun hlen hfits hends => h.wraps hlen hfits (decide_eq_true hends)⟩

end SumsGetFatal

end Sys2Proof.Machine
end

section
/-! SUPPORT. The loops over the 24 sums: changing the counters of each, leaving the end of each buffer open, and moving them with
the window (spec R112, R432). -/

namespace Sys2Proof.Machine

/-! ## Loops that go on -/

/-- A loop each of whose rounds goes on, from one property to the next. -/
theorem forRange_runs {I : Nat → Run → Prop} {f : Nat → Cmd Unit} {n : Nat} {r : Run} (h : I 0 r)
    (hf : ∀ i q, i < n → I i q → ∃ q', f i q = .ok () q' ∧ I (i + 1) q') :
    ∃ r', forRange f n 0 r = .ok () r' ∧ I n r' := by
  suffices hloop : ∀ j i q, i + j = n → I i q → ∃ q', forRange f j i q = .ok () q' ∧ I n q' from
    hloop n 0 r (Nat.zero_add n) h
  intro j
  induction j with
  | zero =>
    rintro i q rfl hq
    exact ⟨q, rfl, hq⟩
  | succ j ih =>
    intro i q hi hq
    obtain ⟨q1, hq1, hI⟩ := hf i q (by omega) hq
    obtain ⟨q', hq', hI'⟩ := ih (i + 1) q1 (by omega) hI
    exact ⟨q', (bind_run_ok hq1).trans hq', hI'⟩

/-- The same for a loop over the sums, counted by their index. -/
theorem forSums_runs {I : Nat → Run → Prop} {f : (l k : Nat) → Cmd Unit} {r : Run} (h : I 0 r)
    (hf : ∀ l k q, l < 8 → k < 3 → I (sumIndex l k) q → ∃ q', f l k q = .ok () q' ∧ I (sumIndex l k + 1) q') :
    ∃ r', forSums f r = .ok () r' ∧ I 24 r' :=
  forRange_runs h fun i q hi hq => by
    have hindex : sumIndex (i / Config.sumCount) (i % Config.sumCount) = i := Nat.div_add_mod i _
    have hround := hf (i / Config.sumCount) (i % Config.sumCount) q
      (by simp only [Config.lanes, Config.sumCount] at *; omega) (by simp only [Config.sumCount]; omega)
    rw [hindex] at hround
    exact hround hq

section Sums

variable {s : State} {l k : Nat}

/-- The state with other counters. -/
def State.withSums (s : State) (v : Vector SumCtr 24) : State := { s with sums := v }

theorem State.sum_congr {x y : State} (h : x.sums = y.sums) (l k : Nat) : x.sum l k = y.sum l k :=
  congrArg (fun w : Vector SumCtr 24 => w[sumIndex l k]?.getD { ne := 0, sl := 0, se := 0 }) h

/-- The run `r` with the counters of the sums below the index changed by `g`. -/
def Updated (g : SumCtr → SumCtr) (r : Run) (i : Nat) (q : Run) : Prop :=
  ∃ v, q = { r with st := r.st.withSums v } ∧ ∀ l k, l < 8 → k < 3 →
    (r.st.withSums v).sum l k = if sumIndex l k < i then g (r.st.sum l k) else r.st.sum l k

/-- A loop that changes the counters of each sum by `g`, and nothing else. -/
theorem forSums_updates {f : (l k : Nat) → Cmd Unit} {g : SumCtr → SumCtr} {r : Run}
    (hf : ∀ l k q, l < 8 → k < 3 → q.st.sum l k = r.st.sum l k →
      f l k q = .ok () { q with st := q.st.setSum l k (g (q.st.sum l k)) }) :
    ∃ v, forSums f r = .ok () { r with st := r.st.withSums v } ∧
      ∀ l k, l < 8 → k < 3 → (r.st.withSums v).sum l k = g (r.st.sum l k) := by
  have hround : ∀ l k q, l < 8 → k < 3 → Updated g r (sumIndex l k) q →
      ∃ q', f l k q = .ok () q' ∧ Updated g r (sumIndex l k + 1) q' := by
    rintro l k q hl hk ⟨v, rfl, hv⟩
    have hself : (r.st.withSums v).sum l k = r.st.sum l k := (hv l k hl hk).trans (if_neg (Nat.lt_irrefl _))
    refine ⟨_, hf l k _ hl hk hself, v.setIfInBounds (sumIndex l k) (g (r.st.sum l k)), ?_, fun l' k' hl' hk' => ?_⟩
    · simp only [hself]
      rfl
    · have hset := State.sum_setSum (r.st.withSums v) (g (r.st.sum l k)) hl hk hk' (l' := l')
      refine hset.trans ?_
      by_cases hsum : l' = l ∧ k' = k
      · obtain ⟨rfl, rfl⟩ := hsum
        rw [if_pos ⟨rfl, rfl⟩, if_pos (Nat.lt_succ_self _)]
      · have hne : sumIndex l' k' ≠ sumIndex l k := fun he => hsum ((sumIndex_inj hk' hk).1 he)
        rw [if_neg hsum, hv l' k' hl' hk']
        exact if_congr (by omega) rfl rfl
  obtain ⟨_, hrun, v, rfl, hv⟩ := forSums_runs (I := Updated g r) (f := f)
    ⟨r.st.sums, rfl, fun l k _ _ => (if_neg (Nat.not_lt_zero _)).symm⟩ hround
  exact ⟨v, hrun, fun l k hl hk => (hv l k hl hk).trans (if_pos (sumIndex_lt hl hk))⟩

/-! ## What a fold leaves of the ends of the buffers (spec R112) -/

/-- Different sums have disjoint buffers (spec R112). -/
theorem sumBuffers_disjoint {l' k' i : Nat} (hk : k < 3) (hk' : k' < 3) (hne : ¬ (l' = l ∧ k' = k))
    (hi : i < s.sumStride.toNat) :
    ¬ (sumAddr s l k ≤ sumAddr s l' k' + i ∧ sumAddr s l' k' + i < sumAddr s l k + s.sumStride.toNat) := by
  have hindex : sumIndex l' k' ≠ sumIndex l k := fun he => hne ((sumIndex_inj hk' hk).1 he)
  rcases Nat.lt_or_gt_of_ne hindex with hlt | hgt
  · have hle := Nat.mul_le_mul_right s.sumStride.toNat hlt
    rw [Nat.succ_mul] at hle
    simp only [sumAddr]
    omega
  · have hle := Nat.mul_le_mul_right s.sumStride.toNat hgt
    rw [Nat.succ_mul] at hle
    simp only [sumAddr]
    omega

/-- What leaving sums open may have made of the state: bytes of the buffers, and, where the sums mean nothing any more, SL. Sums
that mean something keep SL and the bytes below it. -/
structure Left (s x : State) : Prop where
  st : ∃ m v d, x = { s with mem := m, sums := v, draws := d }
  wf : x.mem.wf = true
  outside : ∀ a, ¬ InSums s a → x.mem.read a = s.mem.read a
  counts : ∀ l k, x.count l k = s.count l k
  kept : sumsLoose s = false → x.sums = s.sums ∧ ∀ l k i, l < 8 → k < 3 → i < (s.sum l k).sl.toNat →
    i < s.sumStride.toNat → x.mem.read (sumAddr s l k + i) = s.mem.read (sumAddr s l k + i)

theorem Left.refl (hwf : s.mem.wf = true) : Left s s :=
  ⟨⟨s.mem, s.sums, s.draws, rfl⟩, hwf, fun _ _ => rfl, fun _ _ => rfl, fun _ => ⟨rfl, fun _ _ _ _ _ _ _ => rfl⟩⟩

theorem Left.trans {x y : State} (h : Left s x) (h' : Left x y) : Left s y := by
  have hsums := h.kept
  obtain ⟨m, v, d, rfl⟩ := h.st
  obtain ⟨m', v', d', rfl⟩ := h'.st
  refine ⟨⟨m', v', d', rfl⟩, h'.wf, fun a ha => (h'.outside a ha).trans (h.outside a ha),
    fun l k => (h'.counts l k).trans (h.counts l k), fun hloose => ?_⟩
  obtain ⟨hv, hbytes⟩ := hsums hloose
  obtain ⟨hv', hbytes'⟩ := h'.kept hloose
  have hsum := State.sum_congr (x := { s with mem := m, sums := v, draws := d }) (y := s) hv
  refine ⟨hv'.trans hv, fun l k i hl hk hi hstride => ?_⟩
  exact (hbytes' l k i hl hk (by rwa [hsum]) hstride).trans (hbytes l k i hl hk hi hstride)

/-- Leaving one sum open. -/
theorem leaveSum_left {q : Run} (hl : l < 8) (hk : k < 3) (hwf : q.st.mem.wf = true)
    (hends : q.st.sumBase.toNat + 24 * q.st.sumStride.toNat ≤ Config.addrSpace) :
    ∃ q', leaveSum l k q = .ok () q' ∧ Left q.st q'.st := by
  have hroom := (sumAddr_end (s := q.st) hl hk).trans hends
  have hbase : q.st.sumBase.toNat ≤ sumAddr q.st l k := Nat.le_add_right _ _
  have hend := sumAddr_end (s := q.st) hl hk
  by_cases hloose : sumsLoose q.st = true
  · obtain ⟨q', m, d, hq', hst, hm, hout⟩ := leaveOpen_step (a := sumAddr q.st l k) (n := q.st.sumStride.toNat)
      (r := { q with st := ({ q.st with draws := q.st.draws + 1 } : State).setSum l k { q.st.sum l k with
        sl := BitVec.ofNat 32 ((Config.freeWord q.st.draws).toNat % (q.st.sumStride.toNat + 1)) } }) hwf hroom
    refine ⟨q', (bind_run_ok (getState_run q)).trans <| (congrFun (if_pos hloose) q).trans hq', ?_, ?_, ?_, ?_, ?_⟩
    · exact ⟨m, _, d, hst⟩
    · rw [hst]
      exact hm
    · intro a ha
      rw [hst]
      exact hout a fun hin => ha ⟨by omega, by omega⟩
    · intro l' k'
      rw [hst]
      exact State.count_setLength q.st l k l' k' _
    · intro hnot
      rw [hloose] at hnot
      cases hnot
  · have hloose : sumsLoose q.st = false := by simpa using hloose
    have hrun := leaveSum_run (l := l) (k := k) hloose
    obtain ⟨q', m, d, hq', hst, hm, hout⟩ : ∃ q' m d, leaveSum l k q = .ok () q' ∧
        q'.st = { q.st with mem := m, draws := d } ∧ m.wf = true ∧ ∀ a, ¬ PastSum q.st l k a → m.read a = q.st.mem.read a := by
      by_cases hsl : (q.st.sum l k).sl.toNat ≤ q.st.sumStride.toNat
      · obtain ⟨q', m, d, hq', hst, hm, hout⟩ := leaveOpen_step (a := sumAddr q.st l k + (q.st.sum l k).sl.toNat)
          (n := q.st.sumStride.toNat - (q.st.sum l k).sl.toNat) hwf (by omega)
        exact ⟨q', m, d, hrun.trans hq', hst, hm, fun a ha => hout a fun hin => ha ⟨by omega, by omega⟩⟩
      · rw [Nat.sub_eq_zero_of_le (by omega)] at hrun
        exact ⟨q, q.st.mem, q.st.draws, hrun, rfl, hwf, fun _ _ => rfl⟩
    refine ⟨q', hq', ⟨m, q.st.sums, d, hst⟩, by rw [hst]; exact hm, fun a ha => ?_, fun l' k' => by rw [hst]; rfl,
      fun _ => ⟨by rw [hst], fun l' k' i hl' hk' hi hstride => ?_⟩⟩
    · rw [hst]
      exact hout a fun hin => ha ⟨by have h1 := hin.1; omega, by have h2 := hin.2; omega⟩
    · rw [hst]
      refine hout _ fun hin => ?_
      by_cases hsum : l' = l ∧ k' = k
      · obtain ⟨rfl, rfl⟩ := hsum
        have h1 := hin.1
        omega
      · exact sumBuffers_disjoint hk hk' hsum hstride ⟨by have h1 := hin.1; omega, hin.2⟩

/-- Leaving all sums open. -/
theorem forSums_leaveSum {r : Run} (hwf : r.st.mem.wf = true)
    (hends : r.st.sumBase.toNat + 24 * r.st.sumStride.toNat ≤ Config.addrSpace) :
    ∃ r', forSums leaveSum r = .ok () r' ∧ Left r.st r'.st :=
  forSums_runs (I := fun _ q => Left r.st q.st) (Left.refl hwf) fun l k q hl hk hq => by
    have hends' : q.st.sumBase.toNat + 24 * q.st.sumStride.toNat ≤ Config.addrSpace := by
      obtain ⟨m, v, d, hst⟩ := hq.st
      rw [hst]
      exact hends
    obtain ⟨q', hrun, hleft⟩ := leaveSum_left hl hk hq.wf hends'
    exact ⟨q', hrun, hq.trans hleft⟩

end Sums

/-! ## The window moves (spec R432) -/

section Shift

variable {s : State} {t : Tables}

/-- A sum's counters under the new element indices. -/
def shiftedCtr (delta : Nat) (c : SumCtr) : SumCtr :=
  { c with ne := BitVec.ofInt 32 (c.ne.toInt - delta), se := BitVec.ofInt 32 (c.se.toInt - delta) }

theorem setSum_setSum (x : State) (l k : Nat) (c c' : SumCtr) : (x.setSum l k c).setSum l k c' = x.setSum l k c' := by
  simp [State.setSum]

theorem shiftSum_run {q : Run} {delta l k : Nat} (hl : l < 8) (hk : k < 3) (hne : (delta : Int) ≤ (q.st.sum l k).ne.toInt)
    (hse : (delta : Int) ≤ (q.st.sum l k).se.toInt) :
    shiftSum delta l k q = .ok () { q with st := q.st.setSum l k (shiftedCtr delta (q.st.sum l k)) } := by
  have hne' := BitVec.toInt_lt (x := (q.st.sum l k).ne)
  have hse' := BitVec.toInt_lt (x := (q.st.sum l k).se)
  refine (bind_run_ok (getState_run q)).trans <| (bind_run_ok (setNe_run (by omega) (by omega) q)).trans <|
    (setSe_run (by omega) (by omega) _).trans ?_
  simp only [State.sum_setSum _ _ hl hk hk, if_pos, and_self, setSum_setSum]
  rfl

/-- The state of a WIN_SHIFT whose sum side has come to `x`, with the window registers as the spec writes them. -/
theorem moveWindow_eq (h : ShiftPasses s) {x : State} (hx : windowSide x = windowSide s) :
    moveWindow s x = { x with
      tableTainted := x.tableTainted || rewrittenEarly s s.arg0.toNat
      winColumnStart := s.winColumnStart + s.arg0.setWidth 22
      winFirstElem := s.winFirstElem - s.arg0.setWidth 32
      winCount := s.winCount - s.arg0.setWidth 32
      pending := pendingAfter (noteEarly (rewrittenEarly s s.arg0.toNat) x) s.arg0.toNat
      replaced := if s.arg0.toNat = 0 then x.replaced else []
      copied := shiftCopied s.arg0.toNat x.copied } := by
  have hwindow := moveWindow_window h hx
  simp only [windowSide, Prod.mk.injEq] at hwindow
  obtain ⟨hcolumn, hfirst, hcount⟩ := hwindow
  rw [← hcolumn, ← hfirst, ← hcount]
  rfl

/-- What WIN_SHIFT makes of sums that it has folded: the run `q` is the one after the folds. -/
theorem exec_winShift_of_folds {q : Run} (h : ShiftPasses s) (hvalid : s.sumsValid = true)
    (hends : s.sumBase.toNat + 24 * s.sumStride.toNat ≤ Config.addrSpace)
    (hfolds : forSums (fun l k => fold Config.tables l k s.winCount.toNat) (sumsRun s) = .ok () q) (hwf : q.st.mem.wf = true)
    (hreach : ∀ l k, l < 8 → k < 3 → s.winCount.toNat ≤ (q.st.sum l k).ne.toInt ∧ s.winCount.toNat ≤ (q.st.sum l k).se.toInt)
    (hstart : -2 ^ 30 ≤ s.sumStartElem.toInt) (hcount : s.winCount.toNat ≤ 2 ^ 30) :
    ∃ x v, Left (noteEarly (rewrittenEarly s s.arg0.toNat) q.st) x ∧
      exec .winShift s = .next ((moveWindow s { x with
        sums := v
        sumStartElem := s.sumStartElem - s.arg0.setWidth 32
        folded := shiftFolded s.arg0.toNat x.folded }).finish .success) ∧
      ∀ l k, l < 8 → k < 3 → (x.withSums v).sum l k = shiftedCtr s.arg0.toNat (x.sum l k) := by
  have hdelta : s.arg0.toNat ≤ s.winCount.toNat := h.below.trans h.window
  have hlane : laneErased q.st = laneErased (sumsRun s).st := by
    have hframe := (confined_forSums fun l k => confined_fold Config.tables l k s.winCount.toNat).frame (sumsRun s)
    rwa [hfolds] at hframe
  have hplace : q.st.sumBase = s.sumBase ∧ q.st.sumStride = s.sumStride :=
    ⟨Ignores.eq_of (e := laneErased) (k := State.sumBase) (fun _ => rfl) hlane,
      Ignores.eq_of (e := laneErased) (k := State.sumStride) (fun _ => rfl) hlane⟩
  obtain ⟨q2, hq2, hleft⟩ := forSums_leaveSum
    (r := { q with st := noteEarly (rewrittenEarly s s.arg0.toNat) q.st }) hwf
    (by simp only [noteEarly_sumBase, noteEarly_sumStride, hplace.1, hplace.2]; exact hends)
  have hcounts : ∀ l k, l < 8 → k < 3 →
      (s.arg0.toNat : Int) ≤ (q2.st.sum l k).ne.toInt ∧ (s.arg0.toNat : Int) ≤ (q2.st.sum l k).se.toInt := fun l k hl hk => by
    have hsame : q2.st.count l k = q.st.count l k := hleft.counts l k
    simp only [State.count, Prod.mk.injEq] at hsame
    obtain ⟨hne, hse⟩ := hreach l k hl hk
    omega
  obtain ⟨v, hshift, hv⟩ := forSums_updates (f := shiftSum s.arg0.toNat) (g := shiftedCtr s.arg0.toNat) (r := q2)
    fun l k x hl hk hx => by
      obtain ⟨hne, hse⟩ := hcounts l k hl hk
      exact shiftSum_run hl hk (by rw [hx]; exact hne) (by rw [hx]; exact hse)
  have hstart' : BitVec.ofInt 32 (s.sumStartElem.toInt - s.arg0.toNat) = s.sumStartElem - s.arg0.setWidth 32 := by
    rw [Int.sub_eq_add_neg, BitVec.ofInt_add, BitVec.ofInt_toInt, BitVec.ofInt_neg, BitVec.ofInt_natCast,
      BitVec.ofNat_toNat, BitVec.sub_eq_add_neg]
  have hhigh := BitVec.toInt_lt (x := s.sumStartElem)
  refine ⟨q2.st, v, hleft, exec_of_ok (r := { q2 with st := moveWindow s { q2.st with
        sums := v
        sumStartElem := s.sumStartElem - s.arg0.setWidth 32
        folded := shiftFolded s.arg0.toNat q2.st.folded } }) ?_, hv⟩
  have hwraps : sumsWrap s = false := by
    rw [Bool.eq_false_iff, ne_eq, sumsWrap_iff]
    exact Nat.not_lt.2 hends
  refine (h.run_valid hvalid _).trans ((bind_run_ok (a := ()) (r' := { q2 with st := { q2.st with
    sums := v
    sumStartElem := s.sumStartElem - s.arg0.setWidth 32
    folded := shiftFolded s.arg0.toNat q2.st.folded } }) ?_).trans (modifyState_run _ _))
  refine (bind_run_ok (getState_run _)).trans <| (rejectIf_bind_unmet hwraps _ _ _).trans <|
    (bind_run_ok (beginSums_run _)).trans <| (bind_run_ok hfolds).trans <| (bind_run_ok (modifyState_run _ _)).trans <|
    (bind_run_ok hq2).trans <| (bind_run_ok hshift).trans <|
    (bind_run_ok (s32Value_run ⟨by simp only [start_st]; omega, by simp only [start_st]; omega⟩ _)).trans ?_
  rw [← hstart']
  rfl

end Shift

end Sys2Proof.Machine
end

section
/-! SUPPORT. WIN_SHIFT of sums with nothing left to fold (spec R432). -/

namespace Sys2Proof.Machine

variable {s : State}

/-- The counters of a sum that has been folded as far as the end. -/
def servedCtr (stop : Int) (c : SumCtr) : SumCtr := { c with se := BitVec.ofInt 32 (max c.se.toInt stop) }

/-- Where no element is left below the end, a fold only raises SE. -/
theorem fold_served {q : Run} {t : Tables} {l k : Nat} {stop : Int} (hdone : stop ≤ (q.st.sum l k).ne.toInt) (h0 : 0 ≤ stop)
    (hstop : stop ≤ 2 ^ 30) :
    fold t l k stop q = .ok () { q with st := q.st.setSum l k (servedCtr stop (q.st.sum l k)) } := by
  have hlow := BitVec.le_toInt (q.st.sum l k).se
  have hhigh := BitVec.toInt_lt (x := (q.st.sum l k).se)
  have hrounds : foldRounds (q.st.sum l k).ne.toInt stop = 0 := by
    rw [foldRounds]
    omega
  refine (bind_run_ok (getState_run q)).trans ?_
  rw [hrounds]
  exact (bind_run_ok (a := ()) rfl).trans ((bind_run_ok (getState_run q)).trans (setSe_run (by omega) (by omega) q))

theorem servedCtr_se {stop : Int} {c : SumCtr} (h0 : 0 ≤ stop) (hstop : stop ≤ 2 ^ 30) :
    (servedCtr stop c).se.toInt = max c.se.toInt stop := by
  have hlow := BitVec.le_toInt c.se
  have hhigh := BitVec.toInt_lt (x := c.se)
  exact BitVec.toInt_ofInt_eq_self (by decide) (by omega) (by omega)

theorem shiftedCtr_toInt {delta : Nat} {c : SumCtr} (hne : (delta : Int) ≤ c.ne.toInt) (hse : (delta : Int) ≤ c.se.toInt) :
    (shiftedCtr delta c).ne.toInt = c.ne.toInt - delta ∧ (shiftedCtr delta c).se.toInt = c.se.toInt - delta := by
  have hne' := BitVec.toInt_lt (x := c.ne)
  have hse' := BitVec.toInt_lt (x := c.se)
  exact ⟨BitVec.toInt_ofInt_eq_self (by decide) (by omega) (by omega),
    BitVec.toInt_ofInt_eq_self (by decide) (by omega) (by omega)⟩

/-- The records of a WIN_SHIFT are the ones of a host that keeps the sums' meaning. -/
theorem trusted_records (h : SumsTrusted s) : (sumsRun s).st.sumsTainted = false ∧ (sumsRun s).st.tableTainted = false := by
  rw [sumsRun_st h]
  obtain ⟨-, -, htable, hsums, -⟩ := h
  exact ⟨hsums, htable.2.1⟩

/-- Leaving the ends open moves no counter. -/
theorem Left.toInt {x : State} (h : Left s x) (l k : Nat) :
    (x.sum l k).ne.toInt = (s.sum l k).ne.toInt ∧ (x.sum l k).se.toInt = (s.sum l k).se.toInt := by
  have hcount := h.counts l k
  simpa only [State.count, Prod.mk.injEq] using hcount

/-- The state that WIN_SHIFT of valid sums leaves: the window moved, the sums' counters and folded originals `v` and `f`, the
records of what the host has done `b`, `b'` and `p`, the memory `m`, and `d` free values drawn. -/
def shiftedTo (s : State) (v : Vector SumCtr 24) (f : List Original) (b b' : Bool) (p : List Owed) (m : Memory) (d : Nat) : State :=
  { s with
    winColumnStart := s.winColumnStart + s.arg0.setWidth 22
    winFirstElem := s.winFirstElem - s.arg0.setWidth 32
    winCount := s.winCount - s.arg0.setWidth 32
    sums := v
    sumStartElem := s.sumStartElem - s.arg0.setWidth 32
    folded := f
    sumsTainted := b
    tableTainted := b'
    pending := p
    replaced := if s.arg0.toNat = 0 then s.replaced else []
    copied := shiftCopied s.arg0.toNat s.copied
    mem := m
    draws := d }

/-- The state after the sum side of WIN_SHIFT, before the window moves. -/
def sumsShiftedTo (s : State) (v : Vector SumCtr 24) (f : List Original) (b b' : Bool) (m : Memory) (d : Nat) : State :=
  { s with
    sums := v
    sumStartElem := s.sumStartElem - s.arg0.setWidth 32
    folded := f
    sumsTainted := b
    tableTainted := b'
    pending := []
    mem := m
    draws := d }

/-- The window moves over what the sum side has made of the state. -/
theorem moveWindow_sumsShiftedTo (h : ShiftPasses s) (v : Vector SumCtr 24) (f : List Original) (b b' : Bool) (m : Memory)
    (d : Nat) : ∃ p, moveWindow s (sumsShiftedTo s v f b b' m d) =
      shiftedTo s v f b (b' || rewrittenEarly s s.arg0.toNat) p m d := by
  refine ⟨pendingAfter (noteEarly (rewrittenEarly s s.arg0.toNat) (sumsShiftedTo s v f b b' m d)) s.arg0.toNat, ?_⟩
  rw [moveWindow_eq h]
  · rfl
  · rfl

/-- What folds make of the state that they begin with: counters, folded originals, bytes and free values. -/
def foldedState (s : State) (b b' : Bool) (v : Vector SumCtr 24) (f : List Original) (m : Memory) (d : Nat) : State :=
  { s with sumsTainted := b, tableTainted := b', pending := [], sums := v, folded := f, mem := m, draws := d }

theorem sumsRun_foldedState (s : State) (v : Vector SumCtr 24) : (sumsRun s).st.withSums v =
    foldedState s (sumsRun s).st.sumsTainted (sumsRun s).st.tableTainted v s.folded s.mem s.draws := rfl

/-- The sum side of WIN_SHIFT after folds and ends left open. -/
theorem Left.sumsShiftedTo {x : State} {e b b' : Bool} {v v' : Vector SumCtr 24} {f : List Original} {m : Memory} {d : Nat}
    (h : Left (noteEarly e (foldedState s b b' v f m d)) x) :
    ({ x with
      sums := v'
      sumStartElem := s.sumStartElem - s.arg0.setWidth 32
      folded := shiftFolded s.arg0.toNat x.folded } : State) =
      sumsShiftedTo s v' (shiftFolded s.arg0.toNat f) b (b' || e) x.mem x.draws := by
  obtain ⟨m', v'', d', hx⟩ := h.st
  rw [hx]
  rfl

/-- What WIN_SHIFT answers after folds that have reached WIN_COUNT. -/
theorem exec_winShift_after {q : Run} {b b' : Bool} {v : Vector SumCtr 24} {f : List Original} {m : Memory} {d : Nat}
    (h : ShiftPasses s) (hvalid : s.sumsValid = true)
    (hends : s.sumBase.toNat + 24 * s.sumStride.toNat ≤ Config.addrSpace)
    (hfolds : forSums (fun l k => fold Config.tables l k s.winCount.toNat) (sumsRun s) = .ok () q)
    (hst : q.st = foldedState s b b' v f m d) (hwf : m.wf = true)
    (hreach : ∀ l k, l < 8 → k < 3 →
      s.winCount.toNat ≤ ((s.withSums v).sum l k).ne.toInt ∧ s.winCount.toNat ≤ ((s.withSums v).sum l k).se.toInt)
    (hstart : -2 ^ 30 ≤ s.sumStartElem.toInt) (hcount : s.winCount.toNat ≤ 2 ^ 30) :
    ∃ x v' p, Left (noteEarly (rewrittenEarly s s.arg0.toNat) (foldedState s b b' v f m d)) x ∧
      exec .winShift s = .next ((shiftedTo s v' (shiftFolded s.arg0.toNat f) b
        (b' || rewrittenEarly s s.arg0.toNat) p x.mem x.draws).finish .success) ∧
      ∀ l k, l < 8 → k < 3 → (s.withSums v').sum l k = shiftedCtr s.arg0.toNat (x.sum l k) := by
  obtain ⟨x, v', hleft, hexec, hv'⟩ := exec_winShift_of_folds h hvalid hends hfolds (by rw [hst]; exact hwf)
    (by rw [hst]; exact hreach) hstart hcount
  rw [hst] at hleft
  obtain ⟨p, hp⟩ := moveWindow_sumsShiftedTo h v' (shiftFolded s.arg0.toNat f) b
    (b' || rewrittenEarly s s.arg0.toNat) x.mem x.draws
  refine ⟨x, v', p, hleft, ?_, hv'⟩
  rw [hexec, hleft.sumsShiftedTo, hp, Bool.or_assoc, Bool.or_self]

/-- With every sum folded to WIN_COUNT already, the folds only raise SE. -/
theorem forSums_fold_served (h0 : s.winCount.toNat ≤ 2 ^ 30)
    (hdone : ∀ l, l < 8 → ∀ k, k < 3 → (s.winCount.toNat : Int) ≤ (s.sum l k).ne.toInt) :
    ∃ v, forSums (fun l k => fold Config.tables l k s.winCount.toNat) (sumsRun s) =
        .ok () { sumsRun s with st := (sumsRun s).st.withSums v } ∧
      ∀ l k, l < 8 → k < 3 → (s.withSums v).sum l k = servedCtr s.winCount.toNat (s.sum l k) :=
  forSums_updates fun l k q hl hk hq => fold_served (by rw [hq]; exact hdone l hl k hk) (Int.natCast_nonneg _) (by omega)

/-- Settles O52. With nothing to fold the sums only get their SE; what is left of their ends is open, and then the counters, the
window and the records move. -/
theorem winShiftResult : Obligations.WinShiftResult := by
  intro s
  refine ⟨exec_winShift_badWindow, exec_winShift_badDelta, fun hwindow hlanes hbelow => ?_⟩
  have h : ShiftPasses s := ⟨hwindow, hlanes, hbelow⟩
  refine ⟨fun hvalid => ?_, fun hvalid hwraps => exec_winShift_wraps h hvalid ((sumsWrap_iff s).2 hwraps),
    fun hvalid hends hcount hstart hwf hdone => ?_⟩
  · rw [exec_winShift_invalid h hvalid, moveWindow_eq h (x := recheckTable s) rfl]
    rfl
  obtain ⟨v, hfolds, hv⟩ := forSums_fold_served hcount hdone
  have hserved : ∀ l k, (servedCtr s.winCount.toNat (s.sum l k)).se.toInt = max (s.sum l k).se.toInt s.winCount.toNat :=
    fun l k => servedCtr_se (Int.natCast_nonneg s.winCount.toNat) (by omega)
  obtain ⟨x, v', p, hleft, hexec, hv'⟩ := exec_winShift_after h hvalid hends hfolds (sumsRun_foldedState s v) hwf
    (fun l k hl hk => by
      rw [hv l k hl hk, hserved]
      exact ⟨hdone l hl k hk, le_max_right _ _⟩) hstart hcount
  refine ⟨v', _, (sumsRun s).st.sumsTainted, (sumsRun s).st.tableTainted || rewrittenEarly s s.arg0.toNat, p, x.mem, x.draws,
    hexec, hleft.outside, fun htrusted => ?_, fun l hl k hk => ?_⟩
  · obtain ⟨hb, hb'⟩ := trusted_records htrusted
    rw [hb, hb', Bool.false_or]
    exact ⟨rfl, rfl⟩
  · have hbefore : (noteEarly (rewrittenEarly s s.arg0.toNat) (foldedState s (sumsRun s).st.sumsTainted
      (sumsRun s).st.tableTainted v s.folded s.mem s.draws)).sum l k = servedCtr s.winCount.toNat (s.sum l k) := hv l k hl hk
    obtain ⟨hne, hse⟩ := hleft.toInt l k
    rw [hbefore] at hne hse
    rw [hserved] at hse
    have hreach : (s.winCount.toNat : Int) ≤ (servedCtr s.winCount.toNat (s.sum l k)).ne.toInt := hdone l hl k hk
    have hafter : ({ s with sums := v' } : State).sum l k = shiftedCtr s.arg0.toNat (x.sum l k) := hv' l k hl hk
    obtain ⟨hne', hse'⟩ := shiftedCtr_toInt (delta := s.arg0.toNat) (c := x.sum l k) (by omega) (by omega)
    simp only [hafter]
    refine ⟨hne'.trans (congrArg (· - (s.arg0.toNat : Int)) hne), hse'.trans (congrArg (· - (s.arg0.toNat : Int)) hse),
      fun hb hb' => ?_⟩
    obtain ⟨hsums, hbytes⟩ := hleft.kept (Bool.or_eq_false_iff.2 ⟨hb, hb'⟩)
    have hsl : x.sum l k = servedCtr s.winCount.toNat (s.sum l k) :=
      (State.sum_congr hsums l k).trans hbefore
    refine ⟨(congrArg SumCtr.sl hsl :), fun i hi hstride => hbytes l k i hl hk ?_ hstride⟩
    rw [hbefore]
    exact hi

end Sys2Proof.Machine
end

section
/-! SUPPORT. The folds of a command seen from the state before it: what they read lies outside what they write (spec R420 to R422,
R626). -/

namespace Sys2Proof.Machine

/-! ## States that differ in the command's own bytes alone -/

/-- The state places the table, the originals and the sums where `s` does, and holds `s`'s bytes outside `W`. -/
structure Near (s : State) (W : Nat → Prop) (x : State) : Prop where
  descBase : x.descBase = s.descBase
  column : x.winColumnStart = s.winColumnStart
  params : x.params = s.params
  sumBase : x.sumBase = s.sumBase
  sumStride : x.sumStride = s.sumStride
  outside : ∀ a, ¬ W a → x.mem.read a = s.mem.read a

/-- Element `e`'s descriptor and original lie outside `W`, and the original in the data space. -/
structure Spares (s : State) (W : Nat → Prop) (e : Int) : Prop where
  descriptor : ∀ i, i < 12 → ¬ W ((descAddr s e + i) % Config.addrSpace)
  ends : (descAt s e).1 + (descAt s e).2 ≤ Config.addrSpace
  original : ∀ i, i < (descAt s e).2 → ¬ W ((descAt s e).1 + i)

section Near

variable {s x y : State} {W : Nat → Prop} {e : Int} {l k n b : Nat} {t : Tables}

theorem Near.refl (s : State) (W : Nat → Prop) : Near s W s := ⟨rfl, rfl, rfl, rfl, rfl, fun _ _ => rfl⟩

theorem Near.trans (h : Near s W x) (h' : Near x W y) : Near s W y :=
  ⟨h'.descBase.trans h.descBase, h'.column.trans h.column, h'.params.trans h.params, h'.sumBase.trans h.sumBase,
    h'.sumStride.trans h.sumStride, fun a ha => (h'.outside a ha).trans (h.outside a ha)⟩

theorem Near.sumAddr (h : Near s W x) (l k : Nat) : sumAddr x l k = sumAddr s l k := by
  rw [Machine.sumAddr, Machine.sumAddr, h.sumBase, h.sumStride]

theorem Near.descAddr (h : Near s W x) (e : Int) : descAddr x e = descAddr s e := by
  rw [Machine.descAddr, Machine.descAddr, h.descBase]

theorem Near.weight (h : Near s W x) (t : Tables) (e : Int) (k : Nat) : weight t x e k = weight t s e k := by
  match k with
  | 0 => rfl
  | 1 => simp only [Machine.weight, Machine.column, h.column]
  | _ + 2 => simp only [Machine.weight, Machine.column, h.column, h.params]

/-- An element outside what has changed is described as before. -/
theorem Near.descAt (h : Near s W x) (he : Spares s W e) : descAt x e = descAt s e := by
  have haddr : leAt x.mem (Machine.descAddr s e) 8 = leAt s.mem (Machine.descAddr s e) 8 :=
    leAt_congr fun i hi => h.outside _ (he.descriptor i (by omega))
  have hlen : leAt x.mem (Machine.descAddr s e + 8) 4 = leAt s.mem (Machine.descAddr s e + 8) 4 :=
    leAt_congr fun i hi => by
      rw [Nat.add_assoc]
      exact h.outside _ (he.descriptor (8 + i) (by omega))
  rw [Machine.descAt, h.descAddr, haddr, hlen]
  rfl

theorem Near.read_original (h : Near s W x) (he : Spares s W e) (hb : b < (Machine.descAt s e).2) :
    x.mem.read ((Machine.descAt s e).1 + b) = s.mem.read ((Machine.descAt s e).1 + b) := h.outside _ (he.original b hb)

/-- It is outside still. -/
theorem Near.spares (h : Near s W x) (he : Spares s W e) : Spares x W e := by
  obtain ⟨hdescriptor, hends, horiginal⟩ := he
  have hdesc := h.descAt ⟨hdescriptor, hends, horiginal⟩
  exact ⟨by rw [h.descAddr]; exact hdescriptor, by rw [hdesc]; exact hends, by rw [hdesc]; exact horiginal⟩

/-- And apart from any range of what has changed. -/
theorem Spares.elementApart {dst : Nat} (h : Spares s W e) (hW : ∀ a, dst ≤ a → a < dst + n → W a) : ElementApart s dst n e :=
  ⟨fun i hi hin => h.descriptor i hi (hW _ hin.1 hin.2), h.ends, fun i hi hin => h.original i hi (hW _ hin.1 hin.2)⟩

theorem Near.foldedLength (h : Near s W x) (he : ∀ i : Nat, i < n → Spares s W (e + 8 * i)) :
    foldedLength x n e = foldedLength s n e := by
  induction n generalizing e with
  | zero => rfl
  | succ n ih =>
    obtain ⟨h0, hrest⟩ := strided_cons he
    rw [Machine.foldedLength, Machine.foldedLength, h.descAt h0, ih hrest]

theorem Near.foldedByte (h : Near s W x) (t : Tables) (k b : Nat) (he : ∀ i : Nat, i < n → Spares s W (e + 8 * i)) :
    foldedByte t x k b n e = foldedByte t s k b n e := by
  induction n generalizing e with
  | zero => rfl
  | succ n ih =>
    obtain ⟨h0, hrest⟩ := strided_cons he
    rw [Machine.foldedByte, Machine.foldedByte, h.descAt h0, ih hrest, h.weight, h.params]
    by_cases hb : b < (Machine.descAt s e).2
    · rw [if_pos hb, if_pos hb, h.read_original h0 hb]
    · rw [if_neg hb, if_neg hb]

end Near

/-! ## A sum within the command -/

section SumAt

variable {s x y : State} {W : Nat → Prop} {t : Tables} {l k : Nat} {stop : Int} {c : SumCtr}

/-- Element `e` lies outside `W` and can be folded into a sum. -/
structure Foldable (s : State) (W : Nat → Prop) (e : Int) : Prop extends Spares s W e where
  fits : (descAt s e).2 ≤ s.sumStride.toNat
  low : 0 ≤ e
  high : e < 2 ^ 30

/-- In `x`, sum (l, k) is the one that counters `c` and the bytes of `s` describe, folded to `stop` or, with `done` false, as it
was; and it lies in its buffer. -/
structure SumAt (t : Tables) (s : State) (stop : Int) (l k : Nat) (c : SumCtr) (done : Prop) (x : State) : Prop where
  within : (x.sum l k).sl.toNat ≤ s.sumStride.toNat
  folded : done → FoldedTo t s x.mem (sumAddr s l k) k stop c (x.sum l k)
  kept : ¬ done → x.sum l k = c ∧ ∀ b, b < c.sl.toNat → x.mem.read (sumAddr s l k + b) = s.mem.read (sumAddr s l k + b)

/-- A step that leaves the sum's counters and the bytes below its length leaves the sum. -/
theorem SumAt.step {done done' : Prop} (h : SumAt t s stop l k c done x) (hdone : done' ↔ done) (hsum : y.sum l k = x.sum l k)
    (hbytes : ∀ b, b < (x.sum l k).sl.toNat → b < s.sumStride.toNat →
      y.mem.read (sumAddr s l k + b) = x.mem.read (sumAddr s l k + b)) :
    SumAt t s stop l k c done' y := by
  have hwithin := h.within
  refine ⟨by rw [hsum]; exact hwithin, fun hd => ?_, fun hd => ?_⟩
  · obtain ⟨hne, hse, hsl, hb⟩ := h.folded (hdone.1 hd)
    rw [hsum]
    exact ⟨hne, hse, hsl, fun b hlt => (hbytes b hlt (by omega)).trans (hb b hlt)⟩
  · obtain ⟨hc, hb⟩ := h.kept fun hd' => hd (hdone.2 hd')
    refine ⟨hsum.trans hc, fun b hlt => ?_⟩
    rw [hc] at hbytes hwithin
    exact (hbytes b hlt (by omega)).trans (hb b hlt)

/-- Where memory and counters are as in `s`, no sum has been folded. -/
theorem SumAt.start (hbuffer : c.sl.toNat ≤ s.sumStride.toNat) (hsum : x.sum l k = c)
    (hbytes : ∀ b, b < c.sl.toNat → x.mem.read (sumAddr s l k + b) = s.mem.read (sumAddr s l k + b)) {done : Prop}
    (hdone : ¬ done) : SumAt t s stop l k c done x :=
  ⟨by rw [hsum]; exact hbuffer, fun hd => absurd hd hdone, fun _ => ⟨hsum, hbytes⟩⟩

end SumAt

/-! ## Folding the sums one after the other -/

section FoldSums

variable {s : State} {W : Nat → Prop} {t : Tables} {l k : Nat} {stop : Int} {c : SumCtr} {q : Run}

/-- The state with other memory, counters and folded originals. -/
def Reworked (s x : State) : Prop := ∃ m v f, x = { s with mem := m, sums := v, folded := f }

theorem Reworked.refl (s : State) : Reworked s s := ⟨s.mem, s.sums, s.folded, rfl⟩

theorem Reworked.trans {x y : State} (h : Reworked s x) (h' : Reworked x y) : Reworked s y := by
  obtain ⟨m, v, f, rfl⟩ := h
  obtain ⟨m', v', f', rfl⟩ := h'
  exact ⟨m', v', f', rfl⟩

/-- Reworked in `W`, it places everything as before. -/
theorem Reworked.near {x : State} (h : Reworked s x) (hout : ∀ a, ¬ W a → x.mem.read a = s.mem.read a) : Near s W x := by
  obtain ⟨m, v, f, rfl⟩ := h
  exact ⟨rfl, rfl, rfl, rfl, rfl, hout⟩

theorem FoldStep.reworked {q' : Run} {m : Memory} (h : FoldStep l k q q' m c) : Reworked q.st q'.st := by
  obtain ⟨f, hst⟩ := h.st
  exact ⟨m, _, f, hst⟩

theorem MemStep.reworked {q' : Run} {m : Memory} (h : MemStep q q' m) : Reworked q.st q'.st := ⟨m, _, _, h.st⟩

/-- The other sums keep their counters. -/
theorem FoldStep.sum_other {q' : Run} {m : Memory} {l' k' : Nat} (h : FoldStep l k q q' m c) (hl : l < 8) (hk : k < 3)
    (hk' : k' < 3) (hne : ¬ (l' = l ∧ k' = k)) : q'.st.sum l' k' = q.st.sum l' k' := by
  obtain ⟨f, hst⟩ := h.st
  rw [hst]
  exact (State.sum_setSum q.st c hl hk hk').trans (if_neg hne)

/-- What a run of a command that folds keeps true between its steps: sum (l, k) has been folded where `done l k` says so. -/
structure FoldsAt (t : Tables) (s : State) (W : Nat → Prop) (stop : Int) (c : Nat → Nat → SumCtr) (done : Nat → Nat → Prop)
    (q : Run) : Prop where
  plain : PlainRun q
  near : Near s W q.st
  sums : ∀ l k, l < 8 → k < 3 → SumAt t s stop l k (c l k) (done l k) q.st

/-- One more sum is folded. -/
theorem FoldsAt.fold {c : Nat → Nat → SumCtr} {done : Nat → Nat → Prop} (h : FoldsAt t s W stop c done q) (hl : l < 8) (hk : k < 3)
    (hdone : ¬ done l k) (hstop : stop ≤ 2 ^ 30)
    (hends : s.sumBase.toNat + 24 * s.sumStride.toNat ≤ Config.addrSpace) (hW : ∀ a, InSums s a → W a)
    (he : ∀ e, (c l k).ne.toInt ≤ e → e < stop → Foldable s W e) :
    ∃ q', fold t l k stop q = .ok () q' ∧ FoldsAt t s W stop c (fun l' k' => done l' k' ∨ (l' = l ∧ k' = k)) q' ∧
      Reworked q.st q'.st ∧ q'.area = q.area ∧ (∀ l' k', k' < 3 → ¬ (l' = l ∧ k' = k) → q'.st.sum l' k' = q.st.sum l' k') ∧
      ∀ a, ¬ (sumAddr s l k ≤ a ∧ a < sumAddr s l k + s.sumStride.toNat) → q'.st.mem.read a = q.st.mem.read a := by
  have haddr := h.near.sumAddr l k
  have hstride := h.near.sumStride
  have hend := sumAddr_end (s := s) hl hk
  have hbase : s.sumBase.toNat ≤ sumAddr s l k := Nat.le_add_right _ _
  have hbuffer : ∀ a, sumAddr s l k ≤ a → a < sumAddr s l k + s.sumStride.toNat → W a :=
    fun a h1 h2 => hW a ⟨by omega, by omega⟩
  obtain ⟨hsum, hbytes⟩ := (h.sums l k hl hk).kept hdone
  have hs : SumInBuffer q.st l k :=
    ⟨hl, hk, by rw [haddr, hstride]; omega, by rw [hstride]; exact (h.sums l k hl hk).within⟩
  obtain ⟨q', m, c', hrun, hstep, hm, hfolded, hle, hout⟩ := fold_step t h.plain hs hstop fun e h1 h2 => by
    have hfold := he e (by rw [← hsum]; exact h1) h2
    have hspares := h.near.spares hfold.toSpares
    have hdesc := h.near.descAt hfold.toSpares
    exact ⟨hspares.elementApart (by rw [haddr, hstride]; exact hbuffer), by rw [hdesc, hstride]; exact hfold.fits,
      hfold.low, hfold.high⟩
  rw [haddr, hstride] at hout
  have hmem := hstep.mem
  rw [← hmem] at hout hfolded
  have hfolds : ∀ i : Nat, i < foldRounds (c l k).ne.toInt stop → Spares s W ((c l k).ne.toInt + 8 * i) := fun i hi =>
    (he _ (by omega) (by rw [foldRounds] at hi; omega)).toSpares
  refine ⟨q', hrun, ⟨hstep.plain h.plain hm, ?_, fun l' k' hl' hk' => ?_⟩, hstep.reworked, hstep.area,
    fun l' k' hk' hne => hstep.sum_other hl hk hk' hne, hout⟩
  · exact h.near.trans (hstep.reworked.near fun a ha => hout a fun hin => ha (hbuffer a hin.1 hin.2))
  · by_cases hne : l' = l ∧ k' = k
    · obtain ⟨rfl, rfl⟩ := hne
      have hsum' := hstep.sum hs
      refine ⟨by rw [hsum', ← hstride]; exact hle, fun _ => ?_, fun hnot => absurd (Or.inr ⟨rfl, rfl⟩) hnot⟩
      obtain ⟨hne', hse, hsl, hb⟩ := hfolded
      rw [hsum] at hne' hse hsl hb
      rw [h.near.foldedLength hfolds] at hsl
      rw [hsum']
      refine ⟨hne', hse, hsl, fun b hlt => ?_⟩
      rw [← haddr, hb b hlt, h.near.foldedByte t _ b hfolds, haddr]
      by_cases hold : b < (c l' k').sl.toNat
      · rw [if_pos hold, if_pos hold, hbytes b hold]
      · rw [if_neg hold, if_neg hold]
    · exact (h.sums l' k' hl' hk').step (or_iff_left hne) (hstep.sum_other hl hk hk' hne) fun b _ hb =>
        hout _ (sumBuffers_disjoint hk hk' hne hb)

/-- A step that leaves the sums leaves them folded as far as they were. -/
theorem FoldsAt.step {c : Nat → Nat → SumCtr} {done done' : Nat → Nat → Prop} {q' : Run} (h : FoldsAt t s W stop c done q)
    (hplain : PlainRun q') (hnear : Near q.st W q'.st) (hdone : ∀ l k, l < 8 → k < 3 → (done' l k ↔ done l k))
    (hsum : ∀ l k, l < 8 → k < 3 → q'.st.sum l k = q.st.sum l k ∧ ∀ b, b < (q.st.sum l k).sl.toNat → b < s.sumStride.toNat →
      q'.st.mem.read (sumAddr s l k + b) = q.st.mem.read (sumAddr s l k + b)) : FoldsAt t s W stop c done' q' :=
  ⟨hplain, h.near.trans hnear, fun l k hl hk =>
    (h.sums l k hl hk).step (hdone l k hl hk) (hsum l k hl hk).1 (hsum l k hl hk).2⟩

end FoldSums

end Sys2Proof.Machine
end

section
/-! SUPPORT. WIN_SHIFT folds every sum to WIN_COUNT (spec R422, R432). -/

namespace Sys2Proof.Machine

section Counters

variable {s : State} {t : Tables} {m m' : Memory} {base k : Nat} {stop : Int} {c c' : SumCtr}

/-- Only the bytes below the new length count. -/
theorem FoldedTo.congr (h : FoldedTo t s m base k stop c c') (hm : ∀ b, b < c'.sl.toNat → m'.read (base + b) = m.read (base + b)) :
    FoldedTo t s m' base k stop c c' := by
  obtain ⟨hne, hse, hsl, hb⟩ := h
  exact ⟨hne, hse, hsl, fun b hlt => (hm b hlt).trans (hb b hlt)⟩

/-- A folded sum has reached the end. -/
theorem FoldedTo.reaches (h : FoldedTo t s m base k stop c c') : stop ≤ c'.ne.toInt ∧ stop ≤ c'.se.toInt := by
  obtain ⟨hne, hse, -, -⟩ := h
  refine ⟨?_, by rw [hse]; exact le_max_right _ _⟩
  rw [hne, foldRounds]
  omega

end Counters

section Shift

variable {s : State}

/-- Every element of the window can be folded by a command that writes neither the table nor an original (spec R423, R424). -/
theorem OriginalsFit.foldable {W : Nat → Prop} {e : Int} (hw : OriginalsFit s) (hcount : s.winCount.toNat ≤ 2 ^ 30)
    (hW : ∀ x ∈ descRegion s :: originalRegions s s.winCount.toNat 0, x.1 + x.2 ≤ Config.addrSpace →
      ∀ a, x.1 ≤ a ∧ a < x.1 + x.2 → ¬ W a)
    (hlow : 0 ≤ e) (hhigh : e < s.winCount.toNat) : Foldable s W e := by
  obtain ⟨j, rfl⟩ := Int.eq_ofNat_of_zero_le hlow
  have hj : j < s.winCount.toNat := by omega
  obtain ⟨htable, horiginals⟩ := hw
  obtain ⟨hfits, hends⟩ := horiginals j hj
  have haddr : descAddr s j = s.descBase.toNat + 16 * j := descAddr_eq (by simp only [Config.addrSpace]; omega)
  have hmem : descAt s j ∈ originalRegions s s.winCount.toNat 0 := by
    have := descAt_mem_originalRegions (s := s) (e := 0) hj
    rwa [Nat.zero_add] at this
  refine ⟨⟨fun i hi => ?_, hends, fun i hi => ?_⟩, hfits, hlow, by omega⟩
  · rw [haddr, Nat.mod_eq_of_lt (by simp only [Config.addrSpace]; omega)]
    exact hW (descRegion s) (List.mem_cons_self ..) htable _ ⟨by simp only [descRegion]; omega, by simp only [descRegion]; omega⟩
  · exact hW _ (List.mem_cons_of_mem _ hmem) hends _ ⟨by omega, by omega⟩

/-- The sum buffers are apart from the table and the originals. -/
theorem SumsApart.spares (h : SumsApart s) {x : Region} (hx : x ∈ descRegion s :: originalRegions s s.winCount.toNat 0)
    (hend : x.1 + x.2 ≤ Config.addrSpace) (a : Nat) (ha : x.1 ≤ a ∧ a < x.1 + x.2) : ¬ InSums s a := by
  refine h.outside (x := x) ?_ hend ha
  rcases List.mem_cons.1 hx with rfl | hmem
  · simp [aroundSums]
  · simp [aroundSums, hmem]

/-- WIN_SHIFT's folds: each sum from its NE to WIN_COUNT. -/
theorem shiftFolds (h : SumsTrusted s) (ha : SumsApart s) (hw : OriginalsFit s) (hb : SumsInBuffers s)
    (hcount : s.winCount.toNat ≤ 2 ^ 30) :
    ∃ q, forSums (fun l k => fold Config.tables l k s.winCount.toNat) (sumsRun s) = .ok () q ∧
      FoldsAt Config.tables s (InSums s) s.winCount.toNat s.sum (fun l k => sumIndex l k < 24) q ∧
      Reworked { s with pending := [] } q.st := by
  obtain ⟨hends, -⟩ := id ha
  have hst := sumsRun_st h
  refine forSums_runs (I := fun i q => FoldsAt Config.tables s (InSums s) s.winCount.toNat s.sum (fun l k => sumIndex l k < i) q ∧
    Reworked { s with pending := [] } q.st) ⟨⟨sumsRun_plain h ha, ?_, fun l k hl hk => ?_⟩, ?_⟩ fun l k q hl hk hq => ?_
  · rw [hst]
    exact ⟨rfl, rfl, rfl, rfl, rfl, fun _ _ => rfl⟩
  · rw [hst]
    refine .start (hb l hl k hk).2 ?_ (fun _ _ => ?_) (Nat.not_lt_zero _)
    · rfl
    · rfl
  · rw [hst]
    exact .refl _
  · obtain ⟨hfolds, hshape⟩ := hq
    obtain ⟨q', hrun, hfolds', hreworked, -⟩ := hfolds.fold hl hk (Nat.lt_irrefl _) (by exact_mod_cast hcount) hends
      (fun _ ha => ha) fun e h1 h2 =>
        hw.foldable hcount (fun _ hx hend a h => ha.spares hx hend a h) ((hb l hl k hk).1.trans h1) h2
    refine ⟨q', hrun, hfolds'.step hfolds'.plain (.refl _ _) (fun l' k' _ hk' => ?_) fun _ _ _ _ => ⟨rfl, fun _ _ _ => rfl⟩,
      hshape.trans hreworked⟩
    rw [Nat.lt_succ_iff_lt_or_eq, sumIndex_inj hk' hk]

/-- Settles O53. The folds see the originals as they were, for they write the sum buffers alone; leaving the ends open keeps the
folded bytes, and the counters move with the window. -/
theorem winShiftFolds : Obligations.WinShiftFolds := by
  intro s htrusted hearly hw ha hb hvalid hwindow hlanes hbelow hcount hstart
  have hpasses : ShiftPasses s := ⟨hwindow, hlanes, hbelow⟩
  obtain ⟨q, hrun, hfolds, m, v, f, hst⟩ := shiftFolds htrusted ha hw hb hcount
  have hst : q.st = foldedState s s.sumsTainted s.tableTainted v f m s.draws := hst
  have hfolded : ∀ l k, l < 8 → k < 3 →
      FoldedTo Config.tables s m (sumAddr s l k) k s.winCount.toNat (s.sum l k) ((s.withSums v).sum l k) := fun l k hl hk => by
    have hsum := (hfolds.sums l k hl hk).folded (sumIndex_lt hl hk)
    rw [hst] at hsum
    exact hsum
  have hwithin : ∀ l k, l < 8 → k < 3 → ((s.withSums v).sum l k).sl.toNat ≤ s.sumStride.toNat := fun l k hl hk => by
    have hsum := (hfolds.sums l k hl hk).within
    rw [hst] at hsum
    exact hsum
  obtain ⟨x, v', p, hleft, hexec, hv'⟩ := exec_winShift_after hpasses hvalid ha.1 hrun hst
    (by have hwf := hfolds.plain.wf; rw [hst] at hwf; exact hwf) (fun l k hl hk => (hfolded l k hl hk).reaches) hstart hcount
  obtain ⟨hx, hbytes⟩ := hleft.kept (by
    obtain ⟨-, -, ⟨-, htable, -⟩, hsums, -⟩ := htrusted
    simp [sumsLoose, noteEarly, foldedState, htable, hsums, hearly])
  refine ⟨v', shiftFolded s.arg0.toNat f, p, x.mem, x.draws, ?_, hleft.wf, fun a hout => ?_, fun l hl k hk => ?_⟩
  · rw [hexec, hearly, Bool.or_false]
    rfl
  · refine (hleft.outside a hout).trans ?_
    have hkept := hfolds.near.outside a hout
    rw [hst] at hkept
    exact hkept
  · have hsum : x.sum l k = (s.withSums v).sum l k := State.sum_congr hx l k
    have hafter : ({ s with sums := v' } : State).sum l k = shiftedCtr s.arg0.toNat ((s.withSums v).sum l k) := by
      rw [← hsum]
      exact hv' l k hl hk
    obtain ⟨hne, hse⟩ := (hfolded l k hl hk).reaches
    have hdelta := hbelow.trans hwindow
    obtain ⟨hne', hse'⟩ := shiftedCtr_toInt (delta := s.arg0.toNat) (c := (s.withSums v).sum l k) (by omega) (by omega)
    simp only [hafter]
    exact ⟨_, (hfolded l k hl hk).congr fun b hlt => hbytes l k b hl hk hlt (hlt.trans_le (hwithin l k hl hk)), rfl, hne', hse'⟩

end Shift

end Sys2Proof.Machine
end

section
/-! SUPPORT. The two sides R and P of a Siamese row: what the lane sums and the pairs add to them (spec R493, R494). -/

namespace Sys2Proof.Machine

/-! ## Adding to both sides -/

/-- From `m` to `m'` only the `2 * a` bytes from `base` have changed, and to the first `lp` bytes of the R side, at `base`, and of
the P side, at `base + a`, `f false` and `f true` have been added. -/
structure SidesAdded (m m' : Memory) (base a lp : Nat) (f : Bool → Nat → Byte) : Prop where
  wf : m'.wf = true
  outside : ∀ x, ¬ (base ≤ x ∧ x < base + 2 * a) → m'.read x = m.read x
  r : ∀ b, b < lp → m'.read (base + b) = m.read (base + b) ^^^ f false b
  p : ∀ b, b < lp → m'.read (base + a + b) = m.read (base + a + b) ^^^ f true b

section Sides

variable {m m1 m' m'' : Memory} {base a lp : Nat} {f g : Bool → Nat → Byte}

theorem SidesAdded.refl (hm : m.wf = true) : SidesAdded m m base a lp fun _ _ => 0 :=
  ⟨hm, fun _ _ => rfl, fun _ _ => BitVec.xor_zero.symm, fun _ _ => BitVec.xor_zero.symm⟩

theorem SidesAdded.trans (h : SidesAdded m m' base a lp f) (h' : SidesAdded m' m'' base a lp g) :
    SidesAdded m m'' base a lp fun x b => f x b ^^^ g x b :=
  ⟨h'.wf, fun x hx => (h'.outside x hx).trans (h.outside x hx),
    fun b hb => by rw [h'.r b hb, h.r b hb, BitVec.xor_assoc], fun b hb => by rw [h'.p b hb, h.p b hb, BitVec.xor_assoc]⟩

theorem Rewritten.congr {dst n : Nat} {v w : Nat → Byte} (h : Rewritten m m' dst n v) (hv : ∀ i, i < n → w i = v i) :
    Rewritten m m' dst n w := h.widen le_rfl hv fun _ h1 h2 => absurd h2 (Nat.not_lt.2 h1)

/-- Adding to R and then to P. -/
theorem SidesAdded.of_rewritten (ha : lp ≤ a)
    (h : Rewritten m m1 base lp fun b => m.read (base + b) ^^^ f false b)
    (h' : Rewritten m1 m' (base + a) lp fun b => m1.read (base + a + b) ^^^ f true b) : SidesAdded m m' base a lp f := by
  refine ⟨h'.1, fun x hx => ?_, fun b hb => ?_, fun b hb => ?_⟩
  · rw [h'.read_outside (by omega), h.read_outside (by omega)]
  · rw [h'.read_outside (by omega), h.read_inside hb]
  · rw [h'.read_inside hb, h.read_outside (by omega)]

end Sides

/-! ## The light step (spec R493) -/

/-- Byte `b` of the original of element `e`, as it is added to a side. -/
def originalByte (s : State) (e b : Nat) : Byte := if b < (descAt s e).2 then s.mem.read ((descAt s e).1 + b) else 0

theorem lightByte_succ (s : State) (bSide : Bool) (first u b n : Nat) (g : Pcg) :
    lightByte s bSide first u b (n + 1) g =
      originalByte s (pairElement g bSide first u) b ^^^ lightByte s bSide first u b n g.advance.advance := rfl

theorem pairElement_lt {u : Nat} (hu : 0 < u) (g : Pcg) (bSide : Bool) (first : Nat) : pairElement g bSide first u < first + u :=
  Nat.add_lt_add_left (Nat.mod_lt _ hu) _

section Light

variable {s : State} {W : Nat → Prop} {q : Run} {base a lp first u : Nat}

theorem Near.originalByte {x : State} {e b : Nat} (h : Near s W x) (he : Spares s W e) :
    originalByte x e b = originalByte s e b := by
  rw [Machine.originalByte, Machine.originalByte, h.descAt he]
  by_cases hb : b < (Machine.descAt s e).2
  · rw [if_pos hb, if_pos hb, h.read_original he hb]
  · rw [if_neg hb, if_neg hb]

/-- A step that changes bytes of `W` alone leaves the rest where it is. -/
theorem MemStep.near {q' : Run} {m : Memory} (h : MemStep q q' m) (hout : ∀ x, ¬ W x → m.read x = q.st.mem.read x) :
    Near q.st W q'.st := h.reworked.near fun x hx => by
  rw [h.mem]
  exact hout x hx

/-- The two originals of one pair. -/
theorem addPair_step {f : Bool → Nat} (p : PlainRun q) (hnear : Near s W q.st) (ha : lp ≤ a)
    (hends : base + 2 * a ≤ Config.addrSpace) (hW : ∀ x, base ≤ x → x < base + 2 * a → W x) (he : ∀ x, Spares s W (f x : Nat)) :
    ∃ q1 q' m, addOriginal base lp (f false) (fun x => x) q = .ok () q1 ∧
      addOriginal (base + a) lp (f true) (fun x => x) q1 = .ok () q' ∧
      MemStep q q' m ∧ SidesAdded q.st.mem m base a lp fun x b => originalByte s (f x) b := by
  obtain ⟨q1, m1, hr1, hs1, hm1⟩ := addOriginal_rewrites (f := fun x => x) (dst := base) (lp := lp) p (by omega)
    ((hnear.spares (he false)).elementApart fun x h1 h2 => hW x h1 (by omega))
  have p1 : PlainRun q1 := p.step hs1 hm1.1
  have hnear1 : Near s W q1.st :=
    hnear.trans (hs1.near fun x hx => hm1.read_outside fun hin => hx (hW x hin.1 (by omega)))
  obtain ⟨q2, m2, hr2, hs2, hm2⟩ := addOriginal_rewrites (f := fun x => x) (dst := base + a) (lp := lp) p1 (by omega)
    ((hnear1.spares (he true)).elementApart fun x h1 h2 => hW x (by omega) (by omega))
  refine ⟨q1, q2, m2, hr1, hr2, hs1.trans hs2, .of_rewritten ha (hm1.congr fun b hb => ?_) ?_⟩
  · exact congrArg _ (hnear.originalByte (he false)).symm
  · rw [hs1.mem] at hm2
    refine hm2.congr fun b hb => congrArg _ ?_
    rw [← hs1.mem]
    exact (hnear1.originalByte (he true)).symm

/-- All the pairs: they add to both sides what the originals held before. -/
theorem lightPairs_step {n : Nat} {g : Pcg} (p : PlainRun q) (hnear : Near s W q.st) (ha : lp ≤ a) (hu : 0 < u)
    (hends : base + 2 * a ≤ Config.addrSpace) (hW : ∀ x, base ≤ x → x < base + 2 * a → W x)
    (he : ∀ e : Nat, e < first + u → Spares s W e) :
    ∃ q' m, lightPairs base (base + a) lp first u n g q = .ok () q' ∧ MemStep q q' m ∧
      SidesAdded q.st.mem m base a lp fun x b => lightByte s x first u b n g := by
  induction n generalizing q g with
  | zero => exact ⟨q, q.st.mem, rfl, .refl q, .refl p.wf⟩
  | succ n ih =>
    obtain ⟨q0, q1, m1, hr, hr1, hs1, hm1⟩ := addPair_step (f := fun x => pairElement g x first u) p hnear ha hends hW
      fun x => he _ (pairElement_lt hu g x first)
    obtain ⟨q2, m2, hr2, hs2, hm2⟩ := ih (g := g.advance.advance) (p.step hs1 hm1.wf)
      (hnear.trans (hs1.near fun x hx => hm1.outside x fun hin => hx (hW x hin.1 hin.2)))
    rw [hs1.mem] at hm2
    exact ⟨q2, m2, (bind_run_ok hr).trans ((bind_run_ok hr1).trans hr2), hs1.trans hs2, hm1.trans hm2⟩

end Light

end Sys2Proof.Machine
end

section
/-! SUPPORT. The dense step of a Siamese row: the selected lane sums, folded to the window's end and added to the sides (spec
R493). -/

namespace Sys2Proof.Machine

/-! ## The bytes that the sums add -/

section DenseByte

variable {t x y : State} {op : Nat → BitVec 6} {shift lp l k n b : Nat}

/-- What sum (l, k) adds to a side: its byte, where the opcode's bit selects it for the side. -/
def selectedByte (t : State) (op : Nat → BitVec 6) (shift lp l k b : Nat) : Byte :=
  if (op l).getLsbD (k + shift) && decide (b < min (t.sum l k).sl.toNat lp) then t.mem.read (sumAddr t l k + b) else 0

theorem denseByte_succ (hk : k < 3) : denseByte t op shift lp b (sumIndex l k + 1) =
    selectedByte t op shift lp l k b ^^^ denseByte t op shift lp b (sumIndex l k) := by
  have hlane : sumIndex l k / 3 = l := by simp only [sumIndex, Config.sumCount]; omega
  have hindex : sumIndex l k % 3 = k := by simp only [sumIndex, Config.sumCount]; omega
  rw [denseByte, hlane, hindex]
  rfl

/-- Two states hold the same of sum (l, k): where it is, its counters and the bytes below its length. -/
def SameSum (x y : State) (l k : Nat) : Prop :=
  sumAddr x l k = sumAddr y l k ∧ x.sum l k = y.sum l k ∧
    ∀ b, b < (y.sum l k).sl.toNat → x.mem.read (sumAddr y l k + b) = y.mem.read (sumAddr y l k + b)

theorem SameSum.trans {z : State} (h : SameSum x y l k) (h' : SameSum y z l k) : SameSum x z l k := by
  obtain ⟨haddr, hsum, hbytes⟩ := h
  obtain ⟨haddr', hsum', hbytes'⟩ := h'
  rw [haddr', hsum'] at hbytes
  exact ⟨haddr.trans haddr', hsum.trans hsum', fun b hb => (hbytes b hb).trans (hbytes' b hb)⟩

theorem SameSum.selectedByte (h : SameSum x y l k) : selectedByte x op shift lp l k b = selectedByte y op shift lp l k b := by
  obtain ⟨haddr, hsum, hbytes⟩ := h
  simp only [Machine.selectedByte, haddr, hsum]
  by_cases hb : b < (y.sum l k).sl.toNat
  · rw [hbytes b hb]
  · rw [decide_eq_false (by omega), Bool.and_false]
    rfl

/-- Only the sums counted matter. -/
theorem denseByte_congr (h : ∀ i, i < n → SameSum x y (i / 3) (i % 3)) :
    denseByte x op shift lp b n = denseByte y op shift lp b n := by
  induction n with
  | zero => rfl
  | succ n ih =>
    rw [denseByte, denseByte, ih fun i hi => h i (Nat.lt_succ_of_lt hi)]
    exact congrArg (· ^^^ _) (h n (Nat.lt_succ_self n)).selectedByte

end DenseByte

/-! ## One sum -/

section DenseStep

variable {s : State} {q : Run} {base a lp : Nat}

/-- Adding a sum to one side, or not. -/
theorem addSelected_rewrites (bit : Bool) {dst src n : Nat} (p : PlainRun q) (hn : n ≤ lp) (hd : dst + lp ≤ Config.addrSpace)
    (hs : src + n ≤ Config.addrSpace) (hov : ∀ i, i < n → ¬ (dst ≤ src + i ∧ src + i < dst + n)) :
    ∃ q' m, (if bit then accumulate dst src (fun x => x) n else pure () : Cmd Unit) q = .ok () q' ∧ MemStep q q' m ∧
      Rewritten q.st.mem m dst lp fun b =>
        q.st.mem.read (dst + b) ^^^ if bit && decide (b < n) then q.st.mem.read (src + b) else 0 := by
  cases bit with
  | false => exact ⟨q, _, rfl, .refl q, (Rewritten.refl p.wf).congr fun b _ => BitVec.xor_zero⟩
  | true =>
    have hapart : dst = src ∨ src + n ≤ dst ∨ dst + n ≤ src := by
      by_contra hnot
      by_cases hle : src ≤ dst
      · exact hov (dst - src) (by omega) (by omega)
      · exact hov 0 (by omega) (by omega)
    obtain ⟨q', m, hrun, hstep, hm⟩ := accumulate_rewrites (f := fun x => x) p.quiet p.wf (by omega) hs hapart
      (p.closed_range (by omega)) (p.closed_range hs)
    refine ⟨q', m, hrun, hstep, hm.widen hn (fun b hb => ?_) fun b hb _ => ?_⟩
    · simp only [Bool.true_and, decide_eq_true hb, if_pos]
    · simp only [Bool.true_and, decide_eq_false (Nat.not_lt.2 hb)]
      exact BitVec.xor_zero

/-- A step under a condition, and the program after it. -/
theorem ite_run_ok {c : Prop} [Decidable c] {x : Cmd Unit} {f : Unit → Cmd Unit} {r r' : Run}
    (h : (if c then x else pure () : Cmd Unit) r = .ok () r') : (if c then x >>= f else f () : Cmd Unit) r = f () r' := by
  by_cases hc : c
  · rw [if_pos hc] at h ⊢
    exact bind_run_ok h
  · rw [if_neg hc] at h ⊢
    cases h
    rfl

/-- Where a Siamese row of `2 * a` scratch bytes from `base` writes: its scratch and the sum buffers. -/
def RowBytes (s : State) (base a x : Nat) : Prop := InSums s x ∨ (base ≤ x ∧ x < base + 2 * a)

/-- The row's buffers lie in the data space, apart from each other and from the table and the originals of the window. -/
structure RowPlace (s : State) (base a lp : Nat) : Prop where
  longest : lp ≤ a
  ends : base + 2 * a ≤ Config.addrSpace
  sums_end : s.sumBase.toNat + 24 * s.sumStride.toNat ≤ Config.addrSpace
  apart : ∀ x, InSums s x → ¬ (base ≤ x ∧ x < base + 2 * a)
  foldable : ∀ e : Int, 0 ≤ e → e < s.winCount.toNat → Foldable s (RowBytes s base a) e
  count : s.winCount.toNat ≤ 2 ^ 30

/-- The side's part of an opcode (spec R493): bits 0 to 2 select for R, 3 to 5 for P. -/
def sideShift (pSide : Bool) : Nat := if pSide then 3 else 0

/-- What the row keeps true between the sums: those selected with an index below `i` have been folded and added to the sides. -/
structure DenseAt (s : State) (base a lp : Nat) (op : Nat → BitVec 6) (c : Nat → Nat → SumCtr) (i : Nat) (q : Run) : Prop where
  folds : FoldsAt Config.tables s (RowBytes s base a) s.winCount.toNat c (fun l k => Selects (op l) k = true ∧ sumIndex l k < i) q
  r : ∀ b, b < lp → q.st.mem.read (base + b) = denseByte q.st op (sideShift false) lp b i
  p : ∀ b, b < lp → q.st.mem.read (base + a + b) = denseByte q.st op (sideShift true) lp b i

/-- Adding a sum to the sides that select it. -/
theorem addToSides_step {op : BitVec 6} {src n k : Nat} (p : PlainRun q) (hn : n ≤ lp) (ha : lp ≤ a)
    (hends : base + 2 * a ≤ Config.addrSpace) (hs : src + n ≤ Config.addrSpace)
    (hov : ∀ i, i < n → ¬ (base ≤ src + i ∧ src + i < base + 2 * a)) :
    ∃ q1 q' m, (if op.getLsbD k then accumulate base src (fun x => x) n else pure () : Cmd Unit) q = .ok () q1 ∧
      (if op.getLsbD (k + 3) then accumulate (base + a) src (fun x => x) n else pure () : Cmd Unit) q1 = .ok () q' ∧
      MemStep q q' m ∧ SidesAdded q.st.mem m base a lp fun x b =>
        if op.getLsbD (k + sideShift x) && decide (b < n) then q.st.mem.read (src + b) else 0 := by
  obtain ⟨q1, m1, hr1, hs1, hm1⟩ := addSelected_rewrites (op.getLsbD k) (dst := base) p hn (by omega) hs
    fun i hi hin => hov i hi (by omega)
  obtain ⟨q2, m2, hr2, hs2, hm2⟩ := addSelected_rewrites (op.getLsbD (k + 3)) (dst := base + a) (p.step hs1 hm1.1) hn (by omega) hs
    fun i hi hin => hov i hi (by omega)
  rw [hs1.mem] at hm2
  refine ⟨q1, q2, m2, hr1, hr2, hs1.trans hs2, .of_rewritten ha hm1 (hm2.congr fun b hb => congrArg _ ?_)⟩
  by_cases hlt : b < n
  · have hread : m1.read (src + b) = q.st.mem.read (src + b) := hm1.read_outside fun hin => hov b hlt (by omega)
    rw [hread]
    rfl
  · simp only [decide_eq_false hlt, Bool.and_false]
    rfl

/-- Bytes of a sum's buffer are not scratch. -/
theorem RowPlace.sum_outside (h : RowPlace s base a lp) {l k b : Nat} (hl : l < 8) (hk : k < 3) (hb : b < s.sumStride.toNat) :
    ¬ (base ≤ sumAddr s l k + b ∧ sumAddr s l k + b < base + 2 * a) := by
  have hend := sumAddr_end (s := s) hl hk
  have hbase : s.sumBase.toNat ≤ sumAddr s l k := Nat.le_add_right _ _
  exact h.apart _ ⟨by omega, by omega⟩

/-- A step that changes scratch alone leaves what is known of the sums. -/
theorem FoldsAt.scratch {c : Nat → Nat → SumCtr} {done done' : Nat → Nat → Prop} {q' : Run} {m : Memory} {t : Tables} {stop : Int}
    (h : FoldsAt t s (RowBytes s base a) stop c done q) (hplace : RowPlace s base a lp) (hs : MemStep q q' m) (hwf : m.wf = true)
    (hout : ∀ x, ¬ (base ≤ x ∧ x < base + 2 * a) → m.read x = q.st.mem.read x)
    (hdone : ∀ l k, l < 8 → k < 3 → (done' l k ↔ done l k)) : FoldsAt t s (RowBytes s base a) stop c done' q' :=
  h.step (h.plain.step hs hwf) (hs.near fun x hx => hout x fun hin => hx (Or.inr hin)) hdone fun l k hl hk =>
    ⟨by rw [hs.st]; rfl, fun b _ hb => by rw [hs.mem]; exact hout _ (hplace.sum_outside hl hk hb)⟩

/-- The sums as they were, seen after a step that changes scratch alone. -/
theorem FoldsAt.sameSum {c : Nat → Nat → SumCtr} {done : Nat → Nat → Prop} {q' : Run} {m : Memory} {t : Tables} {stop : Int}
    (h : FoldsAt t s (RowBytes s base a) stop c done q) (hplace : RowPlace s base a lp) (hs : MemStep q q' m)
    (hout : ∀ x, ¬ (base ≤ x ∧ x < base + 2 * a) → m.read x = q.st.mem.read x) (l k : Nat) (hl : l < 8) (hk : k < 3) :
    SameSum q'.st q.st l k := by
  refine ⟨by rw [hs.st]; rfl, by rw [hs.st]; rfl, fun b hb => ?_⟩
  rw [hs.mem, h.near.sumAddr]
  exact hout _ (hplace.sum_outside hl hk (hb.trans_le (h.sums l k hl hk).within))

/-- The dense step of one sum that the opcode does not select. -/
theorem DenseAt.skip {op : Nat → BitVec 6} {c : Nat → Nat → SumCtr} {l k : Nat} (h : DenseAt s base a lp op c (sumIndex l k) q)
    (hk : k < 3) (hselects : ¬ Selects (op l) k = true) : DenseAt s base a lp op c (sumIndex l k + 1) q := by
  have hbits : (op l).getLsbD k = false ∧ (op l).getLsbD (k + 3) = false := by
    simpa [Selects] using hselects
  have hnothing : ∀ x b, selectedByte q.st op (sideShift x) lp l k b = 0 := fun x b => by
    cases x <;> simp [selectedByte, sideShift, hbits]
  refine ⟨h.folds.step h.folds.plain (.refl _ _) (fun l' k' _ hk' => ?_) fun _ _ _ _ => ⟨rfl, fun _ _ _ => rfl⟩,
    fun b hb => ?_, fun b hb => ?_⟩
  · rw [Nat.lt_succ_iff_lt_or_eq, sumIndex_inj hk' hk]
    refine and_congr_right fun hsel => or_iff_left ?_
    rintro ⟨rfl, rfl⟩
    exact hselects hsel
  · rw [denseByte_succ hk, hnothing, h.r b hb]
    exact BitVec.zero_xor.symm
  · rw [denseByte_succ hk, hnothing, h.p b hb]
    exact BitVec.zero_xor.symm

/-- The dense step of one sum that the opcode selects. -/
theorem DenseAt.add {op : Nat → BitVec 6} {c : Nat → Nat → SumCtr} {l k : Nat} (h : DenseAt s base a lp op c (sumIndex l k) q)
    (hplace : RowPlace s base a lp) (hl : l < 8) (hk : k < 3) (hselects : Selects (op l) k = true) (hc : 0 ≤ (c l k).ne.toInt) :
    ∃ q', denseSum Config.tables (op l) base (base + a) lp s.winCount.toNat l k q = .ok () q' ∧
      DenseAt s base a lp op c (sumIndex l k + 1) q' ∧ Reworked q.st q'.st := by
  have hcount := hplace.count
  obtain ⟨q1, hrun, hfolds, hreworked, -, hother, hout⟩ := h.folds.fold hl hk (fun hd => Nat.lt_irrefl _ hd.2)
    (by exact_mod_cast hcount) hplace.sums_end (fun _ hx => Or.inl hx) fun e h1 h2 => hplace.foldable e (hc.trans h1) h2
  have hwithin := (hfolds.sums l k hl hk).within
  have hend := sumAddr_end (s := s) hl hk
  have hsums := hplace.sums_end
  have haddr := hfolds.near.sumAddr l k
  obtain ⟨q2, q3, m, hr2, hr3, hs, hm⟩ := addToSides_step (op := op l) (k := k) (src := sumAddr q1.st l k)
    (n := min (q1.st.sum l k).sl.toNat lp) hfolds.plain (Nat.min_le_right _ _) hplace.longest hplace.ends
    (by rw [haddr]; omega) fun i hi => by rw [haddr]; exact hplace.sum_outside hl hk (by omega)
  have hkeep := hfolds.sameSum hplace hs hm.outside
  have hselected : ∀ x b, selectedByte q3.st op (sideShift x) lp l k b =
      if (op l).getLsbD (k + sideShift x) && decide (b < min (q1.st.sum l k).sl.toNat lp) then
        q1.st.mem.read (sumAddr q1.st l k + b) else 0 := fun x b => (hkeep l k hl hk).selectedByte
  have hbefore : ∀ x b, denseByte q3.st op (sideShift x) lp b (sumIndex l k) = denseByte q.st op (sideShift x) lp b (sumIndex l k) :=
    fun x b => denseByte_congr fun i hi => by
      have hlast := sumIndex_lt hl hk
      have hk' : i % 3 < 3 := Nat.mod_lt _ (by decide)
      have hne : ¬ (i / 3 = l ∧ i % 3 = k) := by
        simp only [sumIndex, Config.sumCount] at hi
        omega
      refine (hkeep _ _ (by omega) hk').trans ⟨?_, hother _ _ hk' hne, fun b hb => ?_⟩
      · rw [hfolds.near.sumAddr, h.folds.near.sumAddr]
      · rw [h.folds.near.sumAddr]
        exact hout _ (sumBuffers_disjoint hk hk' hne (hb.trans_le (h.folds.sums _ _ (by omega) hk').within))
  have hside : ∀ b, b < 2 * a → q1.st.mem.read (base + b) = q.st.mem.read (base + b) := fun b hb =>
    hout _ fun hin => hplace.apart (base + b)
      ⟨(Nat.le_add_right _ _).trans hin.1, hin.2.trans_le hend⟩ ⟨by omega, by omega⟩
  have hlongest := hplace.longest
  refine ⟨q3, (congrFun (if_pos hselects) q).trans <| (bind_run_ok hrun).trans <| (bind_run_ok (getState_run _)).trans <|
      (ite_run_ok hr2).trans hr3,
    ⟨hfolds.scratch hplace hs hm.wf hm.outside fun l' k' _ hk' => ?_, fun b hb => ?_, fun b hb => ?_⟩,
    hreworked.trans hs.reworked⟩
  · rw [Nat.lt_succ_iff_lt_or_eq, sumIndex_inj hk' hk, and_or_left]
    refine or_congr_right ⟨And.right, ?_⟩
    rintro ⟨rfl, rfl⟩
    exact ⟨hselects, rfl, rfl⟩
  · rw [denseByte_succ hk, hselected, hbefore, hs.mem, hm.r b hb, hside b (by omega), h.r b hb, BitVec.xor_comm]
  · rw [denseByte_succ hk, hselected, hbefore, hs.mem, hm.p b hb, Nat.add_assoc, hside (a + b) (by omega), ← Nat.add_assoc,
      h.p b hb, BitVec.xor_comm]

/-- The dense step of the row. -/
theorem forSums_denseSum {op : Nat → BitVec 6} {c : Nat → Nat → SumCtr} (h : DenseAt s base a lp op c 0 q)
    (hplace : RowPlace s base a lp) (hc : ∀ l k, l < 8 → k < 3 → 0 ≤ (c l k).ne.toInt) :
    ∃ q', forSums (fun l k => denseSum Config.tables (op l) base (base + a) lp s.winCount.toNat l k) q = .ok () q' ∧
      DenseAt s base a lp op c 24 q' ∧ Reworked q.st q'.st := by
  refine forSums_runs (I := fun i x => DenseAt s base a lp op c i x ∧ Reworked q.st x.st) ⟨h, .refl _⟩ ?_
  rintro l k x hl hk ⟨hdense, hshape⟩
  by_cases hselects : Selects (op l) k = true
  · obtain ⟨q', hrun, hdense', hreworked⟩ := hdense.add hplace hl hk hselects (hc l k hl hk)
    exact ⟨q', hrun, hdense', hshape.trans hreworked⟩
  · exact ⟨x, congrFun (if_neg hselects) x, hdense.skip hk hselects, hshape⟩

end DenseStep

/-! ## The data of the row (spec R493) -/

section Data

variable {s : State} {q : Run} {base a lp : Nat} {row : BitVec 32}

/-- Byte `b` of one side of a row before the sides are combined, the sums being as `t` holds them. -/
def sideByte (s t : State) (lp u : Nat) (row : BitVec 32) (pSide : Bool) (b : Nat) : Byte :=
  denseByte t (fun l => Config.rowOpcode (BitVec.ofNat 3 l) row) (sideShift pSide) lp b 24 ^^^
    lightByte s pSide s.winFirstElem.toNat u b (ceilDiv u s.params.pairAddRate) (pcgSeed row.toNat u)

/-- The sums are `t`'s for `denseByte` when each sum is. -/
theorem sideByte_congr {x y : State} {u b : Nat} {pSide : Bool} (h : ∀ l k, l < 8 → k < 3 → SameSum x y l k) :
    sideByte s x lp u row pSide b = sideByte s y lp u row pSide b :=
  congrArg (· ^^^ _) (denseByte_congr fun i hi => h _ _ (by omega) (Nat.mod_lt _ (by decide)))

/-- The dense, light and combine steps over cleared sides. -/
theorem siameseData_step {c : Nat → Nat → SumCtr} {u : Nat}
    (h : DenseAt s base a lp (fun l => Config.rowOpcode (BitVec.ofNat 3 l) row) c 0 q) (hplace : RowPlace s base a lp)
    (hc : ∀ l k, l < 8 → k < 3 → 0 ≤ (c l k).ne.toInt) (hu : 0 < u) (hcount : s.winFirstElem.toNat + u = s.winCount.toNat)
    (hlegal : q.st.params = s.params) :
    ∃ q', siameseData Config.tables row base (base + a) lp s.winFirstElem.toNat s.winCount.toNat q = .ok () q' ∧
      FoldsAt Config.tables s (RowBytes s base a) s.winCount.toNat c
        (fun l k => Selects (Config.rowOpcode (BitVec.ofNat 3 l) row) k = true) q' ∧
      Reworked q.st q'.st ∧
      ∀ b, b < lp → q'.st.mem.read (base + b) = sideByte s q'.st lp u row false b ^^^
        gfMul s.params (Config.rowValue row) (sideByte s q'.st lp u row true b) := by
  obtain rfl : u = s.winCount.toNat - s.winFirstElem.toNat := by omega
  have hlongest := hplace.longest
  have hends := hplace.ends
  obtain ⟨q1, hr1, hdense, hw1⟩ := forSums_denseSum h hplace hc
  obtain ⟨q2, m2, hr2, hs2, hm2⟩ := lightPairs_step (n := ceilDiv (s.winCount.toNat - s.winFirstElem.toNat) s.params.pairAddRate)
    (g := pcgSeed row.toNat (s.winCount.toNat - s.winFirstElem.toNat)) (first := s.winFirstElem.toNat) hdense.folds.plain
    hdense.folds.near hplace.longest hu hplace.ends (fun x h1 h2 => Or.inr ⟨h1, h2⟩) fun e he =>
      (hplace.foldable e (Int.natCast_nonneg e) (by omega)).toSpares
  have hfolds2 := hdense.folds.scratch hplace hs2 hm2.wf hm2.outside fun _ _ _ _ => Iff.rfl
  have hkeep2 := hdense.folds.sameSum hplace hs2 hm2.outside
  obtain ⟨q3, m3, hr3, hs3, hm3⟩ := accumulate_rewrites (dst := base) (src := base + a) (n := lp)
    (f := gfMul s.params (Config.rowValue row)) hfolds2.plain.quiet hfolds2.plain.wf (by omega) (by omega) (Or.inr (Or.inr (by omega)))
    (hfolds2.plain.closed_range (by omega)) (hfolds2.plain.closed_range (by omega))
  have hout3 : ∀ x, ¬ (base ≤ x ∧ x < base + 2 * a) → m3.read x = q2.st.mem.read x := fun x hx =>
    hm3.read_outside fun hin => hx ⟨hin.1, by omega⟩
  have hkeep3 := hfolds2.sameSum hplace hs3 hout3
  have hsides : ∀ x b, sideByte s q3.st lp (s.winCount.toNat - s.winFirstElem.toNat) row x b =
      sideByte s q1.st lp (s.winCount.toNat - s.winFirstElem.toNat) row x b := fun x b =>
    sideByte_congr fun l k hl hk => (hkeep3 l k hl hk).trans (hkeep2 l k hl hk)
  refine ⟨q3, ?_, hfolds2.scratch hplace hs3 hm3.1 hout3 fun l k hl hk => (and_iff_left (sumIndex_lt hl hk)).symm,
    (hw1.trans hs2.reworked).trans hs3.reworked, fun b hb => ?_⟩
  · refine (bind_run_ok (getState_run q)).trans <| (bind_run_ok hr1).trans ?_
    rw [hlegal]
    exact (bind_run_ok hr2).trans hr3
  · rw [hsides, hsides, hs3.mem, hm3.read_inside hb, hs2.mem, hm2.r b hb, hm2.p b hb, hdense.r b hb, hdense.p b hb]
    rfl

end Data

end Sys2Proof.Machine
end

section
/-! SUPPORT. The row of a window of more than CAUCHY_THRESHOLD elements: its checks, where its sums begin, and what it leaves (spec
R493 to R495). -/

namespace Sys2Proof.Machine

/-! ## Where the sums begin -/

section Begin

variable {s : State}

/-- Some sum has come past the window's end. -/
theorem any_sum_iff {c : Int} :
    (s.sums.toList.any fun x => decide (x.se.toInt > c)) = true ↔ ∃ l k, l < 8 ∧ k < 3 ∧ c < (s.sum l k).se.toInt := by
  simp only [List.any_eq_true, Vector.mem_toList_iff, decide_eq_true_eq]
  constructor
  · rintro ⟨x, hx, hc⟩
    obtain ⟨i, hi, rfl⟩ := Vector.mem_iff_getElem.1 hx
    have hindex : sumIndex (i / 3) (i % 3) = i := Nat.div_add_mod i 3
    refine ⟨i / 3, i % 3, by omega, Nat.mod_lt _ (by decide), ?_⟩
    rw [State.sum, hindex]
    simpa [hi] using hc
  · rintro ⟨l, k, hl, hk, hc⟩
    have hlt := sumIndex_lt hl hk
    rw [State.sum] at hc
    simp only [hlt, Vector.getElem?_eq_getElem, Option.getD_some] at hc
    exact ⟨_, Vector.getElem_mem hlt, hc⟩

/-- The reset condition of R493. -/
theorem sumsStale_iff : sumsStale s = true ↔ s.sumsValid = false ∨ (s.winCount.toNat : Int) - s.sumStartElem.toInt ≤ 0 ∨
    (s.winCount.toNat : Int) - s.sumStartElem.toInt > s.params.sumResetThreshold ∨
    ∃ l k, l < 8 ∧ k < 3 ∧ (s.winCount.toNat : Int) < (s.sum l k).se.toInt := by
  rw [← any_sum_iff]
  simp only [sumsStale, Bool.or_eq_true, Bool.not_eq_true', decide_eq_true_eq, or_assoc]

/-- The state in which the sums of a row begin at `start` with the counters `v`. -/
def begunState (s : State) (start : BitVec 32) (v : Vector SumCtr 24) (f : List Original) : State :=
  { s with pending := [], sumsValid := true, sumStartElem := start, sums := v, folded := f, sumsTainted := false }

/-- Stale sums start again at the window. -/
theorem refreshedSums_stale (htable : TableTrusted s) (hstale : sumsStale s = true) :
    refreshedSums s = begunState s s.winFirstElem (sumsResetTo s s.winFirstElem.toNat).sums [] := by
  have hstale' : sumsStale (recheckTable s) = true := hstale
  have hfirst : BitVec.ofNat 32 s.winFirstElem.toNat = s.winFirstElem := by simp
  rw [refreshedSums, if_pos hstale', recheckTable_of_trusted htable]
  simp only [sumsResetTo, hfirst]
  rfl

/-- Others go on. -/
theorem refreshedSums_fresh (h : SumsTrusted s) (hstale : ¬ sumsStale s = true) :
    refreshedSums s = begunState s s.sumStartElem s.sums s.folded := by
  have hstale' : ¬ sumsStale (recheckTable s) = true := hstale
  have hvalid : s.sumsValid = true := by
    by_contra hnot
    exact hstale (sumsStale_iff.2 (Or.inl (by simpa using hnot)))
  have hst : recheckFolded (recheckTable s) = { s with pending := [] } := sumsRun_st h
  obtain ⟨-, -, -, htainted, -⟩ := h
  rw [refreshedSums, if_neg hstale', hst, begunState, ← hvalid, ← htainted]

end Begin

/-! ## The checks (spec R495) -/

section Checks

variable {s : State} {u : Nat}

theorem le_align16 (n : Nat) : n ≤ align16 n := by
  rw [align16, ceilDiv]
  omega

theorem align16_le (n : Nat) : align16 n ≤ n + 15 := by
  rw [align16, ceilDiv]
  omega

/-- ROW_ENCODE of a window of more than CAUCHY_THRESHOLD elements whose buffers have room passes every check. -/
theorem rowEncodeBody_siameseBranch (t : Tables) (hu : WindowHolds s u) (hlegal : s.params.Legal)
    (hthreshold : s.params.cauchyThreshold < u) (hlp : s.winLongest.toNat ≤ 2 ^ 30)
    (ha : ScratchApart s (2 * align16 s.winLongest.toNat)) (hsums : SumsApart s) :
    rowEncodeBody t (Run.start s) = siameseBranch t (Run.start s) := by
  obtain ⟨hcount, hmax⟩ := hu
  obtain ⟨hcap, hroom, -⟩ := ha
  obtain ⟨hends, -⟩ := hsums
  obtain ⟨-, -, -, -, -, -, hmin, -, -, -, -, -, -, -, hgf, -, -, hfooter, -⟩ := hlegal
  have hwindow : ¬ (s.winFirstElem.toNat > s.winCount.toNat ∨ s.winCount.toNat > s.params.elemMax) := by omega
  have hempty : ¬ s.winCount.toNat - s.winFirstElem.toNat = 0 := by omega
  have hsingle : ¬ s.winCount.toNat - s.winFirstElem.toNat = 1 := by omega
  have hlongest : ¬ s.winLongest.toNat > s.params.maxGfLen := by omega
  have hcauchy : ¬ s.winCount.toNat - s.winFirstElem.toNat ≤ s.params.cauchyThreshold := by omega
  have hscratch : ¬ s.recCap.toNat < 2 * align16 s.winLongest.toNat + s.params.footerMax := by omega
  have hwraps : ¬ s.recBase.toNat + (2 * align16 s.winLongest.toNat + s.params.footerMax) > Config.addrSpace := by
    simp only [Config.addrSpace]
    omega
  have hsums : sumsWrap s = false := by
    rw [Bool.eq_false_iff, ne_eq, sumsWrap_iff]
    exact Nat.not_lt.2 hends
  calc rowEncodeBody t (Run.start s)
    _ = _ := (bind_run_ok (getState_run _)).trans (bind_run_ok (rejectIf_unmet hwindow _ _))
    _ = _ := (congrFun (if_neg hempty) _).trans (congrFun (if_neg hsingle) _)
    _ = _ := (bind_run_ok (rejectIf_unmet hlongest _ _)).trans (congrFun (if_neg hcauchy) _)
    _ = _ := (bind_run_ok (rejectIf_unmet hscratch _ _)).trans (bind_run_ok (rejectIf_unmet hwraps _ _))
    _ = siameseBranch t (Run.start s) := rejectIf_bind_unmet hsums _ _ _

end Checks

/-! ## The row's buffers (spec R112, R113, R626) -/

section Place

variable {s x : State} {start : BitVec 32} {v : Vector SumCtr 24} {f : List Original} {a : Nat}

/-- The state in which the row's data steps begin: the row counter has gone on. -/
def rowState (s : State) (start : BitVec 32) (v : Vector SumCtr 24) (f : List Original) : State :=
  { begunState s start v f with nextRow := BitVec.ofNat 32 ((s.nextRow.toNat + 1) % s.params.rowPeriod) }

theorem originalRegions_rowState (n e : Nat) : originalRegions (rowState s start v f) n e = originalRegions s n e := by
  induction n generalizing e with
  | zero => rfl
  | succ n ih => exact congrArg (descAt s e :: ·) (ih (e + 1))

/-- Sums that mean something, and lie apart from the other structures, have no open byte. -/
theorem sumsArea_apart (h : SumsApart s) (hloose : sumsLoose s = false) (ha : a < Config.addrSpace) : sumsArea s a = false := by
  obtain ⟨hends, hfree⟩ := h
  rw [sumsArea, hloose, Bool.false_or, Bool.and_eq_false_iff, or_iff_not_imp_left, Bool.not_eq_false,
    inRegion_iff (by simp only [sumRegion, Config.lanes, Config.sumCount, Config.addrSpace]; omega) ha]
  intro hin
  simp only [sumRegion, Config.lanes, Config.sumCount] at hin
  have hb := hfree (a - s.sumBase.toNat) (by omega)
  rwa [Nat.add_sub_cancel' hin.1] at hb

theorem SumsApart.rowState (h : SumsApart s) : SumsApart (rowState s start v f) := by
  obtain ⟨hends, hfree⟩ := h
  refine ⟨hends, fun b hb => ?_⟩
  rw [aroundSums, originalRegions_rowState]
  exact hfree b hb

theorem ScratchApart.rowState {n : Nat} (h : ScratchApart s n) : ScratchApart (rowState s start v f) n := by
  obtain ⟨hcap, hroom, hfree⟩ := h
  refine ⟨hcap, hroom, fun b hb => ?_⟩
  rw [aroundScratch, originalRegions_rowState]
  exact hfree b hb

/-- The run of a row from state `x` before its first access. -/
def rowBegins (x : State) (n : Nat) : Run :=
  { Run.start x with area := fun a => sumsArea x a || rowArea x (sumsLoose x) n a }

/-- It is a run over plain memory. -/
theorem rowBegins_plain {n : Nat} (hwf : s.mem.wf = true) (hport : s.port = []) (htable : TableTrusted s) (hsums : SumsApart s)
    (ha : ScratchApart s n) : PlainRun (rowBegins (rowState s start v f) n) := by
  obtain ⟨hraced, hkept, -⟩ := htable
  have hloose : sumsLoose (rowState s start v f) = false := hkept
  refine ⟨⟨hraced, rfl⟩, hwf, hkept, fun a hlt => ⟨?_, ?_⟩⟩
  · simp [rowBegins, rowState, begunState, PlainAt, hport]
  · simp only [rowBegins, hloose, sumsArea_apart hsums.rowState hloose hlt, rowArea_apart ha.rowState hlt, Bool.or_self]

/-- The scratch of a row is apart from the table, the originals and the sums. -/
theorem ScratchApart.spares {n : Nat} (h : ScratchApart s n) {x : Region}
    (hx : x ∈ descRegion s :: sumRegion s :: originalRegions s s.winCount.toNat 0)
    (hend : x.1 + x.2 ≤ Config.addrSpace) (a : Nat) (ha : x.1 ≤ a ∧ a < x.1 + x.2) :
    ¬ (s.recBase.toNat ≤ a ∧ a < s.recBase.toNat + n) := by
  refine h.outside (x := x) ?_ hend ha
  simp only [List.mem_cons] at hx
  rcases hx with rfl | rfl | hmem
  · simp [aroundScratch]
  · simp [aroundScratch]
  · simp [aroundScratch, hmem]

/-- Buffers apart from every other structure are the place of a row. -/
theorem rowPlace {lp : Nat} (ha : ScratchApart s (2 * a)) (hsums : SumsApart s) (hw : OriginalsFit s)
    (hcount : s.winCount.toNat ≤ 2 ^ 30) (hlp : lp ≤ a) : RowPlace s s.recBase.toNat a lp := by
  obtain ⟨hends, -⟩ := id hsums
  obtain ⟨-, hroom, -⟩ := id ha
  refine ⟨hlp, by simp only [Config.addrSpace]; omega, hends, fun x hx => ?_, fun e hlow hhigh =>
    hw.foldable hcount (fun x hx hend b hb => ?_) hlow hhigh, hcount⟩
  · exact ha.spares (x := sumRegion s) (by simp) hends x hx
  · rintro (hin | hin)
    · exact hsums.spares hx hend b hb hin
    · refine ha.spares (x := x) ?_ hend b hb hin
      simp only [List.mem_cons] at hx ⊢
      exact hx.imp_right Or.inr

end Place

/-! ## The data steps from the state before the command -/

section Row

variable {s : State} {start : BitVec 32} {v : Vector SumCtr 24} {f : List Original} {c : Nat → Nat → SumCtr} {u : Nat}

/-- The row up to its data: what it begins with. -/
theorem siameseRow_run (t : Tables) (hbegin : refreshedSums s = begunState s start v f) : siameseRow t (Run.start s) =
    withScratch s.recBase.toNat (2 * align16 s.winLongest.toNat) (do
      memZero s.recBase.toNat (2 * align16 s.winLongest.toNat)
      siameseData t s.nextRow s.recBase.toNat (s.recBase.toNat + align16 s.winLongest.toNat) s.winLongest.toNat
        s.winFirstElem.toNat s.winCount.toNat) (rowBegins (rowState s start v f) (2 * align16 s.winLongest.toNat)) := by
  have hstate : ({ refreshedSums s with
      nextRow := BitVec.ofNat 32 (((refreshedSums s).nextRow.toNat + 1) % (refreshedSums s).params.rowPeriod) } : State) =
      rowState s start v f := by
    rw [hbegin]
    rfl
  rw [← hstate]
  rfl

/-- The sums that a row begins with: their counters, their lengths and their NE. -/
structure BeginsWith (s : State) (v : Vector SumCtr 24) (c : Nat → Nat → SumCtr) : Prop where
  counters : ∀ l k, l < 8 → k < 3 → (s.withSums v).sum l k = c l k
  within : ∀ l k, l < 8 → k < 3 → (c l k).sl.toNat ≤ s.sumStride.toNat
  low : ∀ l k, l < 8 → k < 3 → 0 ≤ (c l k).ne.toInt

/-- Clearing the scratch leaves no sum folded and both sides zero. -/
theorem denseAt_begins {op : Nat → BitVec 6} {a lp : Nat} {q : Run} {m : Memory}
    (hplain : PlainRun (rowBegins (rowState s start v f) (2 * a))) (hplace : RowPlace s s.recBase.toNat a lp)
    (hc : BeginsWith s v c) (hs : MemStep (rowBegins (rowState s start v f) (2 * a)) q m)
    (hm : Rewritten s.mem m s.recBase.toNat (2 * a) fun _ => 0) : DenseAt s s.recBase.toNat a lp op c 0 q := by
  have hlongest := hplace.longest
  have hnear : Near s (RowBytes s s.recBase.toNat a) (rowState s start v f) := ⟨rfl, rfl, rfl, rfl, rfl, fun _ _ => rfl⟩
  refine ⟨⟨hplain.step hs hm.1, hnear.trans (hs.near fun x hx => hm.read_outside fun hin => hx (Or.inr hin)), fun l k hl hk =>
    .start (hc.within l k hl hk) ?_ (fun b hb => ?_) fun hd => Nat.not_lt_zero _ hd.2⟩, fun b hb => ?_, fun b hb => ?_⟩
  · rw [hs.st]
    exact hc.counters l k hl hk
  · rw [hs.mem]
    exact hm.read_outside (hplace.sum_outside hl hk (hb.trans_le (hc.within l k hl hk)))
  · rw [hs.mem, hm.read_inside (by omega)]
    rfl
  · rw [hs.mem, Nat.add_assoc, hm.read_inside (by omega)]
    rfl

/-- The data steps of the row. -/
theorem siameseRow_step (hu : WindowHolds s u) (hpos : 0 < u) (hbegin : refreshedSums s = begunState s start v f)
    (hplain : PlainRun (rowBegins (rowState s start v f) (2 * align16 s.winLongest.toNat)))
    (hplace : RowPlace s s.recBase.toNat (align16 s.winLongest.toNat) s.winLongest.toNat) (hc : BeginsWith s v c) :
    ∃ q, siameseRow Config.tables (Run.start s) = .ok () q ∧
      FoldsAt Config.tables s (RowBytes s s.recBase.toNat (align16 s.winLongest.toNat)) s.winCount.toNat c
        (fun l k => Selects (Config.rowOpcode (BitVec.ofNat 3 l) s.nextRow) k = true) q ∧
      Reworked (rowState s start v f) q.st ∧
      ∀ b, b < s.winLongest.toNat → q.st.mem.read (s.recBase.toNat + b) =
        sideByte s q.st s.winLongest.toNat u s.nextRow false b ^^^
          gfMul s.params (Config.rowValue s.nextRow) (sideByte s q.st s.winLongest.toNat u s.nextRow true b) := by
  obtain ⟨q1, m, hr1, hs1, hm⟩ := memZero_rewrites hplain.quiet hplain.wf hplace.ends (hplain.closed_range hplace.ends)
  obtain ⟨q, hr, hfolds, hreworked, hbytes⟩ := siameseData_step (u := u) (row := s.nextRow) (denseAt_begins hplain hplace hc hs1 hm)
    hplace hc.low hpos hu.1 (by rw [hs1.st]; rfl)
  refine ⟨q, (siameseRow_run _ hbegin).trans (withScratch_ok ((bind_run_ok hr1).trans hr)), hfolds,
    hs1.reworked.trans hreworked, hbytes⟩

end Row

end Sys2Proof.Machine
end

section
/-! SUPPORT. What a Siamese row leaves and answers (spec R489, R493, R494). -/

namespace Sys2Proof.Machine

section RowEnd

variable {s : State} {start : BitVec 32} {v : Vector SumCtr 24} {f : List Original} {c : Nat → Nat → SumCtr} {u : Nat}

/-- The state with other memory and counters. -/
def State.withLanes (s : State) (m : Memory) (v : Vector SumCtr 24) : State := { s with mem := m, sums := v }

/-- What the row has made of memory and the sums. -/
structure RowLeaves (s : State) (c : Nat → Nat → SumCtr) (u : Nat) (m : Memory) (v : Vector SumCtr 24) : Prop where
  wf : m.wf = true
  sums : ∀ l k, l < 8 → k < 3 → SumAt Config.tables s s.winCount.toNat l k (c l k)
    (Selects (Config.rowOpcode (BitVec.ofNat 3 l) s.nextRow) k = true) (s.withLanes m v)
  bytes : ∀ b, b < s.winLongest.toNat → m.read (s.recBase.toNat + b) =
    sideByte s (s.withLanes m v) s.winLongest.toNat u s.nextRow false b ^^^
      gfMul s.params (Config.rowValue s.nextRow) (sideByte s (s.withLanes m v) s.winLongest.toNat u s.nextRow true b)
  outside : ∀ x, ¬ (s.recBase.toNat ≤ x ∧ x < s.recBase.toNat + 2 * align16 s.winLongest.toNat) → ¬ InSums s x →
    m.read x = s.mem.read x

/-- The state after the row, before its results. -/
def rowDone (s : State) (start : BitVec 32) (v : Vector SumCtr 24) (f : List Original) (m : Memory) (d : Nat) : State :=
  { rowState s start v f with mem := m, draws := d }

/-- The state after the row, with its results. -/
def rowAnswer (s : State) (start : BitVec 32) (v : Vector SumCtr 24) (f : List Original) (m : Memory) (d : Nat) : State :=
  rowResult s.recBase.toNat s.winLongest.toNat 3 s.nextRow.toNat (column s start.toInt).toNat
    ((s.winCount.toNat : Int) - start.toInt).toNat (s.winCount.toNat - s.winFirstElem.toNat) (rowDone s start v f m d)

theorem rowAnswer_eq (hu : s.winFirstElem.toNat + u = s.winCount.toNat) (m : Memory) (d : Nat) : rowAnswer s start v f m d =
    { rowDone s start v f m d with
      res0 := s.recBase
      res1 := BitVec.ofNat 64 (s.winLongest.toNat + 3 * 2 ^ 32)
      res2 := BitVec.ofNat 64 (s.nextRow.toNat + ((s.winColumnStart.toNat + start.toInt) % 2 ^ 22).toNat * 2 ^ 32)
      res3 := BitVec.ofNat 64 (((s.winCount.toNat : Int) - start.toInt).toNat + u * 2 ^ 32) } := by
  obtain rfl : u = s.winCount.toNat - s.winFirstElem.toNat := by omega
  rw [rowAnswer, rowResult_eq, column, BitVec.toNat_ofInt]
  rfl

/-- The whole row: what it leaves, and the state it ends in. -/
theorem siameseBranch_step (hu : WindowHolds s u) (hpos : 0 < u) (hbegin : refreshedSums s = begunState s start v f)
    (hplain : PlainRun (rowBegins (rowState s start v f) (2 * align16 s.winLongest.toNat)))
    (hplace : RowPlace s s.recBase.toNat (align16 s.winLongest.toNat) s.winLongest.toNat) (hc : BeginsWith s v c) :
    ∃ q m v' f' d, siameseBranch Config.tables (Run.start s) = .ok () q ∧
      q.st = rowAnswer s start v' f' m d ∧
      RowLeaves s c u m v' := by
  have hlongest := hplace.longest
  have hends := hplace.ends
  obtain ⟨q, hr, hfolds, ⟨mq, vq, fq, hst⟩, hbytes⟩ := siameseRow_step hu hpos hbegin hplain hplace hc
  have hsumBase := hfolds.near.sumBase
  have hstride := hfolds.near.sumStride
  obtain ⟨q2, hr2, hleft⟩ := forSums_leaveSum hfolds.plain.wf (by rw [hsumBase, hstride]; exact hplace.sums_end)
  obtain ⟨hsums2, hbytes2⟩ := hleft.kept (by
    have hkept := hfolds.plain.kept
    rw [hst] at hkept ⊢
    exact hkept)
  obtain ⟨q3, m, d, hr3, hst3, hm3, hout3⟩ := leaveOpen_step (a := s.recBase.toNat + s.winLongest.toNat)
    (n := 2 * align16 s.winLongest.toNat - s.winLongest.toNat) hleft.wf (by omega)
  have hdone : q3.st = rowDone s start vq fq m d := by
    obtain ⟨m2, v2, d2, hst2⟩ := hleft.st
    have hv2 : v2 = vq := by
      rw [hst2, hst] at hsums2
      exact hsums2
    rw [hst3, hst2, hst, hv2]
    rfl
  have houtside2 : ∀ x, ¬ InSums s x → q2.st.mem.read x = q.st.mem.read x := fun x hx => hleft.outside x (by
    rw [InSums, hsumBase, hstride]
    exact hx)
  have hsame : ∀ l k, l < 8 → k < 3 → SameSum (s.withLanes m vq) q.st l k := fun l k hl hk => by
    have haddr := hfolds.near.sumAddr l k
    have hwithin := (hfolds.sums l k hl hk).within
    refine ⟨haddr.symm, by rw [hst]; rfl, fun b hb => ?_⟩
    have hscratch := hplace.sum_outside (b := b) hl hk (by omega)
    refine (hout3 _ ?_).trans (hbytes2 l k b hl hk hb (by rw [hstride]; omega))
    rw [haddr]
    omega
  refine ⟨{ q3 with st := rowAnswer s start vq fq m d }, m, vq, fq, d, ?_, rfl,
    ⟨hm3, fun l k hl hk => ?_, fun b hb => ?_, fun x hx hin => ?_⟩⟩
  · refine (bind_run_ok (getState_run _)).trans <| (bind_run_ok hr).trans <| (bind_run_ok hr2).trans <|
      (bind_run_ok hr3).trans ((modifyState_run _ q3).trans ?_)
    rw [hdone]
    rfl
  · obtain ⟨-, hsum, hread⟩ := hsame l k hl hk
    rw [hfolds.near.sumAddr] at hread
    exact (hfolds.sums l k hl hk).step Iff.rfl hsum fun b hb _ => hread b hb
  · have hnotsum : ¬ InSums s (s.recBase.toNat + b) := fun hin => hplace.apart _ hin ⟨by omega, by omega⟩
    rw [sideByte_congr hsame, sideByte_congr hsame, ← hbytes b hb]
    exact (hout3 _ (by omega)).trans (houtside2 _ hnotsum)
  · refine (hout3 x (by omega)).trans <| (houtside2 x hin).trans <| hfolds.near.outside x ?_
    rintro (h | h)
    · exact hin h
    · exact hx h

/-! ## Both ways to begin -/

theorem SumCtr.eq_of_fields {x y : SumCtr} (hne : x.ne = y.ne) (hsl : x.sl = y.sl) (hse : x.se = y.se) : x = y := by
  obtain ⟨_, _, _⟩ := x
  obtain ⟨_, _, _⟩ := y
  exact SumCtr.mk.injEq .. ▸ ⟨hne, hsl, hse⟩

/-- The sums of the row begin again at the window, or go on (spec R493). -/
theorem row_begins (htable : TableTrusted s) (hfirst : s.winFirstElem.toNat ≤ 2 ^ 30)
    (h : (sumsStale s = true ∧ start = s.winFirstElem ∧ ∀ l k, l < 8 → k < 3 → (c l k).sl = 0 ∧ (c l k).se = s.winFirstElem ∧
        (c l k).ne.toInt = s.winFirstElem.toNat + ((l : Int) - s.winFirstElem.toNat) % 8) ∨
      (¬ sumsStale s = true ∧ start = s.sumStartElem ∧ (∀ l k, l < 8 → k < 3 → c l k = s.sum l k) ∧ SumsTrusted s ∧
        SumsInBuffers s)) :
    ∃ v f, refreshedSums s = begunState s start v f ∧ BeginsWith s v c := by
  rcases h with ⟨hstale, rfl, hc⟩ | ⟨hstale, rfl, hc, htrusted, hbuffers⟩
  · refine ⟨_, _, refreshedSums_stale htable hstale, fun l k hl hk => ?_, fun l k hl hk => ?_, fun l k hl hk => ?_⟩
    · obtain ⟨hsl, hse, hne⟩ := hc l k hl hk
      have hreset : (s.withSums (sumsResetTo s s.winFirstElem.toNat).sums).sum l k = resetCtr s.winFirstElem.toNat l :=
        sumsResetTo_sum s s.winFirstElem.toNat hl hk
      have hne' : (resetCtr s.winFirstElem.toNat l).ne = (c l k).ne :=
        BitVec.eq_of_toInt_eq ((resetCtr_ne hfirst l).trans hne.symm)
      have hse' : (resetCtr s.winFirstElem.toNat l).se = (c l k).se := by simp [resetCtr, hse]
      have hsl' : (resetCtr s.winFirstElem.toNat l).sl = (c l k).sl := hsl.symm
      exact hreset.trans (SumCtr.eq_of_fields hne' hsl' hse')
    · rw [(hc l k hl hk).1]
      exact Nat.zero_le _
    · rw [(hc l k hl hk).2.2]
      omega
  · exact ⟨_, _, refreshedSums_fresh htrusted hstale, fun l k hl hk => (hc l k hl hk).symm,
      fun l k hl hk => by rw [hc l k hl hk]; exact (hbuffers l hl k hk).2,
      fun l k hl hk => by rw [hc l k hl hk]; exact (hbuffers l hl k hk).1⟩

end RowEnd

/-- Settles O59. The row clears its scratch, folds and adds the selected sums, adds the pairs and combines the sides; none of these
steps writes what another reads of the window, and the ends left open afterwards are none of the row's bytes. -/
theorem rowSiamese : Obligations.RowSiamese := by
  intro s u c start hu hwf hport htable hw hsums hlegal hthreshold hlp ha first count stale hbegins lp row pairs op
  have helem : s.params.elemMax < 65536 := by
    obtain ⟨-, -, -, -, -, -, -, -, -, -, -, -, -, helem, -⟩ := hlegal
    exact helem
  obtain ⟨hcount, hmax⟩ := id hu
  obtain ⟨v, f, hbegin, hc⟩ := row_begins (start := start) (c := c) htable (by omega) (by
    rw [sumsStale_iff]
    exact hbegins)
  obtain ⟨q, m, v', f', d, hrun, hst, hleaves⟩ := siameseBranch_step hu (by omega) hbegin
    (rowBegins_plain hwf hport htable hsums ha) (rowPlace ha hsums hw (by omega) (le_align16 _)) hc
  refine ⟨m, v', f', d, ?_, hleaves.wf, fun l hl k hk => ⟨fun hsel => ?_, fun h h' => ?_⟩, hleaves.bytes, hleaves.outside⟩
  · have hbody := (rowEncodeBody_siameseBranch Config.tables hu hlegal hthreshold hlp ha hsums).trans hrun
    rw [exec_of_ok (i := .rowEncode) hbody, hst, rowAnswer_eq hcount]
    rfl
  · exact (hleaves.sums l k hl hk).folded (Bool.or_eq_true_iff.2 hsel)
  · exact (hleaves.sums l k hl hk).kept (by
      rw [Bool.not_eq_true]
      exact Bool.or_eq_false_iff.2 ⟨h, h'⟩)

end Sys2Proof.Machine
end

section
/-! SUPPORT. CAUCHY_ELEM, the checks of ROW_ENCODE in their order, and the row of a window of one element (spec R481, R491, R495,
R496). -/

namespace Sys2Proof.Machine

/-! ## CAUCHY_ELEM (spec R481, R496) -/

section CauchyElem

variable {s : State} {r y : Byte}

/-- The two points of a Cauchy element, one at or past MAX_CAUCHY_COLS and one below it, differ as bytes. -/
theorem cauchyPoints_ne {cols x z : Nat} (hx : cols + x < 2 ^ 8) (hz : z < cols) : BitVec.ofNat 8 ((cols + x) ^^^ z) ≠ 0 := by
  intro h
  have hzero : ((cols + x) ^^^ z) % 2 ^ 8 = 0 := congrArg BitVec.toNat h
  rw [Nat.mod_eq_of_lt (Nat.xor_lt_two_pow hx (by omega)), Nat.xor_eq_zero_iff] at hzero
  omega

theorem exec_cauchyElem (hr : r.toNat < s.params.maxCauchyRows) (hy : y.toNat < s.params.maxCauchyCols) :
    exec (.cauchyElem r y) s =
      .next (({ s with res0 := (cauchyElement s.params r.toNat y.toNat).setWidth 64 } : State).finish .success) :=
  exec_of_ok (r := Run.start (s.setRes0 ((cauchyElement s.params r.toNat y.toNat).setWidth 64)))
    ((bind_run_ok (getState_run _)).trans (bind_run_ok (rejectIf_unmet (by simp only [start_st]; omega) _ _)))

theorem exec_cauchyElem_rejected (h : r.toNat ≥ s.params.maxCauchyRows ∨ y.toNat ≥ s.params.maxCauchyCols) :
    exec (.cauchyElem r y) s = .next (s.reject .invalidInput .argRange) :=
  exec_of_reject ((bind_run_ok (getState_run _)).trans (rejectIf_bind_met (decide_eq_true h) _ _ _))

end CauchyElem

/-- Settles O55: the element is an inverse in the field, of a byte that is not 0 because the two points differ. -/
theorem cauchyElemResult : Obligations.CauchyElemResult := by
  intro r y s hlegal hfield
  refine ⟨fun hr hy => ⟨cauchyElement s.params r.toNat y.toNat, xmul_gfInv hfield (cauchyPoints_ne ?_ hy),
    exec_cauchyElem hr hy⟩, exec_cauchyElem_rejected⟩
  obtain ⟨-, -, -, -, -, hpoints, -⟩ := hlegal
  omega

/-! ## The checks of ROW_ENCODE (spec R495) -/

section RowChecks

variable {s : State}

theorem exec_rowEncode_badWindow (h : s.winFirstElem.toNat > s.winCount.toNat ∨ s.winCount.toNat > s.params.elemMax) :
    exec .rowEncode s = .next (s.reject .invalidInput .badState) :=
  exec_of_reject ((bind_run_ok (getState_run _)).trans (rejectIf_bind_met (decide_eq_true h) _ _ _))

theorem exec_rowEncode_empty (hu : WindowHolds s 0) : exec .rowEncode s = .next (s.finish .needMoreData) := by
  obtain ⟨hcount, hmax⟩ := hu
  have hwindow : ¬ (s.winFirstElem.toNat > s.winCount.toNat ∨ s.winCount.toNat > s.params.elemMax) := by omega
  have hempty : s.winCount.toNat - s.winFirstElem.toNat = 0 := by omega
  have hrun : rowEncodeBody Config.tables (Run.start s) = .error .needMoreData (Run.start s) :=
    (bind_run_ok (getState_run _)).trans <| (bind_run_ok (rejectIf_unmet hwindow _ _)).trans (congrFun (if_pos hempty) _)
  rw [exec_eq, commandBody, conclude_needMoreData hrun]

/-- The bytes of the scratch before the footer, by the size of the window (spec R486). -/
def rowBytes (s : State) : Nat :=
  if s.winCount.toNat - s.winFirstElem.toNat ≤ s.params.cauchyThreshold then s.winLongest.toNat
  else 2 * align16 s.winLongest.toNat

/-- A row of two or more elements after the checks of its scratch. -/
def rowBranch (t : Tables) (s : State) : Cmd Unit :=
  if s.winCount.toNat - s.winFirstElem.toNat ≤ s.params.cauchyThreshold then cauchyBranch
  else do
    rejectIf (sumsWrap s) .argRange
    siameseBranch t

/-- The checks of a row of two or more elements, the same for both branches but for the scratch that they need. -/
def rowChecked (t : Tables) (s : State) : Cmd Unit := do
  rejectIf (decide (s.winLongest.toNat > s.params.maxGfLen)) .argRange
  rejectIf (decide (s.recCap.toNat < rowBytes s + s.params.footerMax)) .scratchSmall
  rejectIf (wraps s.recBase.toNat (rowBytes s + s.params.footerMax)) .argRange
  rowBranch t s

theorem rowEncodeBody_checked {u : Nat} (t : Tables) (hu : WindowHolds s u) (h2 : 2 ≤ u) :
    rowEncodeBody t (Run.start s) = rowChecked t s (Run.start s) := by
  obtain ⟨hcount, hmax⟩ := hu
  have hwindow : ¬ (s.winFirstElem.toNat > s.winCount.toNat ∨ s.winCount.toNat > s.params.elemMax) := by omega
  have hempty : ¬ s.winCount.toNat - s.winFirstElem.toNat = 0 := by omega
  have hsingle : ¬ s.winCount.toNat - s.winFirstElem.toNat = 1 := by omega
  refine (bind_run_ok (getState_run _)).trans <| (bind_run_ok (rejectIf_unmet hwindow _ _)).trans <|
    (congrFun (if_neg hempty) _).trans <| (congrFun (if_neg hsingle) _).trans ?_
  rw [rowChecked, rowBytes, rowBranch]
  by_cases hcauchy : s.winCount.toNat - s.winFirstElem.toNat ≤ s.params.cauchyThreshold
  · rw [if_pos hcauchy, if_pos hcauchy]
    exact congrArg (fun body : Cmd Unit => (rejectIf _ _ >>= fun _ => body) _) (if_pos hcauchy)
  · rw [if_neg hcauchy, if_neg hcauchy]
    exact congrArg (fun body : Cmd Unit => (rejectIf _ _ >>= fun _ => body) _) (if_neg hcauchy)

/-- A row of two or more elements is rejected where its checks are. -/
theorem exec_rowEncode_rejected {u : Nat} {e : ErrorBit} (hu : WindowHolds s u) (h2 : 2 ≤ u)
    (h : rowChecked Config.tables s (Run.start s) = .error (.reject e) (Run.start s)) :
    exec .rowEncode s = .next (s.reject .invalidInput e) := exec_of_reject ((rowEncodeBody_checked _ hu h2).trans h)

variable (t : Tables)

theorem rowChecked_longest (h : s.winLongest.toNat > s.params.maxGfLen) :
    rowChecked t s (Run.start s) = .error (.reject .argRange) (Run.start s) := rejectIf_bind_met (decide_eq_true h) _ _ _

theorem rowChecked_small (hlp : ¬ s.winLongest.toNat > s.params.maxGfLen)
    (h : s.recCap.toNat < rowBytes s + s.params.footerMax) :
    rowChecked t s (Run.start s) = .error (.reject .scratchSmall) (Run.start s) :=
  (bind_run_ok (rejectIf_unmet hlp _ _)).trans (rejectIf_bind_met (decide_eq_true h) _ _ _)

/-- A scratch past the data space and, in the Siamese branch, sum buffers past it are answered alike. -/
theorem rowChecked_past (hlp : ¬ s.winLongest.toNat > s.params.maxGfLen)
    (hcap : ¬ s.recCap.toNat < rowBytes s + s.params.footerMax)
    (h : s.recBase.toNat + (rowBytes s + s.params.footerMax) > Config.addrSpace ∨
      s.params.cauchyThreshold < s.winCount.toNat - s.winFirstElem.toNat ∧ sumsWrap s = true) :
    rowChecked t s (Run.start s) = .error (.reject .argRange) (Run.start s) := by
  refine (bind_run_ok (rejectIf_unmet hlp _ _)).trans <| (bind_run_ok (rejectIf_unmet hcap _ _)).trans ?_
  by_cases hwraps : s.recBase.toNat + (rowBytes s + s.params.footerMax) > Config.addrSpace
  · exact rejectIf_bind_met (decide_eq_true hwraps) _ _ _
  · obtain ⟨hthreshold, hsums⟩ := h.resolve_left hwraps
    exact (bind_run_ok (rejectIf_unmet hwraps _ _)).trans <|
      (congrFun (if_neg (Nat.not_le.2 hthreshold)) _).trans (rejectIf_bind_met hsums _ _ _)

end RowChecks

/-- Settles O56: each check in its turn, with those before it not met. -/
theorem rowEncodeChecks : Obligations.RowEncodeChecks := by
  intro s hlegal u lp need
  obtain ⟨-, -, -, -, -, -, -, -, -, -, -, -, -, -, hgf, -, -, hfooter, -⟩ := hlegal
  have hneed : need = rowBytes s + s.params.footerMax := by
    rw [hfooter, rowBytes, ite_add]
  refine ⟨exec_rowEncode_badWindow, fun hfirst hmax => ?_⟩
  have hu : WindowHolds s u := ⟨Nat.add_sub_cancel' hfirst, hmax⟩
  rw [hneed, ← hgf]
  refine ⟨fun hempty => exec_rowEncode_empty (hempty ▸ hu), fun h2 hlp => ?_, fun h2 hlp hcap => ?_, fun h2 hlp hcap hpast => ?_⟩
  · exact exec_rowEncode_rejected hu h2 (rowChecked_longest _ hlp)
  · exact exec_rowEncode_rejected hu h2 (rowChecked_small _ (Nat.not_lt.2 hlp) hcap)
  · exact exec_rowEncode_rejected hu h2 (rowChecked_past _ (Nat.not_lt.2 hlp) (Nat.not_lt.2 hcap)
      (hpast.imp_right (And.imp_right (sumsWrap_iff s).2)))

/-! ## The row of a window of one element (spec R491) -/

section RowSingle

variable {s : State} {q : Run}

/-- No memory operation changes whether a run goes on past fatal causes. -/
theorem memStable_skip (b : Bool) : MemStable fun r => r.skip = b :=
  ⟨fun _ h => h, fun _ _ _ h => h, fun _ _ h => h, fun _ _ h => h, fun _ _ _ _ h => h⟩

/-- A closed descriptor of a table that the host has kept is read as memory holds it, and nothing else is done. -/
theorem readDesc_shut (e : Int) (hq : Quiet q) (hkept : q.st.tableTainted = false) (h : Shut q (descAddr q.st e) 12) :
    ∃ q', readDesc e q = .ok (keptDesc q.st e) q' ∧ ReadStep q q' ∧ q'.skip = q.skip := by
  obtain ⟨q₁, haddr, hr₁⟩ := memRead_shut (n := 8) hq (h.head (by omega))
  obtain ⟨q₂, hlen, hr₂⟩ := memRead_shut (n := 4) (hr₁.quiet hq) ((h.part (k := 8) (by omega)).after hr₁)
  have hr := hr₁.trans hr₂
  have hrun : readDesc e q = .ok (keptDesc q.st e) q₂ := by
    rw [readDesc, bind_run_ok (getState_run q), bind_run_ok haddr, bind_run_ok hlen,
      bind_run_ok (anyOpen_shut (hr.quiet hq) (h.after hr)), if_neg (by rw [hkept]; exact Bool.false_ne_true), hr₁.st,
      leValue_bytesAt, leValue_bytesAt]
    rfl
  exact ⟨q₂, hrun, hr, (keeps_readDesc (memStable_skip q.skip) e q rfl).1 _ _ hrun⟩

/-- The original of the window's first element, as its descriptor says. -/
abbrev firstOriginal (s : State) : Nat × Nat := descAt s s.winFirstElem.toNat

/-- The results of the row of the window's first element in `s`. -/
def singleResult (s : State) : State → State :=
  rowResult (firstOriginal s).1 (firstOriginal s).2 0 0 (column s s.winFirstElem.toNat).toNat 1 1

theorem singleResult_eq (s x : State) : singleResult s x = { x with
    res0 := BitVec.ofNat 64 (firstOriginal s).1
    res1 := BitVec.ofNat 64 (firstOriginal s).2
    res2 := BitVec.ofNat 64 ((s.winColumnStart.toNat + s.winFirstElem.toNat) % 2 ^ 22 * 2 ^ 32)
    res3 := 0x0000000100000001#64 } := by
  rw [singleResult, rowResult, State.setRes, Nat.zero_add, column_toNat, Nat.mul_comm (2 ^ 32) (_ % _)]
  rfl

/-- The row of one element after it has read the descriptor. -/
def singleRest (s : State) : Cmd Unit := do
  fatalIf (wraps (firstOriginal s).1 (firstOriginal s).2) .busError
  modifyState (singleResult s)

theorem singleRow_eq : singleRow = (do
    modifyState recheckTable
    let s ← getState
    let d ← readDesc s.winFirstElem.toNat
    fatalIf (wraps d.addr d.len) .busError
    modifyState (rowResult d.addr d.len 0 0 (column s s.winFirstElem.toNat).toNat 1 1)) := by
  simp only [singleRow, rowDesc, bind_assoc, pure_bind]

/-- The run has done no more than to check a table that the host has kept, and to read. -/
structure TableChecked (q q' : Run) : Prop where
  st : q'.st = { q.st with pending := [] }
  skip : q'.skip = q.skip
  writes : q'.writes = q.writes

/-- So far comes the row of one element before its own check. -/
theorem singleRow_run (htable : TableTrusted q.st) (hopens : q.opens = []) (harea : ∀ a, q.area a = false)
    (hport : Ordinary q.st (descAddr q.st q.st.winFirstElem.toNat) 12) :
    ∃ q', singleRow q = singleRest q.st q' ∧ TableChecked q q' := by
  have hchecked := recheckTable_of_trusted htable
  obtain ⟨hraced, hkept, -⟩ := htable
  obtain ⟨q', hrun, hs, hskip⟩ := readDesc_shut (q := { q with st := { q.st with pending := [] } }) q.st.winFirstElem.toNat
    ⟨hraced, hopens⟩ hkept fun i hi => ⟨hport i hi, harea _⟩
  have hdesc : ∀ e, keptDesc { q.st with pending := [] } e = keptDesc q.st e := fun _ => rfl
  rw [hdesc] at hrun
  refine ⟨q', ?_, hs.st, hskip, hs.writes⟩
  rw [singleRow_eq, bind_run_ok (modifyState_run _ _), hchecked, bind_run_ok (getState_run _), bind_run_ok hrun]
  rfl

/-- An original that ends inside the data space: the command answers where it is. -/
theorem exec_rowEncode_single (hu : WindowHolds s 1) (htable : TableTrusted s)
    (hport : Ordinary s (descAddr s s.winFirstElem.toNat) 12)
    (hends : wraps (firstOriginal s).1 (firstOriginal s).2 = false) :
    exec .rowEncode s = .next ((singleResult s { s with pending := [] }).finish .success) := by
  obtain ⟨q', hrun, hchecked⟩ := singleRow_run (q := Run.start s) htable rfl (fun _ => rfl) hport
  have hst : q'.st = { s with pending := [] } := hchecked.st
  rw [← hst]
  refine exec_of_ok (i := .rowEncode) (r := { q' with st := singleResult s q'.st })
    ((rowEncodeBody_single _ hu).trans (hrun.trans ?_))
  rw [singleRest, start_st, hends, bind_run_ok (fatalIf_false _ _), modifyState_run]

/-- A fatal end is the state so far when the run that goes on past it writes no byte and draws no value. -/
theorem exec_of_clean_fatal {i : Instr} {x : ErrorBit} {r : Run} (hrun : commandBody i (Run.start s) = .error (.fatal x) r)
    (hwrites : (wouldRun (commandBody i) s).writes = []) (hdraws : (wouldRun (commandBody i) s).st.draws = r.st.draws) :
    exec i s = .next (r.st.fatal x) := by
  rw [exec_eq, conclude_fatal hrun, cutOff, hwrites, List.take_nil, openList, hdraws, Nat.max_self]

/-- An original that wraps: the run that goes on past it sets the result registers only. -/
theorem exec_rowEncode_singleWraps (hu : WindowHolds s 1) (htable : TableTrusted s)
    (hport : Ordinary s (descAddr s s.winFirstElem.toNat) 12)
    (hwraps : wraps (firstOriginal s).1 (firstOriginal s).2 = true) :
    exec .rowEncode s = .next (({ s with pending := [] } : State).fatal .busError) := by
  obtain ⟨q, hrun, hchecked⟩ := singleRow_run (q := Run.start s) htable rfl (fun _ => rfl) hport
  obtain ⟨w, hpast, hwchecked⟩ := singleRow_run
    (q := { Run.start { s with port := s.port.filter (fun p => p.kind == .device) } with skip := true })
    htable rfl (fun _ => rfl) fun i hi p hp => hport i hi p (List.mem_filter.1 hp).1
  have hst : q.st = { s with pending := [] } := hchecked.st
  have hfatal : commandBody .rowEncode (Run.start s) = .error (.fatal .busError) q := by
    refine (rowEncodeBody_single _ hu).trans (hrun.trans (bind_run_error ?_))
    rw [start_st, hwraps, fatalIf_true _ hchecked.skip]
  have hwould : wouldRun (commandBody .rowEncode) s = { w with st := singleResult s w.st } := by
    rw [wouldRun, commandBody, rowEncodeBody_single _ hu, hpast, singleRest, bind_run_ok (fatalIf_skip _ _ hwchecked.skip),
      modifyState_run]
    rfl
  have hdraws : (singleResult s w.st).draws = q.st.draws := by
    rw [hst, hwchecked.st]
    rfl
  rw [exec_of_clean_fatal hfatal (by rw [hwould]; exact hwchecked.writes) (by rw [hwould]; exact hdraws), hst]

end RowSingle

/-- Settles O57: the command only reads the descriptor; where the original wraps, it has written nothing that a bus error could
leave open. -/
theorem rowSingle : Obligations.RowSingle := by
  intro s hu htable hport d column
  refine ⟨fun hends => ?_, fun hends => exec_rowEncode_singleWraps hu htable hport (decide_eq_true hends)⟩
  rw [exec_rowEncode_single hu htable hport (decide_eq_false (Nat.not_lt.2 hends)), singleResult_eq]

end Sys2Proof.Machine
end

section
/-! SUPPORT. The one end of every command (spec R560, R561), that no step stops (R568), and the host's stores to the CSR window
while a command runs (R542). -/

namespace Sys2Proof.Machine

variable {s t : State} {i : Instr} {rest : List HostAction} {offset : Nat} {v : Word}

/-! ## The one end of a command (spec R560, R561, R568) -/

/-- The result codes that the block produces (spec R560). -/
def producedCodes : List ResultCode := [.success, .invalidInput, .needMoreData, .disabled]

theorem code_of_mem_producedCodes : ∀ c ∈ producedCodes,
    c.code = 0x00#8 ∨ c.code = 0xFF#8 ∨ c.code = 0xFE#8 ∨ c.code = 0xFB#8 := by decide

theorem exec_cmd (h : exec i s = .next t) : t.cmd = s.cmd := by
  obtain ⟨-, ⟨-, -, hcmd, -⟩, -⟩ := commandFrame i s t h
  exact hcmd

/-- Every command comes to a `finish` with a code of R560, in a state that still holds the word that started it. -/
theorem exec_finishes (h : exec i s = .next t) :
    ∃ (u : State) (c : ResultCode), c ∈ producedCodes ∧ u.cmd = s.cmd ∧ t = u.finish c := by
  have hcmd := exec_cmd h
  rcases exec_ends h with ⟨u, -, rfl⟩ | ⟨e, rfl⟩ | rfl | ⟨u, e, -, -, rfl⟩
  · exact ⟨u, .success, by decide, hcmd, rfl⟩
  · exact ⟨s.raise e, .invalidInput, by decide, rfl, rfl⟩
  · exact ⟨s, .needMoreData, by decide, rfl, rfl⟩
  · exact ⟨({ u with disabled := true } : State).raise e, .disabled, by decide, hcmd, rfl⟩

theorem exec_nop (s : State) : exec .nop s = .next (s.finish .success) := exec_of_ok (r := Run.start s) rfl

theorem hostAct_answers (s : State) (a : HostAction) : ∃ t, hostAct s a = .next t := by
  cases a with
  | letRun =>
    rw [hostAct]
    split
    · exact ⟨_, runCommand_afterCommand s⟩
    · exact ⟨s, rfl⟩
  | _ => exact ⟨_, rfl⟩

theorem safeStep (s : State) : SafeStep s := by
  rcases step_cases s with ⟨a, rest, -, hs⟩ | ⟨-, -, hs⟩ | ⟨-, -, hs⟩
  · obtain ⟨t, ht⟩ := hostAct_answers { s with inbox := rest } a
    exact ⟨t, hs.trans ht⟩
  · exact ⟨_, hs.trans (runCommand_afterCommand s)⟩
  · exact ⟨s, hs⟩

/-- Settles O7: the end of every command is a `finish`, which sets the fields the statement names. -/
theorem everyCommandEnds : Obligations.EveryCommandEnds := by
  refine ⟨exec_nop, fun i s => ?_, safeStep⟩
  have hexec := exec_eq i s
  obtain ⟨u, c, hc, hcmd, hend⟩ := exec_finishes hexec
  rw [hend] at hexec
  refine ⟨u.finish c, hexec, rfl, rfl, ?_, code_of_mem_producedCodes c hc⟩
  rw [State.finish_lastOpcode, hcmd]

/-! ## Stores while BUSY (spec R542) -/

theorem csrStoreEffect_cmd_busy (h : s.busy = true) (v : Word) : csrStoreEffect s 0x020 v = s.raise .writeWhileBusy :=
  if_pos h

theorem csrStoreEffect_config_busy (h : s.busy = true) (ho : offset ∈ configOffsets) (v : Word) :
    csrStoreEffect s offset v = s.raise .writeWhileBusy := by
  obtain ⟨s', hc⟩ := configStore_isSome s v ho
  rw [csrStoreEffect_some hc, if_pos h]

theorem step_store_busy (hb : s.busy = true) (h : s.inbox = .csrStore (s.params.csrBase + offset) 8 v :: rest)
    (ho : offset ∈ 0x020 :: configOffsets) : step s = .next ((s.withInbox rest).raise .writeWhileBusy) := by
  rcases List.mem_cons.1 ho with rfl | hconfig
  · rw [step_csrStore h (by decide) (by decide), csrStoreEffect_cmd_busy (s := s.withInbox rest) hb]
  · obtain ⟨hlt, h8⟩ := configOffsets_aligned hconfig
    rw [step_csrStore h hlt h8, csrStoreEffect_config_busy (s := s.withInbox rest) hb hconfig]

/-- Whatever an abandoned command leaves open, both resets end in `resetBlock` (spec R600). -/
theorem resetNow_ends (s : State) :
    (resetNow s).busy = false ∧ (resetNow s).result = 0x00#8 ∧ (resetNow s).irqPending = false := by
  obtain ⟨u, -, hreset⟩ := resetNow_eq s
  rw [hreset]
  exact ⟨rfl, rfl, rfl⟩

/-- Settles O14, register by register of R542. -/
theorem writeWhileBusy : Obligations.WriteWhileBusy := by
  intro s offset v rest hb h
  refine ⟨step_store_busy hb h, ?_, ?_, ?_, ?_⟩
  · rintro rfl
    exact step_csrStore h (by decide) (by decide)
  · rintro rfl
    exact step_csrStore h (by decide) (by decide)
  · rintro rfl hkept
    rw [step_csrStore h (by decide) (by decide), csrStoreEffect_control _ hkept]
    rfl
  · rintro rfl hreset
    refine ⟨resetNow (s.withInbox rest), ?_, resetNow_ends _⟩
    rw [step_csrStore h (by decide) (by decide), csrStoreEffect_softReset _ hreset]

end Sys2Proof.Machine
end

section
/-! SUPPORT. The exceptions: a reject changes nothing but the fields of its end (spec R563), DISABLED stays until a reset (R566,
R567), and IRQ_PENDING with the interrupt line (R570, R571). -/

namespace Sys2Proof.Machine

variable {s t : State} {i : Instr} {offset : Nat} {v : Word}

/-! ## Rejects (spec R563) -/

/-- Of the ends of a command, a reject alone gives InvalidInput. -/
theorem exec_invalidInput (h : exec i s = .next t) (hr : t.result = 0xFF#8) : ∃ e, t = s.reject .invalidInput e := by
  rcases exec_ends h with ⟨u, -, rfl⟩ | hreject | rfl | ⟨u, e, -, -, rfl⟩
  · simp at hr
  · exact hreject
  · simp at hr
  · simp at hr

/-- Settles O8. -/
theorem rejectIsPrecise : Obligations.RejectIsPrecise := fun _ _ _ h hr => exec_invalidInput h hr

/-! ## DISABLED (spec R566, R567) -/

/-- A store changes the block only as an aligned 64-bit store to an offset of the window (spec R30, R544). -/
theorem csrStore_cases (s : State) (addr width : Nat) (v : Word) : csrStore s addr width v = s ∨
    ∃ offset, addr = s.params.csrBase + offset ∧ width = 8 ∧ csrStore s addr width v = csrStoreEffect s offset v := by
  unfold csrStore
  split
  · rename_i offset ho
    have haddr : addr = s.params.csrBase + offset := by
      unfold csrOffset at ho
      split at ho
      · have := Option.some.inj ho
        omega
      · cases ho
    split
    · rename_i hok
      obtain ⟨hwidth, -⟩ := csrAccessOk_iff.1 hok
      exact .inr ⟨offset, haddr, hwidth, rfl⟩
    · exact .inl rfl
  · exact .inl rfl

/-- No store to a register changes DISABLED but one of SOFT_RESET, a store to STATUS or ERROR included. -/
theorem csrStoreEffect_disabled (s : State) (h : offset = 0x010 → v.getLsbD 1 = false) :
    (csrStoreEffect s offset v).disabled = s.disabled := by
  by_cases ho : offset ∈ [0x008, 0x010, 0x018, 0x020]
  · simp only [List.mem_cons, List.not_mem_nil, or_false] at ho
    rcases ho with rfl | rfl | rfl | rfl
    · rfl
    · rw [csrStoreEffect_control s (h rfl)]
    · rfl
    · cases hb : s.busy with
      | true => rw [csrStoreEffect_cmd_busy hb, State.raise_disabled]
      | false => rw [csrStoreEffect_cmd hb, startCommand_disabled]
  · cases hc : configStore s offset v with
    | none => rw [csrStoreEffect_none ho hc]
    | some s' =>
      have hkept : s'.disabled = s.disabled := configStore_leaves (k := State.disabled) (fun _ => rfl) hc
      rw [csrStoreEffect_some hc]
      split
      · rfl
      · exact hkept

theorem hostMemStore_disabled (s : State) (a : Nat) (bytes : List Byte) : (hostMemStore s a bytes).disabled = s.disabled := by
  have herased := congrArg State.disabled (hostMemStore_hostErased s a bytes)
  exact herased

theorem reclaimRegion_disabled (s : State) (addr : Nat) : (reclaimRegion s addr).disabled = s.disabled := by
  unfold reclaimRegion
  split <;> rfl

/-- An action of the host or of the platform leaves a DISABLED block DISABLED, unless it is one of the two sources of reset
(spec R600). -/
theorem hostAct_disabled {a : HostAction} (h : hostAct s a = .next t) (hd : s.disabled = true) (hplatform : a ≠ .platformReset)
    (hsoft : ∀ v, v.getLsbD 1 = true → a ≠ .csrStore (s.params.csrBase + 0x010) 8 v) : t.disabled = true := by
  cases a with
  | csrStore addr width v =>
    cases h
    rcases csrStore_cases s addr width v with hs | ⟨offset, rfl, rfl, hs⟩ <;> rw [hs]
    · exact hd
    · refine (csrStoreEffect_disabled s fun ho => ?_).trans hd
      subst ho
      exact Bool.eq_false_iff.2 fun hv => hsoft v hv rfl
  | csrLoad addr width =>
    cases h
    exact hd
  | memStore addr bytes =>
    cases h
    exact (hostMemStore_disabled s addr.toNat bytes).trans hd
  | memLoad addr =>
    cases h
    exact hd
  | letRun =>
    rw [hostAct, runCommand_disabled hd] at h
    split at h <;> cases h <;> exact hd
  | platformReset => exact absurd rfl hplatform
  | reclaim addr =>
    cases h
    exact (reclaimRegion_disabled s addr.toNat).trans hd

/-- Settles O11. -/
theorem disabledIsTerminal : Obligations.DisabledIsTerminal := by
  refine ⟨fun s hd hb hi => (step_end hi hb).trans (runCommand_disabled hd), fun s t hd h hplatform hsoft => ?_⟩
  rcases step_cases s with ⟨a, rest, hi, hs⟩ | ⟨-, -, hs⟩ | ⟨-, -, hs⟩ <;> rw [hs] at h
  · exact hostAct_disabled (s := { s with inbox := rest }) h hd (fun ha => hplatform rest (ha ▸ hi))
      fun v hv ha => hsoft v rest hv (ha ▸ hi)
  · rw [runCommand_disabled hd] at h
    cases h
    exact hd
  · cases h
    exact hd

/-! ## The interrupt line (spec R570, R571) -/

/-- A finish raises the line if the host has enabled it. -/
@[simp] theorem irqLine_finish (s : State) (c : ResultCode) : irqLine (s.finish c) = s.irqEn := rfl

theorem exec_irqEn (h : exec i s = .next t) : t.irqEn = s.irqEn := by
  obtain ⟨-, ⟨-, hirqEn, -⟩, -⟩ := commandFrame i s t h
  exact hirqEn

/-- A running command of any word comes to a `finish`, and leaves IRQ_EN. -/
theorem runCommand_finishes (s : State) :
    ∃ (u : State) (c : ResultCode), runCommand s = .next (u.finish c) ∧ u.irqEn = s.irqEn := by
  rcases runCommand_cases s with ⟨-, hr⟩ | ⟨-, -, hr⟩ | ⟨-, -, hr⟩ | ⟨i, -, -, hr⟩
  · exact ⟨s.raise .disabledCmd, .disabled, hr, rfl⟩
  · exact ⟨s.raise .illegalOpcode, .invalidInput, hr, rfl⟩
  · exact ⟨s.raise .reservedField, .invalidInput, hr, rfl⟩
  · have hexec := exec_eq i s
    obtain ⟨u, c, -, -, hend⟩ := exec_finishes hexec
    have hirqEn := exec_irqEn hexec
    rw [hend] at hr hirqEn
    exact ⟨u, c, hr, hirqEn⟩

/-- A store to STATUS (spec R32, R570). -/
theorem csrStoreEffect_status (s : State) (v : Word) :
    csrStoreEffect s 0x008 v = { s with irqPending := if v.getLsbD 2 then false else s.irqPending } := by
  have hpending : (s.irqPending && !v.getLsbD 2) = if v.getLsbD 2 then false else s.irqPending := by
    cases v.getLsbD 2
    · exact Bool.and_true _
    · exact Bool.and_false _
  rw [← hpending]
  rfl

/-- Settles O12. -/
theorem interruptLine : Obligations.InterruptLine := by
  refine ⟨fun s => ?_, fun s v rest h => ⟨_, step_csrStore h (by decide) (by decide), fun hv => ?_, ?_⟩⟩
  · obtain ⟨u, c, hr, hirqEn⟩ := runCommand_finishes s
    exact ⟨u.finish c, hr, rfl, (irqLine_finish u c).trans hirqEn⟩
  · rw [csrStoreEffect_status, if_pos hv]
    rfl
  · rw [csrStoreEffect_status]
    rfl

end Sys2Proof.Machine
end

section
/-! SUPPORT. A reset while a command runs (spec R600, R601): what the abandoned command can leave of the memory, and that no
command takes a slab window out of the host's books. -/

namespace Sys2Proof.Machine

/-! ## The windows in the host's books (spec R601, U20) -/

/-- The host's books hold the listed windows. -/
def BooksHold (l : List Region) (s : State) : Prop := ∀ x ∈ l, x ∈ s.windowsLive

/-- The command takes none of the listed windows out of the books, whatever way it ends. -/
abbrev KeepsBooks (l : List Region) {α : Type} (c : Cmd α) : Prop := Keeps (fun r => BooksHold l r.st) c

section Books

variable {l : List Region} {α : Type}

/-- A change of the state that leaves the books. -/
theorem keepsBooks_modify {f : State → State} (hf : ∀ s, (f s).windowsLive = s.windowsLive) :
    KeepsBooks l (modifyState f) := keeps_modifyState fun r h x hx => by
  rw [hf]
  exact h x hx

/-- Of the allocator's operations those that leave the windows leave the books. -/
theorem Confined.keepsBooks {c : Cmd α} (h : Confined allocErased id c) : KeepsBooks l c :=
  h.frame.keeps (Q := BooksHold l) fun _ => rfl

theorem migrate_windowsLive (s : State) (x : Nat) : (migrate s x).windowsLive = s.windowsLive := by
  simp only [migrate]
  split <;> rfl

theorem foldl_migrate_windowsLive (s : State) (xs : List Nat) : (xs.foldl migrate s).windowsLive = s.windowsLive := by
  induction xs generalizing s with
  | nil => rfl
  | cons x xs ih => exact (ih _).trans (migrate_windowsLive s x)

theorem post_windowsLive (s : State) (w u : Nat) (scanned : List Nat) :
    (post s w u scanned).windowsLive = s.windowsLive := by
  unfold post
  split
  · rfl
  · exact foldl_migrate_windowsLive s _

theorem promote_windowsLive (s : State) (x : Nat) : (promote s x).windowsLive = s.windowsLive := by
  simp only [promote]
  split <;> rfl

theorem releaseRun_windowsLive (s : State) (slot st u : Nat) :
    (releaseRun s slot st u).windowsLive = s.windowsLive := promote_windowsLive _ slot

theorem keepsBooks_carvePost (w st u : Nat) (scanned : List Nat) :
    KeepsBooks l (do let p ← carve w st u; modifyState fun s => post s w u scanned; pure p) := by
  have hcarve : KeepsBooks l (carve w st u) :=
    keeps_withState fun _ _ => keeps_bind (keepsBooks_modify fun _ => rfl) fun _ =>
      keeps_bind (confined_slabWrite _ _).keepsBooks fun _ => keeps_bind (confined_handOut _).keepsBooks fun _ => keeps_pure _
  exact keeps_bind hcarve fun _ => keeps_bind (keepsBooks_modify fun s => post_windowsLive s w u scanned) fun _ => keeps_pure _

/-- A new window joins the books: the one change that the block makes to them (spec R359). -/
theorem keepsBooks_newWindow : KeepsBooks l newWindow := by
  refine keeps_withState fun r _ => ?_
  cases lowestDead r.st r.st.params.nwMax 0 with
  | none => exact keeps_stop _
  | some i =>
    exact keeps_bind (confined_hostAllocOrFail _).keepsBooks fun _ =>
      keeps_bind (keeps_modifyState fun _ h x hx => List.mem_cons_of_mem _ (h x hx)) fun _ => keeps_pure i

theorem keepsBooks_allocSmall (u : Nat) : KeepsBooks l (allocSmall u) := by
  refine keeps_withState fun r _ => ?_
  obtain ⟨_ | ⟨w, st⟩, scanned⟩ := walkPref r.st u r.st.prefList []
  · exact keeps_bind keepsBooks_newWindow fun w => keepsBooks_carvePost w 0 u scanned
  · exact keepsBooks_carvePost w st u scanned

theorem keepsBooks_alloc (b : Nat) : KeepsBooks l (alloc b) :=
  keeps_withState fun _ _ => keeps_ite (fun _ => (confined_allocLarge _).keepsBooks) fun _ => keepsBooks_allocSmall _

theorem keepsBooks_doFree (a : Allocation) : KeepsBooks l (doFree a) := by
  refine keeps_withState fun _ _ => keeps_bind (keepsBooks_modify fun _ => rfl) fun _ => ?_
  cases a with
  | large h u =>
    exact keeps_bind (confined_slabWrite _ _).keepsBooks fun _ => keeps_bind (confined_takeBack _).keepsBooks fun _ =>
      (confined_hostFree h).keepsBooks
  | slab slot st h u =>
    exact keeps_bind (confined_slabWrite _ _).keepsBooks fun _ => keeps_bind (confined_takeBack _).keepsBooks fun _ =>
      keepsBooks_modify fun s => releaseRun_windowsLive s slot st u

theorem keepsBooks_grow (slot st h u u2 : Nat) : KeepsBooks l (grow slot st h u u2) :=
  keeps_withState fun _ _ => keeps_bind (keepsBooks_modify fun _ => rfl) fun _ =>
    keeps_bind (confined_slabWrite _ _).keepsBooks fun _ =>
      keeps_bind (keepsBooks_modify fun s => post_windowsLive s slot u2 []) fun _ => keeps_pure _

theorem keepsBooks_moveRegion (old : Allocation) (ptr b : Nat) (copy : Bool) :
    KeepsBooks l (moveRegion old ptr b copy) := by
  refine keeps_withState fun _ _ => keeps_bind (keepsBooks_alloc b) fun p => ?_
  have hfree : KeepsBooks l (do doFree old; pure p) := keeps_bind (keepsBooks_doFree old) fun _ => keeps_pure p
  exact keeps_ite (fun _ => keeps_bind (confined_copyPayload _ _ _ _).keepsBooks fun _ => hfree) fun _ => hfree

theorem keepsBooks_enlarge (a : Allocation) (ptr b u2 : Nat) (copy : Bool) :
    KeepsBooks l (enlarge a ptr b u2 copy) := by
  refine keeps_withState fun r _ => ?_
  cases a with
  | large h u => exact keepsBooks_moveRegion _ ptr b copy
  | slab slot st h u =>
    cases canGrow r.st u2 (.slab slot st h u) with
    | true => exact keepsBooks_grow slot st h u u2
    | false => exact keepsBooks_moveRegion _ ptr b copy

theorem keepsBooks_resultPointer (p : Word) : KeepsBooks l (resultPointer p) :=
  keeps_bind (confined_allocatorResult p).keepsBooks fun _ => keepsBooks_modify fun _ => rfl

theorem keepsBooks_allocChecked (b : Nat) : KeepsBooks l (allocChecked b) :=
  keeps_bind (confined_requestCheck b).keepsBooks fun _ => keeps_bind (keepsBooks_alloc b) fun p => keepsBooks_resultPointer p

theorem keepsBooks_slabFreeBody : KeepsBooks l slabFreeBody :=
  keeps_withState fun _ _ => keeps_ite (fun _ => keeps_pure ()) fun _ =>
    keeps_bind (confined_checkPointer _).keepsBooks fun a => keepsBooks_doFree a

theorem keepsBooks_slabReallocBody (copy : Bool) : KeepsBooks l (slabReallocBody copy) :=
  keeps_withState fun _ _ => keeps_ite (fun _ => keepsBooks_allocChecked _) fun _ =>
    keeps_bind (confined_requestCheck _).keepsBooks fun _ => keeps_bind (confined_checkPointer _).keepsBooks fun a =>
      keeps_ite (fun _ => keepsBooks_resultPointer _) fun _ =>
        keeps_bind (keepsBooks_enlarge a _ _ _ copy) fun p => keepsBooks_resultPointer p

/-- A frame, results left out of account, keeps what depends on that part alone. -/
theorem Frame.keeps_view {p g : State → State} {Q : State → Prop} {c : Cmd α} (h : Frame p g c) (hp : Ignores p Q)
    (hg : Ignores g Q) : Keeps (fun r => Q r.st) c := by
  intro r hr
  have hc := h r
  refine ⟨fun a r' hok => ?_, fun x r' hstop => ?_⟩
  · rw [hok] at hc
    have hview : g (p r'.st) = g (p r.st) := hc
    rwa [← hp r'.st, ← hg (p r'.st), hview, hg, hp]
  · rw [hstop] at hc
    rwa [← hp r'.st, hc.1, hp]

/-- No command takes a window out of the books: those of the slab allocator can only add one, the others leave them. -/
theorem keepsBooks_commandBody (i : Instr) : KeepsBooks l (commandBody i) := by
  by_cases hi : isSlabCommand i = true
  · cases i with
    | slabAlloc => exact keeps_withState fun _ _ => keepsBooks_allocChecked _
    | slabFree => exact keepsBooks_slabFreeBody
    | slabRealloc copy => exact keepsBooks_slabReallocBody copy
    | _ => cases hi
  · exact (commandBody_frame i).keeps_view (Q := BooksHold l)
      (Ignores.command (fun _ => rfl) (fun _ => rfl) (fun _ _ => rfl) (fun _ _ => rfl) fun h => absurd h hi) fun _ => rfl

end Books

/-! ## The run that the abandoned command would have made -/

section Running

variable {s : State}

/-- What a command keeps, the run that it would make has. -/
theorem Keeps.wouldRun {P : Run → Prop} {body : Cmd Unit} (h : Keeps P body)
    (hstart : P { Run.start { s with port := s.port.filter (fun p => p.kind == .device) } with skip := true }) :
    P (wouldRun body s) := by
  obtain ⟨hok, herror⟩ := h _ hstart
  unfold Machine.wouldRun
  split
  · exact hok _ _ ‹_›
  · exact herror _ _ ‹_›

/-- While BUSY either a command runs, or none of the block's can: DISABLED, or a word that is no command (spec R163, R566). -/
theorem runningCommand_cases (s : State) :
    runningCommand s = Run.start s ∨ ∃ i, runningCommand s = wouldRun (commandBody i) s := by
  unfold runningCommand
  split
  · exact .inl rfl
  · split
    · exact .inl rfl
    · exact .inr ⟨_, rfl⟩

theorem runningCommand_writes_lt (hwf : s.mem.wf = true) {a : Nat} (ha : a ∈ (runningCommand s).writes) :
    a < Config.addrSpace := by
  rcases runningCommand_cases s with hr | ⟨i, hr⟩ <;> rw [hr] at ha
  · exact absurd ha List.not_mem_nil
  · exact ((contained_wouldRun (contained_commandBody i) hwf).writes a ha).1

theorem runningCommand_booksHold (s : State) : BooksHold s.windowsLive (runningCommand s).st := by
  rcases runningCommand_cases s with hr | ⟨i, hr⟩ <;> rw [hr]
  · exact fun _ hx => hx
  · exact (keepsBooks_commandBody i).wouldRun (P := fun r => BooksHold s.windowsLive r.st) fun _ hx => hx

end Running

/-! ## The reset (spec R600) -/

theorem openList_eq (as : List Nat) (s : State) : ∃ m d, openList as s = { s with mem := m, draws := d } := by
  induction as generalizing s with
  | nil => exact ⟨s.mem, s.draws, rfl⟩
  | cons a as ih => exact ih (openByte s a)

section Abandon

variable {s : State} (w : Run)

/-- An abandoned command shows after the reset only in the memory, the books of the host and the count of free values. -/
theorem abandon_eq (s : State) : ∃ m a f l b d, s.abandon w = { s.resetBlock with
    mem := m, allocAnswers := a, hostFrees := f, largeLive := l, windowsLive := b, draws := d } := by
  obtain ⟨m, d, hopen⟩ := openList_eq w.writes { s with draws := max s.draws w.st.draws }
  unfold State.abandon
  rw [hopen]
  exact ⟨_, _, _, _, _, _, rfl⟩

theorem abandon_booksHold {l : List Region} (hs : BooksHold l s) (hw : BooksHold l w.st) : BooksHold l (s.abandon w) := by
  intro x hx
  simp only [State.abandon, State.resetBlock_windowsLive]
  split
  · exact hw x hx
  · rw [Ignores.openList (k := State.windowsLive) fun _ => rfl]
    exact hs x hx

theorem abandon_read {x : Nat} (hwf : s.mem.wf = true) (hlt : ∀ a ∈ w.writes, a < Config.addrSpace) (hx : x ∉ w.writes) :
    (s.abandon w).mem.read x = s.mem.read x := by
  refine openList_read (s := { s with draws := max s.draws w.st.draws }) hwf fun a ha hxa => hx ?_
  rwa [hxa, Nat.mod_eq_of_lt (hlt a ha)]

end Abandon

theorem resetNow_busy {s : State} (h : s.busy = true) : resetNow s = s.abandon (runningCommand s) := if_pos h

/-- Both sources of reset come to `resetNow` (spec R600). -/
theorem step_reset {s : State} {rest : List HostAction} (h : s.inbox = .platformReset :: rest ∨
    ∃ v : Word, v.getLsbD 1 = true ∧ s.inbox = .csrStore (s.params.csrBase + 0x010) 8 v :: rest) :
    step s = .next (resetNow (s.withInbox rest)) := by
  rcases h with h | ⟨v, hv, h⟩
  · rw [step_inbox h, hostAct]
  · rw [step_csrStore h (by decide) (by decide), csrStoreEffect_softReset _ hv]

/-- Settles O19: the bytes opened are those of the footprint, which lies inside the data space, and the run that the command
would have made has only added windows to the books. -/
theorem abandonedCommand : Obligations.AbandonedCommand := by
  intro s rest hb hwf h
  obtain ⟨-, hresult, hirq⟩ := resetNow_ends (s.withInbox rest)
  refine ⟨_, step_reset h, hresult, hirq, ?_⟩
  rw [resetNow_busy (s := s.withInbox rest) hb]
  exact ⟨abandon_eq _ _,
    abandon_booksHold (s := s.withInbox rest) _ (fun _ hx => hx)
      (runningCommand_booksHold (s.withInbox rest)),
    fun x hx => abandon_read _ hwf (fun a ha => runningCommand_writes_lt (s := s.withInbox rest) hwf ha) hx⟩

end Sys2Proof.Machine
end
